-- ==== Sys2Proof/Word.lean ====
section
/-! DEFINITION. The word types of the Wirbex 4160: what the manual treats as bits. -/

namespace Sys2Proof

/-- One character's data, or one byte of system memory. -/
abbrev Byte := BitVec 8

/-- A 16-bit count or revision (00, Counts). -/
abbrev Half := BitVec 16

/-- A 32-bit register, count or panel-clock time. -/
abbrev Word := BitVec 32

/-- A turn, 0 to 7, advancing modulo 8 (R48). -/
abbrev Turn := BitVec 3

/-- A line address, 0 to 31 (R177). -/
abbrev LineAddress := BitVec 5

/-- A station entry, 0 to 15. -/
abbrev Entry := Fin 16

end Sys2Proof
end

