-- ==== Sys2Proof/Syntax.lean ====
section
/-! DEFINITION. The commands of the block: one constructor for each row of spec/opcode_table.json, with its operands.
Register writes carry the byte lanes written and the 32 bits on the bus (R163); a completed read carries its bytes
(R152); a received character carries its bits as sampled (R3). -/

namespace Sys2Proof

/-- The commands: what reaches the block from outside, and its own timers running out. -/
inductive Instr where
  /-- FULL_RESET: power-on or assertion of the reset line (R174). -/
  | fullReset
  /-- RESET_RELEASE: release of the reset line (R174). -/
  | resetRelease
  /-- START: code 1 written to COMMAND (R164, R167). -/
  | start
  /-- STOP: code 2 written to COMMAND (R164, R169, R170). -/
  | stop
  /-- SWEEP: code 3 written to COMMAND (R164, R142). -/
  | sweep
  /-- CLEAR_FAULT: code 4 written to COMMAND (R164, R172). -/
  | clearFault
  /-- UNDEFINED_COMMAND: a write to COMMAND of a code that names no command (R126, R164). -/
  | undefinedCommand (lanes : BitVec 4) (value : Word)
  /-- EXBASE_LO_WRITE (R165). -/
  | exbaseLoWrite (lanes : BitVec 4) (value : Word)
  /-- EXBASE_HI_WRITE (R165). -/
  | exbaseHiWrite (lanes : BitVec 4) (value : Word)
  /-- CAUSE_WRITE: write one to clear (R123). -/
  | causeWrite (lanes : BitVec 4) (value : Word)
  /-- MASK_WRITE (R124). -/
  | maskWrite (lanes : BitVec 4) (value : Word)
  /-- OTHER_REGISTER_WRITE: STATE, FAULT_ADDR_LO, FAULT_ADDR_HI or an unused offset of the window (R163). -/
  | otherRegisterWrite (offset : BitVec 6) (lanes : BitVec 4) (value : Word)
  /-- PANEL_CLOCK_ADVANCE: one millisecond (R173). -/
  | panelClockAdvance
  /-- CHARACTER_RECEIVED: the sample of the stop bit; the bits as sampled, `true` for a 1, which is the idle level
  (R2, R3, R4). -/
  | characterReceived (data : Byte) (parityBit stopBit : Bool)
  /-- PAIR_RETURNS_TO_REST (R5, R15). -/
  | pairReturnsToRest
  /-- PAIR_LEAVES_REST (R3, R15). -/
  | pairLeavesRest
  /-- FRAME_SENT: the end of the last stop bit of a downlink frame (R7). -/
  | frameSent
  /-- REPLY_WINDOW_EXPIRY (R8). -/
  | replyWindowExpiry
  /-- INTER_CHARACTER_LIMIT_EXPIRY (R10). -/
  | interCharacterLimitExpiry
  /-- DISCARD_PERIOD_END (R11). -/
  | discardPeriodEnd
  /-- QUIET_GAP_EXPIRY (R12). -/
  | quietGapExpiry
  /-- BUSY_LIMIT_EXPIRY (R14). -/
  | busyLimitExpiry
  /-- CLEAR_TEST_EXPIRY (R15). -/
  | clearTestExpiry
  /-- STOP_LIMIT_EXPIRY (R17). -/
  | stopLimitExpiry
  /-- CYCLE_TIMER_EXPIRY (R44). -/
  | cycleTimerExpiry
  /-- TIME_MARK_DUE (R46). -/
  | timeMarkDue
  /-- SWEEP_TIMER_EXPIRY (R142). -/
  | sweepTimerExpiry
  /-- RELEASED_COUNT_READ_COMPLETE, with the 4 bytes read (R144). -/
  | releasedCountReadComplete (data : List Byte)
  /-- LIVE_PART_READ_COMPLETE, with the 12 bytes read (R145). -/
  | livePartReadComplete (data : List Byte)
  /-- IMAGE_FETCH_COMPLETE, with the 20 bytes read (R89, R91). -/
  | imageFetchComplete (data : List Byte)
  /-- START_READ_COMPLETE, with the 64 or 44 bytes read (R167). -/
  | startReadComplete (data : List Byte)
  /-- RECORD_TAKEN (R111). -/
  | recordTaken
  /-- STOP_DRAIN_LIMIT_EXPIRY (R120). -/
  | stopDrainLimitExpiry
  /-- STATUS_WRITE_COMPLETE (R153). -/
  | statusWriteComplete
  /-- RECORD_WRITE_COMPLETE (R153). -/
  | recordWriteComplete
  /-- MARK_WRITE_COMPLETE (R113). -/
  | markWriteComplete
  /-- HOLD_OFF_EXPIRY (R130). -/
  | holdOffExpiry
  /-- BUS_ERROR_RESPONSE to the transaction in flight (R158). -/
  | busErrorResponse
  /-- MEMORY_ACCESS_TIMEOUT of the transaction in flight (R151, R158). -/
  | memoryAccessTimeout
  /-- LATE_ERROR_RESPONSE to the transaction abandoned at the latest fault (R160). -/
  | lateErrorResponse
  /-- LATE_COMPLETION of the transaction abandoned at the latest fault (R160). -/
  | lateCompletion
  /-- START_BIT_CONFIRMED: the sample half a bit time after an edge, which confirms a start bit or finds a false
  start (R3). -/
  | startBitConfirmed
  /-- RECEIVER_ARMED: one full bit time of rest seen (R3). -/
  | receiverArmed
deriving DecidableEq, Repr

end Sys2Proof
end

