-- ==== Sys2Proof/Decode.lean ====
section
/-! DEFINITION. Decoding of the opcode table's bits. spec/opcode_table.json gives none of its 43 rows any bits ("fields"
is empty in each), so no word spells a command (log entry 20). -/

namespace Sys2Proof

/-- The command that the `nbits` bits of `w` spell by the table: none, since no row of the table gives bits. -/
def decodeTableWord (_nbits _w : Nat) : Option Instr := none

end Sys2Proof
end

