-- ==== Sys2Proof/Machine/Operands.lean ====
section
/-! DEFINITION. Operand forms: register writes on byte lanes, the bytes of a transaction, and saturating counts. Byte
order is decided here once: every field of several bytes is least significant byte first (R176). -/

namespace Sys2Proof.Machine

/-- The bits of a register that a write on some byte lanes carries (R163). -/
def laneMask (lanes : BitVec 4) : Word :=
  (if lanes.getLsbD 3 then 0xFF000000#32 else 0#32) ||| (if lanes.getLsbD 2 then 0x00FF0000#32 else 0#32) |||
  (if lanes.getLsbD 1 then 0x0000FF00#32 else 0#32) ||| (if lanes.getLsbD 0 then 0x000000FF#32 else 0#32)

/-- A narrow write is taken as a write of the whole register, with the bytes not written taken as 0 (R163). -/
def laneValue (lanes : BitVec 4) (value : Word) : Word := value &&& laneMask lanes

/-- The codes of START, STOP, SWEEP and CLEAR_FAULT (R164). -/
def namesCommand (code : Word) : Bool :=
  code == 1#32 || code == 2#32 || code == 3#32 || code == 4#32

/-- The window offsets of OTHER_REGISTER_WRITE: the three read-only registers and the offsets that hold no register
(R163). -/
def otherOffset (offset : BitVec 6) : Bool :=
  offset == 0x0C#6 || offset == 0x18#6 || offset == 0x1C#6 || decide (0x20 ≤ offset.toNat)

/-- Byte `i` of a block of bytes. -/
def byteAt (bytes : List Byte) (i : Nat) : Byte := bytes.getD i 0#8

/-- The 16-bit field at byte `i` (R176). -/
def halfAt (bytes : List Byte) (i : Nat) : Half := byteAt bytes (i + 1) ++ byteAt bytes i

/-- The 32-bit field at byte `i` (R176). -/
def wordAt (bytes : List Byte) (i : Nat) : Word := halfAt bytes (i + 2) ++ halfAt bytes i

/-- The 64-bit field at byte `i` (R176). -/
def longAt (bytes : List Byte) (i : Nat) : BitVec 64 := wordAt bytes (i + 4) ++ wordAt bytes i

/-- The two bytes of a 16-bit field, least significant first (R176). -/
def halfBytes (x : Half) : List Byte := [x.extractLsb' 0 8, x.extractLsb' 8 8]

/-- The four bytes of a 32-bit field, least significant first (R176). -/
def wordBytes (x : Word) : List Byte :=
  [x.extractLsb' 0 8, x.extractLsb' 8 8, x.extractLsb' 16 8, x.extractLsb' 24 8]

/-- A flag field written by the block holds 1 when set and 0 when clear (R176). -/
def flagByte (b : Bool) : Byte := if b then 1#8 else 0#8

/-- Unused bytes inside a write, written as 0 (R176). -/
def zeroBytes (n : Nat) : List Byte := List.replicate n 0#8

/-- Add 1 to a saturating count: it stops at its largest value (00, Counts). -/
def satInc {w : Nat} (x : BitVec w) : BitVec w := if x = BitVec.allOnes w then x else x + 1#w

/-- Add `n` to a saturating count (00, Counts). -/
def satAdd {w : Nat} (x : BitVec w) (n : Nat) : BitVec w :=
  if x.toNat + n < 2 ^ w then BitVec.ofNat w (x.toNat + n) else BitVec.allOnes w

/-- The forward distance from `d` to `r`, modulo 65,536 (R59, R98). -/
def forward (r d : Half) : Nat := (r - d).toNat

end Sys2Proof.Machine
end

