-- ==== Sys2Proof/Config.lean ====
section
/-! DEFINITION. What the implementation fixes, and the free values: constants of the manual's tables, and the three
open values the manual leaves (each an opaque constant with no body). -/

namespace Sys2Proof.Config

/-- FREE VALUE (log entry 5). Whether byte `index` of the write that draw `draw` concerns reached memory, where the
write ended in an error response, the timeout or a full reset: it may have changed none, some or all of its bytes
(R151, R161). -/
opaque byteReached (draw index : Nat) : Bool

/-- FREE VALUE (log entry 6). Whether four character times have passed since the last stop bit sent, at the completion
of a stray character for which the reply window's expiry waited (R8), where the settings leave both possible. -/
opaque gapPassed (draw : Nat) : Bool

/-- FREE VALUE (log entry 9). Whether the part of a millisecond before the first advance of the panel clock in DISTURBED
and the part after the last come to less than one millisecond, so that the whole milliseconds spent there are one fewer
than the advances (R15). -/
opaque cutShort (draw : Nat) : Bool

/-- The five line rates in bits per second, by line rate code (R1). -/
def bitRate (code : Nat) : Nat :=
  match code with
  | 0 => 19200
  | 1 => 38400
  | 2 => 57600
  | 3 => 115200
  | _ => 230400

/-- Bit times of one character: start bit, eight data bits, parity bit, stop bit (R2). -/
def characterBits : Nat := 11

/-- The inter-character limit, in character times (R10, section 1.2). -/
def interCharacterChars : Nat := 2

/-- The quiet gap, in character times (R12, section 1.2). -/
def quietGapChars : Nat := 4

/-- The clear test, in character times of continuous rest (R15, section 1.2). -/
def clearTestChars : Nat := 10

/-- The busy limit, in milliseconds (R14). -/
def busyLimitMs : Nat := 20

/-- The stop limit, in milliseconds (R17). -/
def stopLimitMs : Nat := 20

/-- The period of the time marks, in milliseconds (R46). -/
def markPeriodMs : Nat := 1000

/-- The most characters the receive holding stage holds (R4). -/
def holdingMax : Nat := 4

/-- The most events the staging queue holds (R104). -/
def stagingMax : Nat := 32

/-- The most entries the write queue holds (R153). -/
def writesMax : Nat := 8

/-- The consecutive WAIT that counts as a miss (R51). -/
def waitsPerMiss : Nat := 16

/-- The longest forward distance of a counter pair (R59, R98, R146). -/
def forwardMax : Nat := 32767

/-- The lead character of every frame (R19). -/
def lead : Byte := 0xC3#8

/-- Kind code of a POLL frame (section 11.2). -/
def kindPoll : Byte := 0x11#8
/-- Kind code of a SET frame (section 11.2). -/
def kindSet : Byte := 0x12#8
/-- Kind code of a SOUND frame (section 11.2). -/
def kindSound : Byte := 0x13#8
/-- Kind code of a RESET-STATION frame (section 11.2). -/
def kindResetStation : Byte := 0x14#8
/-- Kind code of a TIME MARK frame (section 11.2). -/
def kindTimeMark : Byte := 0x15#8
/-- Kind code of a SNAP frame (section 11.2). -/
def kindSnap : Byte := 0x21#8
/-- Kind code of a WAIT frame (section 11.2). -/
def kindWait : Byte := 0x22#8

/-- The longest payload of a frame (R9, R19). -/
def payloadMax : Nat := 24

/-- The bytes of the exchange area that the journal ring must not share, 0x000 to 0x8FF (R107, R167). -/
def exchangeAreaBytes : Nat := 0x900

/-- Offset of the released count in the control block (R178). -/
def releasedOffset : Nat := 0x078

/-- Offset of the controller-written part of the control block (R178). -/
def markOffset : Nat := 0x080

/-- Offset of station entry `e` in the exchange area (R133, section 11.4). -/
def entryOffset (e : Entry) : Nat := 0x100 + 128 * e.val

/-- Offset of the live part in a station entry (R179). -/
def liveOffset : Nat := 0x20

/-- Offset of the image block in a station entry (R179). -/
def imageOffset : Nat := 0x2C

/-- Offset of the status block in a station entry (R179). -/
def statusOffset : Nat := 0x40

end Sys2Proof.Config
end

