-- ==== Sys2Proof/Machine/State.lean ====
section
/-! DEFINITION. The state of the block as plain data: each unit's records in a structure of its own, the queue of
waiting commands, and the state after reset. Each field names the rule of spec/ that gives it. -/

namespace Sys2Proof.Machine

/-- Reasons a step stops with a fault: none. The spec gives the block no way to stop the model: a bus fault is the run
state FAULTED (R158, R172), a next state. -/
inductive Fault
deriving DecidableEq, Repr

/-- Reasons a command has no meaning. -/
inductive Refusal where
  /-- Raised by an arm of `exec` whose command has no meaning yet; no arm raises it now. Safe: the model stops. -/
  | notModelled (mnemonic : String)
deriving DecidableEq, Repr

/-! ### Timers -/

/-- The length of a timer, in milliseconds or in character times (01, section 1.2). -/
inductive Span where
  | ms (n : Nat)
  | chars (n : Nat)
deriving DecidableEq, Repr

/-- A running timer: the panel clock at its start and its length (R173). -/
structure Timer where
  since : Word
  span : Span
deriving DecidableEq, Repr

/-! ### Run Control -/

/-- The five run states (R162). -/
inductive RunState where
  | halted | starting | running | stopping | faulted
deriving DecidableEq, Repr

/-- The reasons of the STATE register (R166, R167). -/
inductive Reason where
  | none | layoutVersion | rate | parameter | stationCount | geometry | address | duplicateAddress | indicatorCount
  | journalSize | journalAlign | journalOverlap | releaseNotZero
deriving DecidableEq, Repr

/-- The start-time fields of the control block, held for the run (R134, R135). -/
structure Settings where
  lineRate : Nat
  responseWindow : Nat
  retryLimit : Nat
  missLimit : Nat
  searchDivisor : Nat
  cycleMinimum : Nat
  sweepPeriod : Nat
  ambiguityReport : Nat
  journalBase : BitVec 64
  journalCapacity : Nat
  threshold : Nat
  holdOff : Nat
  stopDrainLimit : Nat
  stationCount : Nat
deriving DecidableEq, Repr

/-- The result of one start fetch: the revision and image accepted, or none where it was torn (R89). -/
structure StartFetch where
  entry : Entry
  accepted : Option (Half × List Byte)
deriving DecidableEq, Repr

/-- What is read in STARTING until it is checked and handed to the units (R167, R175): the blocks of the 18 start reads
in their order, and the results of the start fetches. -/
structure StartImage where
  blocks : List (List Byte)
  fetches : List StartFetch
deriving DecidableEq, Repr

/-- Run Control's state (R162 to R175). -/
structure RunControl where
  /-- The reset line is held asserted (R174). -/
  resetAsserted : Bool
  state : RunState
  reason : Reason
  /-- Reason detail (R166). -/
  detail : Byte
  /-- The MULTIPLE flag (R160, R166). -/
  multiple : Bool
  /-- The panel clock (R173). -/
  clock : Word
  exbaseLo : Word
  exbaseHi : Word
  startImage : StartImage
  /-- STOP was accepted in STARTING and a read in flight runs to its end (R169). -/
  startAbandoned : Bool
  /-- The settings of the run, none held before the first start (R122, R132, R150). -/
  settings : Option Settings
deriving DecidableEq, Repr

/-! ### Interrupt Unit -/

/-- The Interrupt Unit's state: CAUSE, MASK and the hold-off timer (R123, R124, R130). -/
structure Interrupt where
  cause : BitVec 5
  mask : BitVec 5
  holdOff : Option Timer
deriving DecidableEq, Repr

/-! ### Line Engine -/

/-- The six line states (01, section 1.2). -/
inductive LineState where
  | idle | sending | awaiting | receiving | quiet | disturbed
deriving DecidableEq, Repr

/-- The receiver: off (R18), disarmed until one bit time of rest, armed, an edge seen and not yet sampled, or a
character in reception (R3). -/
inductive Receiver where
  | off | disarmed | armed | edgeSeen | inReception
deriving DecidableEq, Repr

/-- The reply window; its expiry is held while a confirmed start bit is in reception (R8). -/
inductive ReplyWindow where
  | stopped
  | running (timer : Timer)
  | expiryHeld
deriving DecidableEq, Repr

/-- A complete character with its two check results (R3). -/
structure RxChar where
  data : Byte
  parityError : Bool
  framingError : Bool
deriving DecidableEq, Repr

/-- A send request: the frame's characters, whether a reply is expected, the station entry it serves or none for a
TIME MARK, and the expected turn of its exchange (section 1.2, R29). -/
structure SendRequest where
  frame : List Byte
  expectsReply : Bool
  serves : Option Entry
  expected : Turn
deriving DecidableEq, Repr

/-- The Line Engine's state (R3 to R18). -/
structure Line where
  state : LineState
  /-- RECEIVING is in its discard period (R11). -/
  discard : Bool
  receiver : Receiver
  /-- The level of the pair: at rest, or driven active (section 1.1). -/
  pairAtRest : Bool
  sendPlace : Option SendRequest
  busy : Option Timer
  reply : ReplyWindow
  interChar : Option Timer
  /-- The rest measured in the discard period (R11 step 4). -/
  discardRest : Option Timer
  quietGap : Option Timer
  clearTest : Option Timer
  stopLimit : Option Timer
  /-- The receive holding stage, oldest first (R4). -/
  holding : List RxChar
  /-- The frame assembler's characters, in order of arrival (R9). -/
  assembler : List Byte
  /-- The stray-character count (R13). -/
  stray : Half
  /-- The line disturbed flag (R14, R15). -/
  disturbed : Bool
  /-- Panel clock at the last stop bit sent (R8). -/
  sentAt : Word
  /-- Panel clock at the last stop bit received (R10). -/
  lastStopAt : Word
  /-- Advances of the panel clock since the latest entry to DISTURBED, counted while there up to 65,536 (R15; log entry
  9). -/
  disturbedMs : Nat
  /-- The line has been reported settled in this stop (R17). -/
  settled : Bool
deriving DecidableEq, Repr

/-! ### Poll Scheduler -/

/-- The link states (R38). -/
inductive LinkState where
  | disabled | searching | syncing | online
deriving DecidableEq, Repr

/-- The sync steps (R38). -/
inductive SyncStep where
  | reset | image
deriving DecidableEq, Repr

/-- The state from which a sync began (R38). -/
inductive SyncOrigin where
  | searching | online
deriving DecidableEq, Repr

/-- The kinds of order, each carrying a turn of its own (R48). -/
inductive OrderKind where
  | set | sound | resetStation
deriving DecidableEq, Repr

/-- The outstanding command: its kind and turn. The content of a SET or SOUND is in the output record, that of a
RESET-STATION is the geometry (R38). -/
structure Outstanding where
  kind : OrderKind
  turn : Turn
deriving DecidableEq, Repr

/-- The eleven counters of a station link record (R62). -/
structure Counters where
  visits : Half
  ok : Half
  noReply : Half
  charError : Half
  truncated : Half
  badCrc : Half
  badFormat : Half
  wrongAddress : Half
  turnMismatch : Half
  waits : Half
  timesLost : Half
deriving DecidableEq, Repr

/-- A station link record (R38). -/
structure Link where
  state : LinkState
  step : Option SyncStep
  origin : Option SyncOrigin
  nextTurn : Turn
  lastAcked : Turn
  outstanding : Option Outstanding
  holdUntil : Option Word
  /-- Consecutive miss count. -/
  misses : Nat
  /-- Consecutive WAIT count. -/
  waits : Nat
  resyncRequest : Half
  resyncDone : Half
  sampledResync : Option Half
  localFault : Bool
  sounderActive : Bool
  disablePending : Bool
  statusChanged : Bool
  countersChanged : Bool
  counters : Counters
deriving DecidableEq, Repr

/-- The visit in progress: the station, the request that every try of it makes, and the tries made (R47, R49). -/
structure Visit where
  entry : Entry
  request : SendRequest
  tries : Nat
deriving DecidableEq, Repr

/-- The cycle timer (R44). -/
inductive CycleTimer where
  | stopped
  | running (timer : Timer)
  | expired
deriving DecidableEq, Repr

/-- Cycle control, visit control and mark control of the Poll Scheduler (R43 to R49). -/
structure Scheduler where
  cycleNumber : Word
  cycleInProgress : Bool
  cycleTimer : CycleTimer
  /-- The lowest entry index that the walk has not passed (R44, R45). -/
  nextIndex : Nat
  markDue : Bool
  markTimer : Option Timer
  visit : Option Visit
deriving DecidableEq, Repr

/-! ### Contact Table -/

/-- The states of a contact: UNKNOWN, OPEN, CLOSING, CLOSED, OPENING (R65). -/
inductive ContactState where
  | unknown | opened | closing | closed | opening
deriving DecidableEq, Repr

/-- A contact record (R65). `lastKnown` is `some true` for closed, `some false` for open, none until it first
settles. -/
structure Contact where
  /-- Contact index: row times 8 plus column. -/
  index : Fin 64
  state : ContactState
  lastKnown : Option Bool
  changeStart : Word
  ambiguous : Bool
  ambiguityStart : Word
  reported : Bool
  recovery : Bool
  extended : Bool
deriving DecidableEq, Repr

/-- The Contact Table's records and settings of one station (R65, R66). -/
structure ContactTable where
  rows : Nat
  columns : Nat
  closeDebounce : Nat
  openDebounce : Nat
  diodeIsolated : Bool
  /-- One record for each contact of the geometry, in ascending contact index. -/
  records : List Contact
  bounces : Half
deriving DecidableEq, Repr

/-! ### Output Unit -/

/-- The content of an outstanding SET (R86). -/
structure OutSet where
  revision : Option Half
  payload : List Byte
deriving DecidableEq, Repr

/-- The content of an outstanding SOUND (R86). -/
structure OutSound where
  pattern : Byte
  satisfied : Half
  collapsed : Half
deriving DecidableEq, Repr

/-- An output record (R86). -/
structure Output where
  indicatorCount : Nat
  fetchedRevision : Option Half
  /-- Sixteen bytes, two bits for each of sixty-four lamps (R177). -/
  fetchedImage : List Byte
  applied : Half
  outSet : Option OutSet
  sounderRequest : Half
  sounderPattern : Byte
  sounderDone : Half
  outSound : Option OutSound
  /-- The revision the fetch in flight was requested for (R90). -/
  fetchInFlight : Option Half
  fetchDiscard : Bool
  tornReads : Half
deriving DecidableEq, Repr

/-! ### One station entry -/

/-- What the units hold for one station entry: whether it takes part in the run (R133), its line address (R19), its
link, contact and output records, and the Exchange Unit's remembered invalid counts (R147). -/
structure Station where
  takesPart : Bool
  address : LineAddress
  link : Link
  contacts : ContactTable
  output : Output
  rememberedSounder : Option Half
  rememberedResync : Option Half
deriving DecidableEq, Repr

/-! ### Journal Unit -/

/-- The reason of a STATION_DOWN (R114). -/
inductive DownReason where
  | lost | disabled
deriving DecidableEq, Repr

/-- The outcome of a SOUNDER_DONE (R114). -/
inductive SounderOutcome where
  | sent | rejected | discarded
deriving DecidableEq, Repr

/-- The kinds of event with their detail (R106, R114). LOSS is formed from a gap and is never an event (R104). -/
inductive EventBody where
  | runStart (capacity stations : Nat)
  | runStop (cycle : Word)
  | contactClosed (index : Fin 64) (afterRecovery extended : Bool)
  | contactOpened (index : Fin 64) (afterRecovery extended : Bool)
  | contactAmbiguous (index : Fin 64) (set : Bool)
  | stationUp
  | stationDown (reason : DownReason)
  | stationFault (set : Bool)
  | resyncDone (count : Half)
  | outputApplied (revision : Half)
  | sounderDone (outcome : SounderOutcome) (collapsed : Half)
  | lineDisturbed
  | lineClear (milliseconds : Half)
  | hostValue (field : Byte)
deriving DecidableEq, Repr

/-- An event: kind and detail, station entry or none, time of production (section 6.1). -/
structure Event where
  body : EventBody
  station : Option Entry
  time : Word
deriving DecidableEq, Repr

/-- Four loss counts, one for each event class (R104). -/
structure Gap where
  contact : Half
  station : Half
  output : Half
  control : Half
deriving DecidableEq, Repr

/-- An entry of the staging queue: an event and the gap before it (R104). -/
structure Staged where
  event : Event
  gap : Gap
deriving DecidableEq, Repr

/-- The stop drain (R118 to R121). -/
inductive Drain where
  | notBegun | running | ended
deriving DecidableEq, Repr

/-- The Journal Unit's state (R104 to R122). -/
structure Journal where
  /-- The staging queue, oldest first. -/
  staging : List Staged
  openGap : Gap
  written : Word
  view : Word
  announced : Word
  unannounced : Half
  discarded : Word
  drain : Drain
  drainTimer : Option Timer
deriving DecidableEq, Repr

/-! ### Exchange Unit -/

/-- The Exchange Unit's state, but for what it remembers for a station (R142 to R150). -/
structure Exchange where
  sweepTimer : Option Timer
  sweepInFlight : Bool
  sweepAgain : Bool
  sweepCount : Word
  rememberedReleased : Option Word
deriving DecidableEq, Repr

/-! ### Memory Port -/

/-- The reads (R151): start read `i` of the eighteen, the released count, a live part, an image block. -/
inductive Read where
  | start (i : Nat)
  | released
  | live (e : Entry)
  | image (e : Entry)
deriving DecidableEq, Repr

/-- The entries of the write queue (R153). -/
inductive WriteEntry where
  | status (e : Entry)
  | record (slot : Nat) (bytes : List Byte)
  | mark (covered : Word) (urgent : Bool)
deriving DecidableEq, Repr

/-- The transaction in flight: what it is, the address of its first byte, and a write's bytes, fixed at its start
(R151, R153). -/
inductive Transaction where
  | read (what : Read) (address : Nat)
  | write (what : WriteEntry) (address : Nat) (bytes : List Byte)
deriving DecidableEq, Repr

/-- The two kinds between which the arbiter chooses (R156). -/
inductive Direction where
  | read | write
deriving DecidableEq, Repr

/-- A MARK request that found the write queue full (R155). -/
structure HeldMark where
  covered : Word
  urgent : Bool
deriving DecidableEq, Repr

/-- The Memory Port's state (R151 to R161). -/
structure Port where
  /-- The read request list, oldest first. -/
  reads : List Read
  /-- The write queue, oldest first; a write in flight is its head. -/
  writes : List WriteEntry
  inFlight : Option Transaction
  /-- The status owed marks. -/
  owed : Vector Bool 16
  heldMark : Option HeldMark
  lastServed : Direction
  /-- FAULT_ADDR_HI and FAULT_ADDR_LO. -/
  faultAddr : BitVec 64
  /-- The transaction abandoned at the latest fault, where the bus may still answer it (R160; log entry 21). -/
  abandoned : Option Transaction
deriving DecidableEq, Repr

/-! ### The whole block -/

/-- The state of the block. -/
structure State where
  /-- The commands that are waiting, first in, first out. -/
  pending : List Instr
  run : RunControl
  irq : Interrupt
  line : Line
  sched : Scheduler
  stations : Vector Station 16
  /-- The controller-wide torn-read count, held by the Output Unit (R86, R92). -/
  tornReads : Half
  journal : Journal
  exch : Exchange
  port : Port
  /-- What the block's own completed writes have left in system memory, by ascending address (log entry 4). -/
  memory : List Host.Cell
  /-- How many free values have been drawn (the model's own field). -/
  draws : Nat
deriving DecidableEq, Repr

/-! ### Values after reset -/

/-- Run Control after a full reset, with the reset line released (R174, R175). -/
def RunControl.reset : RunControl where
  resetAsserted := false
  state := .halted
  reason := .none
  detail := 0#8
  multiple := false
  clock := 0#32
  exbaseLo := 0#32
  exbaseHi := 0#32
  startImage := ⟨[], []⟩
  startAbandoned := false
  settings := none

/-- The Interrupt Unit after a full reset (R132). -/
def Interrupt.reset : Interrupt where
  cause := 0#5
  mask := 0#5
  holdOff := none

/-- The Line Engine after a full reset (R18). -/
def Line.reset : Line where
  state := .idle
  discard := false
  receiver := .off
  pairAtRest := true
  sendPlace := none
  busy := none
  reply := .stopped
  interChar := none
  discardRest := none
  quietGap := none
  clearTest := none
  stopLimit := none
  holding := []
  assembler := []
  stray := 0#16
  disturbed := false
  sentAt := 0#32
  lastStopAt := 0#32
  disturbedMs := 0
  settled := false

/-- The Poll Scheduler's own items after a full reset (R64). -/
def Scheduler.reset : Scheduler where
  cycleNumber := 0#32
  cycleInProgress := false
  cycleTimer := .stopped
  nextIndex := 0
  markDue := false
  markTimer := none
  visit := none

/-- Counters set to 0 (R39, R62). -/
def Counters.reset : Counters where
  visits := 0#16
  ok := 0#16
  noReply := 0#16
  charError := 0#16
  truncated := 0#16
  badCrc := 0#16
  badFormat := 0#16
  wrongAddress := 0#16
  turnMismatch := 0#16
  waits := 0#16
  timesLost := 0#16

/-- A station link record after a full reset (R39). -/
def Link.reset : Link where
  state := .disabled
  step := none
  origin := none
  nextTurn := 0#3
  lastAcked := 0#3
  outstanding := none
  holdUntil := none
  misses := 0
  waits := 0
  resyncRequest := 0#16
  resyncDone := 0#16
  sampledResync := none
  localFault := false
  sounderActive := false
  disablePending := false
  statusChanged := false
  countersChanged := false
  counters := Counters.reset

/-- The Contact Table of a station after a full reset: no records and no settings held (R67). -/
def ContactTable.reset : ContactTable where
  rows := 0
  columns := 0
  closeDebounce := 0
  openDebounce := 0
  diodeIsolated := false
  records := []
  bounces := 0#16

/-- The output record of a station after a full reset: none held (R87). -/
def Output.reset : Output where
  indicatorCount := 0
  fetchedRevision := none
  fetchedImage := List.replicate 16 0#8
  applied := 0#16
  outSet := none
  sounderRequest := 0#16
  sounderPattern := 0#8
  sounderDone := 0#16
  outSound := none
  fetchInFlight := none
  fetchDiscard := false
  tornReads := 0#16

/-- A station entry after a full reset (R39, R67, R87, R150). -/
def Station.reset : Station where
  takesPart := false
  address := 0#5
  link := Link.reset
  contacts := ContactTable.reset
  output := Output.reset
  rememberedSounder := none
  rememberedResync := none

/-- A gap with no event dropped (R104). -/
def Gap.zero : Gap where
  contact := 0#16
  station := 0#16
  output := 0#16
  control := 0#16

/-- The Journal Unit after a full reset (R122). -/
def Journal.reset : Journal where
  staging := []
  openGap := Gap.zero
  written := 0#32
  view := 0#32
  announced := 0#32
  unannounced := 0#16
  discarded := 0#32
  drain := .notBegun
  drainTimer := none

/-- The Exchange Unit after a full reset (R150). -/
def Exchange.reset : Exchange where
  sweepTimer := none
  sweepInFlight := false
  sweepAgain := false
  sweepCount := 0#32
  rememberedReleased := none

/-- The Memory Port after a full reset (R161). -/
def Port.reset : Port where
  reads := []
  writes := []
  inFlight := none
  owed := Vector.replicate 16 false
  heldMark := none
  lastServed := .write
  faultAddr := 0#64
  abandoned := none

/-- The block right after reset: the reset line is released and no command waits (R174; log entries 17 and 18). -/
def State.reset : State where
  pending := []
  run := RunControl.reset
  irq := Interrupt.reset
  line := Line.reset
  sched := Scheduler.reset
  stations := Vector.replicate 16 Station.reset
  tornReads := 0#16
  journal := Journal.reset
  exch := Exchange.reset
  port := Port.reset
  memory := []
  draws := 0

end Sys2Proof.Machine
end

