-- ==== Sys2Proof/Machine/Flags.lean ====
section
/-! DEFINITION. The cause and mask bits and the interrupt line (07 Interrupt Causes). -/

namespace Sys2Proof.Machine

/-- The five causes, in bit order (R123). -/
inductive Cause where
  | journal | state | refused | fault | hostval
deriving DecidableEq, Repr

/-- The bit of a cause in CAUSE and MASK (R123). -/
def Cause.bit : Cause → BitVec 5
  | .journal => 0b00001#5
  | .state => 0b00010#5
  | .refused => 0b00100#5
  | .fault => 0b01000#5
  | .hostval => 0b10000#5

/-- Whether a cause's bit is set in a value of CAUSE or MASK. -/
def Cause.isSetIn (c : Cause) (bits : BitVec 5) : Bool := bits &&& c.bit != 0#5

/-- Set a cause: setting a bit that is already set leaves it set (R123). -/
def Interrupt.set (c : Cause) (i : Interrupt) : Interrupt := { i with cause := i.cause ||| c.bit }

/-- A write to CAUSE clears each bit written as 1 and leaves the others; bits 5 to 31 are ignored (R123). -/
def Interrupt.clear (value : Word) (i : Interrupt) : Interrupt :=
  { i with cause := i.cause &&& ~~~(value.setWidth 5) }

/-- A write to MASK; bits 5 to 31 are ignored (R124). -/
def Interrupt.setMask (value : Word) (i : Interrupt) : Interrupt := { i with mask := value.setWidth 5 }

/-- The interrupt line is asserted while some bit is set in both CAUSE and MASK (R124). -/
def Interrupt.line (i : Interrupt) : Bool := i.cause &&& i.mask != 0#5

end Sys2Proof.Machine
end

