-- ==== Sys2Proof/Machine/Frame.lean ====
section
/-! DEFINITION. Frames: the check value, the frame builder and frame judgement (02 Frames and Exchanges, 11.2). -/

namespace Sys2Proof.Machine

/-- One bit of the check value: compare it with the register's most significant bit, shift, and combine with 0x1021
where they differed (R20 step 3). -/
def checkBit (reg : Half) (bit : Bool) : Half :=
  let shifted := reg <<< 1
  if reg.msb = bit then shifted else shifted ^^^ 0x1021#16

/-- One covered byte, most significant bit first (R20 step 2). -/
def checkByte (reg : Half) (b : Byte) : Half :=
  [7, 6, 5, 4, 3, 2, 1, 0].foldl (fun r i => checkBit r (b.getLsbD i)) reg

/-- The check value of the covered bytes: the register starts at all ones and is not inverted (R20). -/
def checkValue (covered : List Byte) : Half := covered.foldl checkByte 0xFFFF#16

/-- What the Poll Scheduler asks the frame builder for: kind code, turn and payload (section 2.2). -/
structure FramePlan where
  kind : Byte
  turn : Turn
  payload : List Byte
deriving DecidableEq, Repr

/-- The address, kind, turn, length and payload characters of a downlink frame: the direction mark in bit 7 is 0 and
bits 5 and 6 are sent 0 (R19, R177). -/
def coveredCharacters (address : LineAddress) (plan : FramePlan) : List Byte :=
  [address.setWidth 8, plan.kind, plan.turn.setWidth 8, BitVec.ofNat 8 plan.payload.length] ++ plan.payload

/-- The characters of a downlink frame in the order sent, the check value high byte first (R19, R20). -/
def buildFrame (address : LineAddress) (plan : FramePlan) : List Byte :=
  let covered := coveredCharacters address plan
  let check := checkValue covered
  Config.lead :: covered ++ [check.extractLsb' 8 8, check.extractLsb' 0 8]

/-- The mark number: the panel clock in whole seconds, modulo 256 (R26). -/
def markNumber (clock : Word) : Byte := BitVec.ofNat 8 (clock.toNat / 1000)

/-- The TIME MARK frame formed at a panel-clock time: address 0, turn 0, one payload byte (R26). -/
def timeMarkFrame (clock : Word) : List Byte :=
  buildFrame 0#5 ⟨Config.kindTimeMark, 0#3, [markNumber clock]⟩

/-- The content of a SNAP judged OK (R27). -/
structure Snapshot where
  echo : Turn
  localFault : Bool
  sounderActive : Bool
  /-- The row bytes with the bits beyond the configured columns cleared. -/
  rows : List Byte
deriving DecidableEq, Repr

/-- The outcomes of an exchange (R37). -/
inductive TryOutcome where
  | ok (snapshot : Snapshot)
  | wait (hold : Nat)
  | noReply | charError | truncated | badCrc | badFormat | wrongAddress | turnMismatch | lineDisturbed
deriving DecidableEq, Repr

/-- The bits of a row byte at and above the configured column count are cleared (R27, R177). -/
def cleanRow (columns : Nat) (row : Byte) : Byte := row &&& BitVec.ofNat 8 (2 ^ columns - 1)

/-- The snapshot read from a SNAP's payload (R27, R177). -/
def readSnapshot (columns : Nat) (echo : Turn) (payload : List Byte) : Snapshot where
  echo := echo
  localFault := (byteAt payload 0).getLsbD 0
  sounderActive := (byteAt payload 0).getLsbD 1
  rows := (payload.drop 1).map (cleanRow columns)

/-- The hold time of a WAIT; 0 is read as 1 millisecond (R28). -/
def holdTime (payload : List Byte) : Nat := max 1 (byteAt payload 0).toNat

/-- What frame judgement compares a reply with: the station's address and geometry as taken at start, and the expected
turn taken with the request (R29, R31). -/
structure JudgedAgainst where
  address : LineAddress
  rows : Nat
  columns : Nat
  expected : Turn
deriving DecidableEq, Repr

/-- Judgement of a complete sequence, steps 2 to 7 of R31, stopping at the first that reaches an outcome. -/
def judgeComplete (against : JudgedAgainst) (chars : List Byte) : TryOutcome :=
  let length := (byteAt chars 4).toNat
  let payload := (chars.drop 5).take length
  let received := byteAt chars (5 + length) ++ byteAt chars (6 + length)
  if checkValue ((chars.drop 1).take (4 + length)) ≠ received then .badCrc
  else if byteAt chars 1 &&& 0x9F#8 ≠ 0x80#8 ||| against.address.setWidth 8 then .wrongAddress
  else if byteAt chars 2 = Config.kindWait then
    if length ≠ 1 then .badFormat else .wait (holdTime payload)
  else if byteAt chars 2 = Config.kindSnap then
    if length ≠ 1 + against.rows then .badFormat
    else if 7 < (byteAt chars 3).toNat then .badFormat
    else if (byteAt chars 3).setWidth 3 = against.expected then
      .ok (readSnapshot against.columns ((byteAt chars 3).setWidth 3) payload)
    else .turnMismatch
  else .badFormat

/-- Frame judgement: a sequence marked "length out of range" is BAD_FORMAT before anything else (R31 step 1). -/
def judge (against : JudgedAgainst) (outOfRange : Bool) (chars : List Byte) : TryOutcome :=
  if outOfRange then .badFormat else judgeComplete against chars

end Sys2Proof.Machine
end

