-- ==== Sys2Proof/Machine/ContactTable.lean ====
section
/-! DEFINITION. The Contact Table: snapshot processing, ambiguity, debounce, seeding, the bitmap and the known flag
(04 The Contact Table). -/

namespace Sys2Proof.Machine

/-- A new contact record: UNKNOWN, last known none, every flag and mark clear; the two start times, which have no meaning
yet, are 0 (R67; log entry 18). -/
def Contact.fresh (i : Fin 64) : Contact where
  index := i
  state := .unknown
  lastKnown := none
  changeStart := 0#32
  ambiguous := false
  ambiguityStart := 0#32
  reported := false
  recovery := false
  extended := false

/-- The contact indices of a geometry, ascending: row times 8 plus column (R65). -/
def geometry (rows columns : Nat) : List (Fin 64) :=
  (List.finRange 64).filter fun i => decide (i.val / 8 < rows) && decide (i.val % 8 < columns)

/-- The debounced position of a contact in the bitmap (R80). -/
def Contact.position (c : Contact) : Bool :=
  match c.state with
  | .closed | .opening => true
  | .opened | .closing => false
  | .unknown => c.lastKnown.getD false

/-- The debounced bitmap: bit `i` is the position of contact index `i`; an index outside the geometry reads open
(R80). -/
def ContactTable.bitmap (t : ContactTable) : BitVec 64 :=
  t.records.foldl (fun acc c => if c.position then acc ||| (1#64 <<< c.index.val) else acc) 0#64

/-- The known flag: no contact of the geometry is UNKNOWN (R81). -/
def ContactTable.known (t : ContactTable) : Bool := t.records.all fun c => c.state != .unknown

/-- The raw value of a crossing: `true` for closed (R69). -/
def rawClosed (rows : List Byte) (row column : Nat) : Bool := (byteAt rows row).getLsbD column

/-- The ambiguity test of a contact, on raw values alone (R70). -/
def ContactTable.ambiguousAt (t : ContactTable) (rows : List Byte) (row column : Nat) : Bool :=
  !t.diodeIsolated && (List.range t.rows).any fun row' => row' != row && (List.range t.columns).any fun column' =>
    column' != column && rawClosed rows row column' && rawClosed rows row' column && rawClosed rows row' column'

/-- What one contact's part of a snapshot leaves: its record, its events in order, and whether it bounced. -/
structure ContactResult where
  contact : Contact
  events : List EventBody
  bounced : Bool
deriving DecidableEq, Repr

/-- The event of a contact that settles to a new value (R83). -/
def changeEvent (closed : Bool) (index : Fin 64) (afterRecovery extended : Bool) : EventBody :=
  if closed then .contactClosed index afterRecovery extended else .contactOpened index afterRecovery extended

/-- The debounce that governs a change to a value (R66, R73, R74). -/
def ContactTable.debounce (t : ContactTable) (closed : Bool) : Nat :=
  if closed then t.closeDebounce else t.openDebounce

/-- The contact settles to a value: last known follows it (R77), and the recovery flag and extended mark are clear
(R73, R74). -/
def Contact.settle (closed : Bool) (c : Contact) : Contact :=
  { c with
    state := if closed then .closed else .opened
    lastKnown := some closed
    recovery := false
    extended := false }

/-- A change to a value has been seen: it settles at once where the debounce is 0, and is debounced otherwise (R73,
R74; R78 with the recovery flag). -/
def Contact.beginChange (t : ContactTable) (now : Word) (closed recovered : Bool) (c : Contact) : ContactResult :=
  if t.debounce closed = 0 then ⟨c.settle closed, [changeEvent closed c.index recovered false], false⟩
  else
    ⟨{ c with
        state := if closed then .closing else .opening
        changeStart := now
        recovery := recovered
        extended := false }, [], false⟩

/-- The completion test of a change being debounced (R73, R74, R76). -/
def Contact.completeChange (t : ContactTable) (now : Word) (closed : Bool) (c : Contact) : ContactResult :=
  if t.debounce closed ≤ (now - c.changeStart).toNat then
    ⟨c.settle closed, [changeEvent closed c.index c.recovery c.extended], false⟩
  else ⟨c, [], false⟩

/-- A bounce: back to the settled state it was debouncing away from, with no event (R75). -/
def Contact.bounce (closing : Bool) (c : Contact) : ContactResult :=
  ⟨{ c with
      state := if closing then .opened else .closed
      recovery := false
      extended := false }, [], true⟩

/-- Seeding of an UNKNOWN contact from a raw value (R78). -/
def Contact.seed (t : ContactTable) (now : Word) (raw : Bool) (c : Contact) : ContactResult :=
  match c.lastKnown with
  | none => ⟨c.settle raw, [], false⟩
  | some known => if known = raw then ⟨c.settle raw, [], false⟩ else c.beginChange t now raw true

/-- The transition of a contact that is not ambiguous in the snapshot (R73 to R75), or its seeding (R78). -/
def Contact.transition (t : ContactTable) (now : Word) (raw : Bool) (c : Contact) : ContactResult :=
  match c.state with
  | .unknown => c.seed t now raw
  | .opened => if raw then c.beginChange t now true false else ⟨c, [], false⟩
  | .closing => if raw then c.completeChange t now true else c.bounce true
  | .closed => if raw then ⟨c, [], false⟩ else c.beginChange t now false false
  | .opening => if raw then c.bounce false else c.completeChange t now false

/-- The handling of a contact found ambiguous (R71); `report` is the ambiguity report time in milliseconds. -/
def Contact.foundAmbiguous (report : Nat) (now : Word) (c : Contact) : ContactResult :=
  let start := if c.ambiguous then c.ambiguityStart else now
  let reports := !c.reported && decide (report ≤ (now - start).toNat)
  ⟨{ c with
      ambiguous := true
      ambiguityStart := start
      reported := c.reported || reports
      extended := c.extended || c.state == .closing || c.state == .opening },
    if reports then [.contactAmbiguous c.index true] else [], false⟩

/-- The handling of a contact that is not ambiguous: released where its flag was set (R72), then taken through its
seeding or transition. -/
def Contact.foundClear (t : ContactTable) (now : Word) (raw : Bool) (c : Contact) : ContactResult :=
  let released := { c with ambiguous := false, reported := c.reported && !c.ambiguous }
  let result := released.transition t now raw
  { result with
    events := (if c.ambiguous && c.reported then [.contactAmbiguous c.index false] else []) ++ result.events }

/-- One contact's part of a snapshot (R68 step 4). -/
def Contact.process (t : ContactTable) (report : Nat) (now : Word) (rows : List Byte) (c : Contact) : ContactResult :=
  let row := c.index.val / 8
  let column := c.index.val % 8
  if t.ambiguousAt rows row column then c.foundAmbiguous report now
  else c.foundClear t now (rawClosed rows row column)

/-- What a snapshot leaves: the table, its events in order, whether a bounce was counted, and whether the bitmap or
the known flag changed (R68). -/
structure SnapshotResult where
  table : ContactTable
  events : List EventBody
  bounced : Bool
  changed : Bool
deriving DecidableEq, Repr

/-- The processing of a snapshot as one whole; the ambiguity tests use the snapshot's raw values alone, so they are as
good as made before any record is changed (R68). -/
def ContactTable.process (report : Nat) (now : Word) (rows : List Byte) (t : ContactTable) : SnapshotResult :=
  let results := t.records.map (Contact.process t report now rows)
  let table :=
    { t with
      records := results.map (·.contact)
      bounces := satAdd t.bounces (results.countP (·.bounced)) }
  ⟨table, results.flatMap (·.events), results.any (·.bounced),
    table.bitmap != t.bitmap || table.known != t.known⟩

/-- The order to make a station's contacts UNKNOWN, at loss or disable: every record is changed, one that is UNKNOWN
already too (R79; log entry 30). -/
def ContactTable.makeUnknown (t : ContactTable) : ContactTable :=
  { t with
    records := t.records.map fun c =>
      { c with state := .unknown, ambiguous := false, reported := false, recovery := false, extended := false } }

end Sys2Proof.Machine
end

