-- ==== Sys2Proof/Machine/Output.lean ====
section
/-! DEFINITION. The Output Unit's record of one station: image fetches, the outstanding SET and SOUND, and the sounder
pair (05 Indicators and Sounders). -/

namespace Sys2Proof.Machine

/-- The bits of image byte `j` that belong to lamps below the indicator count: lamp `k` lies in byte `k / 4`, two bits
a lamp (R88, R177). -/
def lampMask (count j : Nat) : Byte := BitVec.ofNat 8 (4 ^ (min 4 (count - 4 * j)) - 1)

/-- The sixteen bytes of a SET: lamps at and above the indicator count are OFF (R88). -/
def Output.payload (o : Output) : List Byte :=
  (List.range 16).map fun j => byteAt o.fetchedImage j &&& lampMask o.indicatorCount j

/-- A new SET takes the fetched image and revision as they stand (R88, R94). -/
def Output.buildSet (o : Output) : Output := { o with outSet := some ⟨o.fetchedRevision, o.payload⟩ }

/-- Output is pending: a fetched revision that differs from the applied revision (R94). -/
def Output.outputPending (o : Output) : Bool :=
  match o.fetchedRevision with
  | none => false
  | some v => v != o.applied

/-- A count is ahead of its pair by 1 to 32,767 (R59, R98, R101). -/
def ahead (r d : Half) : Bool := decide (1 ≤ forward r d) && decide (forward r d ≤ Config.forwardMax)

/-- A sounder request is pending (R98). -/
def Output.sounderPending (o : Output) : Bool := ahead o.sounderRequest o.sounderDone

/-- A new SOUND: the record's pattern, the request count as satisfied count, and the collapsed count (R100). -/
def Output.buildSound (o : Output) : Output :=
  { o with outSound := some ⟨o.sounderPattern, o.sounderRequest, o.sounderRequest - o.sounderDone⟩ }

/-- An outstanding SET acknowledged (R95). -/
def Output.setAcknowledged (o : Output) : Output × List EventBody :=
  match o.outSet with
  | some ⟨some v, _⟩ => ({ o with applied := v, outSet := none }, [.outputApplied v])
  | _ => ({ o with outSet := none }, [])

/-- An outstanding SOUND acknowledged (R101). -/
def Output.soundAcknowledged (o : Output) : Output × List EventBody :=
  match o.outSound with
  | some sound =>
    ({ o with
        sounderDone := if ahead sound.satisfied o.sounderDone then sound.satisfied else o.sounderDone
        outSound := none },
      [.sounderDone .sent sound.collapsed])
  | none => (o, [])

/-- An outstanding SET or SOUND abandoned: it becomes none, and nothing else changes (R96, R102). -/
def Output.abandon (o : Output) : Output := { o with outSet := none, outSound := none }

/-- Pending sounder requests discarded with a record (R102). -/
def Output.discardRequests (o : Output) : Output × List EventBody :=
  ({ o with sounderDone := if o.sounderPending then o.sounderRequest else o.sounderDone },
    if o.sounderPending then [.sounderDone .discarded (o.sounderRequest - o.sounderDone)] else [])

/-- The count in hand: the satisfied count of an outstanding SOUND, and otherwise the done count (R99). -/
def Output.inHand (o : Output) : Half :=
  match o.outSound with
  | some sound => sound.satisfied
  | none => o.sounderDone

/-- Every request not yet in hand is rejected (R99). -/
def Output.rejectRequests (o : Output) : Output × List EventBody :=
  ({ o with sounderDone := o.sounderRequest },
    [.sounderDone .rejected (o.sounderRequest - o.inHand)])

/-- What a hand-over of a sounder request count comes to (R98). -/
inductive HandOver where
  | rejected | discarded | pending
deriving DecidableEq, Repr

/-- How a hand-over is settled: by its pattern first, then by the link state (R98). -/
def handOverCourse (pattern : Byte) (link : LinkState) : HandOver :=
  if 8 ≤ pattern.toNat then .rejected
  else if link = .disabled ∨ link = .searching then .discarded
  else .pending

/-- A hand-over of a new request count and pattern: the record takes both, then the requests are rejected, discarded or
pending (R98, R99, R102). -/
def Output.handOver (count : Half) (pattern : Byte) (link : LinkState) (o : Output) : Output × List EventBody :=
  let taken := { o with sounderRequest := count, sounderPattern := pattern }
  match handOverCourse pattern link with
  | .rejected => taken.rejectRequests
  | .discarded => taken.discardRequests
  | .pending => (taken, [])

/-- A fetch is to be requested: the live revision differs from the fetched one or there is none, and no fetch is in
flight (R90, conditions 1 and 2). -/
def Output.wantsFetch (live : Half) (o : Output) : Bool :=
  o.fetchedRevision != some live && o.fetchInFlight.isNone

/-- A fetch is requested for a revision (R90). -/
def Output.requestFetch (live : Half) (o : Output) : Output := { o with fetchInFlight := some live }

/-- A bracket read agrees with the revision it was requested for (R89, R91, R181). -/
def bracketAgrees (revision : Half) (block : List Byte) : Bool :=
  halfAt block 0 == revision && halfAt block 18 == revision

/-- The sixteen image bytes of an image block, after revision A (R139). -/
def imageOf (block : List Byte) : List Byte := (block.drop 2).take 16

/-- A fetch is to be thrown away when it completes (R93). -/
def Output.markDiscard (o : Output) : Output := { o with fetchDiscard := o.fetchDiscard || o.fetchInFlight.isSome }

/-- A discarded completion: the fetch in flight and the discard mark become clear, and nothing else changes (R93). -/
def Output.fetchDiscarded (o : Output) : Output := { o with fetchInFlight := none, fetchDiscard := false }

/-- A fetch completes on the bus: discarded (R93), accepted (R91) or torn (R92). The second part says that it was
torn. -/
def Output.fetchCompleted (block : List Byte) (o : Output) : Output × Bool :=
  if o.fetchDiscard then (o.fetchDiscarded, false)
  else
    match o.fetchInFlight with
    | none => (o, false)
    | some v =>
      if bracketAgrees v block then
        ({ o with fetchedRevision := some v, fetchedImage := imageOf block, fetchInFlight := none }, false)
      else ({ o with tornReads := satInc o.tornReads, fetchInFlight := none }, true)

end Sys2Proof.Machine
end

