-- ==== Sys2Proof/Machine/Link.lean ====
section
/-! DEFINITION. A station's link: choice of frame, turns, acknowledgement, visit results, loss and disable, as functions
of the one station's records (03 Station Links and the Poll Cycle). Each answers the events it produces, in order. -/

namespace Sys2Proof.Machine

/-- Advance one of the station's counters, which sets the counters changed mark, also at a counter already stopped
(R62). -/
def Link.count (f : Counters → Counters) (l : Link) : Link :=
  { l with counters := f l.counters, countersChanged := true }

/-- The visits counter advances as a visit begins (R47, R62). -/
def Counters.countVisit (c : Counters) : Counters := { c with visits := satInc c.visits }

/-- The times lost counter advances (R56, R62). -/
def Counters.countLost (c : Counters) : Counters := { c with timesLost := satInc c.timesLost }

/-- A resync is pending (R59). -/
def Link.resyncPending (l : Link) : Bool := ahead l.resyncRequest l.resyncDone

/-- A new order takes the next turn, which advances modulo 8, and becomes the outstanding command (R48). -/
def Link.takeTurn (kind : OrderKind) (l : Link) : Link :=
  { l with outstanding := some ⟨kind, l.nextTurn⟩, nextTurn := l.nextTurn + 1#3 }

/-- A new RESET-STATION begins a sync, which samples the resync request count (R41). -/
def Station.newReset (st : Station) : Station :=
  { st with link := { st.link with sampledResync := some st.link.resyncRequest }.takeTurn .resetStation }

/-- A new SET of the Output Unit's content (R41, R47, R88). -/
def Station.newSet (st : Station) : Station :=
  { st with link := st.link.takeTurn .set, output := st.output.buildSet }

/-- A new SOUND of the Output Unit's content (R47, R100). -/
def Station.newSound (st : Station) : Station :=
  { st with link := st.link.takeTurn .sound, output := st.output.buildSound }

/-- An ONLINE station with a resync pending enters SYNCING, origin ONLINE, step RESET; its link state stands in the
status block, so the status changed mark is set (R38, R47; log entry 16). -/
def Station.enterResync (st : Station) : Station :=
  { st with
    link :=
      { st.link with state := .syncing, origin := some .online, step := some .reset, statusChanged := true } }

/-- The order that a visit builds, or none where it sends a POLL, for a station with no command outstanding (R41,
R47). -/
def Station.buildOrder (st : Station) : Station :=
  match st.link.state with
  | .disabled => st
  | .searching => st.newReset
  | .syncing => if st.link.step = some .image then st.newSet else st.newReset
  | .online =>
    if st.link.resyncPending then st.enterResync.newReset
    else if st.output.outputPending then st.newSet
    else if st.output.sounderPending then st.newSound
    else st

/-- The payload of an order: the outstanding content held by the Output Unit, or the geometry (R23 to R25). -/
def Station.orderPayload (kind : OrderKind) (st : Station) : List Byte :=
  match kind with
  | .set => (st.output.outSet.map (·.payload)).getD []
  | .sound => (st.output.outSound.map fun sound => [sound.pattern]).getD []
  | .resetStation => [BitVec.ofNat 8 st.contacts.rows, BitVec.ofNat 8 st.contacts.columns]

/-- The kind code of an order (section 11.2). -/
def OrderKind.code : OrderKind → Byte
  | .set => Config.kindSet
  | .sound => Config.kindSound
  | .resetStation => Config.kindResetStation

/-- The frame of the outstanding command, or a POLL with the last acknowledged turn where none is outstanding (R22,
R47). -/
def Station.framePlan (st : Station) : FramePlan :=
  match st.link.outstanding with
  | some order => ⟨order.kind.code, order.turn, st.orderPayload order.kind⟩
  | none => ⟨Config.kindPoll, st.link.lastAcked, []⟩

/-- The expected turn: the outstanding command's turn, and otherwise the last acknowledged turn (R29). -/
def Station.expectedTurn (st : Station) : Turn :=
  match st.link.outstanding with
  | some order => order.turn
  | none => st.link.lastAcked

/-- The beginning of a visit at the station: it counts a visit, and where no command is outstanding it builds the order
that the choice of frame calls for (R47, R48). -/
def Station.beginVisit (st : Station) : Station :=
  let counted := { st with link := st.link.count Counters.countVisit }
  if counted.link.outstanding.isSome then counted else counted.buildOrder

/-- The outstanding command is abandoned, and the Output Unit is told (R48, R52, R56, R61). -/
def Station.abandon (st : Station) : Station :=
  { st with link := { st.link with outstanding := none }, output := st.output.abandon }

/-- The completion of a sync: STATION_UP where it began from SEARCHING, and RESYNC_DONE where the sampled count differs
from the done count (R42). -/
def Link.completeSync (l : Link) : Link × List EventBody :=
  let up := if l.origin = some .searching then [EventBody.stationUp] else []
  let done :=
    match l.sampledResync with
    | some sampled => if sampled = l.resyncDone then none else some sampled
    | none => none
  ({ l with
      state := .online
      resyncDone := done.getD l.resyncDone
      sampledResync := none
      step := none
      origin := none },
    up ++ (done.map EventBody.resyncDone).toList)

/-- The outstanding command becomes none and its turn the last acknowledged turn; any acknowledgement sets the status
changed mark (R50, R57). -/
def Link.acknowledged (order : Outstanding) (l : Link) : Link :=
  { l with outstanding := none, lastAcked := order.turn, statusChanged := true }

/-- The acknowledgement of a RESET-STATION (R41, R57). -/
def Link.resetAcknowledged (l : Link) : Link :=
  match l.state with
  | .searching => { l with state := .syncing, origin := some .searching, step := some .image }
  | .syncing => { l with step := some .image }
  | .disabled | .online => l

/-- The acknowledgement effects of the outstanding command (R42, R57, R95, R101). -/
def Station.acknowledge (order : Outstanding) (st : Station) : Station × List EventBody :=
  let link := st.link.acknowledged order
  match order.kind with
  | .resetStation => ({ st with link := link.resetAcknowledged }, [])
  | .set =>
    let applied := st.output.setAcknowledged
    if link.state = .syncing then
      ({ st with link := link.completeSync.1, output := applied.1 }, applied.2 ++ link.completeSync.2)
    else ({ st with link := link, output := applied.1 }, applied.2)
  | .sound =>
    let done := st.output.soundAcknowledged
    ({ st with link := link, output := done.1 }, done.2)

/-- The loss of a station in SYNCING or ONLINE (R56). -/
def Station.lose (st : Station) : Station × List EventBody :=
  let abandoned := st.abandon
  let settled := abandoned.output.discardRequests
  ({ abandoned with
      output := settled.1
      contacts := st.contacts.makeUnknown
      link :=
        { (abandoned.link.count Counters.countLost) with
          state := .searching
          misses := 0
          step := none
          origin := none
          sampledResync := none
          statusChanged := true } },
    .stationDown .lost :: settled.2)

/-- A miss: the consecutive miss count advances, and at the miss limit the station is lost, but in SEARCHING it stays at
the limit (R53). -/
def Station.countMiss (missLimit : Nat) (st : Station) : Station × List EventBody :=
  match st.link.state with
  | .syncing | .online =>
    if missLimit ≤ st.link.misses + 1 then st.lose
    else ({ st with link := { st.link with misses := st.link.misses + 1 } }, [])
  | .searching | .disabled =>
    ({ st with link := { st.link with misses := min missLimit (st.link.misses + 1) } }, [])

/-- The results of a visit (R49). -/
inductive VisitResult where
  | ok (snapshot : Snapshot)
  | wait (hold : Nat)
  | turn
  | miss
  | line
deriving DecidableEq, Repr

/-- The flags of a SNAP judged OK replace the station flags; a change of LOCAL_FAULT produces STATION_FAULT (R50 step
3, R58). -/
def Link.takeFlags (snapshot : Snapshot) (l : Link) : Link × List EventBody :=
  ({ l with
      localFault := snapshot.localFault
      sounderActive := snapshot.sounderActive
      statusChanged :=
        l.statusChanged || snapshot.localFault != l.localFault || snapshot.sounderActive != l.sounderActive },
    if snapshot.localFault = l.localFault then [] else [.stationFault snapshot.localFault])

/-- A snapshot is handed to the Contact Table, and its reports set the status changed and counters changed marks (R50
step 4, R75, R82). -/
def Station.takeSnapshot (report : Nat) (now : Word) (rows : List Byte) (st : Station) : Station × List EventBody :=
  let result := st.contacts.process report now rows
  ({ st with
      contacts := result.table
      link :=
        { st.link with
          statusChanged := st.link.statusChanged || result.changed
          countersChanged := st.link.countersChanged || result.bounced } },
    result.events)

/-- A Visit OK (R50). -/
def Station.visitOk (report : Nat) (now : Word) (snapshot : Snapshot) (st : Station) : Station × List EventBody :=
  let acked :=
    match st.link.outstanding with
    | some order => st.acknowledge order
    | none => (st, [])
  let flagged := { acked.1.link with misses := 0, waits := 0 }.takeFlags snapshot
  let seen := { acked.1 with link := flagged.1 }.takeSnapshot report now snapshot.rows
  (seen.1, acked.2 ++ flagged.2 ++ seen.2)

/-- A Visit WAIT: the hold is set and the consecutive WAIT count advances; the sixteenth counts as a miss (R51). -/
def Station.visitWait (missLimit : Nat) (now : Word) (hold : Nat) (st : Station) : Station × List EventBody :=
  let held := { st.link with holdUntil := some (now + BitVec.ofNat 32 hold), waits := st.link.waits + 1 }
  if Config.waitsPerMiss ≤ held.waits then { st with link := { held with waits := 0 } }.countMiss missLimit
  else ({ st with link := held }, [])

/-- A Visit TURN: the outstanding command is abandoned, and the station goes to SYNCING step RESET, but a SEARCHING one
stays SEARCHING (R52; log entry 16). -/
def Station.visitTurn (st : Station) : Station :=
  let abandoned := st.abandon
  let link := { abandoned.link with waits := 0 }
  { abandoned with
    link :=
      match link.state with
      | .online =>
        { link with state := .syncing, origin := some .online, step := some .reset, statusChanged := true }
      | .syncing => { link with step := some .reset }
      | .searching | .disabled => link }

/-- A Visit MISS: the consecutive WAIT count becomes 0 and the miss is counted (R53). -/
def Station.visitMiss (missLimit : Nat) (st : Station) : Station × List EventBody :=
  { st with link := { st.link with waits := 0 } }.countMiss missLimit

/-- A disable (R61). -/
def Station.disable (st : Station) : Station × List EventBody :=
  let down :=
    if st.link.state = .online ∨ st.link.state = .syncing then [EventBody.stationDown .disabled] else []
  let abandoned := st.abandon
  let settled := abandoned.output.discardRequests
  ({ abandoned with
      output := settled.1.markDiscard
      contacts := st.contacts.makeUnknown
      link :=
        { abandoned.link with
          state := .disabled
          holdUntil := none
          misses := 0
          waits := 0
          step := none
          origin := none
          sampledResync := none
          disablePending := false
          statusChanged := true } },
    down ++ settled.2)

/-- The effect of a visit result on the station's records (R50 to R54). -/
def Station.takeResult (settings : Settings) (now : Word) (result : VisitResult) (st : Station) :
    Station × List EventBody :=
  match result with
  | .ok snapshot => st.visitOk (100 * settings.ambiguityReport) now snapshot
  | .wait hold => st.visitWait settings.missLimit now hold
  | .turn => (st.visitTurn, [])
  | .miss => st.visitMiss settings.missLimit
  | .line => (st, [])

/-- The result is applied in full first, and a pending disable afterwards (R55, R60). -/
def Station.endVisit (settings : Settings) (now : Word) (result : VisitResult) (st : Station) :
    Station × List EventBody :=
  let applied := st.takeResult settings now result
  if applied.1.link.disablePending then (applied.1.disable.1, applied.2 ++ applied.1.disable.2) else applied

/-- The counter of a try's outcome; LINE_DISTURBED has none (R49, R62). -/
def Counters.countOutcome (outcome : TryOutcome) (c : Counters) : Counters :=
  match outcome with
  | .ok _ => { c with ok := satInc c.ok }
  | .wait _ => { c with waits := satInc c.waits }
  | .noReply => { c with noReply := satInc c.noReply }
  | .charError => { c with charError := satInc c.charError }
  | .truncated => { c with truncated := satInc c.truncated }
  | .badCrc => { c with badCrc := satInc c.badCrc }
  | .badFormat => { c with badFormat := satInc c.badFormat }
  | .wrongAddress => { c with wrongAddress := satInc c.wrongAddress }
  | .turnMismatch => { c with turnMismatch := satInc c.turnMismatch }
  | .lineDisturbed => c

/-- The outcome of a try advances its counter and sets the counters changed mark, but LINE_DISTURBED does neither
(R49, R54, R62). -/
def Link.countOutcome (outcome : TryOutcome) (l : Link) : Link :=
  if outcome = .lineDisturbed then l else l.count (Counters.countOutcome outcome)

/-- How the scheduler goes on after an outcome: the visit ends with a result, or another try is made where one is
permitted (R49). -/
def TryOutcome.result : TryOutcome → Option VisitResult
  | .ok snapshot => some (.ok snapshot)
  | .wait hold => some (.wait hold)
  | .turnMismatch => some .turn
  | .lineDisturbed => some .line
  | .noReply | .charError | .truncated | .badCrc | .badFormat | .wrongAddress => none

/-- A station held back: its hold-until time lies later than the panel clock (R45, R173; log entry 24). -/
def heldBack (hold now : Word) : Bool := decide (0 < (hold - now).toNat) && decide ((hold - now).toNat < 2 ^ 31)

/-- The hold test of the walk: a hold that has been reached is cleared (R45). -/
def Link.testHold (now : Word) (l : Link) : Link :=
  match l.holdUntil with
  | some hold => if heldBack hold now then l else { l with holdUntil := none }
  | none => l

/-- The walk skips a station that is held, and one in SEARCHING unless the cycle number is a multiple of the search
divisor (R45). -/
def Link.skipped (now cycle : Word) (divisor : Nat) (l : Link) : Bool :=
  (match l.holdUntil with
    | some hold => heldBack hold now
    | none => false) ||
  (l.state == .searching && cycle.toNat % divisor != 0)

end Sys2Proof.Machine
end

