-- ==== Sys2Proof/Machine/Ops.lean ====
section
/-! DEFINITION. The named operations over the state: the update of each unit's part, the station entries, timers, the
window's registers, and the memory that the block's writes leave. -/

namespace Sys2Proof.Machine

/-! ### Updates of one unit's part -/

/-- Update Run Control. -/
def State.onRun (f : RunControl → RunControl) (s : State) : State := { s with run := f s.run }

/-- Update the Interrupt Unit. -/
def State.onIrq (f : Interrupt → Interrupt) (s : State) : State := { s with irq := f s.irq }

/-- Update the Line Engine. -/
def State.onLine (f : Line → Line) (s : State) : State := { s with line := f s.line }

/-- Update the Poll Scheduler's own items. -/
def State.onSched (f : Scheduler → Scheduler) (s : State) : State := { s with sched := f s.sched }

/-- Update the Journal Unit. -/
def State.onJournal (f : Journal → Journal) (s : State) : State := { s with journal := f s.journal }

/-- Update the Exchange Unit. -/
def State.onExch (f : Exchange → Exchange) (s : State) : State := { s with exch := f s.exch }

/-- Update the Memory Port. -/
def State.onPort (f : Port → Port) (s : State) : State := { s with port := f s.port }

/-- The records of station entry `e`. -/
def State.station (s : State) (e : Entry) : Station := s.stations[e.val]

/-- Update the records of station entry `e`. -/
def State.onStation (e : Entry) (f : Station → Station) (s : State) : State :=
  { s with stations := s.stations.set e.val (f (s.station e)) e.isLt }

/-- Update the link record of station entry `e`. -/
def State.onLink (e : Entry) (f : Link → Link) (s : State) : State :=
  s.onStation e fun st => { st with link := f st.link }

/-- Update the output record of station entry `e`. -/
def State.onOutput (e : Entry) (f : Output → Output) (s : State) : State :=
  s.onStation e fun st => { st with output := f st.output }

/-- The station entries in ascending index. -/
def allEntries : List Entry := List.finRange 16

/-- The entries that take part in the run, in ascending index (R133). -/
def State.takingPart (s : State) : List Entry := allEntries.filter fun e => (s.station e).takesPart

/-! ### Settings, clock and timers -/

/-- The settings while none are held (R122, R132, R150). -/
def Settings.unset : Settings where
  lineRate := 0
  responseWindow := 0
  retryLimit := 0
  missLimit := 0
  searchDivisor := 0
  cycleMinimum := 0
  sweepPeriod := 0
  ambiguityReport := 0
  journalBase := 0#64
  journalCapacity := 0
  threshold := 0
  holdOff := 0
  stopDrainLimit := 0
  stationCount := 0

/-- The settings of the run. -/
def State.cfg (s : State) : Settings := s.run.settings.getD Settings.unset

/-- A timer that starts now (R173). -/
def State.timer (s : State) (span : Span) : Timer := ⟨s.run.clock, span⟩

/-- The run states in which the panel clock runs and the units work (R162, R173). -/
def RunState.works (r : RunState) : Bool := r == .running || r == .stopping

/-- The run states in which the Memory Port starts transactions (R151). -/
def RunState.transacts (r : RunState) : Bool := r == .starting || r == .running || r == .stopping

/-! ### The register window -/

/-- The code of a run state in STATE bits 0 to 2 (R166). -/
def RunState.code : RunState → Word
  | .halted => 0#32
  | .starting => 1#32
  | .running => 2#32
  | .stopping => 3#32
  | .faulted => 4#32

/-- The reason codes (R166, R167). -/
def Reason.code : Reason → Byte
  | .none => 0#8
  | .layoutVersion => 1#8
  | .rate => 2#8
  | .parameter => 3#8
  | .stationCount => 4#8
  | .geometry => 5#8
  | .address => 6#8
  | .duplicateAddress => 7#8
  | .indicatorCount => 8#8
  | .journalSize => 9#8
  | .journalAlign => 10#8
  | .journalOverlap => 11#8
  | .releaseNotZero => 12#8

/-- The STATE register: run state, reason, reason detail and MULTIPLE in their bits, the others 0 (R166). -/
def RunControl.stateRegister (r : RunControl) : Word :=
  r.state.code ||| (r.reason.code.setWidth 32 <<< 8) ||| (r.detail.setWidth 32 <<< 16) |||
    (if r.multiple then 0x80000000#32 else 0#32)

/-- The 32 bits of the register at a window offset; COMMAND and the offsets that hold no register read 0 (R163). -/
def State.register (s : State) (offset : BitVec 6) : Word :=
  if offset = 0x00#6 then s.run.exbaseLo
  else if offset = 0x04#6 then s.run.exbaseHi
  else if offset = 0x0C#6 then s.run.stateRegister
  else if offset = 0x10#6 then s.irq.cause.setWidth 32
  else if offset = 0x14#6 then s.irq.mask.setWidth 32
  else if offset = 0x18#6 then s.port.faultAddr.extractLsb' 0 32
  else if offset = 0x1C#6 then s.port.faultAddr.extractLsb' 32 32
  else 0#32

/-- A read of the window on some byte lanes: the addressed bytes of the register as it stands, and 0 while the reset
line is held asserted (R163, R174). A read changes nothing (log entry 27). -/
def State.readWindow (s : State) (offset : BitVec 6) (lanes : BitVec 4) : Word :=
  if s.run.resetAsserted then 0#32 else laneValue lanes (s.register offset)

/-- Set a cause (R123). -/
def State.setCause (c : Cause) (s : State) : State := s.onIrq (·.set c)

/-- The interrupt line (R124). -/
def State.interruptLine (s : State) : Bool := s.irq.line

/-- The line driver is enabled in SENDING alone (R6). -/
def Line.driverEnabled (l : Line) : Bool := l.state == .sending

/-- The exchange area base: EXBASE_HI above EXBASE_LO (R133). -/
def RunControl.exchangeBase (r : RunControl) : Nat := (r.exbaseHi ++ r.exbaseLo).toNat

/-! ### What the block's writes leave in memory -/

/-- The canonical form: addresses strictly rising (so no address twice). -/
abbrev MemoryWf (m : List Host.Cell) : Prop := m.Pairwise fun a b => a.1 < b.1

/-- Read one byte: none where the block has written nothing. -/
def memoryRead (m : List Host.Cell) (a : Nat) : Option Byte := m.lookup a

/-- Put one byte at an address. -/
def memoryPut (a : Nat) (b : Byte) : List Host.Cell → List Host.Cell
  | [] => [(a, b)]
  | (k, v) :: rest =>
    if a < k then (a, b) :: (k, v) :: rest
    else if a = k then (a, b) :: rest
    else (k, v) :: memoryPut a b rest

/-- Put bytes at consecutive addresses. -/
def memoryWrite (a : Nat) : List Byte → List Host.Cell → List Host.Cell
  | [], m => m
  | b :: rest, m => memoryWrite (a + 1) rest (memoryPut a b m)

/-- Put those of some bytes at consecutive addresses that a test on the byte's index lets through. -/
def memoryWriteSome (reached : Nat → Bool) (a : Nat) : List Byte → Nat → List Host.Cell → List Host.Cell
  | [], _, m => m
  | b :: rest, i, m => memoryWriteSome reached a rest (i + 1) (if reached i then memoryPut (a + i) b m else m)

/-- The transaction in flight ends without completing: a write may have changed none, some or all of its bytes, as the
free value says (R151, R161; log entry 5). -/
def State.cutOffWrite (s : State) : State :=
  match s.port.inFlight with
  | some (.write _ address bytes) =>
    { s with
      memory := memoryWriteSome (Config.byteReached s.draws) address bytes 0 s.memory
      draws := s.draws + 1 }
  | _ => s

end Sys2Proof.Machine
end

