-- ==== Sys2Proof/Machine/LineEngine.lean ====
section
/-! DEFINITION. The Line Engine: the receiver, send requests, replies, the discard period, quiet gaps, stray characters
and disturbances, as functions of the line alone (01 The Panel Line). Each takes the panel clock as `now`. -/

namespace Sys2Proof.Machine

/-! ### Sending -/

/-- The number of 1 bits among eight (R2). -/
def onesOf (b : Byte) : Nat := (List.range 8).countP b.getLsbD

/-- The parity bit sent with a character: it makes the 1 bits odd in number (R2). -/
def parityFor (b : Byte) : Bool := onesOf b % 2 == 0

/-- A character on the pair, bit by bit in the order sent, `true` the idle level: the start bit, eight data bits with the
least significant first, the parity bit, the stop bit (R2). -/
def sentBits (b : Byte) : List Bool := false :: (List.range 8).map b.getLsbD ++ [parityFor b, true]

/-- The bits of a request's frame: its characters back to back (R2, R7 step 2). -/
def SendRequest.bits (r : SendRequest) : List Bool := r.frame.flatMap sentBits

/-- What the engine drives onto the pair from the start of SENDING to the end of the last stop bit; nothing in the other
line states (R2, R6, R7). -/
def Line.driven (l : Line) : List Bool :=
  if l.state = .sending then (l.sendPlace.map (·.bits)).getD [] else []

/-- The pair is free for a send: at rest, with no character in reception (R5). -/
def Line.pairFree (l : Line) : Bool := l.pairAtRest && l.receiver != .inReception

/-- SENDING begins and the busy timer stops (R5, R7); an edge not yet sampled is dropped, since no character is formed
in SENDING (R4; log entry 8). -/
def Line.beginSending (l : Line) : Line :=
  { l with state := .sending, busy := none, receiver := if l.receiver = .edgeSeen then .armed else l.receiver }

/-- A send request is taken in a state other than DISTURBED: SENDING begins, or it waits and the busy timer starts
(R5). -/
def Line.takeRequest (now : Word) (r : SendRequest) (l : Line) : Line :=
  let placed := { l with sendPlace := some r }
  if l.state = .idle ∧ l.pairFree = true then placed.beginSending
  else { placed with busy := some ⟨now, .ms Config.busyLimitMs⟩ }

/-- A waiting send request is examined in IDLE (R5). -/
def Line.examine (l : Line) : Line :=
  if l.state = .idle ∧ l.sendPlace.isSome = true ∧ l.pairFree = true then l.beginSending else l

/-- The end of the last stop bit sent: AWAITING with the reply window started, or QUIET with the send place empty (R7
steps 3 to 5). -/
def Line.frameSent (now : Word) (window : Nat) (r : SendRequest) (l : Line) : Line :=
  if r.expectsReply then
    { l with state := .awaiting, sentAt := now, reply := .running ⟨now, .ms window⟩ }
  else
    { l with state := .quiet, sentAt := now, quietGap := some ⟨now, .chars Config.quietGapChars⟩, sendPlace := none }

/-! ### Moves of the line state -/

/-- Stray characters are counted (R13). -/
def Line.countStray (n : Nat) (l : Line) : Line := { l with stray := satAdd l.stray n }

/-- QUIET is entered, with the quiet gap started at a panel-clock time (R12). -/
def Line.enterQuiet (since : Word) (l : Line) : Line :=
  { l with
    state := .quiet
    discard := false
    assembler := []
    reply := .stopped
    interChar := none
    discardRest := none
    quietGap := some ⟨since, .chars Config.quietGapChars⟩ }

/-- IDLE is entered, and a waiting request is examined (R5, R12). -/
def Line.enterIdle (l : Line) : Line := { l with state := .idle, quietGap := none, clearTest := none }.examine

/-- The rest of a pair that is free is measured from now (R11 step 4, R15; log entry 26). -/
def Line.restFrom (now : Word) (chars : Nat) (l : Line) : Option Timer :=
  if l.pairFree then some ⟨now, .chars chars⟩ else none

/-- RECEIVING is in its discard period; the assembler's characters are discarded (R11 step 2). -/
def Line.enterDiscard (now : Word) (l : Line) : Line :=
  { l with
    state := .receiving
    discard := true
    assembler := []
    reply := .stopped
    interChar := none
    discardRest := l.restFrom now Config.interCharacterChars }

/-- The end of the discard period: the characters held are counted as stray and removed, and QUIET is entered (R11
step 5). -/
def Line.endDiscard (now : Word) (l : Line) : Line :=
  ({ l with holding := [] }.countStray l.holding.length).enterQuiet now

/-- DISTURBED is entered: the send place and the holding stage are emptied, the clear test starts, and the line
disturbed flag is set (R14 steps 1 to 4). -/
def Line.enterDisturbed (now : Word) (l : Line) : Line :=
  { (l.countStray l.holding.length) with
    state := .disturbed
    discard := false
    sendPlace := none
    busy := none
    reply := .stopped
    interChar := none
    discardRest := none
    quietGap := none
    clearTest := l.restFrom now Config.clearTestChars
    stopLimit := none
    holding := []
    assembler := []
    disturbed := true
    disturbedMs := 0 }

/-- The clear test has passed: IDLE, with the line disturbed flag clear (R15). -/
def Line.clear (l : Line) : Line := { l with disturbed := false }.enterIdle

/-- A millisecond of the panel clock passes: one more in DISTURBED, counted as far as LINE_CLEAR can tell (R15). -/
def Line.passMillisecond (l : Line) : Line :=
  if l.state = .disturbed then { l with disturbedMs := min 65536 (l.disturbedMs + 1) } else l

/-- The whole milliseconds spent in DISTURBED, saturating at 65,535: the advances of the panel clock there, or one fewer
where the first and the last millisecond were cut short by more than one between them (R15; log entry 9). -/
def Line.disturbedFor (cutShort : Bool) (l : Line) : Half :=
  BitVec.ofNat 16 (min 65535 (l.disturbedMs - cutShort.toNat))

/-! ### The pair and the receiver -/

/-- The pair leaves rest: an armed receiver has seen an edge, and the measures of rest stop (R3, R11, R15). -/
def Line.leaveRest (l : Line) : Line :=
  { l with
    pairAtRest := false
    clearTest := none
    discardRest := none
    receiver := if l.receiver = .armed ∧ l.state ≠ .sending then .edgeSeen else l.receiver }

/-- The clear test or the rest of the discard period starts, where the pair is free (R11 step 4, R15). -/
def Line.measureRest (now : Word) (l : Line) : Line :=
  match l.state with
  | .disturbed => { l with clearTest := l.restFrom now Config.clearTestChars }
  | .receiving =>
    if l.discard then { l with discardRest := l.restFrom now Config.interCharacterChars } else l
  | .idle | .sending | .awaiting | .quiet => l

/-- The pair returns to rest: the measures of rest start, and a waiting request is examined (R5, R11, R15). -/
def Line.returnToRest (now : Word) (l : Line) : Line := ({ l with pairAtRest := true }.measureRest now).examine

/-- The sample half a bit time after an edge: a false start, or a confirmed start bit, which stops the inter-character
limit (R3 steps 2 and 3, R10). The reply window's expiry is held instead (R8; log entry 7). -/
def Line.sampleStart (l : Line) : Line :=
  if l.receiver ≠ .edgeSeen then l
  else if l.pairAtRest then { l with receiver := .armed }
  else { l with receiver := .inReception, interChar := none }

/-- The receiver arms (R3 step 1). -/
def Line.arm (l : Line) : Line :=
  if l.receiver = .disarmed ∧ l.pairAtRest = true then { l with receiver := .armed } else l

/-- A character's two check results: odd parity, and the stop bit (R2, R3 step 4). -/
def sampledChar (data : Byte) (parityBit stopBit : Bool) : RxChar :=
  ⟨data, (onesOf data + parityBit.toNat) % 2 == 0, !stopBit⟩

/-- A character has a check error. -/
def RxChar.damaged (c : RxChar) : Bool := c.parityError || c.framingError

/-- The receiver after a character: disarmed by a framing error (R3 step 5). -/
def Line.characterEnds (now : Word) (c : RxChar) (l : Line) : Line :=
  { l with receiver := if c.framingError then .disarmed else .armed, lastStopAt := now }

/-! ### The reply -/

/-- How an exchange ends at the Line Engine: a result of its own, or a sequence handed to frame judgement (R16). -/
inductive Ending where
  | noReply | charError | truncated
  | sequence (outOfRange : Bool) (chars : List Byte)
deriving DecidableEq, Repr

/-- The send place is empty and the exchange is over (R16, R37). -/
def Line.emptyPlace (l : Line) : Line := { l with sendPlace := none }

/-- NO_REPLY: IDLE where four character times have passed since the last stop bit sent, and otherwise QUIET for the
remainder of the gap (R8). -/
def Line.noReply (gapPassed : Bool) (l : Line) : Line :=
  if gapPassed then { l with reply := .stopped }.emptyPlace.enterIdle else (l.enterQuiet l.sentAt).emptyPlace

/-- CHAR_ERROR: the discard period begins (R8, R11 steps 1 and 2). -/
def Line.charError (now : Word) (l : Line) : Line := (l.enterDiscard now).emptyPlace

/-- A character of the discard period is held, or is an overrun (R4, R11 step 3). -/
def Line.hold (now : Word) (c : RxChar) (l : Line) : Line :=
  let held :=
    if l.holding.length < Config.holdingMax then { l with holding := l.holding ++ [c] } else l.countStray 1
  held.measureRest now

/-- An intact character in AWAITING: the lead character begins the reply; any other is stray, and ends the exchange
where the reply window's expiry waited for it (R8). -/
def Line.awaited (now : Word) (gapPassed : Bool) (data : Byte) (l : Line) : Line × Option Ending :=
  if data = Config.lead then
    ({ l with
        state := .receiving
        discard := false
        reply := .stopped
        assembler := [data]
        interChar := some ⟨now, .chars Config.interCharacterChars⟩ }, none)
  else if l.reply = .expiryHeld then ((l.countStray 1).noReply gapPassed, some .noReply)
  else (l.countStray 1, none)

/-- The characters a frame is expected to hold, once its length character is assembled (R9 step 2). -/
def expectedLength (chars : List Byte) : Option Nat :=
  if chars.length < 5 then none else some (7 + (byteAt chars 4).toNat)

/-- An intact character of a reply is appended, and the assembler judges the length (R9). -/
def Line.assemble (now : Word) (data : Byte) (l : Line) : Line × Option Ending :=
  let chars := l.assembler ++ [data]
  if chars.length = 5 ∧ Config.payloadMax < data.toNat then
    ((l.enterDiscard now).emptyPlace, some (.sequence true chars))
  else if expectedLength chars = some chars.length then
    ((l.enterQuiet now).emptyPlace, some (.sequence false chars))
  else ({ l with assembler := chars, interChar := some ⟨now, .chars Config.interCharacterChars⟩ }, none)

/-- A complete character is taken as the line state requires (R4, R8, R9, R11, R13). -/
def Line.takeCharacter (now : Word) (gapPassed : Bool) (c : RxChar) (l : Line) : Line × Option Ending :=
  match l.state with
  | .idle | .quiet => ((l.countStray 1).enterQuiet now, none)
  | .sending => (l, none)
  | .disturbed => ((l.countStray 1).measureRest now, none)
  | .awaiting =>
    if c.damaged then (l.charError now, some .charError) else l.awaited now gapPassed c.data
  | .receiving =>
    if l.discard then (l.hold now c, none)
    else if c.damaged then (l.charError now, some .charError)
    else l.assemble now c.data

/-- The inter-character limit expires: the characters assembled are discarded, and the quiet gap is measured from the
last stop bit received (R10). -/
def Line.truncated (l : Line) : Line := (l.enterQuiet l.lastStopAt).emptyPlace

/-! ### Whether the quiet gap has passed at NO_REPLY (R8) -/

/-- Four character times in bit times of a thousandth (R2, R12). -/
def gapBits : Nat := Config.quietGapChars * Config.characterBits * 1000

/-- The gap has passed when the response window ends (R8). -/
def gapPassedAtWindow (settings : Settings) : Bool :=
  decide (gapBits ≤ settings.responseWindow * Config.bitRate settings.lineRate)

/-- The settings leave open whether the gap has passed when a character, for which the expiry waited, completes: at most
one character time after the window (R8; log entry 6). -/
def gapOpen (settings : Settings) : Bool :=
  !gapPassedAtWindow settings &&
    decide (gapBits ≤
      settings.responseWindow * Config.bitRate settings.lineRate + Config.characterBits * 1000)

/-! ### Run changes -/

/-- The Line Engine at start: full-reset values but for the level of the pair (R18). -/
def Line.started (l : Line) : Line := { Line.reset with pairAtRest := l.pairAtRest }

/-- The receiver goes on at entry to RUNNING, not yet armed (R3, R18). -/
def Line.switchOn (l : Line) : Line := { l with receiver := .disarmed }

/-- The receiver is off, the send place, holding stage and assembler are empty and every timer is stopped (R18). -/
def Line.switchOff (l : Line) : Line :=
  { l with
    discard := false
    receiver := .off
    sendPlace := none
    busy := none
    reply := .stopped
    interChar := none
    discardRest := none
    quietGap := none
    clearTest := none
    stopLimit := none
    holding := []
    assembler := [] }

/-- Entry to FAULTED, and STOP in STARTING: IDLE, the driver released at once, any request dropped without a result; the
stray count and the line disturbed flag are kept (R18). -/
def Line.released (l : Line) : Line := { l.switchOff with state := .idle }

end Sys2Proof.Machine
end

