-- ==== Sys2Proof/Machine/Journal.lean ====
section
/-! DEFINITION. The Journal Unit: submissions, gaps, room, the released count and the forming of records
(06 The Event Journal, 11.5). -/

namespace Sys2Proof.Machine

/-- The four event classes (R106). -/
inductive EventClass where
  | contact | station | output | control
deriving DecidableEq, Repr

/-- The class of each kind (R106). -/
def EventBody.class : EventBody → EventClass
  | .contactClosed _ _ _ | .contactOpened _ _ _ | .contactAmbiguous _ _ => .contact
  | .stationUp | .stationDown _ | .stationFault _ | .resyncDone _ => .station
  | .outputApplied _ | .sounderDone _ _ => .output
  | .runStart _ _ | .runStop _ | .lineDisturbed | .lineClear _ | .hostValue _ => .control

/-- The urgent kinds among the events; LOSS is urgent too (R115). -/
def EventBody.urgent : EventBody → Bool
  | .stationDown _ | .lineDisturbed | .hostValue _ | .runStop _ => true
  | _ => false

/-- A dropped event advances the count of its class, which stops at 65,535 (R105). -/
def Gap.drop (c : EventClass) (g : Gap) : Gap :=
  match c with
  | .contact => { g with contact := satInc g.contact }
  | .station => { g with station := satInc g.station }
  | .output => { g with output := satInc g.output }
  | .control => { g with control := satInc g.control }

/-- No event was dropped (R104). -/
def Gap.isZero (g : Gap) : Bool := g == Gap.zero

/-- The events a gap counts (R120). -/
def Gap.total (g : Gap) : Nat := g.contact.toNat + g.station.toNat + g.output.toNat + g.control.toNat

/-- A submission: staged with the open gap while the queue holds fewer than 32 events, and otherwise dropped and
counted (R105). -/
def Journal.stage (e : Event) (j : Journal) : Journal :=
  if j.staging.length < Config.stagingMax then
    { j with staging := j.staging ++ [⟨e, j.openGap⟩], openGap := Gap.zero }
  else { j with openGap := j.openGap.drop e.body.class }

/-- An event submitted after the drain has ended is added to the discarded-at-stop count (R121). -/
def Journal.submit (e : Event) (j : Journal) : Journal :=
  if j.drain = .ended then { j with discarded := satInc j.discarded } else j.stage e

/-- The Journal Unit takes submissions in RUNNING and STOPPING (R116, R122). -/
def State.submit (e : Event) (s : State) : State := if s.run.state.works then s.onJournal (·.submit e) else s

/-- Submit events one at a time, in the order produced (section 6.1). -/
def State.submitAll (events : List Event) (s : State) : State := events.foldl (fun t e => t.submit e) s

/-- An event produced now (section 6.1). -/
def State.event (s : State) (station : Option Entry) (body : EventBody) : Event := ⟨body, station, s.run.clock⟩

/-- Submit the events of a station, produced now. -/
def State.submitBodies (e : Entry) (bodies : List EventBody) (s : State) : State :=
  s.submitAll (bodies.map (s.event (some e)))

/-- The Journal Unit's judgement of a released count against its announced count and released view (R109). -/
def Journal.releasedValid (v : Word) (j : Journal) : Bool :=
  decide ((v - j.view).toNat ≤ (j.announced - j.view).toNat)

/-- Room: the records the journal can still take (R110). -/
def Journal.room (capacity : Nat) (j : Journal) : Nat := capacity - (j.written - j.view).toNat

/-- What the record former takes next: a LOSS of the head's gap, the head event, or a LOSS of the open gap (R111). -/
inductive NextRecord where
  | loss (gap : Gap)
  | event (e : Event)
deriving DecidableEq, Repr

/-- The record to be formed, and the journal without it (R111). -/
def Journal.takeNext (j : Journal) : Option (NextRecord × Journal) :=
  match j.staging with
  | head :: rest =>
    if head.gap.isZero then some (.event head.event, { j with staging := rest })
    else some (.loss head.gap, { j with staging := { head with gap := Gap.zero } :: rest })
  | [] => if j.openGap.isZero then none else some (.loss j.openGap, { j with openGap := Gap.zero })

/-- The kind code of each event kind (section 11.5). -/
def EventBody.code : EventBody → Byte
  | .runStart _ _ => 0x01#8
  | .runStop _ => 0x02#8
  | .contactClosed _ _ _ => 0x10#8
  | .contactOpened _ _ _ => 0x11#8
  | .contactAmbiguous _ _ => 0x12#8
  | .stationUp => 0x20#8
  | .stationDown _ => 0x21#8
  | .stationFault _ => 0x22#8
  | .resyncDone _ => 0x23#8
  | .outputApplied _ => 0x30#8
  | .sounderDone _ _ => 0x31#8
  | .lineDisturbed => 0x40#8
  | .lineClear _ => 0x41#8
  | .hostValue _ => 0x42#8

/-- The two flags of a contact record, bits 0 and 1 of byte 0x9 (section 11.5). -/
def contactFlags (afterRecovery extended : Bool) : Byte :=
  flagByte afterRecovery ||| (flagByte extended <<< 1)

/-- The code of a STATION_DOWN reason (section 11.5). -/
def DownReason.code : DownReason → Byte
  | .lost => 1#8
  | .disabled => 2#8

/-- The code of a SOUNDER_DONE outcome (section 11.5). -/
def SounderOutcome.code : SounderOutcome → Byte
  | .sent => 1#8
  | .rejected => 2#8
  | .discarded => 3#8

/-- The named detail bytes of each kind, from byte 0x8 on (section 11.5). -/
def EventBody.detail : EventBody → List Byte
  | .runStart capacity stations => halfBytes (BitVec.ofNat 16 capacity) ++ [BitVec.ofNat 8 stations]
  | .runStop cycle => wordBytes cycle
  | .contactClosed i r x => [BitVec.ofNat 8 i.val, contactFlags r x]
  | .contactOpened i r x => [BitVec.ofNat 8 i.val, contactFlags r x]
  | .contactAmbiguous i set => [BitVec.ofNat 8 i.val, flagByte set]
  | .stationUp => []
  | .stationDown reason => [reason.code]
  | .stationFault set => [flagByte set]
  | .resyncDone count => halfBytes count
  | .outputApplied revision => halfBytes revision
  | .sounderDone outcome collapsed => [outcome.code, 0#8] ++ halfBytes collapsed
  | .lineDisturbed => []
  | .lineClear milliseconds => halfBytes milliseconds
  | .hostValue field => [field]

/-- The kind code of LOSS (section 11.5). -/
def lossCode : Byte := 0x7F#8

/-- The station byte of a record: 0xFF for none (section 11.5). -/
def stationByte : Option Entry → Byte
  | some e => BitVec.ofNat 8 e.val
  | none => 0xFF#8

/-- The sixteen bytes of a record; every byte not named for the kind is 0 (R180). -/
def recordBytes (serial : Half) (code station : Byte) (time : Word) (detail : List Byte) : List Byte :=
  halfBytes serial ++ [code, station] ++ wordBytes time ++ detail ++ zeroBytes (8 - detail.length)

/-- The record formed for what is taken; LOSS carries its four counts and the panel clock at its taking (R114, R180). -/
def NextRecord.bytes (serial : Half) (now : Word) : NextRecord → List Byte
  | .loss gap =>
    recordBytes serial lossCode (stationByte none) now
      (halfBytes gap.contact ++ halfBytes gap.station ++ halfBytes gap.output ++ halfBytes gap.control)
  | .event e => recordBytes serial e.body.code (stationByte e.station) e.time e.body.detail

/-- Whether the record is of an urgent kind (R115). -/
def NextRecord.urgent : NextRecord → Bool
  | .loss _ => true
  | .event e => e.body.urgent

/-- The drain is complete: the staging queue is empty and the open gap all zero (R119). -/
def Journal.drained (j : Journal) : Bool := j.staging.isEmpty && j.openGap.isZero

/-- The events that the expiry of the stop drain limit discards (R120 step 1). -/
def Journal.leftOver (j : Journal) : Nat :=
  j.staging.length + (j.staging.map (·.gap.total)).sum + j.openGap.total

/-- What is left is counted and discarded (R120). -/
def Journal.discardLeft (j : Journal) : Journal :=
  { j with discarded := satAdd j.discarded j.leftOver, staging := [], openGap := Gap.zero }

/-- The announcement of the records that a MARK covers: the announced count takes the covered count and the unannounced
count grows by the number announced (R113). -/
def Journal.announce (covered : Word) (j : Journal) : Journal :=
  { j with
    announced := covered
    unannounced := satAdd j.unannounced (covered - j.announced).toNat }

/-- JOURNAL is set: the unannounced count is zeroed and the hold-off timer stops (R129 step 4, R130, R131). -/
def State.signalJournal (s : State) : State :=
  ((s.setCause .journal).onIrq fun i => { i with holdOff := none }).onJournal fun j => { j with unannounced := 0#16 }

/-- The coalescing logic's decision after a MARK completion that announced records: `before` is the unannounced count
before them (R129 steps 2 to 4). -/
def State.coalesce (before : Half) (urgent : Bool) (s : State) : State :=
  let timed :=
    if before = 0#16 ∧ s.cfg.holdOff ≠ 0 then
      s.onIrq fun i => { i with holdOff := some (s.timer (.ms s.cfg.holdOff)) }
    else s
  if s.cfg.holdOff = 0 ∨ urgent = true ∨ s.cfg.threshold ≤ s.journal.unannounced.toNat then timed.signalJournal
  else timed

/-- A MARK completed: the records it covers are announced, and the coalescing logic decides; a MARK covering no new
record does nothing (R113, R129). -/
def State.announce (covered : Word) (urgent : Bool) (s : State) : State :=
  let announced := s.onJournal (·.announce covered)
  if covered = s.journal.announced then announced else announced.coalesce s.journal.unannounced urgent

end Sys2Proof.Machine
end

