-- ==== Sys2Proof/Machine/Layout.lean ====
section
/-! DEFINITION. Byte layouts of the exchange area and the addresses of transactions (11 Layouts, R151, R159). -/

namespace Sys2Proof.Machine

/-! ### What the block writes -/

/-- The code of a link state in the status block (R179). -/
def LinkState.code : LinkState → Byte
  | .disabled => 0#8
  | .searching => 1#8
  | .syncing => 2#8
  | .online => 3#8

/-- The bytes of a bitmap: byte `r` is row `r` (R179). -/
def bitmapBytes (b : BitVec 64) : List Byte := (List.range 8).map fun r => b.extractLsb' (8 * r) 8

/-- The thirteen counters in their order (R179). -/
def Station.counterList (st : Station) : List Half :=
  let c := st.link.counters
  [c.visits, c.ok, c.noReply, c.charError, c.truncated, c.badCrc, c.badFormat, c.wrongAddress, c.turnMismatch,
    c.waits, c.timesLost, st.contacts.bounces, st.output.tornReads]

/-- The 64 bytes of a station's status block, from the owners' records as they stand (R140, R179). -/
def Station.statusBytes (st : Station) : List Byte :=
  [st.link.state.code, flagByte st.contacts.known,
    flagByte st.link.localFault ||| (flagByte st.link.sounderActive <<< 1), 0#8] ++
  halfBytes st.output.applied ++ halfBytes st.output.sounderDone ++ halfBytes st.link.resyncDone ++ zeroBytes 2 ++
  bitmapBytes st.contacts.bitmap ++ st.counterList.flatMap halfBytes ++ zeroBytes 18

/-- The 64 bytes of a MARK: the covered count, and every other field as it stands when the transaction starts (R136,
R178). -/
def State.markBytes (covered : Word) (s : State) : List Byte :=
  wordBytes covered ++ wordBytes s.sched.cycleNumber ++ wordBytes s.exch.sweepCount ++
  wordBytes s.journal.discarded ++ wordBytes s.run.clock ++ halfBytes s.tornReads ++ halfBytes s.line.stray ++
  [flagByte s.line.disturbed] ++ zeroBytes 39

/-- The address of the first byte of a read (R151, R167, R178, R179). -/
def State.readAddress (r : Read) (s : State) : Nat :=
  s.run.exchangeBase +
    match r with
    | .start i => if i < 2 then 0x40 * i else 0x100 + 128 * (i - 2)
    | .released => Config.releasedOffset
    | .live e => Config.entryOffset e + Config.liveOffset
    | .image e => Config.entryOffset e + Config.imageOffset

/-- The bytes of a read (R151, R167). -/
def Read.size : Read → Nat
  | .start i => if i < 2 then 64 else 44
  | .released => 4
  | .live _ => 12
  | .image _ => 20

/-- The address of the first byte of a write (R151). -/
def State.writeAddress (w : WriteEntry) (s : State) : Nat :=
  match w with
  | .status e => s.run.exchangeBase + Config.entryOffset e + Config.statusOffset
  | .record slot _ => s.cfg.journalBase.toNat + 16 * slot
  | .mark _ _ => s.run.exchangeBase + Config.markOffset

/-- The bytes of a write, fixed when its transaction starts (R153). -/
def State.writeBytes (w : WriteEntry) (s : State) : List Byte :=
  match w with
  | .status e => (s.station e).statusBytes
  | .record _ bytes => bytes
  | .mark covered _ => s.markBytes covered

/-- The address of a transaction's first byte (R158). -/
def Transaction.address : Transaction → Nat
  | .read _ a => a
  | .write _ a _ => a

/-! ### What the block reads -/

/-- The live part of a station entry (R138, R179), from its 12 bytes. -/
structure LivePart where
  enable : Byte
  revision : Half
  sounderCount : Half
  resyncCount : Half
  pattern : Byte
deriving DecidableEq, Repr

/-- Read a live part's fields; unused bytes are not examined (R176, R179). -/
def readLivePart (bytes : List Byte) : LivePart where
  enable := byteAt bytes 0
  revision := halfAt bytes 4
  sounderCount := halfAt bytes 6
  resyncCount := halfAt bytes 8
  pattern := byteAt bytes 10

/-- The control block's first 64 bytes in the start image (R167). -/
def StartImage.control (i : StartImage) : List Byte := i.blocks.getD 0 []

/-- The released count as read at start: offset 0x078, in the second start read (R167, R178). -/
def StartImage.released (i : StartImage) : Word := wordAt (i.blocks.getD 1 []) 0x38

/-- A station entry's 44 bytes in the start image (R167). -/
def StartImage.entry (i : StartImage) (e : Entry) : List Byte := i.blocks.getD (2 + e.val) []

/-- A station entry's live part as read at start (R134). -/
def StartImage.live (i : StartImage) (e : Entry) : LivePart := readLivePart ((i.entry e).drop Config.liveOffset)

/-- The layout version (R178). -/
def StartImage.layoutVersion (i : StartImage) : Word := wordAt i.control 0x00

/-- The start-time fields of the control block, each a whole number of its width (R135, R178). -/
def StartImage.settings (i : StartImage) : Settings where
  lineRate := (byteAt i.control 0x04).toNat
  retryLimit := (byteAt i.control 0x05).toNat
  missLimit := (byteAt i.control 0x06).toNat
  searchDivisor := (byteAt i.control 0x07).toNat
  responseWindow := (halfAt i.control 0x08).toNat
  cycleMinimum := (halfAt i.control 0x0A).toNat
  sweepPeriod := (byteAt i.control 0x0C).toNat
  ambiguityReport := (byteAt i.control 0x0D).toNat
  threshold := (byteAt i.control 0x0E).toNat
  stationCount := (byteAt i.control 0x0F).toNat
  holdOff := (halfAt i.control 0x10).toNat
  stopDrainLimit := (halfAt i.control 0x12).toNat
  journalCapacity := (halfAt i.control 0x14).toNat
  journalBase := longAt i.control 0x18

/-- The start-time part of a station entry (R137, R179). -/
structure EntryFields where
  configured : Bool
  address : Nat
  rows : Nat
  columns : Nat
  diodeIsolated : Bool
  indicatorCount : Nat
  closeDebounce : Nat
  openDebounce : Nat
deriving DecidableEq, Repr

/-- Read a station entry's start-time part (R137, R179). -/
def StartImage.fields (i : StartImage) (e : Entry) : EntryFields :=
  let b := i.entry e
  { configured := byteAt b 0x00 != 0#8
    address := (byteAt b 0x01).toNat
    rows := (byteAt b 0x02).toNat
    columns := (byteAt b 0x03).toNat
    diodeIsolated := byteAt b 0x04 != 0#8
    indicatorCount := (byteAt b 0x05).toNat
    closeDebounce := (byteAt b 0x06).toNat
    openDebounce := (byteAt b 0x07).toNat }

/-- The entry is configured and below the station count: it takes part in the run (R133, R137). -/
def StartImage.takesPart (i : StartImage) (e : Entry) : Bool :=
  decide (e.val < i.settings.stationCount) && (i.fields e).configured

/-- The entries of the run, in ascending index (R137, R167). -/
def StartImage.entries (i : StartImage) : List Entry := allEntries.filter i.takesPart

end Sys2Proof.Machine
end

