-- ==== Sys2Proof/Machine/Port.lean ====
section
/-! DEFINITION. The Memory Port: the read request list, the write queue with its merges, the arbiter, and the start and
end of a transaction (09 The Memory Port). -/

namespace Sys2Proof.Machine

/-! ### Requests -/

/-- A write is in flight: it is the head of the write queue (R153). -/
def Port.writeInFlight (p : Port) : Bool :=
  match p.inFlight with
  | some (.write _ _ _) => true
  | _ => false

/-- The write entries whose transaction has not started (R153). -/
def Port.unstarted (p : Port) : List WriteEntry := if p.writeInFlight then p.writes.drop 1 else p.writes

/-- An entry of the write queue is free (R153). -/
def Port.hasFree (p : Port) : Bool := decide (p.writes.length < Config.writesMax)

/-- A STATUS request for a station: it merges, stands for nothing further, joins at the tail, or is owed (R154). -/
def Port.requestStatus (e : Entry) (p : Port) : Port :=
  if WriteEntry.status e ∈ p.unstarted then p
  else if p.owed[e.val] then p
  else if p.hasFree then { p with writes := p.writes ++ [.status e] }
  else { p with owed := p.owed.set e.val true e.isLt }

/-- The tail entry where it is an unstarted MARK: its covered count and urgent mark (R155). -/
def Port.tailMark (p : Port) : Option HeldMark :=
  match p.unstarted.getLast? with
  | some (.mark covered urgent) => some ⟨covered, urgent⟩
  | _ => none

/-- A RECORD request: in front of an unstarted MARK at the tail, and otherwise at the tail (R155 step 1). -/
def Port.requestRecord (slot : Nat) (bytes : List Byte) (p : Port) : Port :=
  match p.tailMark with
  | some m => { p with writes := p.writes.dropLast ++ [.record slot bytes, .mark m.covered m.urgent] }
  | none => { p with writes := p.writes ++ [.record slot bytes] }

/-- A MARK merges into an unstarted MARK at the tail, and otherwise joins at the tail (R155 step 2). -/
def Port.joinMark (covered : Word) (urgent : Bool) (p : Port) : Port :=
  match p.tailMark with
  | some m => { p with writes := p.writes.dropLast ++ [.mark covered (m.urgent || urgent)] }
  | none => { p with writes := p.writes ++ [.mark covered urgent] }

/-- A MARK request: it merges into the held MARK, merges or joins at the tail, or is held where the queue is full
(R155 steps 2 and 4). -/
def Port.requestMark (covered : Word) (urgent : Bool) (p : Port) : Port :=
  match p.heldMark with
  | some m => { p with heldMark := some ⟨covered, m.urgent || urgent⟩ }
  | none =>
    if p.tailMark.isSome || p.hasFree then p.joinMark covered urgent
    else { p with heldMark := some ⟨covered, urgent⟩ }

/-- The lowest station entry whose status owed mark is set (R155). -/
def Port.firstOwed (p : Port) : Option Entry := allEntries.find? fun e => p.owed[e.val]

/-- No status owed mark is set (R111 condition 4). -/
def Port.noneOwed (p : Port) : Bool := p.firstOwed.isNone

/-- An entry freed by a completion is offered: to the lowest status owed mark first, then to the held MARK (R155). -/
def Port.offerFreed (p : Port) : Port :=
  match p.firstOwed with
  | some e => { p with writes := p.writes ++ [.status e], owed := p.owed.set e.val false e.isLt }
  | none =>
    match p.heldMark with
    | some m => { p.joinMark m.covered m.urgent with heldMark := none }
    | none => p

/-- Reads join the read request list at the tail (R152). -/
def Port.requestReads (rs : List Read) (p : Port) : Port := { p with reads := p.reads ++ rs }

/-! ### Transactions -/

/-- A read leaves the head of the list and becomes the transaction in flight (R152, R156). -/
def State.startRead (r : Read) (rest : List Read) (s : State) : State :=
  s.onPort fun p => { p with reads := rest, inFlight := some (.read r (s.readAddress r)), lastServed := .read }

/-- The head of the write queue becomes the transaction in flight; its content is fixed now (R153, R156). -/
def State.startWrite (w : WriteEntry) (s : State) : State :=
  s.onPort fun p =>
    { p with inFlight := some (.write w (s.writeAddress w) (s.writeBytes w)), lastServed := .write }

/-- The arbiter's choice: the head of the one list that waits, and where both wait the kind not served last (R156). -/
def State.chooseTransaction (s : State) : State :=
  match s.port.reads, s.port.writes with
  | [], [] => s
  | r :: rest, [] => s.startRead r rest
  | [], w :: _ => s.startWrite w
  | r :: rest, w :: _ => if s.port.lastServed = .read then s.startWrite w else s.startRead r rest

/-- The next transaction starts the moment none is in flight and one is waiting, in STARTING, RUNNING and STOPPING
(R151). -/
def State.startTransaction (s : State) : State :=
  if s.run.state.transacts && s.port.inFlight.isNone then s.chooseTransaction else s

/-- A STATUS request for a station, which clears its counters changed mark (R141, R154). -/
def State.requestStatus (e : Entry) (s : State) : State :=
  ((s.onPort (·.requestStatus e)).onLink e fun l => { l with countersChanged := false }).startTransaction

/-- A MARK request (R155). -/
def State.requestMark (covered : Word) (urgent : Bool) (s : State) : State :=
  (s.onPort (·.requestMark covered urgent)).startTransaction

/-- A RECORD request (R155). -/
def State.requestRecord (slot : Nat) (bytes : List Byte) (s : State) : State :=
  (s.onPort (·.requestRecord slot bytes)).startTransaction

/-- Reads are asked for, all at once (R152). -/
def State.requestReads (rs : List Read) (s : State) : State := (s.onPort (·.requestReads rs)).startTransaction

/-- The read in flight has ended, its data acted on; the arbiter chooses again (R156; log entry 11). -/
def State.endRead (s : State) : State := (s.onPort fun p => { p with inFlight := none }).startTransaction

/-- A write has completed: its bytes are in memory, its entry leaves the queue, and the freed entry is offered (R153,
R155). -/
def State.endWrite (address : Nat) (bytes : List Byte) (s : State) : State :=
  { s with memory := memoryWrite address bytes s.memory }.onPort fun p =>
    { p with writes := p.writes.drop 1, inFlight := none }.offerFreed

/-! ### Withdrawals, quiet and fault -/

/-- The Memory Port holds nothing: no transaction in flight and nothing waiting (R160). -/
def Port.quiet (p : Port) : Bool :=
  p.inFlight.isNone && p.reads.isEmpty && p.writes.isEmpty && p.noneOwed && p.heldMark.isNone

/-- A live-part read (R143). -/
def Read.isLive : Read → Bool
  | .live _ => true
  | _ => false

/-- A read of the sweep: the released count or a live part (R143). -/
def Read.ofSweep : Read → Bool
  | .released | .live _ => true
  | _ => false

/-- A sweep read is in progress. -/
def Port.sweepReadInFlight (p : Port) : Bool :=
  match p.inFlight with
  | some (.read r _) => r.ofSweep
  | _ => false

/-- The sweep's reads not yet started (R143). -/
def Port.sweepReads (p : Port) : List Read := p.reads.filter Read.ofSweep

/-- Live-part reads not yet started are withdrawn (R149). -/
def Port.withdrawLive (p : Port) : Port := { p with reads := p.reads.filter fun r => !r.isLive }

/-- Every read not started is withdrawn (R160). -/
def Port.withdrawReads (p : Port) : Port := { p with reads := [] }

/-- What the Memory Port holds once a fault has ended a transaction: the captured address, empty lists, and the
transaction that a late answer may answer (R158, R160). -/
def Port.faulted (failed : Transaction) (late : Bool) (p : Port) : Port :=
  { p with
    reads := []
    writes := []
    inFlight := none
    owed := Vector.replicate 16 false
    heldMark := none
    faultAddr := BitVec.ofNat 64 failed.address
    abandoned := if late then some failed else none }

/-- The Memory Port at start: empty, with the fault capture kept (R159, R161). -/
def Port.started (p : Port) : Port := { Port.reset with faultAddr := p.faultAddr, abandoned := p.abandoned }

end Sys2Proof.Machine
end

