-- ==== Sys2Proof/Machine/Scheduler.lean ====
section
/-! DEFINITION. The Poll Scheduler over the whole state: send requests, visits and tries, the cycle walk and the time
marks (03 Station Links and the Poll Cycle). -/

namespace Sys2Proof.Machine

/-- The Line Engine refuses send requests at once in DISTURBED (R5, R15). -/
def State.refuses (s : State) : Bool := s.line.state == .disturbed

/-- A send request is made in a state other than DISTURBED (R5). -/
def State.makeRequest (r : SendRequest) (s : State) : State := s.onLine (·.takeRequest s.run.clock r)

/-- The end of a visit, or a loss or disable outside one: a STATUS request where the status changed mark is set, and
then the events, in order (R63). -/
def State.report (e : Entry) (bodies : List EventBody) (s : State) : State :=
  (if (s.station e).link.statusChanged then
    (s.requestStatus e).onLink e fun l => { l with statusChanged := false }
  else s).submitBodies e bodies

/-- The visit at a station ends with a result (R49 to R54, R60, R63); its index is passed (R45). -/
def State.endVisit (e : Entry) (result : VisitResult) (s : State) : State :=
  let ended := (s.station e).endVisit s.cfg s.run.clock result
  ((s.onStation e fun _ => ended.1).onSched fun c => { c with visit := none, nextIndex := e.val + 1 }).report e ended.2

/-- The send request of a visit's tries: the frame, and the expected turn taken with it (R19, R29, R47). -/
def Station.request (e : Entry) (st : Station) : SendRequest :=
  ⟨buildFrame st.address st.framePlan, true, some e, st.expectedTurn⟩

/-- A visit begins at a station: the choice of frame and the first try's request; a request refused at once makes it a
Visit LINE (R5, R47, R54). -/
def State.beginVisit (e : Entry) (s : State) : State :=
  let begun := s.onStation e (·.beginVisit)
  let r := (begun.station e).request e
  if s.refuses then begun.endVisit e .line
  else (begun.makeRequest r).onSched fun c => { c with visit := some ⟨e, r, 1⟩ }

/-- A station of the poll list (R43). -/
def Station.polled (st : Station) : Bool := st.link.state != .disabled

/-- The walk over the entries not yet passed, to the next visit or to the end of the cycle (R44, R45). -/
def State.walkOver : List Entry → State → State
  | [], s => s.onSched fun c => { c with cycleInProgress := false }
  | e :: rest, s =>
    if (s.station e).polled then
      let tested := s.onLink e (·.testHold s.run.clock)
      if (s.station e).link.skipped s.run.clock s.sched.cycleNumber s.cfg.searchDivisor then
        State.walkOver rest (tested.onSched fun c => { c with nextIndex := e.val + 1 })
      else
        let begun := tested.beginVisit e
        if begun.sched.visit.isSome then begun else State.walkOver rest begun
    else State.walkOver rest s

/-- The walk goes on above the last index passed (R45). -/
def State.walk (s : State) : State :=
  State.walkOver (allEntries.filter fun e => decide (s.sched.nextIndex ≤ e.val)) s

/-- A cycle starts with its number and its timer, below the lowest index (R44). -/
def State.startCycle (number : Word) (s : State) : State :=
  s.onSched fun c =>
    { c with
      cycleNumber := number
      cycleInProgress := true
      cycleTimer := .running (s.timer (.ms (max 1 s.cfg.cycleMinimum)))
      nextIndex := 0 }

/-- The send request of a TIME MARK, whose mark number is formed now (R26, R46). -/
def State.markRequest (s : State) : SendRequest := ⟨timeMarkFrame s.run.clock, false, none, 0#3⟩

/-- A due mark is sent, or dropped where the line is DISTURBED (R46). -/
def State.sendDueMark (s : State) : State :=
  if s.sched.markDue then
    let taken := s.onSched fun c => { c with markDue := false }
    if s.refuses then taken else taken.makeRequest s.markRequest
  else s

/-- The walk of the cycle in progress goes on, and the next cycle starts where it has ended and the cycle timer has
expired (R44). -/
def State.continueCycle (s : State) : State :=
  let walked := if s.sched.cycleInProgress then s.walk else s
  if walked.sched.cycleInProgress = false ∧ walked.sched.cycleTimer = .expired then
    (walked.startCycle (walked.sched.cycleNumber + 1#32)).walk
  else walked

/-- What the scheduler does in RUNNING when no visit is in progress and the send place is empty: a due mark first, and
where none is sent the walk (R44 to R46; log entry 12). -/
def State.schedule (s : State) : State :=
  if s.run.state = .running ∧ s.sched.visit = none ∧ s.line.sendPlace = none then
    let marked := s.sendDueMark
    if marked.line.sendPlace.isSome then marked else marked.continueCycle
  else s

/-- Another try is permitted after a failure outcome (R49). -/
def State.permitsRetry (v : Visit) (s : State) : Bool :=
  decide (v.tries < 1 + s.cfg.retryLimit) && s.run.state == .running && !(s.station v.entry).link.disablePending

/-- The outcome of a try reaches the scheduler: its counter, and then the visit's end or another try (R49). -/
def State.deliver (outcome : TryOutcome) (s : State) : State :=
  match s.sched.visit with
  | none => s
  | some v =>
    let counted := s.onLink v.entry (·.countOutcome outcome)
    match outcome.result with
    | some result => counted.endVisit v.entry result
    | none =>
      if counted.permitsRetry v then
        (counted.makeRequest v.request).onSched fun c => { c with visit := some { v with tries := v.tries + 1 } }
      else counted.endVisit v.entry .miss

/-- What frame judgement compares the reply to a station's frame with (R29, R31). -/
def State.judgedAgainst (e : Entry) (expected : Turn) (s : State) : JudgedAgainst where
  address := (s.station e).address
  rows := (s.station e).contacts.rows
  columns := (s.station e).contacts.columns
  expected := expected

/-- The outcome of an exchange from how it ended at the Line Engine (R16, R37). -/
def Ending.outcome (against : JudgedAgainst) : Ending → TryOutcome
  | .noReply => .noReply
  | .charError => .charError
  | .truncated => .truncated
  | .sequence outOfRange chars => judge against outOfRange chars

/-- The ending of the exchange of a request reaches the scheduler as its outcome (R16, R37). -/
def State.exchangeEnded (request : Option SendRequest) (ending : Ending) (s : State) : State :=
  match request with
  | some ⟨_, _, some e, expected⟩ => s.deliver (ending.outcome (s.judgedAgainst e expected))
  | _ => s

/-- The scheduler's own items at entry to HALTED and FAULTED: a visit ends with no result; the others are kept, and the
two timers stand still with the panel clock (R64; log entry 28). -/
def Scheduler.halted (c : Scheduler) : Scheduler := { c with visit := none }

end Sys2Proof.Machine
end

