-- ==== Sys2Proof/Machine/Exchange.lean ====
section
/-! DEFINITION. The Exchange Unit: sweeps, the judgement of what they read, the hand-overs, the status pass and the
requests for image fetches (08 The Exchange Area). -/

namespace Sys2Proof.Machine

/-! ### The sweep -/

/-- The reads of a sweep: the released count, and in RUNNING the live part of each entry that takes part (R143). -/
def State.sweepReadList (s : State) : List Read :=
  .released :: (if s.run.state = .running then s.takingPart.map .live else [])

/-- A sweep begins and places its reads (R143). -/
def State.beginSweep (s : State) : State :=
  (s.onExch fun x => { x with sweepInFlight := true }).requestReads s.sweepReadList

/-- A sweep is requested (R142). -/
def State.requestSweep (s : State) : State :=
  if s.exch.sweepInFlight then s.onExch fun x => { x with sweepAgain := true } else s.beginSweep

/-- The status pass over some entries: a STATUS request where the counters changed mark is set (R148). -/
def State.statusPassOver : List Entry → State → State
  | [], s => s
  | e :: rest, s =>
    State.statusPassOver rest (if (s.station e).link.countersChanged then s.requestStatus e else s)

/-- The status pass, in ascending entry index (R148). -/
def State.statusPass (s : State) : State := s.statusPassOver s.takingPart

/-- A sweep ends: its status pass, its count, and a further sweep where the sweep-again mark is set (R142, R143). -/
def State.endSweep (s : State) : State :=
  let passed := s.statusPass.onExch fun x =>
    { x with sweepInFlight := false, sweepAgain := false, sweepCount := x.sweepCount + 1#32 }
  if s.exch.sweepAgain then passed.beginSweep else passed

/-- The sweep ends once its last read has been acted on (R143). -/
def State.endSweepIfDone (s : State) : State :=
  if s.exch.sweepInFlight ∧ s.port.sweepReads = [] then s.endSweep else s

/-! ### Reports -/

/-- An invalid value is reported: HOST_VALUE with its field code, and the HOSTVAL cause (R128). -/
def State.reportHostValue (field : Byte) (e : Option Entry) (s : State) : State :=
  (s.submit (s.event e (.hostValue field))).setCause .hostval

/-- The released count read is judged, and an invalid value not yet remembered is reported (R109, R144). -/
def State.judgeReleased (v : Word) (s : State) : State :=
  if s.journal.releasedValid v then s.onJournal fun j => { j with view := v }
  else if s.exch.rememberedReleased = some v then s
  else (s.reportHostValue 16#8 none).onExch fun x => { x with rememberedReleased := some v }

/-! ### Counter pairs -/

/-- The findings on a counter pair (R146). -/
inductive PairFinding where
  | unchanged | valid | backward | tooFar
deriving DecidableEq, Repr

/-- The judgement of a value `v` against the owner's request count `r` and done count `d` (R146). -/
def judgePair (r d v : Half) : PairFinding :=
  if v = r then .unchanged
  else if forward v d < forward r d then .backward
  else if forward v d ≤ Config.forwardMax then .valid
  else .tooFar

/-- An invalid sounder request count is reported where it differs from the value remembered (R147). -/
def State.reportSounder (e : Entry) (v : Half) (s : State) : State :=
  if (s.station e).rememberedSounder = some v then s
  else (s.reportHostValue 27#8 (some e)).onStation e fun st => { st with rememberedSounder := some v }

/-- An invalid resync request count is reported where it differs from the value remembered (R147). -/
def State.reportResync (e : Entry) (v : Half) (s : State) : State :=
  if (s.station e).rememberedResync = some v then s
  else (s.reportHostValue 29#8 (some e)).onStation e fun st => { st with rememberedResync := some v }

/-! ### The four steps of a live part (R145) -/

/-- A visit is in progress at a station: a try of it is in progress (R60). -/
def State.tryInProgress (e : Entry) (s : State) : Bool := (s.sched.visit.map (·.entry)) == some e

/-- A disable outside a visit (R61, R63). -/
def State.disableNow (e : Entry) (s : State) : State :=
  let disabled := (s.station e).disable
  (s.onStation e fun _ => disabled.1).report e disabled.2

/-- Step 1: the enable flag (R40, R60). -/
def State.takeEnable (e : Entry) (enable : Byte) (s : State) : State :=
  if (s.station e).link.state = .disabled then
    if enable = 0#8 then s
    else (s.onLink e fun l => { l with state := .searching, statusChanged := true }).requestStatus e
  else if enable ≠ 0#8 then s.onLink e fun l => { l with disablePending := false }
  else if s.tryInProgress e then s.onLink e fun l => { l with disablePending := true }
  else s.disableNow e

/-- Step 2: the output revision (R90). -/
def State.takeRevision (e : Entry) (live : Half) (s : State) : State :=
  if (s.station e).link.state ≠ .disabled ∧ (s.station e).output.wantsFetch live = true then
    (s.onOutput e (·.requestFetch live)).requestReads [.image e]
  else s

/-- A valid sounder request count is handed over with its pattern; a rejection or a discard is followed by the STATUS
request and the events (R98, R99, R102, R145). -/
def State.handOverSounder (e : Entry) (count : Half) (pattern : Byte) (s : State) : State :=
  let link := (s.station e).link.state
  let handed := (s.station e).output.handOver count pattern link
  let taken := s.onOutput e fun _ => handed.1
  match handOverCourse pattern link with
  | .rejected => ((taken.requestStatus e).submitBodies e handed.2).reportHostValue 28#8 (some e)
  | .discarded => (taken.requestStatus e).submitBodies e handed.2
  | .pending => taken

/-- Step 3: the sounder request count, judged against the counts as steps 1 and 2 have left them (R145, R146; log entry
31). -/
def State.takeSounder (e : Entry) (count : Half) (pattern : Byte) (s : State) : State :=
  let o := (s.station e).output
  match judgePair o.sounderRequest o.sounderDone count with
  | .unchanged => s
  | .valid => s.handOverSounder e count pattern
  | .backward | .tooFar => s.reportSounder e count

/-- Step 4: the resync request count (R59, R145, R146). -/
def State.takeResync (e : Entry) (count : Half) (s : State) : State :=
  let l := (s.station e).link
  match judgePair l.resyncRequest l.resyncDone count with
  | .unchanged => s
  | .valid => s.onLink e fun l => { l with resyncRequest := count }
  | .backward | .tooFar => s.reportResync e count

/-- The live part of a station is acted on, in the fixed order (R145). -/
def State.takeLivePart (e : Entry) (live : LivePart) (s : State) : State :=
  (((s.takeEnable e live.enable).takeRevision e live.revision).takeSounder e live.sounderCount live.pattern).takeResync
    e live.resyncCount

/-! ### Image fetches -/

/-- A fetch of a station in RUNNING or STOPPING completes: discarded, accepted or torn; a torn one advances both
torn-read counts and sets the counters changed mark (R91 to R93). -/
def State.takeFetch (e : Entry) (block : List Byte) (s : State) : State :=
  let done := (s.station e).output.fetchCompleted block
  let taken := s.onOutput e fun _ => done.1
  if done.2 then
    { (taken.onLink e fun l => { l with countersChanged := true }) with tornReads := satInc s.tornReads }
  else taken

/-- Withdrawn fetches are reported to the Output Unit as discarded completions (R160). -/
def State.discardFetches : List Read → State → State
  | [], s => s
  | .image e :: rest, s => State.discardFetches rest (s.onOutput e (·.fetchDiscarded))
  | _ :: rest, s => State.discardFetches rest s

end Sys2Proof.Machine
end

