-- ==== Sys2Proof/Machine/StopControl.lean ====
section
/-! DEFINITION. The settling of the line, the stop drain, the entries to HALTED and FAULTED, full reset, and what
follows every change on the line (R17, R118 to R121, R158, R171, R172, R174). -/

namespace Sys2Proof.Machine

/-! ### Run changes -/

/-- A change of run state with a reason and its detail (R166). -/
def State.runChange (r : RunState) (reason : Reason) (detail : Byte) (s : State) : State :=
  s.onRun fun c => { c with state := r, reason := reason, detail := detail }

/-- Return to HALTED at the end of STOPPING: STATE is set, and JOURNAL where records are unsignalled (R18, R64, R131,
R171 step 4). The line state is kept as it stands: QUIET, with its gap stopped, where a stray has moved it from IDLE
after the report of settling (log entry 29). -/
def State.haltFromStopping (s : State) : State :=
  let halted :=
    ((((s.runChange .halted .none 0#8).setCause .state).onLine Line.switchOff).onSched Scheduler.halted).onIrq
      fun i => { i with holdOff := none }
  if s.journal.unannounced = 0#16 then halted else halted.signalJournal

/-- Return to HALTED from an abandoned start, or from one that failed its checks: the start image is discarded and
every unit keeps what it holds (R167 step 2, R169). -/
def State.haltFromStarting (reason : Reason) (detail : Byte) (s : State) : State :=
  ((s.runChange .halted reason detail).onRun fun c =>
    { c with startImage := ⟨[], []⟩, startAbandoned := false }).setCause .state

/-- HALTED is entered at the first moment the Memory Port is quiet, after the end of the drain or after STOP in
STARTING (R160, R169, R171). -/
def State.haltIfQuiet (s : State) : State :=
  if s.run.state = .stopping ∧ s.journal.drain = .ended ∧ s.port.quiet = true then s.haltFromStopping
  else if s.run.state = .starting ∧ s.run.startAbandoned = true ∧ s.port.inFlight = none then
    s.haltFromStarting .none 0#8
  else s

/-- A transaction in flight fails: the fault sequence and entry to FAULTED; `late` says that the bus may still answer.
The line's timers and the hold-off timer are stopped; the others stand still with the panel clock (R158, R172, R18,
R64, R122, R131, R150; log entries 15 and 28). -/
def State.fault (late : Bool) (s : State) : State :=
  match s.port.inFlight with
  | none => s
  | some failed =>
    let cut := s.cutOffWrite
    let captured := cut.onPort (·.faulted failed late)
    let released := captured.onLine Line.released
    let stopped := (released.onSched Scheduler.halted).onExch fun x => { x with sweepInFlight := false }
    let frozen := stopped.onIrq fun i => { i with holdOff := none }
    let entered := (frozen.runChange .faulted .none 0#8).onRun fun c =>
      { c with multiple := false, startAbandoned := false }
    (entered.setCause .fault).setCause .state

/-- Full reset: every unit takes its full-reset values, and the reset line is held asserted. What memory holds, the
level of the pair and the commands that wait are not the block's to reset (R174). -/
def State.fullReset (s : State) : State :=
  { State.reset with
    pending := s.pending
    run := { RunControl.reset with resetAsserted := true }
    line := { Line.reset with pairAtRest := s.line.pairAtRest }
    memory := s.cutOffWrite.memory
    draws := s.cutOffWrite.draws }

/-! ### The stop drain -/

/-- The drain ends: the final MARK, the end of the sweeps with the status pass in its place, and the withdrawal of every
unstarted read (R121, R148, R149, R160). -/
def State.endDrain (s : State) : State :=
  let ended := s.onJournal fun j => { j with drain := .ended, drainTimer := none }
  let marked := ended.requestMark s.journal.written false
  let swept := (marked.onExch fun x =>
    { x with sweepTimer := none, sweepAgain := false, sweepInFlight := false }).statusPass
  (swept.discardFetches swept.port.reads).onPort Port.withdrawReads

/-- The stop drain limit expires: what is left is counted and discarded, and the drain ends (R120). -/
def State.expireDrain (s : State) : State := (s.onJournal Journal.discardLeft).endDrain

/-- RUN_STOP is produced and submitted, which begins the stop drain; a limit of 0 expires at once (R117, R118, R171
step 2; log entry 13). -/
def State.beginDrain (s : State) : State :=
  let submitted := s.submit (s.event none (.runStop s.sched.cycleNumber))
  let begun := submitted.onJournal fun j =>
    { j with drain := .running, drainTimer := some (s.timer (.ms s.cfg.stopDrainLimit)) }
  if s.cfg.stopDrainLimit = 0 then begun.expireDrain else begun

/-- The line is settled: the send place is empty and the line state is IDLE or DISTURBED (R17). -/
def Line.atRest (l : Line) : Bool := l.sendPlace.isNone && (l.state == .idle || l.state == .disturbed)

/-- In STOPPING, the report that the line has settled, once, or the start of the stop limit once the send place is
empty (R17, R171 step 1). -/
def State.settle (s : State) : State :=
  if s.run.state = .stopping ∧ s.line.settled = false then
    if s.line.atRest then (s.onLine fun l => { l with settled := true, stopLimit := none }).beginDrain
    else if s.line.sendPlace = none ∧ s.line.stopLimit = none then
      s.onLine fun l => { l with stopLimit := some (s.timer (.ms Config.stopLimitMs)) }
    else s
  else s

/-- In STOPPING a cycle in progress ends when the visit in progress ends (R44); one with no visit in progress, a TIME
MARK being in the send place, ends at the entry, before the mark's answer (log entry 32). -/
def State.endCycleInStopping (s : State) : State :=
  if s.run.state = .stopping ∧ s.sched.visit = none then s.onSched fun c => { c with cycleInProgress := false } else s

/-- What follows a result or a "sent": the scheduler goes on in RUNNING, and the line settles in STOPPING (R17, R46,
R49, R64). -/
def State.proceed (s : State) : State := s.schedule.endCycleInStopping.settle

/-- A LINE_DISTURBED event, with the station of the refused request or none (R14 step 5, R17). -/
def State.submitDisturbed (e : Option Entry) (s : State) : State := s.submit (s.event e .lineDisturbed)

/-! ### Records -/

/-- The record former can take a record (R111 conditions 1 to 4). -/
def State.canTakeRecord (s : State) : Bool :=
  (s.run.state == .running || (s.run.state == .stopping && s.journal.drain != .ended)) &&
  decide (1 ≤ s.journal.room s.cfg.journalCapacity) && decide (s.port.writes.length + 2 ≤ Config.writesMax) &&
  s.port.noneOwed

/-- A record is formed: its serial and slot from the written count, its RECORD request, the written count's advance, and
its MARK request (R111, R112). -/
def State.formRecord (next : NextRecord) (left : Journal) (s : State) : State :=
  let w := s.journal.written
  let placed := (s.onJournal fun _ => left).requestRecord (w.toNat % s.cfg.journalCapacity)
    (next.bytes (w.setWidth 16) s.run.clock)
  (placed.onJournal fun j => { j with written := w + 1#32 }).requestMark (w + 1#32) next.urgent

/-- The drain completes when nothing is staged and the open gap is zero (R119). -/
def State.completeDrain (s : State) : State :=
  if s.journal.drain = .running ∧ s.journal.drained = true then s.endDrain else s

end Sys2Proof.Machine
end

