-- ==== Sys2Proof/Machine/StartControl.lean ====
section
/-! DEFINITION. The STARTING sequence: the start reads, the checks in their order, the image fetches, and steps 4 to 6
(R167), with the values that each unit takes at start (R18, R39, R64, R67, R87, R122, R132, R150, R161). -/

namespace Sys2Proof.Machine

/-! ### Checks -/

/-- A failed check: the reason and its detail (R167). -/
abbrev CheckFailure := Reason × Byte

/-- A check: its failure where the condition does not hold. -/
def failUnless (holds : Bool) (reason : Reason) (detail : Byte) : Option CheckFailure :=
  if holds then none else some (reason, detail)

/-- A value lies in an inclusive range (00, Numbers and units). -/
def within (low high n : Nat) : Bool := decide (low ≤ n) && decide (n ≤ high)

/-- Check 3: the ten parameters in ascending field code, each within its range (R135, R167). -/
def Settings.parameterChecks (c : Settings) : List (Option CheckFailure) :=
  [failUnless (within 1 50 c.responseWindow) .parameter 3#8,
   failUnless (within 0 3 c.retryLimit) .parameter 4#8,
   failUnless (within 1 15 c.missLimit) .parameter 5#8,
   failUnless (within 1 16 c.searchDivisor) .parameter 6#8,
   failUnless (within 0 1000 c.cycleMinimum) .parameter 7#8,
   failUnless (within 1 255 c.sweepPeriod) .parameter 8#8,
   failUnless (within 1 255 c.ambiguityReport) .parameter 9#8,
   failUnless (within 1 255 c.threshold) .parameter 12#8,
   failUnless (within 0 1000 c.holdOff) .parameter 13#8,
   failUnless (within 0 10000 c.stopDrainLimit) .parameter 14#8]

/-- The journal capacities: the powers of two from 64 to 4,096 (R107). -/
def capacityValid (n : Nat) : Bool := [64, 128, 256, 512, 1024, 2048, 4096].contains n

/-- The ring lies below the top of the address space and shares no byte with the exchange area (R107, R167 check 7). -/
def ringClear (c : Settings) (exchangeBase : Nat) : Bool :=
  let ring := c.journalBase.toNat
  let top := ring + 16 * c.journalCapacity
  decide (top ≤ 2 ^ 64) &&
    (decide (top ≤ exchangeBase) || decide (exchangeBase + Config.exchangeAreaBytes ≤ ring))

/-- Checks 1 to 8 (R167). -/
def StartImage.controlChecks (i : StartImage) (exchangeBase : Nat) : List (Option CheckFailure) :=
  let c := i.settings
  [failUnless (i.layoutVersion == 1#32) .layoutVersion 0#8, failUnless (within 0 4 c.lineRate) .rate 0#8] ++
  c.parameterChecks ++
  [failUnless (within 1 16 c.stationCount) .stationCount 0#8,
   failUnless (capacityValid c.journalCapacity) .journalSize 0#8,
   failUnless (c.journalBase.toNat % 16 == 0) .journalAlign 0#8,
   failUnless (ringClear c exchangeBase) .journalOverlap 0#8,
   failUnless (i.released == 0#32) .releaseNotZero 0#8]

/-- Check 9 on one configured entry below the station count (R137, R167). -/
def StartImage.entryChecks (i : StartImage) (e : Entry) : List (Option CheckFailure) :=
  let f := i.fields e
  let entry := BitVec.ofNat 8 e.val
  [failUnless (within 1 8 f.rows && within 1 8 f.columns) .geometry entry,
   failUnless (within 1 31 f.address) .address entry,
   failUnless (within 0 64 f.indicatorCount) .indicatorCount entry,
   failUnless (i.entries.all fun e' => decide (e.val ≤ e'.val) || (i.fields e').address != f.address)
     .duplicateAddress entry]

/-- The first check that fails, in the order of the table, or none (R167 step 2). -/
def StartImage.check (i : StartImage) (exchangeBase : Nat) : Option CheckFailure :=
  (i.controlChecks exchangeBase ++ i.entries.flatMap i.entryChecks).findSome? id

/-! ### The reads of STARTING -/

/-- The 18 start reads in their order (R167 step 1). -/
def startReads : List Read := (List.range 18).map .start

/-- START is accepted: STARTING, with the Memory Port at its start values and the start reads placed (R161, R166, R167
step 1, R175). -/
def State.acceptStart (s : State) : State :=
  (((s.runChange .starting .none 0#8).onRun fun c =>
    { c with startImage := ⟨[], []⟩, startAbandoned := false }).onPort Port.started).requestReads startReads

/-- The Journal Unit at STOP in STARTING: the staging queue and the gaps are empty, and the counts 0 (R122; log entry
14). -/
def Journal.abandoned (j : Journal) : Journal := { Journal.reset with drain := j.drain, drainTimer := j.drainTimer }

/-- The Exchange Unit at STOP in STARTING: no sweep, no sweep timer, the sweep count 0, and every remembered invalid
value none (R150; log entry 14). -/
def State.forgetSweeps (s : State) : State :=
  { s with
    exch := Exchange.reset
    stations := s.stations.map fun st => { st with rememberedSounder := none, rememberedResync := none } }

/-- STOP is accepted in STARTING: every read not started is withdrawn; the Line Engine, the Journal Unit and the Exchange
Unit take the values of that occasion, and every other unit keeps what it held (R18, R122, R150, R169; log entry 14).
The start image is kept until HALTED is entered, where R169 tells that it is discarded, so a fault of the read still in
flight finds it and keeps it (R175; log entry 14). -/
def State.abandonStart (s : State) : State :=
  let withdrawn := (s.onPort Port.withdrawReads).onRun fun c => { c with startAbandoned := true }
  ((withdrawn.onLine Line.released).onJournal Journal.abandoned).forgetSweeps.haltIfQuiet

/-! ### Start values of the units -/

/-- The result of the start fetch of an entry: none where it was torn (R89). -/
def StartImage.fetched (i : StartImage) (e : Entry) : Option (Half × List Byte) :=
  (i.fetches.find? fun f => f.entry == e).bind (·.accepted)

/-- A link record at start (R39). -/
def StartImage.startLink (i : StartImage) (e : Entry) : Link :=
  { Link.reset with
    state := if (i.live e).enable = 0#8 then .disabled else .searching
    resyncRequest := (i.live e).resyncCount
    resyncDone := (i.live e).resyncCount }

/-- A station's Contact Table at start (R66, R67). -/
def StartImage.startContacts (i : StartImage) (e : Entry) : ContactTable :=
  let f := i.fields e
  { rows := f.rows
    columns := f.columns
    closeDebounce := f.closeDebounce
    openDebounce := f.openDebounce
    diodeIsolated := f.diodeIsolated
    records := (geometry f.rows f.columns).map Contact.fresh
    bounces := 0#16 }

/-- An output record at start; the torn-read counter stands at 1 where the start fetch was torn (R87, R89). -/
def StartImage.startOutput (i : StartImage) (e : Entry) : Output :=
  let base :=
    { Output.reset with
      indicatorCount := (i.fields e).indicatorCount
      sounderRequest := (i.live e).sounderCount
      sounderDone := (i.live e).sounderCount
      sounderPattern := (i.live e).pattern }
  match i.fetched e with
  | some (revision, image) => { base with fetchedRevision := some revision, fetchedImage := image }
  | none => { base with tornReads := 1#16 }

/-- A station entry at start: the values of a configured entry below the station count, and those after full reset for
every other (R39, R67, R87, R133). -/
def StartImage.startStation (i : StartImage) (e : Entry) : Station :=
  if i.takesPart e then
    { Station.reset with
      takesPart := true
      address := BitVec.ofNat 5 (i.fields e).address
      link := i.startLink e
      contacts := i.startContacts e
      output := i.startOutput e }
  else Station.reset

/-- The start fetches found torn (R87, R89). -/
def StartImage.tornFetches (i : StartImage) : Nat := i.entries.countP fun e => (i.fetched e).isNone

/-- Step 4: every unit takes its start values from the start image, and the panel clock is set to 0 (R167). -/
def State.takeStartValues (s : State) : State :=
  let i := s.run.startImage
  { s with
    run := { s.run with clock := 0#32, startImage := ⟨[], []⟩, settings := some i.settings }
    irq := { s.irq with holdOff := none }
    line := s.line.started
    sched := Scheduler.reset
    stations := Vector.ofFn i.startStation
    tornReads := satAdd 0#16 i.tornFetches
    journal := Journal.reset
    exch := Exchange.reset
    port := s.port.started }

/-- STATUS requests for some entries, in order (R167 step 5). -/
def State.requestStatuses : List Entry → State → State
  | [], s => s
  | e :: rest, s => State.requestStatuses rest (s.requestStatus e)

/-- Step 5: a STATUS for every entry of the run, and a MARK covering 0 (R167). -/
def State.firstWrites (s : State) : State := (s.requestStatuses s.takingPart).requestMark 0#32 false

/-- Step 6: RUNNING, with STATE set, RUN_START staged, the receiver on, the two periodic timers started and the first
cycle begun (R18, R44, R64, R116, R142, R150, R167). -/
def State.enterRunning (s : State) : State :=
  let running := (s.runChange .running .none 0#8).setCause .state
  let started :=
    running.submit (running.event none (.runStart s.cfg.journalCapacity s.takingPart.length))
  let timed :=
    ((started.onLine Line.switchOn).onSched fun c =>
      { c with markTimer := some (s.timer (.ms Config.markPeriodMs)) }).onExch fun x =>
        { x with sweepTimer := some (s.timer (.ms s.cfg.sweepPeriod)) }
  (timed.startCycle 0#32).walk

/-- Steps 4 to 6, carried out together (R167). -/
def State.initialise (s : State) : State := s.takeStartValues.firstWrites.enterRunning

/-! ### Completed reads of STARTING -/

/-- The checks after the last start read: HALTED with the reason, or the image fetches, or steps 4 to 6 at once where no
entry is configured (R167 steps 2 and 3). -/
def State.checkStart (s : State) : State :=
  match s.run.startImage.check s.run.exchangeBase with
  | some (reason, detail) => (s.onPort fun p => { p with inFlight := none }).haltFromStarting reason detail
  | none =>
    match s.run.startImage.entries with
    | [] => s.initialise
    | entries => (s.requestReads (entries.map .image)).endRead

/-- A start read completes: its data are placed in the start image, and the last one leads to the checks (R167). -/
def State.takeStartRead (i : Nat) (block : List Byte) (s : State) : State :=
  let taken := s.onRun fun c =>
    { c with startImage := { c.startImage with blocks := c.startImage.blocks ++ [block] } }
  if i = 17 then taken.checkStart else taken.endRead

/-- The test of a start fetch: accepted where the revisions equal the live revision read at start (R89). -/
def StartImage.fetchResult (i : StartImage) (e : Entry) (block : List Byte) : StartFetch :=
  ⟨e, if bracketAgrees (i.live e).revision block then some ((i.live e).revision, imageOf block) else none⟩

/-- A start fetch completes, and the last one leads to steps 4 to 6 (R89, R167 step 4). -/
def State.takeStartFetch (e : Entry) (block : List Byte) (s : State) : State :=
  let taken := s.onRun fun c =>
    { c with
      startImage := { c.startImage with fetches := c.startImage.fetches ++ [c.startImage.fetchResult e block] } }
  if s.port.reads = [] then taken.initialise else taken.endRead

end Sys2Proof.Machine
end

