-- ==== Sys2Proof/Machine/Window.lean ====
section
/-! DEFINITION. The meanings of the reset line, the register window and the panel clock: FULL_RESET, RESET_RELEASE,
START, STOP, SWEEP, CLEAR_FAULT, UNDEFINED_COMMAND, the register writes, PANEL_CLOCK_ADVANCE (10, 07). -/

namespace Sys2Proof.Machine

/-- The outcome of every meaning: a next state. -/
abbrev Result := Host.Outcome State Fault Refusal

/-- A refused write sets REFUSED and changes nothing else (R126). -/
def State.refuse (s : State) : State := s.setCause .refused

/-- START written to COMMAND (R164, R167). -/
def State.commandStart (s : State) : State := if s.run.state = .halted then s.acceptStart else s.refuse

/-- Every fetch in flight is to be thrown away (R93, R149). -/
def State.markFetches (s : State) : State :=
  { s with stations := s.stations.map fun st => { st with output := st.output.markDiscard } }

/-- Entry to STOPPING from RUNNING: what each unit changes at that moment (R149, R170). -/
def State.enterStopping (s : State) : State :=
  let changed := (s.runChange .stopping .none 0#8).onSched fun c => { c with markDue := false }
  let withdrawn := changed.markFetches.onPort Port.withdrawLive
  let swept := if withdrawn.port.sweepReadInFlight then withdrawn else withdrawn.endSweepIfDone
  swept.proceed.haltIfQuiet

/-- STOP written to COMMAND (R164, R169, R170). -/
def State.commandStop (s : State) : State :=
  if s.run.state = .starting then s.abandonStart
  else if s.run.state = .running then s.enterStopping
  else s.refuse

/-- SWEEP written to COMMAND (R142, R164). -/
def State.commandSweep (s : State) : State := if s.run.state = .running then s.requestSweep else s.refuse

/-- CLEAR_FAULT written to COMMAND: HALTED, with STATE set and everything else as it stands (R164, R172), a sweep-again
mark frozen at the fault among it (R150; log entry 33). -/
def State.commandClearFault (s : State) : State :=
  if s.run.state = .faulted then (s.runChange .halted .none 0#8).setCause .state else s.refuse

/-- A write to COMMAND: the whole 32-bit value is the command code (R164). -/
def State.commandWrite (code : Word) (s : State) : State :=
  if code = 1#32 then s.commandStart
  else if code = 2#32 then s.commandStop
  else if code = 3#32 then s.commandSweep
  else if code = 4#32 then s.commandClearFault
  else s.refuse

/-- A write to EXBASE_LO: bits 0 to 11 are not stored (R165). -/
def State.writeExbaseLo (value : Word) (s : State) : State :=
  if s.run.state = .halted then s.onRun fun c => { c with exbaseLo := value &&& 0xFFFFF000#32 } else s.refuse

/-- A write to EXBASE_HI (R165). -/
def State.writeExbaseHi (value : Word) (s : State) : State :=
  if s.run.state = .halted then s.onRun fun c => { c with exbaseHi := value } else s.refuse

/-- A write to the register at a window offset; the read-only registers and the offsets that hold no register take no
write (R163). -/
def State.writeRegister (offset : BitVec 6) (value : Word) (s : State) : State :=
  if offset = 0x00#6 then s.writeExbaseLo value
  else if offset = 0x04#6 then s.writeExbaseHi value
  else if offset = 0x08#6 then s.commandWrite value
  else if offset = 0x10#6 then s.onIrq (·.clear value)
  else if offset = 0x14#6 then s.onIrq (·.setMask value)
  else s

/-- A write that reaches the window: ignored while the reset line is held asserted; otherwise the bytes not written are
taken as 0 (R163, R174). -/
def State.windowWrite (offset : BitVec 6) (lanes : BitVec 4) (value : Word) (s : State) : State :=
  if s.run.resetAsserted then s else s.writeRegister offset (laneValue lanes value)

/-- FULL_RESET (R174). -/
def execFullReset (s : State) : Result := .next s.fullReset

/-- RESET_RELEASE: the window takes writes and commands again (R174). -/
def execResetRelease (s : State) : Result := .next (s.onRun fun c => { c with resetAsserted := false })

/-- START: code 1 written to COMMAND (R164, R167). -/
def execStart (s : State) : Result := .next (s.windowWrite 0x08#6 0b1111#4 1#32)

/-- STOP: code 2 written to COMMAND (R164, R169, R170). -/
def execStop (s : State) : Result := .next (s.windowWrite 0x08#6 0b1111#4 2#32)

/-- SWEEP: code 3 written to COMMAND (R142, R164). -/
def execSweep (s : State) : Result := .next (s.windowWrite 0x08#6 0b1111#4 3#32)

/-- CLEAR_FAULT: code 4 written to COMMAND (R164, R172). -/
def execClearFault (s : State) : Result := .next (s.windowWrite 0x08#6 0b1111#4 4#32)

/-- UNDEFINED_COMMAND: any other value written to COMMAND (R126, R164); a term whose value names a command acts by
that code (log entry 19). -/
def execUndefinedCommand (lanes : BitVec 4) (value : Word) (s : State) : Result :=
  .next (s.windowWrite 0x08#6 lanes value)

/-- EXBASE_LO_WRITE (R165). -/
def execExbaseLoWrite (lanes : BitVec 4) (value : Word) (s : State) : Result :=
  .next (s.windowWrite 0x00#6 lanes value)

/-- EXBASE_HI_WRITE (R165). -/
def execExbaseHiWrite (lanes : BitVec 4) (value : Word) (s : State) : Result :=
  .next (s.windowWrite 0x04#6 lanes value)

/-- CAUSE_WRITE (R123). -/
def execCauseWrite (lanes : BitVec 4) (value : Word) (s : State) : Result := .next (s.windowWrite 0x10#6 lanes value)

/-- MASK_WRITE (R124). -/
def execMaskWrite (lanes : BitVec 4) (value : Word) (s : State) : Result := .next (s.windowWrite 0x14#6 lanes value)

/-- OTHER_REGISTER_WRITE (R163); a term whose offset is that of a register that takes writes acts as that write (log
entry 19). -/
def execOtherRegisterWrite (offset : BitVec 6) (lanes : BitVec 4) (value : Word) (s : State) : Result :=
  .next (s.windowWrite offset lanes value)

/-- PANEL_CLOCK_ADVANCE: one millisecond in RUNNING and STOPPING; the count wraps (R173), and a line in DISTURBED counts
it (R15). -/
def execPanelClockAdvance (s : State) : Result :=
  .next (if s.run.state.works then
    (s.onRun fun c => { c with clock := c.clock + 1#32 }).onLine Line.passMillisecond
  else s)

end Sys2Proof.Machine
end

