-- ==== Sys2Proof/Machine/PanelLine.lean ====
section
/-! DEFINITION. The meanings of the commands of the pair, the receiver and the line timers: CHARACTER_RECEIVED,
PAIR_RETURNS_TO_REST, PAIR_LEAVES_REST, START_BIT_CONFIRMED, RECEIVER_ARMED, FRAME_SENT and the expiries of the reply
window, the inter-character limit, the discard period, the quiet gap, the busy limit, the clear test and the stop limit
(01 The Panel Line). A command that cannot come in the state it finds changes nothing (log entry 1). -/

namespace Sys2Proof.Machine

/-- The Line Engine works in RUNNING and STOPPING (R162). -/
def State.works (s : State) : Bool := s.run.state.works

/-- Whether four character times have passed at the completion of a stray character for which the reply window's expiry
waited: fixed by the settings, or the free value (R8; log entry 6). -/
def State.gapPassed (s : State) : Bool :=
  gapPassedAtWindow s.cfg || (gapOpen s.cfg && Config.gapPassed s.draws)

/-- The draw of the free value above, made where the completion reaches NO_REPLY and the settings leave the gap open. -/
def State.drawGap (ending : Option Ending) (s : State) : State :=
  if ending = some .noReply ∧ gapOpen s.cfg = true then { s with draws := s.draws + 1 } else s

/-- The ending of an exchange, if there is one, reaches the scheduler, and the block goes on (R16, R49). -/
def State.afterEnding (request : Option SendRequest) (ending : Option Ending) (s : State) : State :=
  match ending with
  | none => s
  | some how => (s.exchangeEnded request how).proceed.haltIfQuiet

/-- A character completes (R3, R4, R8 to R13). -/
def State.receive (c : RxChar) (s : State) : State :=
  let taken := (s.line.characterEnds s.run.clock c).takeCharacter s.run.clock s.gapPassed c
  ((s.onLine fun _ => taken.1).drawGap taken.2).afterEnding s.line.sendPlace taken.2

/-- CHARACTER_RECEIVED (R3, R4). -/
def execCharacterReceived (data : Byte) (parityBit stopBit : Bool) (s : State) : Result :=
  .next (if s.works ∧ s.line.receiver = .inReception ∧ s.line.state ≠ .sending then
    s.receive (sampledChar data parityBit stopBit)
  else s)

/-- PAIR_RETURNS_TO_REST (R5, R11, R15). -/
def execPairReturnsToRest (s : State) : Result :=
  .next (if s.line.pairAtRest then s
  else if s.works then s.onLine (·.returnToRest s.run.clock)
  else s.onLine fun l => { l with pairAtRest := true })

/-- PAIR_LEAVES_REST (R3, R15). -/
def execPairLeavesRest (s : State) : Result :=
  .next (if s.line.pairAtRest = false then s
  else if s.works then s.onLine Line.leaveRest
  else s.onLine fun l => { l with pairAtRest := false })

/-- START_BIT_CONFIRMED (R3 steps 2 and 3, R8, R10). -/
def execStartBitConfirmed (s : State) : Result :=
  .next (if s.works ∧ s.line.state ≠ .sending then s.onLine Line.sampleStart else s)

/-- RECEIVER_ARMED (R3 steps 1 and 5). -/
def execReceiverArmed (s : State) : Result := .next (if s.works then s.onLine Line.arm else s)

/-- FRAME_SENT (R7 steps 3 to 5). -/
def execFrameSent (s : State) : Result :=
  .next (match s.line.sendPlace with
  | some r =>
    if s.works ∧ s.line.state = .sending then
      let sent := s.onLine (·.frameSent s.run.clock s.cfg.responseWindow r)
      if r.expectsReply then sent else sent.proceed.haltIfQuiet
    else s
  | none => s)

/-- REPLY_WINDOW_EXPIRY: held while a confirmed start bit is in reception, and otherwise NO_REPLY (R8). -/
def execReplyWindowExpiry (s : State) : Result :=
  .next (match s.line.reply with
  | .running _ =>
    if s.works ∧ s.line.state = .awaiting then
      if s.line.receiver = .inReception then s.onLine fun l => { l with reply := .expiryHeld }
      else (s.onLine (·.noReply (gapPassedAtWindow s.cfg))).afterEnding s.line.sendPlace (some .noReply)
    else s
  | .stopped | .expiryHeld => s)

/-- INTER_CHARACTER_LIMIT_EXPIRY: TRUNCATED (R10). -/
def execInterCharacterLimitExpiry (s : State) : Result :=
  .next (if s.works ∧ s.line.state = .receiving ∧ s.line.interChar.isSome then
    (s.onLine Line.truncated).afterEnding s.line.sendPlace (some .truncated)
  else s)

/-- DISCARD_PERIOD_END (R11 step 5). -/
def execDiscardPeriodEnd (s : State) : Result :=
  .next (if s.works ∧ s.line.state = .receiving ∧ s.line.discard ∧ s.line.discardRest.isSome then
    (s.onLine (·.endDiscard s.run.clock)).settle.haltIfQuiet
  else s)

/-- QUIET_GAP_EXPIRY (R12). -/
def execQuietGapExpiry (s : State) : Result :=
  .next (if s.works ∧ s.line.state = .quiet ∧ s.line.quietGap.isSome then
    (s.onLine Line.enterIdle).settle.haltIfQuiet
  else s)

/-- BUSY_LIMIT_EXPIRY: the waiting request is refused and the line is DISTURBED; the result LINE_DISTURBED is handled,
LINE_DISTURBED is submitted, and the scheduler goes on (R14, R54; log entry 10). -/
def execBusyLimitExpiry (s : State) : Result :=
  .next (match s.line.sendPlace with
  | some r =>
    if s.works ∧ s.line.busy.isSome then
      let disturbed := s.onLine (·.enterDisturbed s.run.clock)
      let told := if r.serves.isSome then disturbed.deliver .lineDisturbed else disturbed
      (told.submitDisturbed r.serves).proceed.haltIfQuiet
    else s
  | none => s)

/-- CLEAR_TEST_EXPIRY: IDLE, the flag clear, and LINE_CLEAR with the milliseconds spent in DISTURBED, for which a free
value is drawn (R15; log entry 9). -/
def execClearTestExpiry (s : State) : Result :=
  .next (if s.works ∧ s.line.state = .disturbed ∧ s.line.clearTest.isSome then
    let cleared := { s.onLine Line.clear with draws := s.draws + 1 }
    let detail := s.line.disturbedFor (Config.cutShort s.draws)
    (cleared.submit (s.event none (.lineClear detail))).settle.haltIfQuiet
  else s)

/-- STOP_LIMIT_EXPIRY: as the busy limit, with no request to refuse; the line is then settled (R17). -/
def execStopLimitExpiry (s : State) : Result :=
  .next (if s.run.state = .stopping ∧ s.line.stopLimit.isSome ∧ s.line.settled = false then
    ((s.onLine (·.enterDisturbed s.run.clock)).submitDisturbed none).settle.haltIfQuiet
  else s)

end Sys2Proof.Machine
end

