-- ==== Sys2Proof/Machine/Timers.lean ====
section
/-! DEFINITION. The meanings of the timers of the Poll Scheduler, the Exchange Unit, the Journal Unit and the Interrupt
Unit, and of the record former: CYCLE_TIMER_EXPIRY, TIME_MARK_DUE, SWEEP_TIMER_EXPIRY, STOP_DRAIN_LIMIT_EXPIRY,
HOLD_OFF_EXPIRY, RECORD_TAKEN. A command that cannot come in the state it finds changes nothing (log entry 1). -/

namespace Sys2Proof.Machine

/-- CYCLE_TIMER_EXPIRY: the next cycle starts where the cycle before has ended (R44). -/
def execCycleTimerExpiry (s : State) : Result :=
  .next (match s.sched.cycleTimer with
  | .running _ => if s.works then (s.onSched fun c => { c with cycleTimer := .expired }).schedule else s
  | .stopped | .expired => s)

/-- The timer of the next time mark, one period after the one before (R46, R173). -/
def Timer.next (period : Nat) (t : Timer) : Timer := ⟨t.since + BitVec.ofNat 32 period, .ms period⟩

/-- TIME_MARK_DUE: the mark is due, and is sent at once where no visit is in progress and the send place is empty (R46;
in STOPPING it is not sent, log entry 25). -/
def execTimeMarkDue (s : State) : Result :=
  .next (match s.sched.markTimer with
  | some t =>
    if s.works then
      (s.onSched fun c => { c with markDue := true, markTimer := some (t.next Config.markPeriodMs) }).schedule
    else s
  | none => s)

/-- SWEEP_TIMER_EXPIRY: the timer goes on at its period and a sweep is requested (R142). -/
def execSweepTimerExpiry (s : State) : Result :=
  .next (match s.exch.sweepTimer with
  | some t =>
    if s.works then (s.onExch fun x => { x with sweepTimer := some (t.next s.cfg.sweepPeriod) }).requestSweep else s
  | none => s)

/-- STOP_DRAIN_LIMIT_EXPIRY (R120, R121). -/
def execStopDrainLimitExpiry (s : State) : Result :=
  .next (if s.run.state = .stopping ∧ s.journal.drain = .running ∧ s.journal.drainTimer.isSome then
    s.expireDrain.haltIfQuiet
  else s)

/-- HOLD_OFF_EXPIRY: JOURNAL is set, the unannounced count is zeroed and the timer is stopped (R130). -/
def execHoldOffExpiry (s : State) : Result :=
  .next (if s.works ∧ s.irq.holdOff.isSome then s.signalJournal else s)

/-- RECORD_TAKEN: where every condition holds, the next record is formed; the last one completes the drain (R111, R112,
R119). -/
def execRecordTaken (s : State) : Result :=
  .next (match s.journal.takeNext with
  | some (next, left) =>
    if s.canTakeRecord then (s.formRecord next left).completeDrain.haltIfQuiet else s
  | none => s)

end Sys2Proof.Machine
end

