-- ==== Sys2Proof/Machine/Completions.lean ====
section
/-! DEFINITION. The meanings of the bus's answers: the completions of reads and writes, BUS_ERROR_RESPONSE,
MEMORY_ACCESS_TIMEOUT, LATE_ERROR_RESPONSE and LATE_COMPLETION (09 The Memory Port, 08, 10). An answer that the
transaction in flight cannot get changes nothing (log entry 1). -/

namespace Sys2Proof.Machine

/-- The released count is judged until the drain ends (R109, R149). -/
def State.takeReleased (v : Word) (s : State) : State :=
  if s.journal.drain = .ended then s else (s.judgeReleased v).endSweepIfDone

/-- RELEASED_COUNT_READ_COMPLETE (R109, R144). -/
def execReleasedCountReadComplete (data : List Byte) (s : State) : Result :=
  .next (match s.port.inFlight with
  | some (.read .released _) =>
    if s.works ∧ data.length = Read.size .released then (s.takeReleased (wordAt data 0)).endRead.haltIfQuiet else s
  | _ => s)

/-- A live part is acted on in RUNNING and discarded in STOPPING (R145, R149). -/
def State.takeLive (e : Entry) (data : List Byte) (s : State) : State :=
  if s.run.state = .running then (s.takeLivePart e (readLivePart data)).endSweepIfDone
  else if s.journal.drain = .ended then s
  else s.endSweepIfDone

/-- LIVE_PART_READ_COMPLETE (R145 to R149). -/
def execLivePartReadComplete (data : List Byte) (s : State) : Result :=
  .next (match s.port.inFlight with
  | some (.read (.live e) _) =>
    if s.works ∧ data.length = Read.size (.live e) then (s.takeLive e data).endRead.haltIfQuiet else s
  | _ => s)

/-- IMAGE_FETCH_COMPLETE: a start fetch in STARTING, discarded after STOP, and otherwise a fetch of the run (R89, R91 to
R93, R167, R169). -/
def execImageFetchComplete (data : List Byte) (s : State) : Result :=
  .next (match s.port.inFlight with
  | some (.read (.image e) _) =>
    if data.length = Read.size (.image e) then
      if s.works then (s.takeFetch e data).endRead.haltIfQuiet
      else if s.run.state = .starting then
        if s.run.startAbandoned then s.endRead.haltIfQuiet else s.takeStartFetch e data
      else s
    else s
  | _ => s)

/-- START_READ_COMPLETE: its data are placed in the start image, or discarded after STOP (R167, R169). -/
def execStartReadComplete (data : List Byte) (s : State) : Result :=
  .next (match s.port.inFlight with
  | some (.read (.start i) _) =>
    if s.run.state = .starting ∧ data.length = Read.size (.start i) then
      if s.run.startAbandoned then s.endRead.haltIfQuiet else s.takeStartRead i data
    else s
  | _ => s)

/-- STATUS_WRITE_COMPLETE: its entry leaves the queue, and nobody is told (R153). -/
def execStatusWriteComplete (s : State) : Result :=
  .next (match s.port.inFlight with
  | some (.write (.status _) address bytes) =>
    if s.run.state.transacts then (s.endWrite address bytes).startTransaction.haltIfQuiet else s
  | _ => s)

/-- RECORD_WRITE_COMPLETE (R153). -/
def execRecordWriteComplete (s : State) : Result :=
  .next (match s.port.inFlight with
  | some (.write (.record _ _) address bytes) =>
    if s.run.state.transacts then (s.endWrite address bytes).startTransaction.haltIfQuiet else s
  | _ => s)

/-- MARK_WRITE_COMPLETE: the records it covers are announced, and the coalescing logic decides (R113, R129, R153). -/
def execMarkWriteComplete (s : State) : Result :=
  .next (match s.port.inFlight with
  | some (.write (.mark covered urgent) address bytes) =>
    if s.run.state.transacts then
      ((s.endWrite address bytes).announce covered urgent).startTransaction.haltIfQuiet
    else s
  | _ => s)

/-- BUS_ERROR_RESPONSE: the error response ends the transaction, so that no later answer to it can come (R158, R160). -/
def execBusErrorResponse (s : State) : Result := .next (if s.run.state.transacts then s.fault false else s)

/-- MEMORY_ACCESS_TIMEOUT: 2 milliseconds of the controller's own time base have passed; the bus may still answer (R151,
R158, R160). -/
def execMemoryAccessTimeout (s : State) : Result := .next (if s.run.state.transacts then s.fault true else s)

/-- LATE_ERROR_RESPONSE: MULTIPLE is set and nothing else (R127, R160, R166). -/
def execLateErrorResponse (s : State) : Result :=
  .next (if s.port.abandoned.isSome then s.onRun fun c => { c with multiple := true } else s)

/-- LATE_COMPLETION: ignored (R160). -/
def execLateCompletion (s : State) : Result := .next s

end Sys2Proof.Machine
end

