-- ==== Sys2Proof/Machine/Dispatch.lean ====
section
/-! DEFINITION. The meaning of every command: one arm for each constructor of `Instr`. -/

namespace Sys2Proof.Machine

/-- The effect of a command on everything but the queue of waiting commands. -/
def exec (i : Instr) (s : State) : Host.Outcome State Fault Refusal :=
  match i with
  | .fullReset => Sys2Proof.Machine.execFullReset s
  | .resetRelease => Sys2Proof.Machine.execResetRelease s
  | .start => Sys2Proof.Machine.execStart s
  | .stop => Sys2Proof.Machine.execStop s
  | .sweep => Sys2Proof.Machine.execSweep s
  | .clearFault => Sys2Proof.Machine.execClearFault s
  | .undefinedCommand lanes value => Sys2Proof.Machine.execUndefinedCommand lanes value s
  | .exbaseLoWrite lanes value => Sys2Proof.Machine.execExbaseLoWrite lanes value s
  | .exbaseHiWrite lanes value => Sys2Proof.Machine.execExbaseHiWrite lanes value s
  | .causeWrite lanes value => Sys2Proof.Machine.execCauseWrite lanes value s
  | .maskWrite lanes value => Sys2Proof.Machine.execMaskWrite lanes value s
  | .otherRegisterWrite offset lanes value => Sys2Proof.Machine.execOtherRegisterWrite offset lanes value s
  | .panelClockAdvance => Sys2Proof.Machine.execPanelClockAdvance s
  | .characterReceived data parityBit stopBit => Sys2Proof.Machine.execCharacterReceived data parityBit stopBit s
  | .pairReturnsToRest => Sys2Proof.Machine.execPairReturnsToRest s
  | .pairLeavesRest => Sys2Proof.Machine.execPairLeavesRest s
  | .frameSent => Sys2Proof.Machine.execFrameSent s
  | .replyWindowExpiry => Sys2Proof.Machine.execReplyWindowExpiry s
  | .interCharacterLimitExpiry => Sys2Proof.Machine.execInterCharacterLimitExpiry s
  | .discardPeriodEnd => Sys2Proof.Machine.execDiscardPeriodEnd s
  | .quietGapExpiry => Sys2Proof.Machine.execQuietGapExpiry s
  | .busyLimitExpiry => Sys2Proof.Machine.execBusyLimitExpiry s
  | .clearTestExpiry => Sys2Proof.Machine.execClearTestExpiry s
  | .stopLimitExpiry => Sys2Proof.Machine.execStopLimitExpiry s
  | .cycleTimerExpiry => Sys2Proof.Machine.execCycleTimerExpiry s
  | .timeMarkDue => Sys2Proof.Machine.execTimeMarkDue s
  | .sweepTimerExpiry => Sys2Proof.Machine.execSweepTimerExpiry s
  | .releasedCountReadComplete data => Sys2Proof.Machine.execReleasedCountReadComplete data s
  | .livePartReadComplete data => Sys2Proof.Machine.execLivePartReadComplete data s
  | .imageFetchComplete data => Sys2Proof.Machine.execImageFetchComplete data s
  | .startReadComplete data => Sys2Proof.Machine.execStartReadComplete data s
  | .recordTaken => Sys2Proof.Machine.execRecordTaken s
  | .stopDrainLimitExpiry => Sys2Proof.Machine.execStopDrainLimitExpiry s
  | .statusWriteComplete => Sys2Proof.Machine.execStatusWriteComplete s
  | .recordWriteComplete => Sys2Proof.Machine.execRecordWriteComplete s
  | .markWriteComplete => Sys2Proof.Machine.execMarkWriteComplete s
  | .holdOffExpiry => Sys2Proof.Machine.execHoldOffExpiry s
  | .busErrorResponse => Sys2Proof.Machine.execBusErrorResponse s
  | .memoryAccessTimeout => Sys2Proof.Machine.execMemoryAccessTimeout s
  | .lateErrorResponse => Sys2Proof.Machine.execLateErrorResponse s
  | .lateCompletion => Sys2Proof.Machine.execLateCompletion s
  | .startBitConfirmed => Sys2Proof.Machine.execStartBitConfirmed s
  | .receiverArmed => Sys2Proof.Machine.execReceiverArmed s

end Sys2Proof.Machine
end

