-- ==== Sys2Proof/Safety.lean ====
section
/-! DEFINITION. What is meant by safe here: which commands can come in a state, when an expiry comes on time, and the
invariants that every step keeps. -/

namespace Sys2Proof.Machine

/-! ### Commands that can come -/

/-- An image fetch (R151). -/
def Read.isImage : Read → Bool
  | .image _ => true
  | _ => false

/-- A start read (R167). -/
def Read.isStart : Read → Bool
  | .start _ => true
  | _ => false

/-- A STATUS entry (R153). -/
def WriteEntry.isStatus : WriteEntry → Bool
  | .status _ => true
  | _ => false

/-- A RECORD entry (R153). -/
def WriteEntry.isRecord : WriteEntry → Bool
  | .record _ _ => true
  | _ => false

/-- A MARK entry (R153). -/
def WriteEntry.isMark : WriteEntry → Bool
  | .mark _ _ => true
  | _ => false

/-- The read in flight is of one kind and the data are as many bytes as it reads (R151). -/
def State.answers (fits : Read → Bool) (data : List Byte) (s : State) : Bool :=
  match s.port.inFlight with
  | some (.read r _) => fits r && data.length == r.size
  | _ => false

/-- The write in flight is of one kind (R153). -/
def State.writes (fits : WriteEntry → Bool) (s : State) : Bool :=
  match s.port.inFlight with
  | some (.write w _ _) => fits w
  | _ => false

/-- The record former's conditions hold together (R111). -/
def State.recordReady (s : State) : Bool := s.journal.takeNext.isSome && s.canTakeRecord

/-- The command can come in the state: its timer runs, its transaction is in flight, its receiver phase is reached. The
commands of the reset line, the window, the pair and the late answers can always come (log entry 1). -/
def State.possible (s : State) : Instr → Bool
  | .panelClockAdvance => s.works
  | .characterReceived _ _ _ => s.works && s.line.receiver == .inReception && s.line.state != .sending
  | .pairReturnsToRest => !s.line.pairAtRest
  | .pairLeavesRest => s.line.pairAtRest
  | .startBitConfirmed => s.works && s.line.receiver == .edgeSeen && s.line.state != .sending
  | .receiverArmed => s.works && s.line.receiver == .disarmed && s.line.pairAtRest
  | .frameSent => s.works && s.line.state == .sending && s.line.sendPlace.isSome
  | .replyWindowExpiry =>
    s.works && s.line.state == .awaiting && s.line.reply != .stopped && s.line.reply != .expiryHeld
  | .interCharacterLimitExpiry => s.works && s.line.state == .receiving && s.line.interChar.isSome
  | .discardPeriodEnd => s.works && s.line.state == .receiving && s.line.discard && s.line.discardRest.isSome
  | .quietGapExpiry => s.works && s.line.state == .quiet && s.line.quietGap.isSome
  | .busyLimitExpiry => s.works && s.line.sendPlace.isSome && s.line.busy.isSome
  | .clearTestExpiry => s.works && s.line.state == .disturbed && s.line.clearTest.isSome
  | .stopLimitExpiry => s.run.state == .stopping && s.line.stopLimit.isSome && !s.line.settled
  | .cycleTimerExpiry => s.works && s.sched.cycleTimer != .stopped && s.sched.cycleTimer != .expired
  | .timeMarkDue => s.works && s.sched.markTimer.isSome
  | .sweepTimerExpiry => s.works && s.exch.sweepTimer.isSome
  | .releasedCountReadComplete data => s.works && s.answers (· == .released) data
  | .livePartReadComplete data => s.works && s.answers Read.isLive data
  | .imageFetchComplete data =>
    (s.works || s.run.state == .starting) && s.answers Read.isImage data
  | .startReadComplete data => s.run.state == .starting && s.answers Read.isStart data
  | .recordTaken => s.recordReady
  | .stopDrainLimitExpiry =>
    s.run.state == .stopping && s.journal.drain == .running && s.journal.drainTimer.isSome
  | .statusWriteComplete => s.run.state.transacts && s.writes WriteEntry.isStatus
  | .recordWriteComplete => s.run.state.transacts && s.writes WriteEntry.isRecord
  | .markWriteComplete => s.run.state.transacts && s.writes WriteEntry.isMark
  | .holdOffExpiry => s.works && s.irq.holdOff.isSome
  | .busErrorResponse | .memoryAccessTimeout => s.run.state.transacts && s.port.inFlight.isSome
  | .lateErrorResponse => s.port.abandoned.isSome
  | .fullReset | .resetRelease | .start | .stop | .sweep | .clearFault | .undefinedCommand _ _ | .exbaseLoWrite _ _
  | .exbaseHiWrite _ _ | .causeWrite _ _ | .maskWrite _ _ | .otherRegisterWrite _ _ _ | .lateCompletion => true

/-- The completions of a read or of a write, which the bus answers to the transaction in flight (R151). -/
def isCompletion : Instr → Bool
  | .releasedCountReadComplete _ | .livePartReadComplete _ | .imageFetchComplete _ | .startReadComplete _
  | .statusWriteComplete | .recordWriteComplete | .markWriteComplete => true
  | _ => false

/-- The timer whose expiry a command is (01 section 1.2, R44, R46, R118, R130, R142). -/
def State.timerOf (s : State) : Instr → Option Timer
  | .replyWindowExpiry => match s.line.reply with | .running t => some t | _ => none
  | .interCharacterLimitExpiry => s.line.interChar
  | .discardPeriodEnd => s.line.discardRest
  | .quietGapExpiry => s.line.quietGap
  | .busyLimitExpiry => s.line.busy
  | .clearTestExpiry => s.line.clearTest
  | .stopLimitExpiry => s.line.stopLimit
  | .cycleTimerExpiry => match s.sched.cycleTimer with | .running t => some t | _ => none
  | .timeMarkDue => s.sched.markTimer
  | .sweepTimerExpiry => s.exch.sweepTimer
  | .stopDrainLimitExpiry => s.journal.drainTimer
  | .holdOffExpiry => s.irq.holdOff
  | _ => none

/-- A timer in milliseconds has run its length by the panel clock; one in character times is below the clock's
resolution and is not judged (R173; log entry 3). -/
def Timer.expired (now : Word) (t : Timer) : Bool :=
  match t.span with
  | .ms n => decide (n ≤ (now - t.since).toNat)
  | .chars _ => true

/-- A command comes on time: one that is no expiry always does, and an expiry where its timer has run its length. -/
def State.onTime (s : State) (c : Instr) : Bool := (s.timerOf c).all (·.expired s.run.clock)

/-! ### What a station sends, and what a start accepts -/

/-- The characters of an uplink frame as a station is expected to build it: bit 7 of the address character is the direction
mark 1 (R19, R20, R27, R28, R33). -/
def uplinkFrame (address : LineAddress) (kind turn : Byte) (payload : List Byte) : List Byte :=
  let covered := [0x80#8 ||| address.setWidth 8, kind, turn, BitVec.ofNat 8 payload.length] ++ payload
  Config.lead :: covered ++ [(checkValue covered).extractLsb' 8 8, (checkValue covered).extractLsb' 0 8]

/-- The control block of a start image is in range (R107, R135, R167 checks 1 to 8). -/
structure StartImage.ControlAcceptable (i : StartImage) (base : Nat) : Prop where
  version : i.layoutVersion = 1#32
  rate : i.settings.lineRate ≤ 4
  window : 1 ≤ i.settings.responseWindow ∧ i.settings.responseWindow ≤ 50
  retry : i.settings.retryLimit ≤ 3
  miss : 1 ≤ i.settings.missLimit ∧ i.settings.missLimit ≤ 15
  divisor : 1 ≤ i.settings.searchDivisor ∧ i.settings.searchDivisor ≤ 16
  cycle : i.settings.cycleMinimum ≤ 1000
  sweep : 1 ≤ i.settings.sweepPeriod ∧ i.settings.sweepPeriod ≤ 255
  ambiguity : 1 ≤ i.settings.ambiguityReport ∧ i.settings.ambiguityReport ≤ 255
  threshold : 1 ≤ i.settings.threshold ∧ i.settings.threshold ≤ 255
  holdOff : i.settings.holdOff ≤ 1000
  drain : i.settings.stopDrainLimit ≤ 10000
  stations : 1 ≤ i.settings.stationCount ∧ i.settings.stationCount ≤ 16
  capacity : ∃ k, 6 ≤ k ∧ k ≤ 12 ∧ i.settings.journalCapacity = 2 ^ k
  align : i.settings.journalBase.toNat % 16 = 0
  top : i.settings.journalBase.toNat + 16 * i.settings.journalCapacity ≤ 2 ^ 64
  overlap : ∀ x, i.settings.journalBase.toNat ≤ x →
    x < i.settings.journalBase.toNat + 16 * i.settings.journalCapacity → x < base ∨ base + 0x900 ≤ x
  released : i.released = 0#32

/-- A start image that passes every check: the control block, and each configured entry below the station count (R137,
R167). -/
structure StartImage.Acceptable (i : StartImage) (base : Nat) : Prop extends i.ControlAcceptable base where
  geometry : ∀ e ∈ i.entries, 1 ≤ (i.fields e).rows ∧ (i.fields e).rows ≤ 8 ∧ 1 ≤ (i.fields e).columns ∧
    (i.fields e).columns ≤ 8
  address : ∀ e ∈ i.entries, 1 ≤ (i.fields e).address ∧ (i.fields e).address ≤ 31
  indicators : ∀ e ∈ i.entries, (i.fields e).indicatorCount ≤ 64
  distinct : ∀ e ∈ i.entries, ∀ e' ∈ i.entries, e' < e → (i.fields e').address ≠ (i.fields e).address

/-! ### Invariants -/

/-- The collections stay within their sizes, the exchange area base is a multiple of 4,096, and memory keeps its
canonical form (R4, R104, R133, R153, R165). -/
structure State.Bounded (s : State) : Prop where
  holding : s.line.holding.length ≤ Config.holdingMax
  staging : s.journal.staging.length ≤ Config.stagingMax
  writes : s.port.writes.length ≤ Config.writesMax
  base : s.run.exbaseLo &&& 0xFFF#32 = 0#32
  memory : MemoryWf s.memory

/-- Outside RUNNING and STOPPING the panel line is not driven and nothing waits to be sent, and so it is once the stop
drain has begun; a frame on the line is in the send place; outside STARTING, RUNNING and STOPPING no memory
transaction is in flight; and STOPPING does not outlast the first quiet moment after the end of the drain (R6, R7, R18,
R151, R160, R162, R171). -/
structure State.Quiescent (s : State) : Prop where
  receiver : s.run.state.works = false → s.line.receiver = .off
  sendPlace : s.run.state.works = false → s.line.sendPlace = none
  driver : s.run.state.works = false → s.line.driverEnabled = false
  visit : s.run.state.works = false → s.sched.visit = none
  port : s.run.state.transacts = false → s.port.inFlight = none
  drain : s.run.state = .running → s.journal.drain = .notBegun
  sending : s.line.driverEnabled = true → s.line.sendPlace.isSome = true
  drained : s.run.state = .stopping → s.journal.drain ≠ .notBegun → s.line.sendPlace = none
  unquiet : s.run.state = .stopping → s.journal.drain = .ended → s.port.quiet = false

/-- More waits than the write in flight: a read, a further write, an owed STATUS or a held MARK (R153, R155, R160). -/
def Port.moreWaits (p : Port) : Bool :=
  !p.reads.isEmpty || decide (2 ≤ p.writes.length) || !p.noneOwed || p.heldMark.isSome

/-- The write queue's order: the write in flight is the head, a RECORD is never the last entry and the entry behind it is
a RECORD or a MARK, and what waits for a free entry waits only at a full queue (R153, R154, R155). -/
def recordsFollowed : List WriteEntry → Bool
  | [] => true
  | [.record _ _] => false
  | .record _ _ :: .status _ :: _ => false
  | _ :: rest => recordsFollowed rest

/-- See `recordsFollowed`. -/
structure Port.Ordered (p : Port) : Prop where
  head : ∀ w a b, p.inFlight = some (.write w a b) → p.writes.head? = some w
  followed : recordsFollowed p.writes = true
  owed : ∀ e : Entry, p.owed[e.val] = true → Config.writesMax ≤ p.writes.length
  held : p.heldMark.isSome = true → Config.writesMax ≤ p.writes.length

/-- The records of the write queue come in the order of their serials, and the MARK directly behind a RECORD covers it
as the last one: its covered count is one more than the RECORD's serial, modulo 65,536 (R112, R155, section 11.5). -/
def recordsCovered : List WriteEntry → Bool
  | [] => true
  | .record _ before :: .record slot after :: rest =>
    halfAt after 0 == halfAt before 0 + 1#16 && recordsCovered (.record slot after :: rest)
  | .record _ bytes :: .mark covered urgent :: rest =>
    covered.setWidth 16 == halfAt bytes 0 + 1#16 && recordsCovered (.mark covered urgent :: rest)
  | _ :: rest => recordsCovered rest

/-- The covered counts of the write queue: each RECORD is covered by the MARK behind it; at work, an unstarted MARK at
the tail and a held MARK cover every record written; and STARTING finds no write (R112, R155, R161). -/
structure State.Covered (s : State) : Prop where
  chain : recordsCovered s.port.writes = true
  tail : s.run.state.works = true → ∀ m, s.port.tailMark = some m → m.covered = s.journal.written
  held : s.run.state.works = true → ∀ m, s.port.heldMark = some m → m.covered = s.journal.written
  start : s.run.state = .starting → s.port.writes = [] ∧ s.port.heldMark = none

/-- The kind of a station's outstanding command (R38). -/
def Link.outstandingKind (l : Link) : Option OrderKind := l.outstanding.map (·.kind)

/-- One station's records agree with one another (R38, R39, R41, R48, R61, R79, R86). -/
structure Station.Coherent (st : Station) : Prop where
  /-- The content of an outstanding SET is held while a SET is outstanding, and only then (R38, R86). -/
  set : st.output.outSet.isSome = (st.link.outstandingKind == some .set)
  /-- The content of an outstanding SOUND is held while a SOUND is outstanding, and only then (R38, R86). -/
  sound : st.output.outSound.isSome = (st.link.outstandingKind == some .sound)
  /-- A SEARCHING station has no other command outstanding than a RESET-STATION (R41, R56). -/
  searching : st.link.state = .searching → st.link.outstandingKind ≠ some .set ∧ st.link.outstandingKind ≠ some .sound
  /-- A DISABLED station has no command outstanding (R61). -/
  disabled : st.link.state = .disabled → st.link.outstanding = none
  /-- The sync step is held in SYNCING, and only there (R38, R42, R61). -/
  step : st.link.step.isSome = (st.link.state == .syncing)
  /-- Every contact of a station that is DISABLED or SEARCHING is UNKNOWN (R79). -/
  away : st.link.state = .disabled ∨ st.link.state = .searching → ∀ c ∈ st.contacts.records, c.state = .unknown

/-- Every station's records are coherent, and the visit in progress is at a station of the poll list, with its
RESET-STATION outstanding where the station is SEARCHING (R43, R47). -/
structure State.Coherent (s : State) : Prop where
  station : ∀ e, (s.station e).Coherent
  polled : ∀ v, s.sched.visit = some v → (s.station v.entry).link.state ≠ .disabled
  reset : ∀ v, s.sched.visit = some v → (s.station v.entry).link.state = .searching →
    (s.station v.entry).link.outstandingKind = some .resetStation

end Sys2Proof.Machine
end

