-- ==== Sys2Proof/WellFormed.lean ====
section
/-! DEFINITION. Which terms are commands the outside can send: the sizes of the transactions (R151), the offsets of the
window (R163) and the codes of COMMAND (R164). -/

namespace Sys2Proof

open Sys2Proof.Machine

/-- A term that is a command: some byte is written, the offset and code are the row's, and a read's bytes are as many
as its transaction has (R151, R163, R164, R167). -/
def Instr.wellFormed : Instr → Bool
  | .undefinedCommand lanes value => lanes != 0#4 && !namesCommand (value &&& laneMask lanes)
  | .exbaseLoWrite lanes _ => lanes != 0#4
  | .exbaseHiWrite lanes _ => lanes != 0#4
  | .causeWrite lanes _ => lanes != 0#4
  | .maskWrite lanes _ => lanes != 0#4
  | .otherRegisterWrite offset lanes _ => otherOffset offset && lanes != 0#4
  | .releasedCountReadComplete data => data.length == 4
  | .livePartReadComplete data => data.length == 12
  | .imageFetchComplete data => data.length == 20
  | .startReadComplete data => data.length == 64 || data.length == 44
  | .fullReset | .resetRelease | .start | .stop | .sweep | .clearFault | .panelClockAdvance
  | .characterReceived _ _ _ | .pairReturnsToRest | .pairLeavesRest | .frameSent | .replyWindowExpiry
  | .interCharacterLimitExpiry | .discardPeriodEnd | .quietGapExpiry | .busyLimitExpiry | .clearTestExpiry
  | .stopLimitExpiry | .cycleTimerExpiry | .timeMarkDue | .sweepTimerExpiry | .recordTaken
  | .stopDrainLimitExpiry | .statusWriteComplete | .recordWriteComplete | .markWriteComplete | .holdOffExpiry
  | .busErrorResponse | .memoryAccessTimeout | .lateErrorResponse | .lateCompletion | .startBitConfirmed
  | .receiverArmed => true

end Sys2Proof
end

