-- ==== Sys2Proof/Certificates/Slice0/Obligations.lean ====
section
/-! DEFINITION. The statements for the provers, from the numbered rules of spec/. -/

open Sys2Proof Sys2Proof.Machine

/-! ### The queue, and every command -/

/-- A step runs the command at the front of the queue on the state with the queue's rest; on an empty queue the block
idles (the model's choice, log entry 2). -/
def Obligations.StepRunsTheFrontCommand : Prop :=
  (∀ (c : Instr) (rest : List Instr) (s : State), s.pending = c :: rest →
    step s = exec c { s with pending := rest }) ∧
  ∀ s : State, s.pending = [] → step s = .next s

/-- Every command answers a next state, whatever the state, and leaves the queue of waiting commands alone (that it
answers one where it cannot come is the model's choice, log entry 1). -/
def Obligations.CommandsAnswerNextAndKeepTheQueue : Prop :=
  ∀ (c : Instr) (s : State), ∃ t, exec c s = .next t ∧ t.pending = s.pending

/-- A command that cannot come in a state changes nothing there (the model's choice, log entry 1). -/
def Obligations.ImpossibleCommandsChangeNothing : Prop :=
  ∀ (c : Instr) (s : State), s.possible c = false → exec c s = .next s

/-! ### Reset and the register window -/

/-- R174. Full reset puts every unit at its full-reset values, leaves memory but for the write in flight, and sets no
cause; while the reset line is held, writes are ignored and reads return 0; a later answer changes nothing; the
release leaves HALTED and takes commands again. -/
def Obligations.FullResetAndRelease : Prop :=
  (∀ s : State, ∃ t, exec .fullReset s = .next t ∧
    t.run.state = .halted ∧ t.run.reason = .none ∧ t.run.detail = 0#8 ∧ t.run.multiple = false ∧
    t.run.clock = 0#32 ∧ t.run.startImage = ⟨[], []⟩ ∧ t.run.settings = none ∧ t.run.resetAsserted = true ∧
    (∀ offset, t.register offset = 0#32) ∧ t.irq = ⟨0#5, 0#5, none⟩ ∧ t.interruptLine = false ∧
    t.line.driverEnabled = false ∧ t.line.state = .idle ∧ t.line.receiver = .off ∧ t.line.sendPlace = none ∧
    t.line.busy = none ∧ t.line.reply = .stopped ∧ t.line.interChar = none ∧ t.line.discardRest = none ∧
    t.line.quietGap = none ∧ t.line.clearTest = none ∧ t.line.stopLimit = none ∧ t.line.holding = [] ∧
    t.line.assembler = [] ∧ t.line.stray = 0#16 ∧ t.line.disturbed = false ∧ t.sched = Scheduler.reset ∧
    (∀ e, (t.station e).link = Link.reset ∧ (t.station e).contacts.records = [] ∧
      (t.station e).contacts.bounces = 0#16 ∧ (t.station e).rememberedSounder = none ∧
      (t.station e).rememberedResync = none) ∧
    t.tornReads = 0#16 ∧ t.journal = Journal.reset ∧ t.exch = Exchange.reset ∧ t.port = Port.reset ∧
    ∀ a, (∀ w base bytes, s.port.inFlight = some (.write w base bytes) → a < base ∨ base + bytes.length ≤ a) →
      memoryRead t.memory a = memoryRead s.memory a) ∧
  (∀ s : State, s.run.resetAsserted = true →
    (∀ offset lanes, s.readWindow offset lanes = 0#32) ∧
    ∀ lanes value offset, ∀ c ∈ [Instr.start, .stop, .sweep, .clearFault, .undefinedCommand lanes value,
      .exbaseLoWrite lanes value, .exbaseHiWrite lanes value, .causeWrite lanes value, .maskWrite lanes value,
      .otherRegisterWrite offset lanes value], exec c s = .next s) ∧
  (∀ s : State, exec .resetRelease s = .next { s with run := { s.run with resetAsserted := false } }) ∧
  ∀ s t : State, exec .fullReset s = .next t →
    exec .lateErrorResponse t = .next t ∧ exec .lateCompletion t = .next t ∧
    ∃ u, exec .resetRelease t = .next u ∧ u.run.state = .halted ∧ ∀ lanes value, lanes ≠ 0#4 →
      exec (.maskWrite lanes value) u = .next { u with irq := { u.irq with mask := (laneValue lanes value).setWidth 5 } }

/-- R126. A write that is refused sets REFUSED and has no other effect; each command, undefined code and base write is
refused exactly in the run states of the table, and taken in the others with the REFUSED cause as it stood; the
read-only registers and the offsets that hold no register take no write and are not refused, and the latter read 0. -/
def Obligations.RefusedWritesOnlySetRefused : Prop :=
  ∀ (s : State) (lanes : BitVec 4) (value : Word) (offset : BitVec 6), s.run.resetAsserted = false →
    let refused : Result := .next { s with irq := { s.irq with cause := s.irq.cause ||| 0b00100#5 } }
    let taken (c : Instr) : Prop := ∃ t, exec c s = .next t ∧ t.irq.cause.getLsbD 2 = s.irq.cause.getLsbD 2
    (s.run.state = .halted →
      taken .start ∧ taken (.exbaseLoWrite lanes value) ∧ taken (.exbaseHiWrite lanes value)) ∧
    (s.run.state = .starting ∨ s.run.state = .running → taken .stop) ∧
    (s.run.state = .running → taken .sweep) ∧
    (s.run.state = .faulted → taken .clearFault) ∧
    (s.run.state ≠ .halted → exec .start s = refused) ∧
    (s.run.state ≠ .starting ∧ s.run.state ≠ .running → exec .stop s = refused) ∧
    (s.run.state ≠ .running → exec .sweep s = refused) ∧
    (s.run.state ≠ .faulted → exec .clearFault s = refused) ∧
    (namesCommand (laneValue lanes value) = false → exec (.undefinedCommand lanes value) s = refused) ∧
    (s.run.state ≠ .halted → exec (.exbaseLoWrite lanes value) s = refused) ∧
    (s.run.state ≠ .halted → exec (.exbaseHiWrite lanes value) s = refused) ∧
    (otherOffset offset = true → exec (.otherRegisterWrite offset lanes value) s = .next s) ∧
    (0x20 ≤ offset.toNat → s.readWindow offset lanes = 0#32)

/-- R165. A write to EXBASE_LO or EXBASE_HI in HALTED replaces that register alone, bits 0 to 11 of EXBASE_LO not
stored and read as 0; in every other run state it is refused. No other command but full reset changes either register,
and full reset sets both to 0, so the base is the same for every transaction of a run. -/
def Obligations.ExchangeBaseIsWrittenInHaltedAlone : Prop :=
  (∀ (s : State) (lanes : BitVec 4) (value : Word), s.run.resetAsserted = false → s.run.state = .halted →
    (∃ lo, exec (.exbaseLoWrite lanes value) s = .next { s with run := { s.run with exbaseLo := lo } } ∧
      ∀ i < 32, lo.getLsbD i = (decide (12 ≤ i) && (laneValue lanes value).getLsbD i)) ∧
    exec (.exbaseHiWrite lanes value) s = .next { s with run := { s.run with exbaseHi := laneValue lanes value } }) ∧
  (∀ (s : State) (lanes : BitVec 4) (value : Word), s.run.resetAsserted = false → s.run.state ≠ .halted →
    ∀ c ∈ [Instr.exbaseLoWrite lanes value, .exbaseHiWrite lanes value],
      exec c s = .next { s with irq := { s.irq with cause := s.irq.cause ||| 0b00100#5 } }) ∧
  (∀ (c : Instr) (s t : State), c.wellFormed = true →
    (∀ lanes value, c ≠ .exbaseLoWrite lanes value ∧ c ≠ .exbaseHiWrite lanes value) → c ≠ .fullReset →
    exec c s = .next t → t.run.exbaseLo = s.run.exbaseLo ∧ t.run.exbaseHi = s.run.exbaseHi) ∧
  (∀ s t : State, exec .fullReset s = .next t → t.run.exbaseLo = 0#32 ∧ t.run.exbaseHi = 0#32) ∧
  ∀ (s : State) (lanes : BitVec 4), s.Bounded → ∀ i < 12, (s.readWindow 0x00#6 lanes).getLsbD i = false

/-- R124. A write to MASK in any run state replaces its five bits and nothing else, reads give them back with bits 5
to 31 as 0, and the interrupt line is asserted exactly while some bit is set in both CAUSE and MASK. -/
def Obligations.MaskAndInterruptLine : Prop :=
  (∀ (s : State) (lanes : BitVec 4) (value : Word), s.run.resetAsserted = false →
    ∃ m : BitVec 5, exec (.maskWrite lanes value) s = .next { s with irq := { s.irq with mask := m } } ∧
      ∀ i < 5, m.getLsbD i = (laneValue lanes value).getLsbD i) ∧
  (∀ s : State, s.run.resetAsserted = false → ∀ i < 32,
    (s.readWindow 0x14#6 0b1111#4).getLsbD i = (decide (i < 5) && s.irq.mask.getLsbD i)) ∧
  ∀ s : State, s.interruptLine = true ↔ ∃ i < 5, s.irq.cause.getLsbD i = true ∧ s.irq.mask.getLsbD i = true

/-- A write to CAUSE clears each bit written as 1, leaves the others, and changes nothing else; no other command but
full reset clears a cause bit. -/
def Obligations.CauseBitsStayUntilCleared : Prop :=
  (∀ (s : State) (lanes : BitVec 4) (value : Word), s.run.resetAsserted = false →
    ∃ k : BitVec 5, exec (.causeWrite lanes value) s = .next { s with irq := { s.irq with cause := k } } ∧
      ∀ i < 5, k.getLsbD i = (s.irq.cause.getLsbD i && !(laneValue lanes value).getLsbD i)) ∧
  ∀ (c : Instr) (s t : State), c.wellFormed = true → c ≠ .fullReset → (∀ lanes value, c ≠ .causeWrite lanes value) →
    exec c s = .next t → ∀ i < 5, s.irq.cause.getLsbD i = true → t.irq.cause.getLsbD i = true

/-- A write narrower than 32 bits is a write of the whole register with the bytes not written taken as 0 (also for an
ill-formed term, the model's choice, log entry 19). A read answers the addressed bytes of the register as it stands:
EXBASE_LO and EXBASE_HI their contents, COMMAND 0, CAUSE and MASK their five bits and 0 above, FAULT_ADDR_LO and
FAULT_ADDR_HI the halves of the captured address, and an offset from 0x20 on 0. The STATE register shows the run state
in bits 0 to 2, the reason in bits 8 to 15, the detail in bits 16 to 23 and MULTIPLE in bit 31; its other bits read 0.
Each run state and each reason has the code of its table. -/
def Obligations.WindowWritesAndReads : Prop :=
  (∀ (s : State) (lanes : BitVec 4) (value : Word),
    (∀ i < 32, (laneValue lanes value).getLsbD i = (lanes.getLsbD (i / 8) && value.getLsbD i)) ∧
    exec (.undefinedCommand lanes value) s = exec (.undefinedCommand 0b1111#4 (laneValue lanes value)) s ∧
    exec (.exbaseLoWrite lanes value) s = exec (.exbaseLoWrite 0b1111#4 (laneValue lanes value)) s ∧
    exec (.exbaseHiWrite lanes value) s = exec (.exbaseHiWrite 0b1111#4 (laneValue lanes value)) s ∧
    exec (.causeWrite lanes value) s = exec (.causeWrite 0b1111#4 (laneValue lanes value)) s ∧
    exec (.maskWrite lanes value) s = exec (.maskWrite 0b1111#4 (laneValue lanes value)) s) ∧
  (∀ (s : State) (lanes : BitVec 4) (offset : BitVec 6), s.run.resetAsserted = false → ∀ i < 32,
    (s.readWindow offset lanes).getLsbD i = (lanes.getLsbD (i / 8) && (s.register offset).getLsbD i)) ∧
  (∀ r : Reason, r.code = (match r with
    | .none => 0#8 | .layoutVersion => 1#8 | .rate => 2#8 | .parameter => 3#8 | .stationCount => 4#8
    | .geometry => 5#8 | .address => 6#8 | .duplicateAddress => 7#8 | .indicatorCount => 8#8 | .journalSize => 9#8
    | .journalAlign => 10#8 | .journalOverlap => 11#8 | .releaseNotZero => 12#8)) ∧
  ∀ s : State,
    let r := s.register 0x0C#6
    s.register 0x00#6 = s.run.exbaseLo ∧ s.register 0x04#6 = s.run.exbaseHi ∧ s.register 0x08#6 = 0#32 ∧
    (∀ i < 32, (s.register 0x10#6).getLsbD i = (decide (i < 5) && s.irq.cause.getLsbD i)) ∧
    (∀ i < 32, (s.register 0x14#6).getLsbD i = (decide (i < 5) && s.irq.mask.getLsbD i)) ∧
    s.register 0x1C#6 ++ s.register 0x18#6 = s.port.faultAddr ∧
    (∀ offset, 0x20 ≤ offset.toNat → s.register offset = 0#32) ∧
    r.extractLsb' 0 3 = (match s.run.state with
      | .halted => 0#3 | .starting => 1#3 | .running => 2#3 | .stopping => 3#3 | .faulted => 4#3) ∧
    r.extractLsb' 3 5 = 0#5 ∧ r.extractLsb' 8 8 = s.run.reason.code ∧ r.extractLsb' 16 8 = s.run.detail ∧
    r.extractLsb' 24 7 = 0#7 ∧ r.getLsbD 31 = s.run.multiple

/-! ### The panel clock and the run states -/

/-- The panel clock advances by 1, wrapping, at each advance in RUNNING and STOPPING, where a DISTURBED line counts
the millisecond (as far as a saturated LINE_CLEAR needs, log entry 9), and stands still in the other run states; in
RUNNING and STOPPING no other command but full reset changes it. -/
def Obligations.PanelClockCountsWhileRunning : Prop :=
  (∀ s : State, s.run.state = .running ∨ s.run.state = .stopping →
    exec .panelClockAdvance s = .next
      { s with
        run := { s.run with clock := s.run.clock + 1#32 }
        line := { s.line with
          disturbedMs :=
            if s.line.state = .disturbed then min 65536 (s.line.disturbedMs + 1) else s.line.disturbedMs } }) ∧
  (∀ s : State, s.run.state ≠ .running → s.run.state ≠ .stopping → exec .panelClockAdvance s = .next s) ∧
  ∀ (c : Instr) (s t : State), s.run.state = .running ∨ s.run.state = .stopping → c ≠ .panelClockAdvance →
    c ≠ .fullReset → exec c s = .next t → t.run.clock = s.run.clock

/-- Each run state is left only to the states and by the commands of the table of run states: HALTED by START, STARTING
by its end, its failure, STOP or a bus failure, RUNNING by STOP or a bus failure, STOPPING by the completion after which
the Memory Port is quiet or a bus failure, FAULTED by CLEAR_FAULT, and any by full reset. A change to RUNNING, HALTED or
FAULTED sets the STATE cause, but a full reset sets none; and every change leaves reason NONE with detail 0 but the end
of a start whose last start read fails the checks. -/
def Obligations.RunStateTransitions : Prop :=
  ∀ (c : Instr) (s t : State), c.wellFormed = true → s.Quiescent → exec c s = .next t → t.run.state ≠ s.run.state →
    let busFails : Prop := c = .busErrorResponse ∨ c = .memoryAccessTimeout
    (c = .fullReset ∧ t.run.state = .halted ∨
      s.run.state = .halted ∧ c = .start ∧ t.run.state = .starting ∨
      s.run.state = .starting ∧
        (t.run.state = .running ∧ (∃ data, c = .startReadComplete data ∨ c = .imageFetchComplete data) ∨
          t.run.state = .halted ∧ (c = .stop ∨ isCompletion c = true) ∨
          t.run.state = .faulted ∧ busFails) ∨
      s.run.state = .running ∧ (t.run.state = .stopping ∧ c = .stop ∨ t.run.state = .faulted ∧ busFails) ∨
      s.run.state = .stopping ∧ (t.run.state = .halted ∧ isCompletion c = true ∨ t.run.state = .faulted ∧ busFails) ∨
      s.run.state = .faulted ∧ c = .clearFault ∧ t.run.state = .halted) ∧
    (c ≠ .fullReset → t.run.state = .running ∨ t.run.state = .halted ∨ t.run.state = .faulted →
      t.irq.cause.getLsbD 1 = true) ∧
    (t.run.reason = .none ∧ t.run.detail = 0#8 ∨
      s.run.state = .starting ∧ t.run.state = .halted ∧ s.run.startAbandoned = false ∧
        ∃ data, c = .startReadComplete data)

/-! ### Start -/

/-- START in HALTED enters STARTING with reason NONE and places the 18 start reads, of which the first starts at the
exchange area base; the Memory Port is otherwise empty with its fault capture kept, and nothing else changes. -/
def Obligations.StartPlacesTheStartReads : Prop :=
  ∀ s : State, s.run.resetAsserted = false → s.run.state = .halted →
    exec .start s = .next
      { s with
        run := { s.run with
          state := .starting, reason := .none, detail := 0#8, startImage := ⟨[], []⟩, startAbandoned := false }
        port :=
          { reads := (List.range 17).map fun i => .start (i + 1)
            writes := []
            inFlight := some (.read (.start 0) s.run.exchangeBase)
            owed := Vector.replicate 16 false
            heldMark := none
            lastServed := .read
            faultAddr := s.port.faultAddr
            abandoned := s.port.abandoned } }

/-- A start read but the last places its data in the start image and the next start read begins; the last one, where
the checks fail, ends the start in HALTED with the failing reason and detail and STATE set, and where they pass places
the image fetches of the entries of the run. No unit's state changes in either case. Where they pass and no entry below
the station count is configured, it enters RUNNING at once: the panel clock is 0, STATE is set, RUN_START is staged, the
units take their start values and every station entry its full-reset values, a MARK covering 0 is requested, the two
periodic timers start, and cycle 0, which has no station to visit, begins and ends. (The line's times and its settling
report, and of an entry with no record held its address, contact settings and output record, have no value in the spec:
those of `Line.reset` and `Station.reset` are the model's choice, log entry 18.) -/
def Obligations.StartReadsThenChecks : Prop :=
  ∀ (s : State) (i : Nat) (a : Nat) (data : List Byte), s.run.state = .starting → s.run.startAbandoned = false →
    s.port.inFlight = some (.read (.start i) a) → data.length = (Read.start i).size → s.port.writes = [] →
    let image : StartImage := { s.run.startImage with blocks := s.run.startImage.blocks ++ [data] }
    (∀ rest, i < 17 → s.port.reads = .start (i + 1) :: rest →
      exec (.startReadComplete data) s = .next
        { s with
          run := { s.run with startImage := image }
          port := { s.port with
            reads := rest
            inFlight := some (.read (.start (i + 1)) (s.readAddress (.start (i + 1))))
            lastServed := .read } }) ∧
    (∀ reason detail, i = 17 → image.check s.run.exchangeBase = some (reason, detail) →
      exec (.startReadComplete data) s = .next
        { s with
          run := { s.run with
            state := .halted, reason := reason, detail := detail, startImage := ⟨[], []⟩, startAbandoned := false }
          irq := { s.irq with cause := s.irq.cause ||| 0b00010#5 }
          port := { s.port with inFlight := none } }) ∧
    (∀ e rest, i = 17 → s.port.reads = [] → image.check s.run.exchangeBase = none → image.entries = e :: rest →
      exec (.startReadComplete data) s = .next
        { s with
          run := { s.run with startImage := image }
          port := { s.port with
            reads := rest.map .image
            inFlight := some (.read (.image e) (s.readAddress (.image e)))
            lastServed := .read } }) ∧
    (i = 17 → image.check s.run.exchangeBase = none → image.entries = [] →
      ∃ t, exec (.startReadComplete data) s = .next t ∧
        t.run = { s.run with
          state := .running, reason := .none, detail := 0#8, clock := 0#32, startImage := ⟨[], []⟩
          settings := some image.settings } ∧
        t.irq = { cause := s.irq.cause ||| 0b00010#5, mask := s.irq.mask, holdOff := none } ∧
        t.journal = { Journal.reset with
          staging := [⟨⟨.runStart image.settings.journalCapacity 0, none, 0#32⟩, Gap.zero⟩] } ∧
        t.exch = { Exchange.reset with sweepTimer := some ⟨0#32, .ms image.settings.sweepPeriod⟩ } ∧
        t.sched = { Scheduler.reset with
          cycleNumber := 0#32, cycleInProgress := false, nextIndex := 0, visit := none, markDue := false
          cycleTimer := .running ⟨0#32, .ms (max 1 image.settings.cycleMinimum)⟩
          markTimer := some ⟨0#32, .ms 1000⟩ } ∧
        t.line = { Line.reset with pairAtRest := s.line.pairAtRest, receiver := .disarmed } ∧
        (∀ e, t.station e = Station.reset) ∧ t.tornReads = 0#16 ∧
        t.memory = s.memory ∧ t.port.faultAddr = s.port.faultAddr ∧ t.port.reads = [] ∧
        t.port.writes = [.mark 0#32 false] ∧ ∃ a bytes, t.port.inFlight = some (.write (.mark 0#32 false) a bytes))

/-- The checks of a start pass exactly when every field is in its range, and a start fails with the reason and the
detail of the first check that fails in the order of the table: the layout version; the line rate; the ten parameters
in ascending field code, each with its code as the detail; the station count; the journal's size, alignment and
overlap; the released count; and then entry by entry, in ascending index and each with the entry's index as the detail,
the geometry, the address, the indicator count and the address shared with a lower entry. Each field is read at its
offset and width: the first block holds the control block from 0x000, the second from 0x040 with the released count at
0x078, and each further one an entry's start-time and live part; the entries of the run are those below the station
count whose configured flag is nonzero. -/
def Obligations.StartChecksFollowTheTable : Prop :=
  (∀ i : StartImage,
    let block (k : Nat) : List Byte := i.blocks.getD k []
    let c := block 0
    (∀ b k, longAt b k = wordAt b (k + 4) ++ wordAt b k) ∧ i.layoutVersion = wordAt c 0x000 ∧
    i.settings =
      { lineRate := (byteAt c 0x004).toNat
        retryLimit := (byteAt c 0x005).toNat
        missLimit := (byteAt c 0x006).toNat
        searchDivisor := (byteAt c 0x007).toNat
        responseWindow := (halfAt c 0x008).toNat
        cycleMinimum := (halfAt c 0x00A).toNat
        sweepPeriod := (byteAt c 0x00C).toNat
        ambiguityReport := (byteAt c 0x00D).toNat
        threshold := (byteAt c 0x00E).toNat
        stationCount := (byteAt c 0x00F).toNat
        holdOff := (halfAt c 0x010).toNat
        stopDrainLimit := (halfAt c 0x012).toNat
        journalCapacity := (halfAt c 0x014).toNat
        journalBase := longAt c 0x018 } ∧
    i.released = wordAt (block 1) (0x078 - 0x040) ∧ i.entries.Pairwise (· < ·) ∧
    ∀ e,
      let b := block (2 + e.val)
      (e ∈ i.entries ↔ e.val < i.settings.stationCount ∧ byteAt b 0x00 ≠ 0#8) ∧
      i.fields e =
        { configured := decide (byteAt b 0x00 ≠ 0#8)
          address := (byteAt b 0x01).toNat
          rows := (byteAt b 0x02).toNat
          columns := (byteAt b 0x03).toNat
          diodeIsolated := decide (byteAt b 0x04 ≠ 0#8)
          indicatorCount := (byteAt b 0x05).toNat
          closeDebounce := (byteAt b 0x06).toNat
          openDebounce := (byteAt b 0x07).toNat } ∧
      i.live e =
        { enable := byteAt b 0x20
          revision := halfAt b 0x24
          sounderCount := halfAt b 0x26
          resyncCount := halfAt b 0x28
          pattern := byteAt b 0x2A }) ∧
  ∀ (i : StartImage) (base : Nat),
    let c := i.settings
    let ring := c.journalBase.toNat
    let top := ring + 16 * c.journalCapacity
    let control : List (Bool × Reason × Byte) :=
      [(decide (i.layoutVersion = 1#32), .layoutVersion, 0#8),
       (decide (c.lineRate ≤ 4), .rate, 0#8),
       (decide (1 ≤ c.responseWindow ∧ c.responseWindow ≤ 50), .parameter, 3#8),
       (decide (c.retryLimit ≤ 3), .parameter, 4#8),
       (decide (1 ≤ c.missLimit ∧ c.missLimit ≤ 15), .parameter, 5#8),
       (decide (1 ≤ c.searchDivisor ∧ c.searchDivisor ≤ 16), .parameter, 6#8),
       (decide (c.cycleMinimum ≤ 1000), .parameter, 7#8),
       (decide (1 ≤ c.sweepPeriod ∧ c.sweepPeriod ≤ 255), .parameter, 8#8),
       (decide (1 ≤ c.ambiguityReport ∧ c.ambiguityReport ≤ 255), .parameter, 9#8),
       (decide (1 ≤ c.threshold ∧ c.threshold ≤ 255), .parameter, 12#8),
       (decide (c.holdOff ≤ 1000), .parameter, 13#8),
       (decide (c.stopDrainLimit ≤ 10000), .parameter, 14#8),
       (decide (1 ≤ c.stationCount ∧ c.stationCount ≤ 16), .stationCount, 0#8),
       (decide (c.journalCapacity ∈ [64, 128, 256, 512, 1024, 2048, 4096]), .journalSize, 0#8),
       (decide (ring % 16 = 0), .journalAlign, 0#8),
       (decide (top ≤ 2 ^ 64 ∧ (top ≤ base ∨ base + 0x900 ≤ ring)), .journalOverlap, 0#8),
       (decide (i.released = 0#32), .releaseNotZero, 0#8)]
    let entry (e : Entry) : List (Bool × Reason × Byte) :=
      let f := i.fields e
      let index := BitVec.ofNat 8 e.val
      [(decide (1 ≤ f.rows ∧ f.rows ≤ 8 ∧ 1 ≤ f.columns ∧ f.columns ≤ 8), .geometry, index),
       (decide (1 ≤ f.address ∧ f.address ≤ 31), .address, index),
       (decide (f.indicatorCount ≤ 64), .indicatorCount, index),
       (decide (∀ e' ∈ i.entries, e' < e → (i.fields e').address ≠ f.address), .duplicateAddress, index)]
    (i.check base = none ↔ i.Acceptable base) ∧
    i.check base = ((control ++ i.entries.flatMap entry).find? fun x => !x.1).map (·.2) ∧
    (i.layoutVersion ≠ 1#32 → i.check base = some (.layoutVersion, 0#8)) ∧
    (i.layoutVersion = 1#32 → 4 < i.settings.lineRate → i.check base = some (.rate, 0#8)) ∧
    ∀ reason detail, i.check base = some (reason, detail) →
      reason = .geometry ∨ reason = .address ∨ reason = .indicatorCount ∨ reason = .duplicateAddress →
      ((i.controlChecks base).all (·.isNone) = true ∧ ∃ e ∈ i.entries, detail = BitVec.ofNat 8 e.val)

/-- An image fetch of a start is accepted where revision A and revision B both equal the live revision read at start,
and otherwise torn, which leaves no revision and every lamp OFF; its result is placed in the start image, and the next
fetch begins. The last one, accepted or torn, leads at once to RUNNING: the panel clock is 0, STATE is set,
RUN_START is staged first, and every unit is at its start values: the line, the scheduler, the journal, the Exchange
Unit and the hold-off timer, every entry of the run from the start image with its link SEARCHING, or DISABLED where its
enable flag is 0, and every other entry at its full-reset values. The STATUS of each entry of the run and the first MARK
are requested, the receiver goes on, and cycle 0 has begun with its timer: its first visit is at the lowest entry whose
enable flag is nonzero, where it counts the visit and makes its first order, a RESET-STATION with turn 0, which samples
the resync request count and is sent at once if the pair is at rest and waits in IDLE if not; where there is no such
entry the cycle has ended. (The start times of a contact record, the line's times and settling report, and what the spec
gives an entry outside the run no value for, are the model's choice, log entry 18.) -/
def Obligations.StartFetchesEnterRunning : Prop :=
  (∀ (i : StartImage) (e : Entry) (data : List Byte),
    let live := (i.live e).revision
    let agrees : Prop := halfAt data 0 = live ∧ halfAt data 18 = live
    let taken : StartImage := { i with fetches := i.fetches ++ [i.fetchResult e data] }
    (agrees → i.fetchResult e data = ⟨e, some (live, (data.drop 2).take 16)⟩) ∧
    (¬agrees → i.fetchResult e data = ⟨e, none⟩) ∧
    ((∀ f ∈ i.fetches, f.entry ≠ e) → taken.fetched e = (i.fetchResult e data).accepted) ∧
    (∀ e' ≠ e, taken.fetched e' = i.fetched e') ∧
    i.tornFetches = (i.entries.filter fun e => decide (i.fetched e = none)).length) ∧
  (∀ (s : State) (e : Entry) (a : Nat) (data : List Byte) (r : Read) (rest : List Read), s.run.state = .starting →
    s.run.startAbandoned = false → s.port.inFlight = some (.read (.image e) a) → s.port.reads = r :: rest →
    s.port.writes = [] → data.length = 20 →
    exec (.imageFetchComplete data) s = .next
      { s with
        run := { s.run with startImage := { s.run.startImage with
          fetches := s.run.startImage.fetches ++ [s.run.startImage.fetchResult e data] } }
        port := { s.port with reads := rest, inFlight := some (.read r (s.readAddress r)), lastServed := .read } }) ∧
  ∀ (s : State) (e : Entry) (a : Nat) (data : List Byte), s.run.state = .starting → s.run.startAbandoned = false →
    s.port.inFlight = some (.read (.image e) a) → s.port.reads = [] → data.length = 20 →
    let image : StartImage :=
      { s.run.startImage with fetches := s.run.startImage.fetches ++ [s.run.startImage.fetchResult e data] }
    let enabled (e : Entry) : Prop := image.takesPart e = true ∧ (image.live e).enable ≠ 0#8
    let address (e : Entry) : LineAddress := BitVec.ofNat 5 (image.fields e).address
    let line : Line := { Line.reset with pairAtRest := s.line.pairAtRest, receiver := .disarmed }
    let sched (inProgress : Bool) (visit : Option Visit) : Scheduler :=
      { cycleNumber := 0#32
        cycleInProgress := inProgress
        cycleTimer := .running ⟨0#32, .ms (max 1 image.settings.cycleMinimum)⟩
        nextIndex := 0
        markDue := false
        markTimer := some ⟨0#32, .ms 1000⟩
        visit := visit }
    let link (e : Entry) : Link :=
      { Link.reset with
        state := if (image.live e).enable = 0#8 then .disabled else .searching
        resyncRequest := (image.live e).resyncCount
        resyncDone := (image.live e).resyncCount }
    let visited (e : Entry) : Link :=
      { link e with
        nextTurn := 1#3
        outstanding := some ⟨.resetStation, 0#3⟩
        sampledResync := some (image.live e).resyncCount
        countersChanged := true
        counters := { Counters.reset with visits := 1#16 } }
    let request (e : Entry) : SendRequest :=
      { frame := buildFrame (address e)
          ⟨0x14#8, 0#3, [BitVec.ofNat 8 (image.fields e).rows, BitVec.ofNat 8 (image.fields e).columns]⟩
        expectsReply := true
        serves := some e
        expected := 0#3 }
    let contacts (e : Entry) : ContactTable :=
      let f := image.fields e
      { rows := f.rows
        columns := f.columns
        closeDebounce := f.closeDebounce
        openDebounce := f.openDebounce
        diodeIsolated := f.diodeIsolated
        records := (geometry f.rows f.columns).map fun k => ⟨k, .unknown, none, 0#32, false, 0#32, false, false, false⟩
        bounces := 0#16 }
    let output (e : Entry) : Output :=
      { Output.reset with
        indicatorCount := (image.fields e).indicatorCount
        fetchedRevision := (image.fetched e).map (·.1)
        fetchedImage := ((image.fetched e).map (·.2)).getD (List.replicate 16 0#8)
        sounderRequest := (image.live e).sounderCount
        sounderPattern := (image.live e).pattern
        sounderDone := (image.live e).sounderCount
        tornReads := if (image.fetched e).isNone then 1#16 else 0#16 }
    ∃ t, exec (.imageFetchComplete data) s = .next t ∧
      t.run = { s.run with
        state := .running, reason := .none, detail := 0#8, clock := 0#32, startImage := ⟨[], []⟩
        settings := some image.settings } ∧
      t.irq = { cause := s.irq.cause ||| 0b00010#5, mask := s.irq.mask, holdOff := none } ∧
      t.journal = { Journal.reset with
        staging := [⟨⟨.runStart image.settings.journalCapacity image.entries.length, none, 0#32⟩, Gap.zero⟩] } ∧
      t.exch = { Exchange.reset with sweepTimer := some ⟨0#32, .ms image.settings.sweepPeriod⟩ } ∧
      ((∀ e, ¬enabled e) → t.sched = sched false none ∧ t.line = line) ∧
      (∀ e, enabled e → (∀ e' < e, ¬enabled e') →
        t.sched = sched true (some ⟨e, request e, 1⟩) ∧
        t.line = { line with
          state := if s.line.pairAtRest then .sending else .idle
          sendPlace := some (request e)
          busy := if s.line.pairAtRest then none else some ⟨0#32, .ms 20⟩ }) ∧
      t.tornReads = satAdd 0#16 image.tornFetches ∧ t.memory = s.memory ∧ t.port.faultAddr = s.port.faultAddr ∧
      t.port.reads = [] ∧ (.mark 0#32 false ∈ t.port.writes ∨ t.port.heldMark = some ⟨0#32, false⟩) ∧
      (∀ e, image.takesPart e = false → t.station e = Station.reset) ∧
      ∀ e, image.takesPart e = true →
        (.status e ∈ t.port.writes ∨ t.port.owed[e.val] = true) ∧
        t.station e =
          { takesPart := true
            address := address e
            link := (t.station e).link
            contacts := contacts e
            output := output e
            rememberedSounder := none
            rememberedResync := none } ∧
        (enabled e ∧ (∀ e' < e, ¬enabled e') → (t.station e).link = visited e) ∧
        (¬enabled e ∨ (∃ e' < e, enabled e') → (t.station e).link = link e)

/-- STOP in STARTING withdraws every read not started. The line is IDLE and released with its stray count and line
disturbed flag kept, the staging queue and gaps are empty with the counts 0, and no sweep and no remembered invalid
value is held; every other unit keeps what it held. The read in flight runs to its end, its data are discarded, and
HALTED follows with reason NONE and STATE set, where the start image is discarded. (That the rows of the three units
stand over R169's sentence and take effect at the STOP, and that the start image is kept until HALTED, are read by
inference, log entry 14.) -/
def Obligations.StopInStartingAbandonsTheStart : Prop :=
  ∀ (s : State) (r : Read) (a : Nat) (data : List Byte), s.run.resetAsserted = false → s.run.state = .starting →
    s.port.inFlight = some (.read r a) → data.length = r.size →
    ∃ t, exec .stop s = .next t ∧
      t = { s with
        run := { s.run with startAbandoned := true }
        port := { s.port with reads := [] }
        line := { s.line with
          state := .idle, discard := false, receiver := .off, sendPlace := none, busy := none, reply := .stopped
          interChar := none, discardRest := none, quietGap := none, clearTest := none, stopLimit := none
          holding := [], assembler := [] }
        journal := { Journal.reset with drain := s.journal.drain, drainTimer := s.journal.drainTimer }
        exch := Exchange.reset
        stations := t.stations } ∧
      (∀ e, t.station e = { s.station e with rememberedSounder := none, rememberedResync := none }) ∧
      (s.port.writes = [] → ∀ c, (r.isStart = true ∧ c = .startReadComplete data) ∨
          (r.isImage = true ∧ c = .imageFetchComplete data) →
        exec c t = .next { t with
          run := { t.run with
            state := .halted, reason := .none, detail := 0#8, startImage := ⟨[], []⟩, startAbandoned := false }
          irq := { t.irq with cause := t.irq.cause ||| 0b00010#5 }
          port := { t.port with inFlight := none } })

/-! ### Stop -/

/-- STOP in RUNNING enters STOPPING: a due mark is dropped, the live-part reads not started are withdrawn, and the
released count read and the image fetches not started stay on the list (said where the line does not settle at once
with a stop drain limit of 0); a sweep that has no read left ends, and another begins, with the released count alone,
where the sweep-again mark is set. Every fetch still in flight is marked for discard, a cycle with no visit in progress
ends (where a TIME MARK is in the send place, by inference: log entry 32), and the visit, the link states and
outstanding commands, CAUSE, MASK and memory stay as they are. Where the send place is empty and the line is not
settled, the stop limit starts at the entry; where a request waits or is on the line, the line stays as it is. -/
def Obligations.StopInRunningEntersStopping : Prop :=
  ∀ s : State, s.run.resetAsserted = false → s.run.state = .running → s.journal.drain = .notBegun →
    ∃ t, exec .stop s = .next t ∧
      t.run = { s.run with state := .stopping, reason := .none, detail := 0#8 } ∧ t.irq = s.irq ∧
      t.memory = s.memory ∧ t.sched.markDue = false ∧ t.sched.visit = s.sched.visit ∧
      (s.sched.visit = none → t.sched.cycleInProgress = false) ∧ (∀ e, .live e ∉ t.port.reads) ∧
      (let settles : Prop := s.line.sendPlace = none ∧ (s.line.state = .idle ∨ s.line.state = .disturbed)
       let sweepReading : Prop := .released ∈ s.port.reads ∨
         (∃ a, s.port.inFlight = some (.read .released a)) ∨ ∃ e a, s.port.inFlight = some (.read (.live e) a)
       let kept : List Read := s.port.reads.filter fun r => decide (∀ e, r ≠ .live e)
       (s.line.settled = false → ¬settles → t.line =
         { s.line with
           stopLimit :=
             if s.line.sendPlace = none ∧ s.line.stopLimit = none then some ⟨s.run.clock, .ms 20⟩
             else s.line.stopLimit }) ∧
       (s.port.inFlight.isSome = true → ¬settles ∨ s.cfg.stopDrainLimit ≠ 0 →
         (s.exch.sweepInFlight = false ∨ sweepReading → t.port.reads = kept ∧ t.exch = s.exch) ∧
         (s.exch.sweepInFlight = true → ¬sweepReading →
           t.port.reads = kept ++ (if s.exch.sweepAgain then [.released] else []) ∧
           t.exch = { s.exch with
             sweepInFlight := s.exch.sweepAgain, sweepAgain := false, sweepCount := s.exch.sweepCount + 1#32 } ∧
           ∀ e, (s.station e).takesPart = true → (s.station e).link.countersChanged = true →
             .status e ∈ t.port.writes ∨ t.port.owed[e.val] = true))) ∧
      ∀ e, (t.station e).link.state = (s.station e).link.state ∧
        (t.station e).link.outstanding = (s.station e).link.outstanding ∧
        (t.station e).contacts = (s.station e).contacts ∧
        ((t.station e).output.fetchInFlight.isSome = true → (t.station e).output.fetchDiscard = true)

/-- In STOPPING the line is reported settled at the first moment when the send place is empty and the line is IDLE or
DISTURBED: at STOP itself where it is so then, and here by the quiet gap's expiry or the stop limit's, at which the
line is DISTURBED and the clear test runs from now where the pair is at rest with no character in reception, and is
stopped otherwise (from when rest is measured is read by inference: log entry 26). RUN_STOP is submitted with the last
cycle's number and the stop drain begins with its limit. With a limit of 0 nothing is taken: what is left, RUN_STOP
with it, is counted and discarded, the drain ends, the final MARK is requested, the sweeps end and every read not
started is withdrawn (all within the command that began the drain, read by inference: log entry 13). After a result or
a "sent" in STOPPING (`State.proceed`) the cycle has ended (that a cycle with no visit in progress has ended too, as at
a "sent", is read by inference: log entry 32), and the line is reported settled then where it is at rest; where it is
not, the stop limit starts unless it runs. -/
def Obligations.SettlingBeginsTheStopDrain : Prop :=
  ∀ s : State, s.line.settled = false → s.journal.drain = .notBegun → s.line.sendPlace = none →
    let staged (j : Journal) : Journal := j.stage ⟨.runStop s.sched.cycleNumber, none, s.run.clock⟩
    let begun (j : Journal) : Journal :=
      { staged j with drain := .running, drainTimer := some ⟨s.run.clock, .ms s.cfg.stopDrainLimit⟩ }
    let discarded (j : Journal) : Journal :=
      { staged j with
        staging := [], openGap := ⟨0#16, 0#16, 0#16, 0#16⟩, drain := .ended, drainTimer := none
        discarded := satAdd j.discarded ((staged j).staging.length +
          ((staged j).staging.map fun x => x.gap.total).sum + (staged j).openGap.total) }
    let ended (t : State) : Prop :=
      t.run.state = .stopping ∧ t.port.reads = [] ∧ t.exch.sweepTimer = none ∧ t.exch.sweepInFlight = false ∧
      ((∃ urgent, .mark s.journal.written urgent ∈ t.port.writes) ∨
        ∃ urgent, t.port.heldMark = some ⟨s.journal.written, urgent⟩)
    let settled : Line :=
      { s.line with state := .idle, quietGap := none, clearTest := none, settled := true, stopLimit := none }
    let disturbed (line : Line) : Prop :=
      line.state = .disturbed ∧ line.settled = true ∧ line.disturbed = true ∧ line.holding = [] ∧
      line.assembler = [] ∧ line.stopLimit = none ∧ line.disturbedMs = 0 ∧
      line.stray = satAdd s.line.stray s.line.holding.length ∧ line.receiver = s.line.receiver ∧
      line.pairAtRest = s.line.pairAtRest ∧
      line.clearTest = if s.line.pairAtRest = true ∧ s.line.receiver ≠ .inReception then
        some ⟨s.run.clock, .chars 10⟩ else none
    let first : Journal := s.journal.stage ⟨.lineDisturbed, none, s.run.clock⟩
    (s.run.state = .running → s.run.resetAsserted = false → s.line.state = .idle ∨ s.line.state = .disturbed →
      ∃ t, exec .stop s = .next t ∧ t.run = { s.run with state := .stopping, reason := .none, detail := 0#8 } ∧
        t.line = { s.line with settled := true, stopLimit := none } ∧
        (s.cfg.stopDrainLimit ≠ 0 → t.journal = begun s.journal) ∧
        (s.cfg.stopDrainLimit = 0 → t.journal = discarded s.journal ∧ ended t)) ∧
    (s.run.state = .stopping → s.line.state = .quiet → s.line.quietGap.isSome = true →
      (s.cfg.stopDrainLimit ≠ 0 →
        exec .quietGapExpiry s = .next { s with line := settled, journal := begun s.journal }) ∧
      (s.cfg.stopDrainLimit = 0 →
        ∃ t, exec .quietGapExpiry s = .next t ∧ t.line = settled ∧ t.journal = discarded s.journal ∧ ended t)) ∧
    (s.run.state = .stopping → s.line.stopLimit.isSome = true →
      (s.cfg.stopDrainLimit ≠ 0 →
        ∃ line, exec .stopLimitExpiry s = .next { s with line := line, journal := begun first } ∧ disturbed line) ∧
      (s.cfg.stopDrainLimit = 0 →
        ∃ t, exec .stopLimitExpiry s = .next t ∧ disturbed t.line ∧ t.journal = discarded first ∧ ended t)) ∧
    (s.run.state = .stopping → s.sched.visit = none →
      let stopped : Scheduler := { s.sched with cycleInProgress := false }
      (s.line.state = .idle ∨ s.line.state = .disturbed → s.cfg.stopDrainLimit ≠ 0 →
        s.proceed = { s with
          sched := stopped, line := { s.line with settled := true, stopLimit := none }, journal := begun s.journal }) ∧
      (s.line.state = .idle ∨ s.line.state = .disturbed → s.cfg.stopDrainLimit = 0 →
        s.proceed.line = { s.line with settled := true, stopLimit := none } ∧ s.proceed.sched = stopped ∧
        s.proceed.journal = discarded s.journal ∧ ended s.proceed) ∧
      (s.line.state ≠ .idle → s.line.state ≠ .disturbed →
        s.proceed = { s with
          sched := stopped
          line := { s.line with
            stopLimit := if s.line.stopLimit = none then some ⟨s.run.clock, .ms 20⟩ else s.line.stopLimit } }))

/-! ### The pair and the receiver -/

/-- The pair's level is held in every run state; at work, a departure from rest is an edge to an armed receiver and
stops the measures of rest, and a return starts them, with no character in reception, and lets a waiting request in
IDLE begin; in every other case of a return the level alone changes (a measure of rest not running). The sample after an
edge finds a false start or a confirmed start bit, and a disarmed receiver arms at rest. Only the line changes. (What
becomes of the receiver, and from when rest is measured, is read by inference: log entries 8 and 26; so is that a
confirmed start bit in AWAITING leaves the reply window running, against the table of section 1.2: log entry 7.) -/
def Obligations.PairAndReceiverEvents : Prop :=
  (∀ s : State, s.works = false →
    (s.line.pairAtRest = true →
      exec .pairLeavesRest s = .next { s with line := { s.line with pairAtRest := false } }) ∧
    (s.line.pairAtRest = false →
      exec .pairReturnsToRest s = .next { s with line := { s.line with pairAtRest := true } })) ∧
  ∀ s : State, s.works = true →
    (s.line.pairAtRest = true →
      exec .pairLeavesRest s = .next
        { s with line := { s.line with
          pairAtRest := false, clearTest := none, discardRest := none
          receiver := if s.line.receiver = .armed ∧ s.line.state ≠ .sending then .edgeSeen else s.line.receiver } }) ∧
    (s.line.pairAtRest = false → s.line.state = .disturbed → s.line.receiver ≠ .inReception →
      exec .pairReturnsToRest s = .next
        { s with line := { s.line with pairAtRest := true, clearTest := some ⟨s.run.clock, .chars 10⟩ } }) ∧
    (s.line.pairAtRest = false → s.line.state = .receiving → s.line.discard = true → s.line.receiver ≠ .inReception →
      exec .pairReturnsToRest s = .next
        { s with line := { s.line with pairAtRest := true, discardRest := some ⟨s.run.clock, .chars 2⟩ } }) ∧
    (s.line.pairAtRest = false → s.line.state = .idle → s.line.sendPlace.isSome = true →
      s.line.receiver ≠ .inReception →
      ∃ t, exec .pairReturnsToRest s = .next t ∧ t.line.state = .sending ∧ t.line.busy = none ∧
        t.line.sendPlace = s.line.sendPlace ∧ t = { s with line := t.line }) ∧
    (s.line.pairAtRest = false → s.line.state = .disturbed → s.line.receiver = .inReception →
      exec .pairReturnsToRest s = .next { s with line := { s.line with pairAtRest := true, clearTest := none } }) ∧
    (s.line.pairAtRest = false → s.line.state = .receiving → s.line.discard = true → s.line.receiver = .inReception →
      exec .pairReturnsToRest s = .next { s with line := { s.line with pairAtRest := true, discardRest := none } }) ∧
    (s.line.pairAtRest = false →
      s.line.state = .quiet ∨ s.line.state = .awaiting ∨ s.line.state = .sending ∨
        s.line.state = .receiving ∧ s.line.discard = false ∨
        s.line.state = .idle ∧ (s.line.sendPlace = none ∨ s.line.receiver = .inReception) →
      exec .pairReturnsToRest s = .next { s with line := { s.line with pairAtRest := true } }) ∧
    (s.line.state ≠ .sending → s.line.receiver = .edgeSeen → s.line.pairAtRest = true →
      exec .startBitConfirmed s = .next { s with line := { s.line with receiver := .armed } }) ∧
    (s.line.state ≠ .sending → s.line.receiver = .edgeSeen → s.line.pairAtRest = false →
      exec .startBitConfirmed s = .next
        { s with line := { s.line with receiver := .inReception, interChar := none } }) ∧
    (s.line.receiver = .disarmed → s.line.pairAtRest = true →
      exec .receiverArmed s = .next { s with line := { s.line with receiver := .armed } })

/-- A character has a parity error exactly when its data and parity bits hold an even number of 1 bits, and a framing
error exactly when its stop bit was sampled at the active level. -/
def Obligations.CharacterCheckResults : Prop :=
  ∀ (data : Byte) (parityBit stopBit : Bool),
    ((sampledChar data parityBit stopBit).parityError = true ↔
      ((if data.getLsbD 0 then 1 else 0) + (if data.getLsbD 1 then 1 else 0) + (if data.getLsbD 2 then 1 else 0) +
        (if data.getLsbD 3 then 1 else 0) + (if data.getLsbD 4 then 1 else 0) + (if data.getLsbD 5 then 1 else 0) +
        (if data.getLsbD 6 then 1 else 0) + (if data.getLsbD 7 then 1 else 0) + (if parityBit then 1 else 0)) % 2 = 0) ∧
    ((sampledChar data parityBit stopBit).framingError = true ↔ stopBit = false) ∧
    (sampledChar data parityBit stopBit).data = data

/-- A complete character is stray in IDLE, QUIET and DISTURBED, and in AWAITING where it is intact and not 0xC3; in
the discard period it is held, and stray where four are held already. A stray character adds one to the saturating
count, moves IDLE to QUIET, restarts the quiet gap and leaves the reply window running. Only the line changes. But one
that completes in AWAITING after the reply window's expiry, which waited for it, is stray and ends the try NO_REPLY: the
line is IDLE where four character times have passed since the last stop bit sent, and otherwise QUIET for the rest of
the gap; where the settings leave both possible, a free value decides it (log entry 6). (What becomes of the receiver,
and from when rest is measured, is read by inference: log entries 8 and 26; that the expiry waits in AWAITING, log entry
7.) -/
def Obligations.StrayAndHeldCharacters : Prop :=
  ∀ (s : State) (data : Byte) (parityBit stopBit : Bool), s.works = true → s.line.receiver = .inReception →
    let c := sampledChar data parityBit stopBit
    let receiver : Receiver := if stopBit then .armed else .disarmed
    let taken : Line := { s.line with receiver := receiver, lastStopAt := s.run.clock }
    (s.line.state = .idle ∨ s.line.state = .quiet →
      exec (.characterReceived data parityBit stopBit) s = .next
        { s with line := { taken with
          state := .quiet, stray := satInc s.line.stray, quietGap := some ⟨s.run.clock, .chars 4⟩, discard := false
          assembler := [], reply := .stopped, interChar := none, discardRest := none } }) ∧
    (s.line.state = .disturbed →
      exec (.characterReceived data parityBit stopBit) s = .next
        { s with line := { taken with
          stray := satInc s.line.stray
          clearTest := if s.line.pairAtRest then some ⟨s.run.clock, .chars 10⟩ else none } }) ∧
    (s.line.state = .awaiting → c.parityError = false → stopBit = true → data ≠ 0xC3#8 → s.line.reply ≠ .expiryHeld →
      exec (.characterReceived data parityBit stopBit) s = .next
        { s with line := { taken with stray := satInc s.line.stray } }) ∧
    (∀ r e, s.line.state = .awaiting → c.parityError = false → stopBit = true → data ≠ 0xC3#8 →
      s.line.reply = .expiryHeld → s.line.sendPlace = some r → r.serves = some e →
      let ended : Line := { taken with stray := satInc s.line.stray, reply := .stopped, sendPlace := none }
      let idle : Line := { ended with state := .idle, quietGap := none, clearTest := none }
      let quiet : Line :=
        { ended with
          state := .quiet, discard := false, assembler := [], interChar := none, discardRest := none
          quietGap := some ⟨s.line.sentAt, .chars 4⟩ }
      let window := s.cfg.responseWindow * Config.bitRate s.cfg.lineRate
      ∃ passed : Bool, (44000 ≤ window → passed = true) ∧ (window + 11000 < 44000 → passed = false) ∧
        exec (.characterReceived data parityBit stopBit) s = .next
          (({ s with
            line := if passed then idle else quiet
            draws := if window < 44000 ∧ 44000 ≤ window + 11000 then s.draws + 1 else s.draws }.deliver
              .noReply).proceed.haltIfQuiet)) ∧
    (s.line.state = .receiving → s.line.discard = true →
      exec (.characterReceived data parityBit stopBit) s = .next
        { s with line := { taken with
          holding := if s.line.holding.length < 4 then s.line.holding ++ [c] else s.line.holding
          stray := if s.line.holding.length < 4 then s.line.stray else satInc s.line.stray
          discardRest := if s.line.pairAtRest then some ⟨s.run.clock, .chars 2⟩ else none } })

/-! ### The reply -/

/-- An intact 0xC3 in AWAITING begins the reply, and each intact character after it is appended while the frame is not
complete and its length is not over 24; each starts the inter-character limit. Only the line changes (that the
receiver stays armed is read by inference, log entry 8). -/
def Obligations.ReplyIsAssembled : Prop :=
  ∀ (s : State) (data : Byte) (parityBit : Bool), s.works = true → s.line.receiver = .inReception →
    (sampledChar data parityBit true).parityError = false →
    let taken : Line :=
      { s.line with
        receiver := .armed, lastStopAt := s.run.clock, interChar := some ⟨s.run.clock, .chars 2⟩ }
    let chars := s.line.assembler ++ [data]
    (s.line.state = .awaiting → data = 0xC3#8 →
      exec (.characterReceived data parityBit true) s = .next
        { s with line := { taken with state := .receiving, discard := false, reply := .stopped, assembler := [data] } }) ∧
    (s.line.state = .receiving → s.line.discard = false → (chars.length = 5 → data.toNat ≤ 24) →
      (5 ≤ chars.length → chars.length ≠ 7 + (byteAt chars 4).toNat) →
      exec (.characterReceived data parityBit true) s = .next
        { s with line := { taken with assembler := chars } })

/-- A damaged character in place of the lead character or in a reply ends the try with CHAR_ERROR: the characters
assembled are discarded, the discard period begins, the station's CHAR_ERROR counter advances, and where another try
is permitted the same frame is requested again and waits with the busy timer started. (What becomes of the receiver,
and from when rest is measured, is read by inference: log entries 8 and 26.) -/
def Obligations.DamagedCharacterEndsTheTry : Prop :=
  ∀ (s : State) (v : Visit) (data : Byte) (parityBit stopBit : Bool), s.run.state = .running →
    s.line.receiver = .inReception → s.line.state = .awaiting ∨ s.line.state = .receiving ∧ s.line.discard = false →
    (sampledChar data parityBit stopBit).damaged = true → s.sched.visit = some v →
    s.line.sendPlace = some v.request → v.request.serves = some v.entry → v.tries < 1 + s.cfg.retryLimit →
    (s.station v.entry).link.disablePending = false →
    exec (.characterReceived data parityBit stopBit) s = .next
      { s.onLink v.entry (fun l => { l with
          counters := { l.counters with charError := satInc l.counters.charError }, countersChanged := true }) with
        line := { s.line with
          state := .receiving, discard := true, assembler := [], reply := .stopped, interChar := none
          receiver := if stopBit then .armed else .disarmed
          lastStopAt := s.run.clock
          discardRest := if s.line.pairAtRest then some ⟨s.run.clock, .chars 2⟩ else none
          busy := some ⟨s.run.clock, .ms 20⟩ }
        sched := { s.sched with visit := some { v with tries := v.tries + 1 } } }

/-- The last character of a reply completes the sequence, which frame judgement judges at once: the line is QUIET with
the quiet gap started now, the assembler is empty, and the try's outcome has reached the scheduler. A length character
over 24 ends assembly with BAD_FORMAT, and the discard period begins. In STOPPING the outcome is applied in full too;
the visit and the cycle have then ended and the stop limit starts. So do the other endings reach the scheduler, in
STOPPING too: CHAR_ERROR, TRUNCATED, and NO_REPLY at the window's expiry. What the scheduler makes of an outcome: OK,
WAIT and TURN_MISMATCH advance their own counter and end the visit as Visit OK, WAIT and TURN; LINE_DISTURBED advances
none and ends it as Visit LINE; each of the six failures advances its own counter, and then makes the same request
again as one more try, or, at the last permitted try, outside RUNNING or with a disable pending, ends the visit as
Visit MISS. (Receiver and rest by inference, log entries 8 and 26.) -/
def Obligations.CompleteSequenceIsJudged : Prop :=
  (∀ (s : State) (v : Visit) (data : Byte) (parityBit : Bool),
    s.run.state = .running ∨ s.run.state = .stopping ∧ s.journal.drain ≠ .ended →
    s.line.receiver = .inReception → s.line.state = .receiving → s.line.discard = false →
    (sampledChar data parityBit true).parityError = false → s.sched.visit = some v →
    s.line.sendPlace = some v.request → v.request.serves = some v.entry →
    let chars := s.line.assembler ++ [data]
    let against : JudgedAgainst :=
      { address := (s.station v.entry).address
        rows := (s.station v.entry).contacts.rows
        columns := (s.station v.entry).contacts.columns
        expected := v.request.expected }
    let taken : Line :=
      { s.line with
        receiver := .armed, lastStopAt := s.run.clock, sendPlace := none, assembler := [], reply := .stopped
        interChar := none, discardRest := none }
    let goesOn (u t : State) : Prop :=
      (s.run.state = .running → t = u.schedule) ∧
      (s.run.state = .stopping → t = u.proceed ∧ t.sched.visit = none ∧ t.sched.cycleInProgress = false ∧
        (s.line.settled = false → s.line.stopLimit = none → t.line.stopLimit = some ⟨s.run.clock, .ms 20⟩))
    (chars.length ≠ 5 ∨ data.toNat ≤ 24 → 5 ≤ chars.length → chars.length = 7 + (byteAt chars 4).toNat →
      ∃ t, exec (.characterReceived data parityBit true) s = .next t ∧
        goesOn ({ s with line := { taken with
          state := .quiet, discard := false, quietGap := some ⟨s.run.clock, .chars 4⟩ } }.deliver
            (judge against false chars)) t ∧
        t.line.state = .quiet ∧ t.line.quietGap = some ⟨s.run.clock, .chars 4⟩ ∧ t.line.assembler = []) ∧
    (chars.length = 5 → 24 < data.toNat →
      ∃ t, exec (.characterReceived data parityBit true) s = .next t ∧
        goesOn ({ s with line := { taken with
          state := .receiving, discard := true
          discardRest := if s.line.pairAtRest then some ⟨s.run.clock, .chars 2⟩ else none } }.deliver
            .badFormat) t ∧
        t.line.state = .receiving ∧ t.line.discard = true ∧ t.line.assembler = [])) ∧
  (∀ (s : State) (r : SendRequest) (e : Entry), s.works = true → s.line.sendPlace = some r → r.serves = some e →
    let ended (line : Line) (outcome : TryOutcome) : Result :=
      .next (({ s with line := line }.deliver outcome).proceed.haltIfQuiet)
    let quiet (since : Word) : Line :=
      { s.line with
        state := .quiet, discard := false, sendPlace := none, assembler := [], reply := .stopped, interChar := none
        discardRest := none, quietGap := some ⟨since, .chars 4⟩ }
    (s.line.state = .receiving → s.line.interChar.isSome = true →
      exec .interCharacterLimitExpiry s = ended (quiet s.line.lastStopAt) .truncated) ∧
    (∀ timer, s.line.state = .awaiting → s.line.reply = .running timer → s.line.receiver ≠ .inReception →
      (s.cfg.responseWindow * Config.bitRate s.cfg.lineRate < 44000 →
        exec .replyWindowExpiry s = ended (quiet s.line.sentAt) .noReply) ∧
      (44000 ≤ s.cfg.responseWindow * Config.bitRate s.cfg.lineRate →
        exec .replyWindowExpiry s = ended
          { s.line with state := .idle, sendPlace := none, reply := .stopped, quietGap := none, clearTest := none }
          .noReply)) ∧
    ∀ data parityBit stopBit, s.line.receiver = .inReception →
      s.line.state = .awaiting ∨ s.line.state = .receiving ∧ s.line.discard = false →
      (sampledChar data parityBit stopBit).damaged = true →
      exec (.characterReceived data parityBit stopBit) s = ended
        { s.line with
          state := .receiving, discard := true, sendPlace := none, assembler := [], reply := .stopped, interChar := none
          receiver := if stopBit then .armed else .disarmed
          lastStopAt := s.run.clock
          discardRest := if s.line.pairAtRest then some ⟨s.run.clock, .chars 2⟩ else none }
        .charError) ∧
  ∀ (s : State) (v : Visit), s.sched.visit = some v →
    let counted (f : Counters → Counters) : State :=
      s.onLink v.entry fun l => { l with counters := f l.counters, countersChanged := true }
    let again (f : Counters → Counters) : State :=
      { (counted f) with
        line := s.line.takeRequest s.run.clock v.request
        sched := { s.sched with visit := some { v with tries := v.tries + 1 } } }
    let last : Prop :=
      1 + s.cfg.retryLimit ≤ v.tries ∨ s.run.state ≠ .running ∨ (s.station v.entry).link.disablePending = true
    let fails (outcome : TryOutcome) (f : Counters → Counters) : Prop :=
      (last → s.deliver outcome = (counted f).endVisit v.entry .miss) ∧ (¬last → s.deliver outcome = again f)
    (∀ snapshot, s.deliver (.ok snapshot) =
      (counted fun c => { c with ok := satInc c.ok }).endVisit v.entry (.ok snapshot)) ∧
    (∀ hold, s.deliver (.wait hold) =
      (counted fun c => { c with waits := satInc c.waits }).endVisit v.entry (.wait hold)) ∧
    s.deliver .turnMismatch =
      (counted fun c => { c with turnMismatch := satInc c.turnMismatch }).endVisit v.entry .turn ∧
    s.deliver .lineDisturbed = s.endVisit v.entry .line ∧
    fails .noReply (fun c => { c with noReply := satInc c.noReply }) ∧
    fails .charError (fun c => { c with charError := satInc c.charError }) ∧
    fails .truncated (fun c => { c with truncated := satInc c.truncated }) ∧
    fails .badCrc (fun c => { c with badCrc := satInc c.badCrc }) ∧
    fails .badFormat (fun c => { c with badFormat := satInc c.badFormat }) ∧
    fails .wrongAddress (fun c => { c with wrongAddress := satInc c.wrongAddress })

/-- A frame's length is 7 plus its payload, and it begins with 0xC3 and the address character. A character is sent as
eleven bits: the start bit at the active level, the data bits with the least significant first, a parity bit that makes
the 1 bits odd in number, and the stop bit at rest; so sent, it is received with no check error; and in SENDING the
characters of the frame go onto the pair back to back. The check value starts at all ones and takes each covered byte's
bits, most significant first: a shift, and 0x1021 where the register's top bit and the bit taken differ. A frame carries
it last, high byte first, over its address through its payload. Frame judgement reads back what an addressed station
builds: a SNAP with the expected turn as its echo is OK with its flags and its rows cleaned of the bits beyond the
columns, and a WAIT gives its hold time, 0 read as 1. It judges any sequence in a fixed order: out of range is
BAD_FORMAT; a check value that differs, BAD_CRC; no uplink mark or another line address, WRONG_ADDRESS, bits 5 and 6
ignored; a kind not SNAP or WAIT, or a length that is not the kind's, BAD_FORMAT; a SNAP with a turn over 7, BAD_FORMAT;
and one whose turn is not the expected turn, TURN_MISMATCH. -/
def Obligations.FramesAreBuiltAndReadBack : Prop :=
  (∀ b : Byte, (sentBits b).length = 11 ∧ (sentBits b)[0]? = some false ∧
    (∀ i < 8, (sentBits b)[i + 1]? = some (b.getLsbD i)) ∧ (((sentBits b).drop 1).take 9).count true % 2 = 1 ∧
    (sentBits b)[10]? = some true ∧ ∀ parityBit stopBit, (sentBits b).drop 9 = [parityBit, stopBit] →
      sampledChar b parityBit stopBit = ⟨b, false, false⟩) ∧
  (∀ (l : Line) (r : SendRequest), l.state = .sending → l.sendPlace = some r →
    l.driven = r.frame.flatMap sentBits ∧ l.driven.length = 11 * r.frame.length) ∧
  (∀ (address : LineAddress) (plan : FramePlan), plan.payload.length ≤ 24 →
    (buildFrame address plan).length = 7 + plan.payload.length ∧ byteAt (buildFrame address plan) 0 = 0xC3#8 ∧
    byteAt (buildFrame address plan) 1 = address.setWidth 8 ∧ byteAt (buildFrame address plan) 2 = plan.kind ∧
    byteAt (buildFrame address plan) 3 = plan.turn.setWidth 8 ∧
    byteAt (buildFrame address plan) 4 = BitVec.ofNat 8 plan.payload.length ∧
    ((buildFrame address plan).drop 5).take plan.payload.length = plan.payload ∧
    byteAt (buildFrame address plan) (5 + plan.payload.length) ++ byteAt (buildFrame address plan)
      (6 + plan.payload.length) = checkValue (((buildFrame address plan).drop 1).take (4 + plan.payload.length))) ∧
  (checkValue [] = 0xFFFF#16 ∧ checkValue [0x00#8] = 0xE1F0#16 ∧ ∀ (covered : List Byte) (b : Byte),
    checkValue (covered ++ [b]) = [7, 6, 5, 4, 3, 2, 1, 0].foldl (fun (reg : Half) (i : Nat) =>
      if reg.msb = b.getLsbD i then reg <<< 1 else reg <<< 1 ^^^ 0x1021#16) (checkValue covered)) ∧
  (∀ (against : JudgedAgainst) (flags : Byte) (rows : List Byte), against.rows = rows.length → rows.length ≤ 8 →
    judge against false (uplinkFrame against.address 0x21#8 (against.expected.setWidth 8) (flags :: rows)) =
      .ok ⟨against.expected, flags.getLsbD 0, flags.getLsbD 1, rows.map (cleanRow against.columns)⟩) ∧
  (∀ (against : JudgedAgainst) (turn hold : Byte),
    judge against false (uplinkFrame against.address 0x22#8 turn [hold]) = .wait (max 1 hold.toNat)) ∧
  (∀ (columns i : Nat) (row : Byte), i < 8 →
    (cleanRow columns row).getLsbD i = (decide (i < columns) && row.getLsbD i)) ∧
  ∀ (against : JudgedAgainst) (chars : List Byte),
    let length := (byteAt chars 4).toNat
    let agrees : Prop :=
      byteAt chars (5 + length) ++ byteAt chars (6 + length) = checkValue ((chars.drop 1).take (4 + length))
    let ours : Prop := (byteAt chars 1).getLsbD 7 = true ∧ (byteAt chars 1).extractLsb' 0 5 = against.address
    let kind := byteAt chars 2
    let turn := byteAt chars 3
    let outcome := judge against false chars
    judge against true chars = .badFormat ∧ (¬agrees → outcome = .badCrc) ∧ (agrees → ¬ours → outcome = .wrongAddress) ∧
    (agrees → ours → kind ≠ 0x21#8 → kind ≠ 0x22#8 → outcome = .badFormat) ∧
    (agrees → ours → kind = 0x22#8 →
      (length ≠ 1 → outcome = .badFormat) ∧ (length = 1 → outcome = .wait (max 1 (byteAt chars 5).toNat))) ∧
    (agrees → ours → kind = 0x21#8 →
      (length ≠ 1 + against.rows ∨ 7 < turn.toNat → outcome = .badFormat) ∧
      (length = 1 + against.rows → turn.toNat ≤ 7 →
        (turn.toNat ≠ against.expected.toNat → outcome = .turnMismatch) ∧
        (turn.toNat = against.expected.toNat →
          outcome = .ok ⟨against.expected, (byteAt chars 5).getLsbD 0, (byteAt chars 5).getLsbD 1,
            ((chars.drop 6).take against.rows).map (cleanRow against.columns)⟩)))

/-! ### Line timers -/

/-- The end of a frame's last stop bit releases the driver: AWAITING with the reply window started where a reply is
expected; for a TIME MARK, QUIET with the quiet gap started, and the scheduler goes on. In STOPPING a TIME MARK runs to
its answer as well: its send place is then empty, and the stop limit starts (a cycle still in progress with no visit has
ended by then, by inference: log entry 32). -/
def Obligations.FrameSentTurnsThePairRound : Prop :=
  ∀ (s : State) (r : SendRequest), s.works = true → s.line.state = .sending → s.line.sendPlace = some r →
    (r.expectsReply = true →
      exec .frameSent s = .next
        { s with line := { s.line with
          state := .awaiting, sentAt := s.run.clock, reply := .running ⟨s.run.clock, .ms s.cfg.responseWindow⟩ } }) ∧
    (r.expectsReply = false → s.run.state = .running →
      ∃ t, exec .frameSent s = .next t ∧
        t = ({ s with line := { s.line with
          state := .quiet, sentAt := s.run.clock, quietGap := some ⟨s.run.clock, .chars 4⟩, sendPlace := none } }).schedule ∧
        t.line.state = .quiet ∧ t.line.driverEnabled = false ∧ t.line.quietGap = some ⟨s.run.clock, .chars 4⟩) ∧
    (r.expectsReply = false → s.run.state = .stopping → s.journal.drain ≠ .ended → s.sched.visit = none →
      s.line.settled = false →
      exec .frameSent s = .next
        { s with
          line := { s.line with
            state := .quiet, sentAt := s.run.clock, quietGap := some ⟨s.run.clock, .chars 4⟩, sendPlace := none
            stopLimit := if s.line.stopLimit = none then some ⟨s.run.clock, .ms 20⟩ else s.line.stopLimit }
          sched := { s.sched with cycleInProgress := false } })

/-- The reply window's expiry is held while a confirmed start bit is in reception (R8, read over the table of section
1.2, log entry 7); otherwise it ends the try with NO_REPLY, and the inter-character limit's ends it with TRUNCATED.
Where another try is permitted its request is made at once: it waits in QUIET for the rest of the gap, or, where the
gap has passed at NO_REPLY, it is sent if the pair is at rest and waits in IDLE if not. The counter of the outcome
advances. -/
def Obligations.ReplyTimersEndTheTry : Prop :=
  ∀ (s : State) (v : Visit), s.run.state = .running → s.sched.visit = some v → s.line.sendPlace = some v.request →
    v.request.serves = some v.entry → v.tries < 1 + s.cfg.retryLimit →
    (s.station v.entry).link.disablePending = false →
    let again : Scheduler := { s.sched with visit := some { v with tries := v.tries + 1 } }
    let waiting : Line :=
      { s.line with
        state := .quiet, discard := false, assembler := [], reply := .stopped, interChar := none, discardRest := none
        busy := some ⟨s.run.clock, .ms 20⟩ }
    (∀ timer, s.line.state = .awaiting → s.line.reply = .running timer → s.line.receiver = .inReception →
      exec .replyWindowExpiry s = .next { s with line := { s.line with reply := .expiryHeld } }) ∧
    (∀ timer, s.line.state = .awaiting → s.line.reply = .running timer → s.line.receiver ≠ .inReception →
      ∃ t, exec .replyWindowExpiry s = .next t ∧
        t = { s.onLink v.entry (fun l => { l with
            counters := { l.counters with noReply := satInc l.counters.noReply }, countersChanged := true }) with
          line := t.line, sched := again } ∧
        (s.cfg.responseWindow * Config.bitRate s.cfg.lineRate < 44000 →
          t.line = { waiting with quietGap := some ⟨s.line.sentAt, .chars 4⟩ }) ∧
        (44000 ≤ s.cfg.responseWindow * Config.bitRate s.cfg.lineRate →
          t.line.sendPlace = some v.request ∧ t.line.state = (if s.line.pairAtRest then .sending else .idle) ∧
          t.line.busy = (if s.line.pairAtRest then none else some ⟨s.run.clock, .ms 20⟩))) ∧
    (s.line.state = .receiving → s.line.interChar.isSome = true →
      exec .interCharacterLimitExpiry s = .next
        { s.onLink v.entry (fun l => { l with
            counters := { l.counters with truncated := satInc l.counters.truncated }, countersChanged := true }) with
          line := { waiting with quietGap := some ⟨s.line.lastStopAt, .chars 4⟩ }
          sched := again })

/-- In RUNNING and in STOPPING the end of the discard period counts the characters held as stray and enters QUIET; the
quiet gap's expiry enters IDLE, where a waiting request is sent if the pair is free; and the clear test's expiry enters
IDLE, clears the line disturbed flag and submits LINE_CLEAR with the milliseconds spent in DISTURBED, saturating: the
advances of the panel clock there, or one fewer, as the free value of log entry 9 says. (In STOPPING: where the stop
limit runs or the line has been reported settled; the settling itself is in SettlingBeginsTheStopDrain, and HALTED once
the drain has ended is in CompletedWritesReachMemory.) -/
def Obligations.LineTimersInRunning : Prop :=
  ∀ s : State,
    s.run.state = .running ∨ s.run.state = .stopping ∧ (s.journal.drain ≠ .ended ∨ s.port.quiet = false) ∧
      (s.line.settled = true ∨ s.line.stopLimit.isSome = true) →
    (s.line.state = .receiving → s.line.discard = true → s.line.discardRest.isSome = true →
      exec .discardPeriodEnd s = .next
        { s with line := { s.line with
          state := .quiet, discard := false, assembler := [], reply := .stopped, interChar := none
          discardRest := none, holding := [], stray := satAdd s.line.stray s.line.holding.length
          quietGap := some ⟨s.run.clock, .chars 4⟩ } }) ∧
    (s.line.state = .quiet → s.line.quietGap.isSome = true →
      s.run.state = .running ∨ s.line.settled = true ∨ s.line.sendPlace.isSome = true →
      ∃ t, exec .quietGapExpiry s = .next t ∧ t = { s with line := t.line } ∧
        (s.line.sendPlace = none ∨ s.line.pairAtRest = false ∨ s.line.receiver = .inReception →
          t.line = { s.line with state := .idle, quietGap := none, clearTest := none }) ∧
        (s.line.sendPlace.isSome = true → s.line.pairAtRest = true → s.line.receiver ≠ .inReception →
          t.line.state = .sending ∧ t.line.busy = none ∧ t.line.sendPlace = s.line.sendPlace)) ∧
    (s.line.state = .disturbed → s.line.clearTest.isSome = true → s.line.sendPlace = none →
      s.run.state = .running ∨ s.line.settled = true →
      ∃ ms, (ms = s.line.disturbedMs ∨ ms + 1 = s.line.disturbedMs) ∧
        exec .clearTestExpiry s = .next
          { s with
            line := { s.line with state := .idle, quietGap := none, clearTest := none, disturbed := false }
            draws := s.draws + 1
            journal := s.journal.submit ⟨.lineClear (BitVec.ofNat 16 (min 65535 ms)), none, s.run.clock⟩ })

/-- When the busy timer of a waiting request reaches its limit the request is refused, the line is DISTURBED with its
flag set and the clear test running from now where the pair is at rest with no character in reception (and stopped
otherwise), the characters held are counted as stray, and LINE_DISTURBED is submitted with the station of the refused
request; no visit is in progress after it: the station's visit ends as a Visit LINE, which counts no miss, and with no
disable pending its link state and its outstanding command stay (said where the walk does not come to it again in a new
cycle, or would resend that command). (The result is handled before LINE_DISTURBED is submitted, and the scheduler goes
on after it: read by inference, log entry 10; so is from when the clear test measures rest, on entry to DISTURBED: log
entry 26.) -/
def Obligations.BusyLimitDisturbsTheLine : Prop :=
  ∀ (s : State) (r : SendRequest), s.works = true → s.line.sendPlace = some r → s.line.busy.isSome = true →
    s.journal.drain = .notBegun → s.cfg.stopDrainLimit ≠ 0 →
    ∃ t, exec .busyLimitExpiry s = .next t ∧ t.line.state = .disturbed ∧ t.line.disturbed = true ∧
      t.line.sendPlace = none ∧ t.line.busy = none ∧ t.line.holding = [] ∧ t.line.assembler = [] ∧
      t.line.stray = satAdd s.line.stray s.line.holding.length ∧ t.line.disturbedMs = 0 ∧
      t.line.clearTest = (if s.line.pairAtRest = true ∧ s.line.receiver ≠ .inReception then
        some ⟨s.run.clock, .chars 10⟩ else none) ∧
      t.run = s.run ∧ t.irq = s.irq ∧ t.memory = s.memory ∧
      (r.serves.isSome = true ∨ s.sched.visit = none → t.sched.visit = none) ∧
      (∀ v, s.sched.visit = some v → r.serves = some v.entry → (s.station v.entry).link.disablePending = false →
        (s.station v.entry).link.outstanding.isSome = true ∨ s.sched.cycleTimer ≠ .expired ∨ s.run.state = .stopping →
        (t.station v.entry).link.state = (s.station v.entry).link.state ∧
        (t.station v.entry).link.outstanding = (s.station v.entry).link.outstanding) ∧
      (s.journal.staging.length < 32 →
        (∀ v, s.sched.visit = some v → (s.station v.entry).link.disablePending = false) → ∃ more, t.journal.staging =
        s.journal.staging ++ ⟨⟨.lineDisturbed, r.serves, s.run.clock⟩, s.journal.openGap⟩ :: more) ∧
      ∀ e, (s.station e).link.disablePending = false →
        (t.station e).link.misses = (s.station e).link.misses ∧ (t.station e).link.waits = (s.station e).link.waits ∧
        (t.station e).contacts = (s.station e).contacts

/-- SENDING is entered only with the pair at rest and no character in reception, and in a run never from RECEIVING. -/
def Obligations.SendingNeedsAFreePair : Prop :=
  ∀ (c : Instr) (s t : State), exec c s = .next t → s.line.state ≠ .sending → t.line.state = .sending →
    t.line.pairAtRest = true ∧ t.line.receiver ≠ .inReception ∧ (s.works = true → s.line.state ≠ .receiving)

/-! ### The Poll Scheduler -/

/-- A visit resends the outstanding command unchanged, its frame with it, and a new order takes the next turn, which
advances modulo 8; a POLL takes none. The frame of an outstanding command, new or resent, carries its kind, its turn and
the content held for it, or the geometry, and that turn is the expected turn; a POLL carries the last acknowledged turn
and expects it. Each visit adds 1 to the visits counter. -/
def Obligations.NewOrdersTakeTheNextTurn : Prop :=
  ∀ st : Station,
    st.beginVisit.link.counters.visits = satInc st.link.counters.visits ∧
    (∀ o, st.link.outstanding = some o →
      st.beginVisit.link.outstanding = some o ∧ st.beginVisit.link.nextTurn = st.link.nextTurn ∧
      st.beginVisit.output = st.output ∧ st.beginVisit.expectedTurn = o.turn ∧
      st.beginVisit.framePlan = st.framePlan) ∧
    (∀ o, st.beginVisit.link.outstanding = some o →
      let plan := st.beginVisit.framePlan
      plan.turn = o.turn ∧ st.beginVisit.expectedTurn = o.turn ∧
      (o.kind = .set → plan.kind = 0x12#8 ∧
        ∀ set, st.beginVisit.output.outSet = some set → plan.payload = set.payload) ∧
      (o.kind = .sound → plan.kind = 0x13#8 ∧
        ∀ sound, st.beginVisit.output.outSound = some sound → plan.payload = [sound.pattern]) ∧
      (o.kind = .resetStation → plan.kind = 0x14#8 ∧
        plan.payload = [BitVec.ofNat 8 st.contacts.rows, BitVec.ofNat 8 st.contacts.columns])) ∧
    (∀ o, st.link.outstanding = none → st.beginVisit.link.outstanding = some o →
      o.turn = st.link.nextTurn ∧ st.beginVisit.link.nextTurn = st.link.nextTurn + 1#3) ∧
    (st.link.outstanding = none → st.beginVisit.link.outstanding = none →
      st.beginVisit.link.nextTurn = st.link.nextTurn ∧ st.beginVisit.framePlan = ⟨0x11#8, st.link.lastAcked, []⟩ ∧
      st.beginVisit.expectedTurn = st.link.lastAcked)

/-- The choice of frame for a station with no command outstanding: a pending resync, then pending output, then a
pending sounder request, then a POLL in ONLINE; a RESET-STATION in SEARCHING and in SYNCING step RESET; a SET in
SYNCING step IMAGE. A resync is pending where its request count is ahead of its done count by 1 to 32,767 modulo 65,536,
a sounder request likewise by its own two counts, and output where an image has been fetched whose revision differs from
the applied one. -/
def Obligations.ChoiceOfFrame : Prop :=
  (∀ request done : Half, ahead request done = true ↔
    ∃ n, 1 ≤ n ∧ n ≤ 32767 ∧ request.toNat = (done.toNat + n) % 65536) ∧
  (∀ o : Output, o.sounderPending = ahead o.sounderRequest o.sounderDone) ∧
  (∀ o : Output, o.outputPending = true ↔ ∃ revision, o.fetchedRevision = some revision ∧ revision ≠ o.applied) ∧
  ∀ st : Station, st.link.outstanding = none →
    let b := st.beginVisit
    (st.link.state = .online → ahead st.link.resyncRequest st.link.resyncDone = true →
      b.link.state = .syncing ∧ b.link.origin = some .online ∧ b.link.step = some .reset ∧
      b.link.sampledResync = some st.link.resyncRequest ∧ b.framePlan.kind = 0x14#8 ∧
      b.framePlan.payload = [BitVec.ofNat 8 st.contacts.rows, BitVec.ofNat 8 st.contacts.columns]) ∧
    (st.link.state = .online → ahead st.link.resyncRequest st.link.resyncDone = false →
      b.link.state = .online ∧
      (st.output.outputPending = true → b.framePlan.kind = 0x12#8 ∧ b.framePlan.payload = st.output.payload ∧
        b.output.outSet = some ⟨st.output.fetchedRevision, st.output.payload⟩) ∧
      (st.output.outputPending = false → st.output.sounderPending = true →
        b.framePlan.kind = 0x13#8 ∧ b.framePlan.payload = [st.output.sounderPattern] ∧
        b.output.outSound = some ⟨st.output.sounderPattern, st.output.sounderRequest,
          st.output.sounderRequest - st.output.sounderDone⟩) ∧
      (st.output.outputPending = false → st.output.sounderPending = false →
        b.framePlan = ⟨0x11#8, st.link.lastAcked, []⟩ ∧ b.output = st.output)) ∧
    (st.link.state = .searching ∨ st.link.state = .syncing ∧ st.link.step = some .reset →
      b.link.state = st.link.state ∧ b.framePlan.kind = 0x14#8 ∧
      b.link.sampledResync = some st.link.resyncRequest ∧ b.output = st.output) ∧
    (st.link.state = .syncing → st.link.step = some .image →
      b.link.state = .syncing ∧ b.framePlan.kind = 0x12#8 ∧ b.framePlan.payload = st.output.payload)

/-- The walk of a cycle, from the index after the last one passed: it goes over the stations not DISABLED upwards and
skips one whose hold-until time lies later than the panel clock (as a difference modulo 2 to the 32nd, log entry 24)
and a SEARCHING one unless the cycle's number is a multiple of the search divisor. A hold that has been reached is
cleared as its station is tested, and nothing else of a skipped station changes. On a line that is not DISTURBED the
first station not skipped is visited: its request is made, and is sent at once where the line is IDLE with the pair
free. With no such station the cycle ends. On a line that is DISTURBED the request of each station not skipped is
refused at once: its visit begins and ends as a Visit LINE, which counts no outcome and no miss, a pending disable then
takes effect with its events, the STATUS is requested where the status changed, and the cycle has ended when the walk
has passed every station. The cycle timer's expiry is kept while a cycle is in progress, with its visit under way or
its walk waiting for a TIME MARK in the send place, and where the cycle has ended and a TIME MARK is there: that the
next cycle then waits for the mark's answer is read by inference (log entry 12). Where the cycle has ended,
the expiry starts the next one, with the next number, its timer, and its walk from the lowest entry. What the scheduler
does in RUNNING whenever a visit has ended, a mark has been sent or a line event lets it go on (`State.schedule`, which
is then what `State.proceed` comes to): nothing while a visit is in progress or the send place is taken. A due mark
goes first: its request is made, or on a DISTURBED line it is dropped, and the rest follows. Otherwise the walk of the
cycle in progress goes on above the last index passed, the index of a visit being passed when the visit ends; where the
cycle has ended and its timer's expiry was kept, the next one starts at once. In STOPPING it does nothing, and the
expiry is kept. -/
def Obligations.CyclesAreWalkedInOrder : Prop :=
  (∀ (s : State) (e : Entry) (result : VisitResult),
    (s.endVisit e result).sched = { s.sched with visit := none, nextIndex := e.val + 1 }) ∧
  (∀ s : State, s.run.state = .stopping → s.schedule = s ∧ ∀ timer, s.sched.cycleTimer = .running timer →
    exec .cycleTimerExpiry s = .next { s with sched := { s.sched with cycleTimer := .expired } }) ∧
  ∀ s : State, s.run.state = .running →
    let held (l : Link) : Prop :=
      ∃ hold, l.holdUntil = some hold ∧ 0 < (hold - s.run.clock).toNat ∧ (hold - s.run.clock).toNat < 2147483648
    let tested (st : Station) : Station := { st with link := st.link.testHold s.run.clock }
    let placed (r : SendRequest) (line : Line) : Prop :=
      let free : Prop := s.line.state = .idle ∧ s.line.pairAtRest = true ∧ s.line.receiver ≠ .inReception
      (free → line.state = .sending ∧ line.busy = none ∧ line.sendPlace = some r) ∧
      (¬free → line = { s.line with sendPlace := some r, busy := some ⟨s.run.clock, .ms 20⟩ })
    -- `t` is what a walk makes of `s` where the scheduler's items are `c`, from the index held there.
    let walked (c : Scheduler) (t : State) : Prop :=
      let skipped (l : Link) : Prop := held l ∨ l.state = .searching ∧ c.cycleNumber.toNat % s.cfg.searchDivisor ≠ 0
      let above (e : Entry) : Prop := c.nextIndex ≤ e.val
      let visited (e : Entry) : Prop := (s.station e).link.state ≠ .disabled ∧ ¬skipped (s.station e).link
      let passed (e : Entry) : Station :=
        if c.nextIndex ≤ e.val ∧ (s.station e).link.state ≠ .disabled then tested (s.station e) else s.station e
      let closed : Scheduler := { c with cycleInProgress := false, nextIndex := t.sched.nextIndex }
      ((∀ e, above e → (s.station e).link.state = .disabled) →
        t = { s with sched := { c with cycleInProgress := false } }) ∧
      ((∀ e, above e → ¬visited e) →
        t = { s with stations := t.stations, sched := closed } ∧ ∀ e, t.station e = passed e) ∧
      (∀ e, s.line.state ≠ .disturbed → above e → visited e → (∀ e' < e, above e' → ¬visited e') →
        let st := (tested (s.station e)).beginVisit
        ∃ r, r.serves = some e ∧ r.expectsReply = true ∧ r.expected = st.expectedTurn ∧
          r.frame = buildFrame (s.station e).address st.framePlan ∧ placed r t.line ∧
          t = { s with
            stations := t.stations, line := t.line
            sched := { c with visit := some ⟨e, r, 1⟩, nextIndex := t.sched.nextIndex } } ∧
          (∀ e' < e, t.station e' = passed e') ∧ t.station e = st ∧ ∀ e', e < e' → t.station e' = s.station e') ∧
      (s.line.state = .disturbed →
        let refused (e : Entry) : Station × List EventBody :=
          let begun := (tested (s.station e)).beginVisit
          if begun.link.disablePending then begun.disable else (begun, [])
        t = { s with stations := t.stations, sched := closed, journal := t.journal, port := t.port } ∧
        (∀ e, ¬(above e ∧ visited e) → t.station e = passed e) ∧
        (∀ e, above e → visited e → (refused e).1.link.statusChanged = false → t.station e = (refused e).1) ∧
        (∀ e, above e → visited e → (refused e).1.link.statusChanged = true →
          (.status e ∈ t.port.writes ∨ t.port.owed[e.val] = true) ∧
          t.station e = { (refused e).1 with
            link := { (refused e).1.link with statusChanged := false, countersChanged := false } }) ∧
        ∀ es : List Entry, es.Pairwise (· < ·) → (∀ e, e ∈ es ↔ above e ∧ visited e) →
          t.journal = (es.flatMap fun e => (refused e).2.map fun body => (⟨body, some e, s.run.clock⟩ : Event)).foldl
            (fun j x => j.submit x) s.journal)
    let next : Scheduler :=
      { s.sched with
        cycleNumber := s.sched.cycleNumber + 1#32, cycleInProgress := true, nextIndex := 0
        cycleTimer := .running ⟨s.run.clock, .ms (max 1 s.cfg.cycleMinimum)⟩ }
    let idle : Prop := s.sched.visit = none ∧ s.line.sendPlace = none
    (∀ l : Link, (held l → l.testHold s.run.clock = l) ∧
      (¬held l → l.testHold s.run.clock = { l with holdUntil := none })) ∧
    (∀ timer, s.sched.cycleTimer = .running timer →
      (¬idle → exec .cycleTimerExpiry s = .next { s with sched := { s.sched with cycleTimer := .expired } }) ∧
      (idle → s.sched.markDue = false → s.sched.cycleInProgress = false →
        ∃ t, exec .cycleTimerExpiry s = .next t ∧ walked next t)) ∧
    s.proceed = s.schedule ∧ (¬idle → s.schedule = s) ∧
    (idle → s.sched.markDue = true →
      let taken : Scheduler := { s.sched with markDue := false }
      (s.line.state = .disturbed → s.schedule = ({ s with sched := taken } : State).schedule) ∧
      (s.line.state ≠ .disturbed → ∃ line, s.schedule = { s with sched := taken, line := line } ∧
        placed ⟨buildFrame 0#5 ⟨0x15#8, 0#3, [BitVec.ofNat 8 (s.run.clock.toNat / 1000)]⟩, false, none, 0#3⟩ line)) ∧
    (idle → s.sched.markDue = false →
      (s.sched.cycleInProgress = true → ∃ w, walked s.sched w ∧
        (w.sched.cycleInProgress = true ∨ s.sched.cycleTimer ≠ .expired → s.schedule = w) ∧
        (w.sched.cycleInProgress = false → s.sched.cycleTimer = .expired → s.schedule = w.schedule)) ∧
      (s.sched.cycleInProgress = false →
        (s.sched.cycleTimer = .expired → walked next s.schedule) ∧
        (s.sched.cycleTimer ≠ .expired → s.schedule = s)))

/-- A time mark that falls due waits while a visit is in progress. With no visit and the send place empty its request
is made at once on a line that is not DISTURBED, for a TIME MARK to address 0 with the panel clock's seconds modulo
256, and the mark is no longer due: the request is sent at once in IDLE with the pair at rest and nothing in reception,
and otherwise, in QUIET and in the discard period too, it waits in the send place with the busy timer started, the line
state staying as it is. On a DISTURBED line the mark is dropped. The next falls due a second later. In STOPPING no
request is made (that the mark is kept as due is read by inference: log entry 25). -/
def Obligations.TimeMarkIsSentOrDropped : Prop :=
  ∀ (s : State) (timer : Timer), s.sched.markTimer = some timer →
    let next : Scheduler := { s.sched with markTimer := some ⟨timer.since + 1000#32, .ms 1000⟩ }
    (s.run.state = .stopping → exec .timeMarkDue s = .next { s with sched := { next with markDue := true } }) ∧
    (s.run.state = .running →
      let mark : SendRequest :=
        ⟨buildFrame 0#5 ⟨0x15#8, 0#3, [BitVec.ofNat 8 (s.run.clock.toNat / 1000)]⟩, false, none, 0#3⟩
      let free : Prop := s.line.state = .idle ∧ s.line.pairAtRest = true ∧ s.line.receiver ≠ .inReception
      (s.sched.visit ≠ none → exec .timeMarkDue s = .next { s with sched := { next with markDue := true } }) ∧
      (s.sched.visit = none → s.line.sendPlace = none → free →
        ∃ line, exec .timeMarkDue s = .next { s with sched := { next with markDue := false }, line := line } ∧
          line.state = .sending ∧ line.busy = none ∧ line.sendPlace = some mark) ∧
      (s.sched.visit = none → s.line.sendPlace = none → s.line.state ≠ .disturbed → ¬free →
        exec .timeMarkDue s = .next
          { s with
            sched := { next with markDue := false }
            line := { s.line with sendPlace := some mark, busy := some ⟨s.run.clock, .ms 20⟩ } }) ∧
      (s.sched.visit = none → s.line.sendPlace = none → s.line.state = .disturbed → s.sched.cycleInProgress = false →
        s.sched.cycleTimer ≠ .expired →
        exec .timeMarkDue s = .next { s with sched := { next with markDue := false } }))

/-- A Visit MISS and the sixteenth consecutive WAIT count a miss; at the miss limit a station in SYNCING or ONLINE is
lost: SEARCHING, its contacts UNKNOWN, its command abandoned, its pending sounder requests discarded with a record,
times lost counted. Below it the link state and the outstanding command stay. -/
def Obligations.MissesLeadToLoss : Prop :=
  ∀ (st : Station) (limit : Nat) (now : Word) (hold : Nat),
    let missed := st.visitMiss limit
    (st.link.state = .online ∨ st.link.state = .syncing →
      (st.link.misses + 1 < limit →
        missed = ({ st with link := { st.link with misses := st.link.misses + 1, waits := 0 } }, [])) ∧
      (limit ≤ st.link.misses + 1 →
        missed.1.link.state = .searching ∧ missed.1.link.misses = 0 ∧ missed.1.link.waits = 0 ∧
        missed.1.link.outstanding = none ∧ missed.1.link.step = none ∧ missed.1.link.origin = none ∧
        missed.1.link.sampledResync = none ∧ missed.1.link.statusChanged = true ∧
        missed.1.link.counters.timesLost = satInc st.link.counters.timesLost ∧
        missed.1.link.nextTurn = st.link.nextTurn ∧ missed.1.link.lastAcked = st.link.lastAcked ∧
        missed.1.link.resyncRequest = st.link.resyncRequest ∧ missed.1.link.holdUntil = st.link.holdUntil ∧
        missed.1.output.outSet = none ∧ missed.1.output.outSound = none ∧
        missed.1.output.sounderPending = false ∧ missed.1.output.applied = st.output.applied ∧
        (∀ c ∈ missed.1.contacts.records, c.state = .unknown) ∧
        missed.1.contacts.records.map (·.lastKnown) = st.contacts.records.map (·.lastKnown) ∧
        missed.2 = .stationDown .lost :: (if st.output.sounderPending then
          [.sounderDone .discarded (st.output.sounderRequest - st.output.sounderDone)] else []))) ∧
    (st.link.state = .searching →
      missed.1.link.state = .searching ∧ missed.1.link.misses = min limit (st.link.misses + 1) ∧ missed.2 = []) ∧
    (st.link.waits + 1 < 16 →
      st.visitWait limit now hold =
        ({ st with link := { st.link with
          holdUntil := some (now + BitVec.ofNat 32 hold), waits := st.link.waits + 1 } }, [])) ∧
    (16 ≤ st.link.waits + 1 →
      st.visitWait limit now hold =
        ({ st with link := { st.link with holdUntil := some (now + BitVec.ofNat 32 hold) } }).visitMiss limit)

/-- A Visit OK with a command outstanding acknowledges it: none is outstanding, its turn is the last acknowledged turn
and the status changed mark is set; a RESET-STATION leads to SYNCING step IMAGE, a SET in SYNCING completes the sync
with its events in order, a SET records its revision as applied, and a SOUND settles its requests. Then both
consecutive counts are 0, the SNAP's flags replace the station flags, and the snapshot goes to the Contact Table; the
events are the acknowledgement's, then STATION_FAULT where LOCAL_FAULT changed, then the contacts'; and a change of
flags, of the bitmap or of the known flag sets the status changed mark, a bounce the counters changed mark. A Visit
TURN abandons the outstanding command with its content, zeroes the WAIT count alone, and leads from ONLINE and SYNCING
to SYNCING step RESET with its origin (that it sets the status changed mark from ONLINE is log entry 16); no contact
and no sounder count changes. At a visit's end the result is applied in full, a pending disable after it, and then,
where the status changed mark is set, the STATUS is requested and the mark cleared before the events are submitted in
their order. -/
def Obligations.AcknowledgementEffects : Prop :=
  (∀ (st : Station) (o : Outstanding),
    let a := st.acknowledge o
    (a.1.link.outstanding = none ∧ a.1.link.lastAcked = o.turn ∧ a.1.link.statusChanged = true ∧
      a.1.link.nextTurn = st.link.nextTurn ∧ a.1.contacts = st.contacts ∧
      a.1.link.localFault = st.link.localFault ∧ a.1.link.sounderActive = st.link.sounderActive) ∧
    (o.kind = .resetStation → st.link.state = .searching →
      a.1.link.state = .syncing ∧ a.1.link.origin = some .searching ∧ a.1.link.step = some .image ∧ a.2 = []) ∧
    (o.kind = .resetStation → st.link.state = .syncing →
      a.1.link.state = .syncing ∧ a.1.link.origin = st.link.origin ∧ a.1.link.step = some .image ∧ a.2 = []) ∧
    (∀ set, o.kind = .set → st.output.outSet = some set →
      a.1.output.outSet = none ∧ a.1.output.applied = set.revision.getD st.output.applied ∧
      (st.link.state = .online → a.1.link.state = .online ∧ a.2 = (set.revision.map EventBody.outputApplied).toList) ∧
      (st.link.state = .syncing →
        a.1.link.state = .online ∧ a.1.link.step = none ∧ a.1.link.origin = none ∧ a.1.link.sampledResync = none ∧
        a.1.link.resyncDone = st.link.sampledResync.getD st.link.resyncDone ∧
        a.2 = (set.revision.map EventBody.outputApplied).toList ++
          (if st.link.origin = some .searching then [.stationUp] else []) ++
          (if st.link.sampledResync.getD st.link.resyncDone = st.link.resyncDone then []
            else [.resyncDone (st.link.sampledResync.getD st.link.resyncDone)]))) ∧
    ∀ sound, o.kind = .sound → st.output.outSound = some sound →
      a.1.output.outSound = none ∧ a.2 = [.sounderDone .sent sound.collapsed] ∧
      a.1.output.sounderDone =
        (if ahead sound.satisfied st.output.sounderDone then sound.satisfied else st.output.sounderDone)) ∧
  (∀ (st : Station) (report : Nat) (now : Word) (snapshot : Snapshot),
    let acked := match st.link.outstanding with | some o => st.acknowledge o | none => (st, [])
    let seen := st.contacts.process report now snapshot.rows
    let v := st.visitOk report now snapshot
    v.1 = { acked.1 with
      link := { acked.1.link with
        misses := 0, waits := 0, localFault := snapshot.localFault, sounderActive := snapshot.sounderActive
        statusChanged := v.1.link.statusChanged, countersChanged := v.1.link.countersChanged }
      contacts := seen.table } ∧
    (v.1.link.statusChanged = true ↔
      st.link.statusChanged = true ∨ st.link.outstanding.isSome = true ∨ snapshot.localFault ≠ st.link.localFault ∨
        snapshot.sounderActive ≠ st.link.sounderActive ∨ seen.changed = true) ∧
    (v.1.link.countersChanged = true ↔ st.link.countersChanged = true ∨ seen.bounced = true) ∧
    v.2 = acked.2 ++ (if snapshot.localFault = st.link.localFault then [] else [.stationFault snapshot.localFault]) ++
      seen.events) ∧
  (∀ st : Station,
    let abandoned : Link := { st.link with outstanding := none, waits := 0 }
    let turned (l : Link) : Station := { st with link := l, output := { st.output with outSet := none, outSound := none } }
    (st.link.state = .online →
      st.visitTurn = turned { abandoned with
        state := .syncing, origin := some .online, step := some .reset, statusChanged := true }) ∧
    (st.link.state = .syncing → st.visitTurn = turned { abandoned with step := some .reset }) ∧
    (st.link.state = .searching → st.visitTurn = turned abandoned)) ∧
  (∀ (st : Station) (settings : Settings) (now : Word) (result : VisitResult),
    let applied := st.takeResult settings now result
    let ended := st.endVisit settings now result
    (∀ snapshot, result = .ok snapshot → applied = st.visitOk (100 * settings.ambiguityReport) now snapshot) ∧
    (∀ hold, result = .wait hold → applied = st.visitWait settings.missLimit now hold) ∧
    (result = .turn → applied = (st.visitTurn, [])) ∧ (result = .miss → applied = st.visitMiss settings.missLimit) ∧
    (result = .line → applied = (st, [])) ∧
    (st.link.disablePending = false → ended = applied) ∧
    (st.link.disablePending = true →
      ended = (applied.1.disable.1, applied.2 ++ applied.1.disable.2) ∧ ended.1.link.state = .disabled)) ∧
  (∀ (s : State) (e : Entry) (result : VisitResult),
    let ended := (s.station e).endVisit s.cfg s.run.clock result
    let u : State := { s.onStation e (fun _ => ended.1) with
      sched := { s.sched with visit := none, nextIndex := e.val + 1 } }
    s.endVisit e result = u.report e ended.2) ∧
  ∀ (s : State) (e : Entry) (bodies : List EventBody), s.works = true →
    let t := s.report e bodies
    let events : List Event := bodies.map fun body => ⟨body, some e, s.run.clock⟩
    t.journal = events.foldl (fun j v => j.submit v) s.journal ∧
    ((s.station e).link.statusChanged = false → t = { s with journal := t.journal }) ∧
    ((s.station e).link.statusChanged = true →
      t = events.foldl (fun u v => u.submit v)
        ((s.requestStatus e).onLink e fun l => { l with statusChanged := false }) ∧
      (.status e ∈ t.port.writes ∨ t.port.owed[e.val] = true) ∧
      t.station e = { s.station e with
        link := { (s.station e).link with statusChanged := false, countersChanged := false } } ∧
      (∀ e' ≠ e, t.station e' = s.station e') ∧
      t = { s with stations := t.stations, journal := t.journal, port := t.port })

/-- A disable leaves the station DISABLED with no command outstanding, no hold, both consecutive counts 0 and the sync
items clear, its contacts UNKNOWN with their last known values, its fetch in flight marked for discard and its sounder
requests settled; it produces STATION_DOWN only from ONLINE or SYNCING. Turns, resync counts, flags and counters stay.
-/
def Obligations.DisableEffects : Prop :=
  ∀ st : Station,
    let d := st.disable
    d.1.link = { st.link with
      state := .disabled, outstanding := none, holdUntil := none, misses := 0, waits := 0, step := none, origin := none
      sampledResync := none, disablePending := false, statusChanged := true } ∧
    (∀ c ∈ d.1.contacts.records, c.state = .unknown) ∧
    d.1.contacts.records.map (·.lastKnown) = st.contacts.records.map (·.lastKnown) ∧
    d.1.output.outSet = none ∧ d.1.output.outSound = none ∧ d.1.output.sounderPending = false ∧
    d.1.output.applied = st.output.applied ∧ d.1.output.fetchedRevision = st.output.fetchedRevision ∧
    (st.output.fetchInFlight.isSome = true → d.1.output.fetchDiscard = true) ∧
    d.2 = (if st.link.state = .online ∨ st.link.state = .syncing then [.stationDown .disabled] else []) ++
      (if st.output.sounderPending then
        [.sounderDone .discarded (st.output.sounderRequest - st.output.sounderDone)] else [])

/-! ### The Contact Table -/

/-- A snapshot takes the contacts one at a time in their order, each as ambiguous or not; its events stand in that
order, its bounces are counted, and it reports whether the bitmap or the known flag changed. A contact that is not
UNKNOWN and not ambiguous is taken through its direction: a change starts its debounce or settles at once at a
debounce of 0, a change that persists for the debounce settles with its event and marks, and one that does not returns
to the settled state as a bounce with no event. An UNKNOWN contact is seeded: with no other last known value it
settles with no event, and otherwise the change back starts with the recovery flag, or settles at once with
AFTER_RECOVERY. An ambiguous contact has its ambiguity timed, and reported once at the report time, and its extended
mark set in CLOSING and OPENING; its state, last known value, change start time and recovery flag stay. One that is
ambiguous no more is released, with CONTACT_AMBIGUOUS clear where it was reported, and then taken as any other. -/
def Obligations.DebounceTransitions : Prop :=
  (∀ (t : ContactTable) (now : Word) (c : Contact),
    let closing (raw : Bool) := c.transition t now raw
    let elapsed := (now - c.changeStart).toNat
    (c.state = .opened → closing false = ⟨c, [], false⟩) ∧
    (c.state = .opened → t.closeDebounce = 0 →
      closing true = ⟨{ c with state := .closed, lastKnown := some true, recovery := false, extended := false },
        [.contactClosed c.index false false], false⟩) ∧
    (c.state = .opened → t.closeDebounce ≠ 0 →
      closing true = ⟨{ c with state := .closing, changeStart := now, recovery := false, extended := false }, [], false⟩) ∧
    (c.state = .closing → t.closeDebounce ≤ elapsed →
      closing true = ⟨{ c with state := .closed, lastKnown := some true, recovery := false, extended := false },
        [.contactClosed c.index c.recovery c.extended], false⟩) ∧
    (c.state = .closing → elapsed < t.closeDebounce → closing true = ⟨c, [], false⟩) ∧
    (c.state = .closing → closing false = ⟨{ c with state := .opened, recovery := false, extended := false }, [], true⟩) ∧
    (c.state = .closed → closing true = ⟨c, [], false⟩) ∧
    (c.state = .closed → t.openDebounce = 0 →
      closing false = ⟨{ c with state := .opened, lastKnown := some false, recovery := false, extended := false },
        [.contactOpened c.index false false], false⟩) ∧
    (c.state = .closed → t.openDebounce ≠ 0 →
      closing false = ⟨{ c with state := .opening, changeStart := now, recovery := false, extended := false }, [],
        false⟩) ∧
    (c.state = .opening → t.openDebounce ≤ elapsed →
      closing false = ⟨{ c with state := .opened, lastKnown := some false, recovery := false, extended := false },
        [.contactOpened c.index c.recovery c.extended], false⟩) ∧
    (c.state = .opening → elapsed < t.openDebounce → closing false = ⟨c, [], false⟩) ∧
    (c.state = .opening → closing true = ⟨{ c with state := .closed, recovery := false, extended := false }, [], true⟩)) ∧
  (∀ (t : ContactTable) (now : Word) (raw : Bool) (c : Contact), c.state = .unknown →
    let seeded := c.transition t now raw
    let debounce := if raw then t.closeDebounce else t.openDebounce
    let settled : Contact :=
      { c with
        state := if raw then .closed else .opened
        lastKnown := some raw, recovery := false, extended := false }
    (c.lastKnown = none ∨ c.lastKnown = some raw → seeded = ⟨settled, [], false⟩) ∧
    (c.lastKnown = some !raw → debounce = 0 →
      seeded = ⟨settled,
        [if raw then .contactClosed c.index true false else .contactOpened c.index true false], false⟩) ∧
    (c.lastKnown = some !raw → debounce ≠ 0 →
      seeded = ⟨{ c with
        state := if raw then .closing else .opening
        changeStart := now, recovery := true, extended := false }, [], false⟩)) ∧
  (∀ (report : Nat) (now : Word) (c : Contact),
    let found := c.foundAmbiguous report now
    let start := if c.ambiguous then c.ambiguityStart else now
    let due : Prop := report ≤ (now - start).toNat
    found.bounced = false ∧
    found.contact = { c with
      ambiguous := true, ambiguityStart := start, reported := found.contact.reported
      extended := found.contact.extended } ∧
    (found.contact.reported = true ↔ c.reported = true ∨ due) ∧
    (found.contact.extended = true ↔ c.extended = true ∨ c.state = .closing ∨ c.state = .opening) ∧
    (c.reported = false ∧ due → found.events = [.contactAmbiguous c.index true]) ∧
    (c.reported = true ∨ ¬due → found.events = [])) ∧
  (∀ (t : ContactTable) (now : Word) (raw : Bool) (c : Contact),
    let released := { c with ambiguous := false, reported := false }.transition t now raw
    (c.ambiguous = false → c.foundClear t now raw = c.transition t now raw) ∧
    (c.ambiguous = true → c.reported = true →
      c.foundClear t now raw = { released with events := .contactAmbiguous c.index false :: released.events }) ∧
    (c.ambiguous = true → c.reported = false → c.foundClear t now raw = released)) ∧
  ∀ (t : ContactTable) (report : Nat) (now : Word) (rows : List Byte),
    let results := t.records.map fun c =>
      if t.ambiguousAt rows (c.index.val / 8) (c.index.val % 8) = true then c.foundAmbiguous report now
      else c.foundClear t now ((byteAt rows (c.index.val / 8)).getLsbD (c.index.val % 8))
    let seen := t.process report now rows
    seen.table = { t with
      records := results.map (·.contact), bounces := satAdd t.bounces (results.countP (·.bounced)) } ∧
    seen.events = (results.map (·.events)).flatten ∧ (seen.bounced = true ↔ ∃ r ∈ results, r.bounced = true) ∧
    (seen.changed = true ↔ seen.table.bitmap ≠ t.bitmap ∨ seen.table.known ≠ t.known)

/-- R70. A contact is ambiguous exactly when the station is not diode-isolated and some other row and some other
column of its geometry give a rectangle whose other three corners read closed; its own raw value takes no part. -/
def Obligations.AmbiguityIsTheFourthCorner : Prop :=
  ∀ (t : ContactTable) (rows : List Byte) (r c : Nat),
    (t.ambiguousAt rows r c = true ↔
      t.diodeIsolated = false ∧ ∃ r' < t.rows, ∃ c' < t.columns, r' ≠ r ∧ c' ≠ c ∧
        (byteAt rows r).getLsbD c' = true ∧ (byteAt rows r').getLsbD c = true ∧ (byteAt rows r').getLsbD c' = true) ∧
    (t.rows ≤ 1 ∨ t.columns ≤ 1 → r < t.rows → c < t.columns → t.ambiguousAt rows r c = false)

/-- The bitmap's position of a contact index reads closed exactly where the geometry has that contact in CLOSED or
OPENING, or UNKNOWN with last known closed; the known flag is set exactly while no contact is UNKNOWN. -/
def Obligations.BitmapAndKnownFlag : Prop :=
  ∀ t : ContactTable,
    (∀ i < 64, t.bitmap.getLsbD i = true ↔ ∃ c ∈ t.records, c.index.val = i ∧
      (c.state = .closed ∨ c.state = .opening ∨ c.state = .unknown ∧ c.lastKnown = some true)) ∧
    (t.known = true ↔ ∀ c ∈ t.records, c.state ≠ .unknown)

/-! ### The Output Unit -/

/-- A SET carries sixteen bytes in which each lamp below the indicator count has its two bits of the fetched image and
every other lamp is OFF. -/
def Obligations.SetCarriesTheImage : Prop :=
  ∀ o : Output, o.payload.length = 16 ∧ ∀ k < 64,
    (byteAt o.payload (k / 4)).extractLsb' (2 * (k % 4)) 2 =
      if k < o.indicatorCount then (byteAt o.fetchedImage (k / 4)).extractLsb' (2 * (k % 4)) 2 else 0#2

/-- An image fetch that completes in a run, in RUNNING or in STOPPING, is discarded where its mark is set, accepted
where both revisions equal the one it was requested for, and torn otherwise, which advances both torn-read counts and
sets the counters changed mark. No event is produced, and no other station changes. The one after which the Memory Port
is quiet, the drain having ended, leads to HALTED, with STATE set, and JOURNAL where records are unsignalled. -/
def Obligations.FetchIsDiscardedAcceptedOrTorn : Prop :=
  ∀ (s : State) (e : Entry) (a : Nat) (data : List Byte) (v : Half), s.works = true →
    s.port.inFlight = some (.read (.image e) a) → data.length = 20 →
    (s.station e).output.fetchInFlight = some v →
    let o := (s.station e).output
    let agrees : Prop := halfAt data 0 = v ∧ halfAt data 18 = v
    let goesOn : Prop :=
      s.run.state = .running ∨ s.journal.drain ≠ .ended ∨ { s.port with inFlight := none }.quiet = false
    ∃ t, exec (.imageFetchComplete data) s = .next t ∧
      (goesOn → t = { s with stations := t.stations, tornReads := t.tornReads, port := t.port }) ∧
      (¬goesOn →
        t.run = { s.run with state := .halted, reason := .none, detail := 0#8 } ∧
        t.irq.cause = s.irq.cause ||| 0b00010#5 ||| (if s.journal.unannounced = 0#16 then 0#5 else 0b00001#5) ∧
        t.memory = s.memory ∧ t.exch = s.exch ∧ t.port = { s.port with inFlight := none }) ∧
      (∀ e' ≠ e, t.station e' = s.station e') ∧ (t.station e).output.fetchInFlight = none ∧
      (t.station e).output.fetchDiscard = false ∧ (t.station e).output.applied = o.applied ∧
      (t.station e).output.outSet = o.outSet ∧ (t.station e).contacts = (s.station e).contacts ∧
      (o.fetchDiscard = true → (t.station e).output = { o with fetchInFlight := none, fetchDiscard := false } ∧
        (t.station e).link = (s.station e).link ∧ t.tornReads = s.tornReads) ∧
      (o.fetchDiscard = false → agrees →
        (t.station e).output =
          { o with fetchInFlight := none, fetchedRevision := some v, fetchedImage := (data.drop 2).take 16 } ∧
        (t.station e).link = (s.station e).link ∧ t.tornReads = s.tornReads) ∧
      (o.fetchDiscard = false → ¬agrees →
        (t.station e).output = { o with fetchInFlight := none, tornReads := satInc o.tornReads } ∧
        (t.station e).link = { (s.station e).link with countersChanged := true } ∧ t.tornReads = satInc s.tornReads)

/-- A hand-over of a sounder request count takes the count and its pattern, and settles by the pattern first: 8 to 255
rejects every request not in hand and keeps an outstanding SOUND; otherwise a station in DISABLED or SEARCHING has the
requests discarded; otherwise they are pending. The Exchange Unit makes the hand-over of a valid count. At a rejection
it requests the STATUS, then submits SOUNDER_DONE, then HOST_VALUE code 28 with the station, and sets HOSTVAL; at a
discard it requests the STATUS and then submits SOUNDER_DONE; where the requests are pending it does none of these. -/
def Obligations.SounderHandOverSettles : Prop :=
  (∀ (o : Output) (count : Half) (pattern : Byte) (link : LinkState),
    let h := o.handOver count pattern link
    (h.1.sounderRequest = count ∧ h.1.sounderPattern = pattern ∧ h.1.outSound = o.outSound ∧ h.1.outSet = o.outSet ∧
      h.1.applied = o.applied) ∧
    (8 ≤ pattern.toNat → h.1.sounderDone = count ∧
      h.2 = [.sounderDone .rejected
        (count - (match o.outSound with | some sound => sound.satisfied | none => o.sounderDone))]) ∧
    (pattern.toNat < 8 → link = .disabled ∨ link = .searching → 1 ≤ (count - o.sounderDone).toNat →
      (count - o.sounderDone).toNat ≤ 32767 → h.1.sounderDone = count ∧
      h.2 = [.sounderDone .discarded (count - o.sounderDone)]) ∧
    (pattern.toNat < 8 → link = .syncing ∨ link = .online → h.1.sounderDone = o.sounderDone ∧ h.2 = [])) ∧
  ∀ (s : State) (e : Entry) (v : Half) (pattern : Byte), s.run.state = .running →
    let st := s.station e
    judgePair st.output.sounderRequest st.output.sounderDone v = .valid →
    let h := st.output.handOver v pattern st.link.state
    let t := s.takeSounder e v pattern
    let event (body : EventBody) : Event := ⟨body, some e, s.run.clock⟩
    let told : State := (h.2.map event).foldl (fun u x => u.submit x) ((s.onOutput e fun _ => h.1).requestStatus e)
    let reported (bodies : List EventBody) : Prop :=
      (.status e ∈ t.port.writes ∨ t.port.owed[e.val] = true) ∧
      t.journal = (bodies.map event).foldl (fun j x => j.submit x) s.journal ∧
      (t.station e).link = { st.link with countersChanged := false } ∧
      t = { s with stations := t.stations, journal := t.journal, irq := t.irq, port := t.port }
    (t.station e).output = h.1 ∧ (t.station e).contacts = st.contacts ∧ (∀ e' ≠ e, t.station e' = s.station e') ∧
    (8 ≤ pattern.toNat →
      t = { told.submit (event (.hostValue 28#8)) with
        irq := { s.irq with cause := s.irq.cause ||| 0b10000#5 } } ∧ reported (h.2 ++ [.hostValue 28#8])) ∧
    (pattern.toNat < 8 → st.link.state = .disabled ∨ st.link.state = .searching →
      t = told ∧ t.irq = s.irq ∧ reported h.2) ∧
    (pattern.toNat < 8 → st.link.state = .syncing ∨ st.link.state = .online → t = s.onOutput e fun _ => h.1)

/-! ### The Journal Unit -/

/-- R105. A submission to a staging queue of fewer than 32 events is staged at the tail with the open gap, which
becomes all zero; at 32 it is dropped, and the count of its class alone advances in the open gap, stopping at 65,535.
(After the end of the drain it is counted as discarded instead: DrainLimitDiscardsWhatIsLeft.) Each kind is in the class
that R106's table gives it: contact, station, output or control. -/
def Obligations.SubmissionIsStagedOrCounted : Prop :=
  (∀ b : EventBody,
    (b.class = .contact ↔ (∃ i recovered extended, b = .contactClosed i recovered extended) ∨
      (∃ i recovered extended, b = .contactOpened i recovered extended) ∨ ∃ i set, b = .contactAmbiguous i set) ∧
    (b.class = .station ↔ b = .stationUp ∨ (∃ reason, b = .stationDown reason) ∨ (∃ set, b = .stationFault set) ∨
      ∃ count, b = .resyncDone count) ∧
    (b.class = .output ↔ (∃ revision, b = .outputApplied revision) ∨ ∃ outcome count, b = .sounderDone outcome count) ∧
    (b.class = .control ↔ (∃ capacity stations, b = .runStart capacity stations) ∨ (∃ cycle, b = .runStop cycle) ∨
      b = .lineDisturbed ∨ (∃ length, b = .lineClear length) ∨ ∃ field, b = .hostValue field)) ∧
  ∀ (s : State) (e : Event), s.works = true → s.journal.drain ≠ .ended →
    (s.journal.staging.length < 32 →
      s.submit e = { s with journal := { s.journal with
        staging := s.journal.staging ++ [⟨e, s.journal.openGap⟩], openGap := ⟨0#16, 0#16, 0#16, 0#16⟩ } }) ∧
    (32 ≤ s.journal.staging.length →
      ∃ g : Gap, s.submit e = { s with journal := { s.journal with openGap := g } } ∧
        g.contact = (if e.body.class = .contact then satInc s.journal.openGap.contact else s.journal.openGap.contact) ∧
        g.station = (if e.body.class = .station then satInc s.journal.openGap.station else s.journal.openGap.station) ∧
        g.output = (if e.body.class = .output then satInc s.journal.openGap.output else s.journal.openGap.output) ∧
        g.control = (if e.body.class = .control then satInc s.journal.openGap.control else s.journal.openGap.control))

/-- What is taken is the LOSS of the head's gap where that is not all zero, which stays with its gap zero; else the head
event; and from an empty queue the LOSS of an open gap that is not all zero. The sixteen bytes of a record are its
serial, kind code, station or 0xFF, its time of production (for LOSS the panel clock now), and its kind's detail, with
every other byte 0. When room, two free entries, no owed status and something to take come together, the record is
formed: its serial is the written count modulo 65,536, its slot the count modulo the capacity, the count advances by 1,
and its RECORD stands last in the write queue but for the MARK that covers it. A MARK not started at the tail becomes
that MARK and keeps its urgent mark; otherwise a MARK joins; and a record of an urgent kind makes it urgent. The record
that leaves nothing to take in the drain ends it, with what follows the end of the drain: the final MARK, the end of the
sweeps with the status pass in its place, the withdrawal of every read not started, and the completion of each fetch
withdrawn as discarded. -/
def Obligations.RecordIsFormedWithItsMark : Prop :=
  (∀ j : Journal,
    let zero : Gap := ⟨0#16, 0#16, 0#16, 0#16⟩
    (∀ head rest, j.staging = head :: rest → head.gap ≠ zero →
      j.takeNext = some (.loss head.gap, { j with staging := { head with gap := zero } :: rest })) ∧
    (∀ head rest, j.staging = head :: rest → head.gap = zero →
      j.takeNext = some (.event head.event, { j with staging := rest })) ∧
    (j.staging = [] → j.openGap ≠ zero → j.takeNext = some (.loss j.openGap, { j with openGap := zero })) ∧
    (j.staging = [] → j.openGap = zero → j.takeNext = none)) ∧
  (∀ (next : NextRecord) (serial : Half) (now : Word),
    let b := next.bytes serial now
    let zeroFrom (i : Nat) : Prop := ∀ k, i ≤ k → byteAt b k = 0#8
    let contact (code : Byte) (index : Fin 64) (recovery extended : Bool) : Prop :=
      byteAt b 2 = code ∧ byteAt b 8 = BitVec.ofNat 8 index.val ∧
      (∀ i < 8, (byteAt b 9).getLsbD i = (i == 0 && recovery || i == 1 && extended)) ∧ zeroFrom 0xA
    b.length = 16 ∧ halfAt b 0 = serial ∧
    (next.urgent = true ↔ byteAt b 2 ∈ [0x21#8, 0x40#8, 0x7F#8, 0x42#8, 0x02#8]) ∧
    (∀ gap, next = .loss gap →
      byteAt b 2 = 0x7F#8 ∧ byteAt b 3 = 0xFF#8 ∧ wordAt b 4 = now ∧ halfAt b 0x8 = gap.contact ∧
      halfAt b 0xA = gap.station ∧ halfAt b 0xC = gap.output ∧ halfAt b 0xE = gap.control) ∧
    ∀ e, next = .event e →
      byteAt b 3 = (match e.station with | some i => BitVec.ofNat 8 i.val | none => 0xFF#8) ∧ wordAt b 4 = e.time ∧
      match e.body with
      | .runStart capacity stations =>
        byteAt b 2 = 0x01#8 ∧ halfAt b 8 = BitVec.ofNat 16 capacity ∧ byteAt b 0xA = BitVec.ofNat 8 stations ∧
          zeroFrom 0xB
      | .runStop cycle => byteAt b 2 = 0x02#8 ∧ wordAt b 8 = cycle ∧ zeroFrom 0xC
      | .contactClosed index recovery extended => contact 0x10#8 index recovery extended
      | .contactOpened index recovery extended => contact 0x11#8 index recovery extended
      | .contactAmbiguous index set => contact 0x12#8 index set false
      | .stationUp => byteAt b 2 = 0x20#8 ∧ zeroFrom 8
      | .stationDown reason =>
        byteAt b 2 = 0x21#8 ∧ byteAt b 8 = (if reason = .lost then 1#8 else 2#8) ∧ zeroFrom 9
      | .stationFault set => byteAt b 2 = 0x22#8 ∧ byteAt b 8 = (if set then 1#8 else 0#8) ∧ zeroFrom 9
      | .resyncDone count => byteAt b 2 = 0x23#8 ∧ halfAt b 8 = count ∧ zeroFrom 0xA
      | .outputApplied revision => byteAt b 2 = 0x30#8 ∧ halfAt b 8 = revision ∧ zeroFrom 0xA
      | .sounderDone outcome collapsed =>
        byteAt b 2 = 0x31#8 ∧
          byteAt b 8 = (match outcome with | .sent => 1#8 | .rejected => 2#8 | .discarded => 3#8) ∧
          byteAt b 9 = 0#8 ∧ halfAt b 0xA = collapsed ∧ zeroFrom 0xC
      | .lineDisturbed => byteAt b 2 = 0x40#8 ∧ zeroFrom 8
      | .lineClear milliseconds => byteAt b 2 = 0x41#8 ∧ halfAt b 8 = milliseconds ∧ zeroFrom 0xA
      | .hostValue field => byteAt b 2 = 0x42#8 ∧ byteAt b 8 = field ∧ zeroFrom 9) ∧
  ∀ (s : State) (next : NextRecord) (left : Journal),
    s.run.state = .running ∨ s.run.state = .stopping ∧ s.journal.drain ≠ .ended → s.port.Ordered →
    s.journal.takeNext = some (next, left) → (s.journal.written - s.journal.view).toNat < s.cfg.journalCapacity →
    s.port.writes.length ≤ 6 → (∀ e : Entry, s.port.owed[e.val] = false) →
    let record : WriteEntry :=
      .record (s.journal.written.toNat % s.cfg.journalCapacity)
        (next.bytes (s.journal.written.setWidth 16) s.run.clock)
    let mark (urgent : Bool) : WriteEntry := .mark (s.journal.written + 1#32) urgent
    let drains : Prop := s.journal.drain = .running ∧ left.staging = [] ∧ left.openGap = ⟨0#16, 0#16, 0#16, 0#16⟩
    ∃ t, exec .recordTaken s = .next t ∧
      (¬drains →
        t = { s with journal := t.journal, port := t.port } ∧
        t.journal = { left with written := s.journal.written + 1#32 } ∧
        (∀ front covered urgent, s.port.writes = front ++ [.mark covered urgent] →
          (front ≠ [] ∨ ∀ w a bytes, s.port.inFlight ≠ some (.write w a bytes)) →
          t.port.writes = front ++ [record, mark (urgent || next.urgent)]) ∧
        ((∀ covered urgent, s.port.writes.getLast? ≠ some (.mark covered urgent)) ∨
            s.port.writes.length = 1 ∧ (∃ w a bytes, s.port.inFlight = some (.write w a bytes)) →
          t.port.writes = s.port.writes ++ [record, mark next.urgent]) ∧
        (s.port.inFlight.isSome = true → t.port.reads = s.port.reads)) ∧
      (drains →
        t.run = s.run ∧
        t.journal = { left with written := s.journal.written + 1#32, drain := .ended, drainTimer := none } ∧
        record ∈ t.port.writes ∧ (∃ urgent, mark urgent ∈ t.port.writes) ∧ t.port.reads = [] ∧
        t.exch = { s.exch with sweepTimer := none, sweepInFlight := false, sweepAgain := false } ∧
        (s.port.inFlight.isSome = true ∨ s.port.reads = [] → ∀ e,
          ((s.station e).takesPart = true → (s.station e).link.countersChanged = true →
            .status e ∈ t.port.writes ∨ t.port.owed[e.val] = true) ∧
          t.station e = { s.station e with
            link := { (s.station e).link with
              countersChanged := (s.station e).link.countersChanged && !(s.station e).takesPart }
            output := if .image e ∈ s.port.reads then
                { (s.station e).output with fetchInFlight := none, fetchDiscard := false }
              else (s.station e).output }))

/-- The expiry of the stop drain limit counts and discards every event left and every event their gaps count, ends the
drain, and requests the final MARK with the written count. The sweeps end, and the status pass is made in their place:
the STATUS of every station taking part whose counters changed is requested. Every read not started is withdrawn, and
each image fetch among them completes as discarded. An event submitted after the end of the drain is added to the
discarded-at-stop count and is not staged. -/
def Obligations.DrainLimitDiscardsWhatIsLeft : Prop :=
  (∀ s : State, s.run.state = .stopping → s.journal.drain = .running → s.journal.drainTimer.isSome = true →
    ∃ t, exec .stopDrainLimitExpiry s = .next t ∧
      t.journal = { s.journal with
        staging := [], openGap := ⟨0#16, 0#16, 0#16, 0#16⟩, drain := .ended, drainTimer := none
        discarded := satAdd s.journal.discarded (s.journal.staging.length +
          (s.journal.staging.map fun x => x.gap.total).sum + s.journal.openGap.total) } ∧
      t.run = s.run ∧ t.irq = s.irq ∧ t.line = s.line ∧ t.sched = s.sched ∧ t.memory = s.memory ∧
      t.tornReads = s.tornReads ∧ t.port.reads = [] ∧
      t.exch = { s.exch with sweepTimer := none, sweepInFlight := false, sweepAgain := false } ∧
      ((∃ urgent, .mark s.journal.written urgent ∈ t.port.writes) ∨
        ∃ urgent, t.port.heldMark = some ⟨s.journal.written, urgent⟩) ∧
      (s.port.inFlight.isSome = true ∨ s.port.reads = [] → ∀ e,
        ((s.station e).takesPart = true → (s.station e).link.countersChanged = true →
          .status e ∈ t.port.writes ∨ t.port.owed[e.val] = true) ∧
        t.station e = { s.station e with
          link := { (s.station e).link with
            countersChanged := (s.station e).link.countersChanged && !(s.station e).takesPart }
          output := if .image e ∈ s.port.reads then
              { (s.station e).output with fetchInFlight := none, fetchDiscard := false }
            else (s.station e).output })) ∧
  ∀ (s : State) (e : Event), s.works = true → s.journal.drain = .ended →
    s.submit e = { s with journal := { s.journal with discarded := satInc s.journal.discarded } }

/-- A MARK completion announces the records it covers beyond the announced count; the first unsignalled ones
start the hold-off timer unless the hold-off is 0; a hold-off of 0, an urgent mark or the threshold sets JOURNAL,
zeroes the unannounced count and stops the timer, and so does the timer's expiry. (The completion after which HALTED is
entered is in CompletedWritesReachMemory.) -/
def Obligations.AnnouncementsAreCoalesced : Prop :=
  (∀ (s : State) (covered : Word) (urgent : Bool) (a : Nat) (bytes : List Byte),
    s.run.state = .running ∨ s.run.state = .stopping ∧ (s.journal.drain ≠ .ended ∨ s.port.moreWaits = true) →
    s.port.inFlight = some (.write (.mark covered urgent) a bytes) →
    let count := satAdd s.journal.unannounced (covered - s.journal.announced).toNat
    let signals := s.cfg.holdOff = 0 ∨ urgent = true ∨ s.cfg.threshold ≤ count.toNat
    ∃ t, exec .markWriteComplete s = .next t ∧
      t = { s with irq := t.irq, journal := t.journal, port := t.port, memory := t.memory } ∧
      t.irq.mask = s.irq.mask ∧
      (covered = s.journal.announced → t.irq = s.irq ∧
        t.journal = { s.journal with announced := covered, unannounced := satAdd s.journal.unannounced 0 }) ∧
      (covered ≠ s.journal.announced → signals →
        t.irq = { s.irq with cause := s.irq.cause ||| 0b00001#5, holdOff := none } ∧
        t.journal = { s.journal with announced := covered, unannounced := 0#16 }) ∧
      (covered ≠ s.journal.announced → ¬signals →
        t.irq = { s.irq with
          holdOff := if s.journal.unannounced = 0#16 then some ⟨s.run.clock, .ms s.cfg.holdOff⟩ else s.irq.holdOff } ∧
        t.journal = { s.journal with announced := covered, unannounced := count })) ∧
  ∀ s : State, s.works = true → s.irq.holdOff.isSome = true →
    exec .holdOffExpiry s = .next
      { s with
        irq := { s.irq with cause := s.irq.cause ||| 0b00001#5, holdOff := none }
        journal := { s.journal with unannounced := 0#16 } }

/-! ### The Exchange Unit -/

/-- A SWEEP command in RUNNING, and each expiry of the sweep timer, requests a sweep: with none in flight one begins
and places its reads behind those waiting, the released count's first, which starts at once on an idle Memory Port; with
one in flight the sweep-again mark is set. The timer goes on at its period, and the command does not move it. -/
def Obligations.SweepsAreRequested : Prop :=
  ∀ s : State, s.run.resetAsserted = false →
    let reads := .released :: (if s.run.state = .running then s.takingPart.map Read.live else [])
    (s.run.state = .running → s.exch.sweepInFlight = true →
      exec .sweep s = .next { s with exch := { s.exch with sweepAgain := true } }) ∧
    (s.run.state = .running → s.exch.sweepInFlight = false → s.port.inFlight.isSome = true →
      exec .sweep s = .next
        { s with
          exch := { s.exch with sweepInFlight := true }
          port := { s.port with reads := s.port.reads ++ reads } }) ∧
    (s.run.state = .running → s.exch.sweepInFlight = false → s.port.inFlight = none → s.port.reads = [] →
      s.port.writes = [] →
      exec .sweep s = .next
        { s with
          exch := { s.exch with sweepInFlight := true }
          port := { s.port with
            reads := s.takingPart.map .live
            inFlight := some (.read .released (s.run.exchangeBase + 0x078))
            lastServed := .read } }) ∧
    ∀ timer, s.works = true → s.exch.sweepTimer = some timer →
      let next : Option Timer := some ⟨timer.since + BitVec.ofNat 32 s.cfg.sweepPeriod, .ms s.cfg.sweepPeriod⟩
      (s.exch.sweepInFlight = true →
        exec .sweepTimerExpiry s = .next { s with exch := { s.exch with sweepTimer := next, sweepAgain := true } }) ∧
      (s.exch.sweepInFlight = false → s.port.inFlight.isSome = true →
        exec .sweepTimerExpiry s = .next
          { s with
            exch := { s.exch with sweepTimer := next, sweepInFlight := true }
            port := { s.port with reads := s.port.reads ++ reads } }) ∧
      (s.exch.sweepInFlight = false → s.port.inFlight = none → s.port.reads = [] → s.port.writes = [] →
        exec .sweepTimerExpiry s = .next
          { s with
            exch := { s.exch with sweepTimer := next, sweepInFlight := true }
            port := { s.port with
              reads := reads.tail
              inFlight := some (.read .released (s.run.exchangeBase + 0x078))
              lastServed := .read } })

/-- A released count read that completes before the end of the drain is valid where it lies between the released view
and the announced count, and the view takes it; an invalid one leaves the view and is reported with HOST_VALUE code 16
and HOSTVAL unless it equals the value last reported. As the last read of its sweep, which in STOPPING it is by itself,
it also ends the sweep: the status pass requests the STATUS of every station taking part whose counters changed, the
sweep count advances by 1, and a further sweep begins where the sweep-again mark is set. One that completes after the
end of the drain is not judged, and where no more waits at the Memory Port HALTED is entered. -/
def Obligations.ReleasedCountIsJudged : Prop :=
  ∀ (s : State) (a : Nat) (data : List Byte), s.run.state = .running ∨ s.run.state = .stopping →
    s.port.inFlight = some (.read .released a) → data.length = 4 →
    let v := wordAt data 0
    let valid : Prop := (v - s.journal.view).toNat ≤ (s.journal.announced - s.journal.view).toNat
    let judged (t : State) : Prop :=
      (valid → t.journal = { s.journal with view := v } ∧ t.irq = s.irq ∧
        t.exch.rememberedReleased = s.exch.rememberedReleased) ∧
      (¬valid → s.exch.rememberedReleased = some v → t.journal = s.journal ∧ t.irq = s.irq ∧
        t.exch.rememberedReleased = s.exch.rememberedReleased) ∧
      (¬valid → s.exch.rememberedReleased ≠ some v →
        t.journal = s.journal.stage ⟨.hostValue 16#8, none, s.run.clock⟩ ∧
        t.irq = { s.irq with cause := s.irq.cause ||| 0b10000#5 } ∧ t.exch.rememberedReleased = some v)
    (s.journal.drain ≠ .ended → s.port.sweepReads ≠ [] →
      ∃ t, exec (.releasedCountReadComplete data) s = .next t ∧ judged t ∧
        t.exch = { s.exch with rememberedReleased := t.exch.rememberedReleased } ∧
        t = { s with journal := t.journal, irq := t.irq, exch := t.exch, port := t.port }) ∧
    (s.journal.drain ≠ .ended → s.port.sweepReads = [] → s.exch.sweepInFlight = true →
      ∃ t, exec (.releasedCountReadComplete data) s = .next t ∧ judged t ∧
        t.exch = { s.exch with
          sweepInFlight := s.exch.sweepAgain, sweepAgain := false, sweepCount := s.exch.sweepCount + 1#32
          rememberedReleased := t.exch.rememberedReleased } ∧
        (∀ e, (s.station e).takesPart = true → (s.station e).link.countersChanged = true →
          .status e ∈ t.port.writes ∨ t.port.owed[e.val] = true) ∧
        (∀ e, t.station e = { s.station e with link := { (s.station e).link with
          countersChanged := (s.station e).link.countersChanged && !(s.station e).takesPart } }) ∧
        (s.exch.sweepAgain = true →
          .released ∈ t.port.reads ∨ ∃ b, t.port.inFlight = some (.read .released b)) ∧
        t = { s with stations := t.stations, journal := t.journal, irq := t.irq, exch := t.exch, port := t.port }) ∧
    (s.journal.drain = .ended →
      ∃ t, exec (.releasedCountReadComplete data) s = .next t ∧ t.journal.view = s.journal.view ∧
        t.journal.staging = s.journal.staging ∧ t.exch = s.exch ∧ t.stations = s.stations ∧
        (s.run.state = .running ∨ s.port.reads ≠ [] ∨ s.port.writes ≠ [] → t = { s with port := t.port }) ∧
        (s.run.state = .stopping → s.port.reads = [] → s.port.writes = [] → s.port.heldMark = none →
          (∀ e : Entry, s.port.owed[e.val] = false) →
          t.run = { s.run with state := .halted, reason := .none, detail := 0#8 } ∧ t.irq.cause.getLsbD 1 = true))

/-- A value read for a counter pair in good order is unchanged where it equals the request count, valid where
its forward distance is at least the pair's and at most 32,767, backward where it is less than the pair's, and too far
ahead where it is more than 32,767. A valid value moves the count forward by 1 to 32,767 and is handed to the owner;
an unchanged one hands nothing over; an invalid one leaves the owner's record and is reported unless it equals the
value last reported. -/
def Obligations.CounterPairsAreJudged : Prop :=
  (∀ r d v : Half, (r - d).toNat ≤ 32767 →
    let a := (r - d).toNat
    let b := (v - d).toNat
    (judgePair r d v = .unchanged ↔ v = r) ∧
    (judgePair r d v = .valid ↔ v ≠ r ∧ a ≤ b ∧ b ≤ 32767) ∧
    (judgePair r d v = .backward ↔ b < a) ∧
    (judgePair r d v = .tooFar ↔ 32767 < b) ∧
    (judgePair r d v = .valid → 1 ≤ (v - r).toNat ∧ (v - r).toNat ≤ 32767 ∧ ahead v d = true)) ∧
  (∀ (s : State) (e : Entry) (v : Half) (pattern : Byte),
    let o := (s.station e).output
    let t := s.takeSounder e v pattern
    let finding := judgePair o.sounderRequest o.sounderDone v
    (finding = .unchanged → t = s) ∧ (finding = .valid → (t.station e).output.sounderRequest = v) ∧
    (finding = .backward ∨ finding = .tooFar → (t.station e).output = o ∧
      ((s.station e).rememberedSounder = some v → t = s) ∧
      ((s.station e).rememberedSounder ≠ some v →
        (t.station e).rememberedSounder = some v ∧ t.irq.cause.getLsbD 4 = true ∧
        t.journal = (s.submit ⟨.hostValue 27#8, some e, s.run.clock⟩).journal))) ∧
  ∀ (s : State) (e : Entry) (v : Half),
    let l := (s.station e).link
    let t := s.takeResync e v
    let finding := judgePair l.resyncRequest l.resyncDone v
    (finding = .unchanged → t = s) ∧ (finding = .valid → (t.station e).link = { l with resyncRequest := v }) ∧
    (finding = .backward ∨ finding = .tooFar → (t.station e).link = l ∧
      ((s.station e).rememberedResync = some v → t = s) ∧
      ((s.station e).rememberedResync ≠ some v →
        (t.station e).rememberedResync = some v ∧ t.irq.cause.getLsbD 4 = true ∧
        t.journal = (s.submit ⟨.hostValue 29#8, some e, s.run.clock⟩).journal))

/-- A live part's fields lie at their offsets. Read in RUNNING it is acted on in the fixed order: the enable flag, the
revision, the sounder request count and the resync request count, each on what the step before has left (that the
counts are judged so after a disable of the first step is read by inference: log entry 31), an invalid count stopping
nothing, and then, at the last read of a sweep, the sweep's end. The two counts are judged as CounterPairsAreJudged
says. Case by case: its settled case, an enabled station with nothing new, changes nothing of the station but a disable
pending mark; a sounder request count is judged after the enable flag and the revision, and handed over where it is
valid, as SounderHandOverSettles says; a zero enable flag with a try in progress sets that mark, and with none disables
the station at once, with its STATUS requested and its events submitted; a nonzero one moves a DISABLED station to
SEARCHING with its STATUS requested (its status changed mark staying set, read by inference: log entry 16), and a
revision not yet fetched is fetched; a new revision requests one fetch of it; and a valid resync request count is taken
(that what the data ask for takes part in the arbiter's choice at the read's end is the model's choice, log entry 11).
In STOPPING nothing is handed over. The last read of a sweep ends it: the status pass requests the STATUS of every
station taking part whose counters changed, the sweep count advances by 1, and a further sweep begins where the
sweep-again mark is set. -/
def Obligations.LivePartIsActedOn : Prop :=
  (∀ b : List Byte, readLivePart b =
    { enable := byteAt b 0, revision := halfAt b 4, sounderCount := halfAt b 6, resyncCount := halfAt b 8
      pattern := byteAt b 10 }) ∧
  (∀ (s : State) (e : Entry) (enable : Byte) (revision : Half),
    let st := s.station e
    let trying : Prop := s.sched.visit.map (·.entry) = some e
    (st.link.state = .disabled → enable = 0#8 → s.takeEnable e enable = s) ∧
    (st.link.state = .disabled → enable ≠ 0#8 → s.takeEnable e enable =
      (s.onLink e fun l => { l with state := .searching, statusChanged := true }).requestStatus e) ∧
    (st.link.state ≠ .disabled → enable ≠ 0#8 → s.takeEnable e enable =
      s.onLink e fun l => { l with disablePending := false }) ∧
    (st.link.state ≠ .disabled → enable = 0#8 → trying → s.takeEnable e enable =
      s.onLink e fun l => { l with disablePending := true }) ∧
    (st.link.state ≠ .disabled → enable = 0#8 → ¬trying → s.takeEnable e enable =
      (s.onStation e fun _ => st.disable.1).report e st.disable.2) ∧
    (let wants : Prop :=
       st.link.state ≠ .disabled ∧ st.output.fetchedRevision ≠ some revision ∧ st.output.fetchInFlight = none
     (wants → s.takeRevision e revision =
       (s.onOutput e fun o => { o with fetchInFlight := some revision }).requestReads [.image e]) ∧
     (¬wants → s.takeRevision e revision = s))) ∧
  (∀ (s : State) (e : Entry) (a : Nat) (data : List Byte), s.port.inFlight = some (.read (.live e) a) →
    data.length = 12 → s.run.state = .running →
    let live := readLivePart data
    let acted := (((s.takeEnable e live.enable).takeRevision e live.revision).takeSounder e live.sounderCount
      live.pattern).takeResync e live.resyncCount
    (s.port.sweepReads ≠ [] → exec (.livePartReadComplete data) s = .next acted.endRead) ∧
    (s.port.sweepReads = [] → s.exch.sweepInFlight = true →
      exec (.livePartReadComplete data) s = .next acted.endSweep.endRead)) ∧
  (∀ (s : State) (e : Entry) (a : Nat) (data : List Byte), s.port.inFlight = some (.read (.live e) a) →
    data.length = 12 → s.port.sweepReads ≠ [] →
    let live := readLivePart data
    let st := s.station e
    (s.run.state = .running → st.link.state ≠ .disabled →
      live.enable ≠ 0#8 ∨ s.sched.visit.map (·.entry) = some e →
      live.revision = st.output.fetchedRevision.getD (live.revision + 1#16) ∨ st.output.fetchInFlight.isSome = true →
      live.sounderCount = st.output.sounderRequest → live.resyncCount = st.link.resyncRequest →
      ∃ t, exec (.livePartReadComplete data) s = .next t ∧
        t = { s.onLink e (fun l => { l with disablePending := decide (live.enable = 0#8) }) with port := t.port }) ∧
    (s.run.state = .running → st.link.state ≠ .disabled → live.enable ≠ 0#8 →
      st.output.fetchedRevision = some live.revision ∨ st.output.fetchInFlight.isSome = true →
      live.resyncCount = st.link.resyncRequest →
      let u := s.onLink e fun l => { l with disablePending := false }
      exec (.livePartReadComplete data) s = .next (u.takeSounder e live.sounderCount live.pattern).endRead) ∧
    (s.run.state = .running → st.link.state ≠ .disabled → live.enable ≠ 0#8 →
      st.output.fetchedRevision ≠ some live.revision → st.output.fetchInFlight = none →
      live.sounderCount = st.output.sounderRequest → judgePair st.link.resyncRequest st.link.resyncDone live.resyncCount = .valid →
      ∃ t, exec (.livePartReadComplete data) s = .next t ∧
        (t.station e).output = { st.output with fetchInFlight := some live.revision } ∧
        (t.station e).link = { st.link with disablePending := false, resyncRequest := live.resyncCount } ∧
        .image e ∈ t.port.reads ∧ (∀ e' ≠ e, t.station e' = s.station e') ∧
        t = { s with stations := t.stations, port := t.port }) ∧
    (s.run.state = .running → st.link.state = .disabled → live.enable ≠ 0#8 →
      live.sounderCount = st.output.sounderRequest → live.resyncCount = st.link.resyncRequest →
      ∃ t, exec (.livePartReadComplete data) s = .next t ∧
        (t.station e).link = { st.link with state := .searching, statusChanged := true, countersChanged := false } ∧
        (.status e ∈ t.port.writes ∨ t.port.owed[e.val] = true) ∧
        (st.output.fetchedRevision = some live.revision ∨ st.output.fetchInFlight.isSome = true →
          (t.station e).output = st.output) ∧
        (st.output.fetchedRevision ≠ some live.revision → st.output.fetchInFlight = none →
          (t.station e).output = { st.output with fetchInFlight := some live.revision } ∧ .image e ∈ t.port.reads) ∧
        (t.station e).contacts = st.contacts ∧ (∀ e' ≠ e, t.station e' = s.station e') ∧
        t = { s with stations := t.stations, port := t.port }) ∧
    (s.run.state = .running → st.link.state ≠ .disabled → live.enable = 0#8 →
      s.sched.visit.map (·.entry) ≠ some e →
      live.sounderCount = st.output.sounderRequest → live.resyncCount = st.link.resyncRequest →
      ∃ t, exec (.livePartReadComplete data) s = .next t ∧
        t.station e = { st.disable.1 with
          link := { st.disable.1.link with statusChanged := false, countersChanged := false } } ∧
        (.status e ∈ t.port.writes ∨ t.port.owed[e.val] = true) ∧
        t.journal = (st.disable.2.map fun body => ⟨body, some e, s.run.clock⟩).foldl (fun j v => j.submit v) s.journal ∧
        (∀ e' ≠ e, t.station e' = s.station e') ∧
        t = { s with stations := t.stations, journal := t.journal, port := t.port }) ∧
    (s.run.state = .stopping → s.journal.drain ≠ .ended →
      ∃ t, exec (.livePartReadComplete data) s = .next t ∧ t = { s with port := t.port })) ∧
  ∀ (s : State) (e : Entry) (a : Nat) (data : List Byte), s.port.inFlight = some (.read (.live e) a) →
    data.length = 12 → s.port.sweepReads = [] → s.exch.sweepInFlight = true →
    let live := readLivePart data
    let st := s.station e
    let ends (disablePending : Bool) : Prop :=
      ∃ t, exec (.livePartReadComplete data) s = .next t ∧
        t.exch = { s.exch with
          sweepInFlight := s.exch.sweepAgain, sweepAgain := false, sweepCount := s.exch.sweepCount + 1#32 } ∧
        (∀ e', (s.station e').takesPart = true → (s.station e').link.countersChanged = true →
          .status e' ∈ t.port.writes ∨ t.port.owed[e'.val] = true) ∧
        (∀ e', t.station e' = { s.station e' with link := { (s.station e').link with
          countersChanged := (s.station e').link.countersChanged && !(s.station e').takesPart
          disablePending := if e' = e then disablePending else (s.station e').link.disablePending } }) ∧
        (s.exch.sweepAgain = true →
          .released ∈ t.port.reads ∨ ∃ b, t.port.inFlight = some (.read .released b)) ∧
        t = { s with stations := t.stations, exch := t.exch, port := t.port }
    (s.run.state = .running → st.link.state ≠ .disabled →
      live.enable ≠ 0#8 ∨ s.sched.visit.map (·.entry) = some e →
      st.output.fetchedRevision = some live.revision ∨ st.output.fetchInFlight.isSome = true →
      live.sounderCount = st.output.sounderRequest → live.resyncCount = st.link.resyncRequest →
      ends (decide (live.enable = 0#8))) ∧
    (s.run.state = .stopping → s.journal.drain ≠ .ended → ends st.link.disablePending)

/-! ### The Memory Port -/

/-- R154. A STATUS request for a station merges into an unstarted STATUS of it, stands for nothing further where its
owed mark is set, joins at the tail where an entry is free, and sets the owed mark where the queue is full; it clears
the counters changed mark, and no record is taken while an owed mark is set. -/
def Obligations.StatusRequestIsTaken : Prop :=
  ∀ (p : Port) (e : Entry),
    (.status e ∈ p.unstarted → p.requestStatus e = p) ∧
    (.status e ∉ p.unstarted → p.owed[e.val] = true → p.requestStatus e = p) ∧
    (.status e ∉ p.unstarted → p.owed[e.val] = false → p.writes.length < 8 →
      p.requestStatus e = { p with writes := p.writes ++ [.status e] }) ∧
    (.status e ∉ p.unstarted → p.owed[e.val] = false → 8 ≤ p.writes.length →
      p.requestStatus e = { p with owed := p.owed.set e.val true }) ∧
    ∀ s : State, ((s.requestStatus e).station e).link.countersChanged = false ∧
      (s.port.owed[e.val] = true → s.canTakeRecord = false)

/-- With no transaction in flight in a run state that makes them, the arbiter starts the head of the one list
that waits, and where both wait the kind not served last, and remembers the kind, which is write after reset and at
start; with nothing waiting it starts nothing, and the next request to arrive starts at once. The transaction it starts
is at the address of its kind: a start read, the released count, a live part, an image block, a status block, a journal
slot, or the MARK at 0x080 of the exchange area. A RECORD carries the bytes of its record; a MARK's 64 bytes are the
covered count and, as they then stand, the cycle number, the sweep count, the discarded count, the panel clock, the
torn-read count, the stray count and the line disturbed flag; a STATUS's 64 are the link state, the known flag, the
station flags, the applied revision, the sounder and resync done counts, the bitmap and the thirteen counters. Every
other byte is 0, and fields of several bytes are least significant byte first. -/
def Obligations.ArbiterAlternates : Prop :=
  (∀ s : State, s.run.state.transacts = true → s.port.inFlight = none →
    let readStarted (r : Read) (rest : List Read) : State :=
      { s with port := { s.port with
        reads := rest, inFlight := some (.read r (s.readAddress r)), lastServed := .read } }
    let writeStarted (w : WriteEntry) : State :=
      { s with port := { s.port with
        inFlight := some (.write w (s.writeAddress w) (s.writeBytes w)), lastServed := .write } }
    (State.reset.port.lastServed = .write ∧ s.port.started.lastServed = .write) ∧
    (s.port.reads = [] → s.port.writes = [] → s.startTransaction = s ∧
      (∀ r rest, s.requestReads (r :: rest) = readStarted r rest) ∧
      (∀ e, s.port.owed[e.val] = false → ∃ a b, (s.requestStatus e).port.inFlight = some (.write (.status e) a b)) ∧
      (∀ slot bytes, ∃ a b, (s.requestRecord slot bytes).port.inFlight = some (.write (.record slot bytes) a b)) ∧
      ∀ covered urgent, s.port.heldMark = none →
        ∃ a b, (s.requestMark covered urgent).port.inFlight = some (.write (.mark covered urgent) a b)) ∧
    (∀ r rest, s.port.reads = r :: rest → s.port.writes = [] → s.startTransaction = readStarted r rest) ∧
    (∀ w rest, s.port.reads = [] → s.port.writes = w :: rest → s.startTransaction = writeStarted w) ∧
    ∀ r rest w rest', s.port.reads = r :: rest → s.port.writes = w :: rest' →
      (s.port.lastServed = .write → s.startTransaction = readStarted r rest) ∧
      (s.port.lastServed = .read → s.startTransaction = writeStarted w)) ∧
  (∀ (b : List Byte) (i : Nat), byteAt b i = b[i]?.getD 0#8 ∧ halfAt b i = byteAt b (i + 1) ++ byteAt b i ∧
    wordAt b i = halfAt b (i + 2) ++ halfAt b i) ∧
  ∀ s : State,
    let base := s.run.exbaseHi.toNat * 4294967296 + s.run.exbaseLo.toNat
    s.readAddress .released = base + 0x078 ∧ Read.released.size = 4 ∧
    (∀ i < 2, s.readAddress (.start i) = base + 0x40 * i ∧ (Read.start i).size = 64) ∧
    (∀ i < 16, s.readAddress (.start (2 + i)) = base + 0x100 + 128 * i ∧ (Read.start (2 + i)).size = 44) ∧
    (∀ e, s.readAddress (.live e) = base + 0x100 + 128 * e.val + 0x20 ∧ (Read.live e).size = 12 ∧
      s.readAddress (.image e) = base + 0x100 + 128 * e.val + 0x2C ∧ (Read.image e).size = 20) ∧
    (∀ slot bytes, s.writeAddress (.record slot bytes) = s.cfg.journalBase.toNat + 16 * slot ∧
      s.writeBytes (.record slot bytes) = bytes) ∧
    (∀ covered urgent,
      let b := s.writeBytes (.mark covered urgent)
      s.writeAddress (.mark covered urgent) = base + 0x080 ∧ b.length = 64 ∧ wordAt b 0x00 = covered ∧
      wordAt b 0x04 = s.sched.cycleNumber ∧ wordAt b 0x08 = s.exch.sweepCount ∧
      wordAt b 0x0C = s.journal.discarded ∧ wordAt b 0x10 = s.run.clock ∧ halfAt b 0x14 = s.tornReads ∧
      halfAt b 0x16 = s.line.stray ∧ byteAt b 0x18 = (if s.line.disturbed then 1#8 else 0#8) ∧
      ∀ i, 0x19 ≤ i → byteAt b i = 0#8) ∧
    ∀ e,
      let st := s.station e
      let c := st.link.counters
      let b := s.writeBytes (.status e)
      s.writeAddress (.status e) = base + 0x100 + 128 * e.val + 0x40 ∧ b.length = 64 ∧
      byteAt b 0x00 =
        (match st.link.state with | .disabled => 0#8 | .searching => 1#8 | .syncing => 2#8 | .online => 3#8) ∧
      byteAt b 0x01 = (if st.contacts.known then 1#8 else 0#8) ∧
      (∀ i < 8, (byteAt b 0x02).getLsbD i =
        (i == 0 && st.link.localFault || i == 1 && st.link.sounderActive)) ∧
      byteAt b 0x03 = 0#8 ∧ halfAt b 0x04 = st.output.applied ∧ halfAt b 0x06 = st.output.sounderDone ∧
      halfAt b 0x08 = st.link.resyncDone ∧ halfAt b 0x0A = 0#16 ∧
      (∀ i < 64, (byteAt b (0x0C + i / 8)).getLsbD (i % 8) = st.contacts.bitmap.getLsbD i) ∧
      halfAt b 0x14 = c.visits ∧ halfAt b 0x16 = c.ok ∧ halfAt b 0x18 = c.noReply ∧ halfAt b 0x1A = c.charError ∧
      halfAt b 0x1C = c.truncated ∧ halfAt b 0x1E = c.badCrc ∧ halfAt b 0x20 = c.badFormat ∧
      halfAt b 0x22 = c.wrongAddress ∧ halfAt b 0x24 = c.turnMismatch ∧ halfAt b 0x26 = c.waits ∧
      halfAt b 0x28 = c.timesLost ∧ halfAt b 0x2A = st.contacts.bounces ∧ halfAt b 0x2C = st.output.tornReads ∧
      ∀ i, 0x2E ≤ i → byteAt b i = 0#8

/-- A write that completes has all of its bytes in memory (as the model keeps it, log entry 4) and changes no other
byte; its entry leaves the queue, and a STATUS or RECORD completion tells nobody. The entry freed goes to the lowest
station whose STATUS is owed, which joins at the tail, and with none owed to the held MARK, which joins at the tail or
merges into a MARK there. In STOPPING, after the end of the
drain, the completion that leaves the Memory Port quiet enters HALTED: reason NONE, STATE set, and JOURNAL where records
are unsignalled, with the unannounced count zeroed and the hold-off timer stopped; the receiver is off. (That the line
state is kept as it stands, in QUIET too, and that the scheduler's timers are kept standing still are read by inference,
log entries 29 and 28.) -/
def Obligations.CompletedWritesReachMemory : Prop :=
  ∀ (s : State) (w : WriteEntry) (a : Nat) (bytes : List Byte), s.run.state = .running ∨ s.run.state = .stopping →
    s.port.inFlight = some (.write w a bytes) →
    ∀ c, (w.isStatus = true ∧ c = .statusWriteComplete) ∨ (w.isRecord = true ∧ c = .recordWriteComplete) ∨
        (w.isMark = true ∧ c = .markWriteComplete) →
      let goesOn : Prop := s.run.state = .running ∨ s.journal.drain ≠ .ended ∨ s.port.moreWaits = true
      let unsignalled : Half := match w with
        | .mark covered _ => satAdd s.journal.unannounced (covered - s.journal.announced).toNat
        | .status _ | .record _ _ => s.journal.unannounced
      ∃ t, exec c s = .next t ∧
        (∀ i, (h : i < bytes.length) → memoryRead t.memory (a + i) = some bytes[i]) ∧
        (∀ x, x < a ∨ a + bytes.length ≤ x → memoryRead t.memory x = memoryRead s.memory x) ∧
        t.port.reads.length ≤ s.port.reads.length ∧
        (let rest := s.port.writes.drop 1
         (∀ e : Entry, s.port.owed[e.val] = true → (∀ e' < e, s.port.owed[e'.val] = false) →
           t.port.writes = rest ++ [.status e] ∧ t.port.owed = s.port.owed.set e.val false ∧
           t.port.heldMark = s.port.heldMark) ∧
         ((∀ e : Entry, s.port.owed[e.val] = false) → t.port.owed = s.port.owed ∧ t.port.heldMark = none ∧
           (s.port.heldMark = none → t.port.writes = rest) ∧
           ∀ m, s.port.heldMark = some m →
             (∀ covered urgent, rest.getLast? = some (.mark covered urgent) →
               t.port.writes = rest.dropLast ++ [.mark m.covered (urgent || m.urgent)]) ∧
             ((∀ covered urgent, rest.getLast? ≠ some (.mark covered urgent)) →
               t.port.writes = rest ++ [.mark m.covered m.urgent]))) ∧
        (goesOn → w.isMark = false → t = { s with memory := t.memory, port := t.port }) ∧
        (goesOn → t.run = s.run) ∧
        (¬goesOn →
          t.run = { s.run with state := .halted, reason := .none, detail := 0#8 } ∧
          t.irq.cause = s.irq.cause ||| 0b00010#5 ||| (if unsignalled = 0#16 then 0#5 else 0b00001#5) ∧
          t.irq.mask = s.irq.mask ∧ t.irq.holdOff = none ∧ t.journal.unannounced = 0#16 ∧
          t.journal.staging = s.journal.staging ∧ t.journal.written = s.journal.written ∧
          t.line.receiver = .off ∧ t.line.state = s.line.state ∧ t.line.sendPlace = none ∧
          t.line.stray = s.line.stray ∧ t.line.disturbed = s.line.disturbed ∧
          t.sched = { s.sched with visit := none } ∧ t.stations = s.stations ∧ t.exch = s.exch ∧ t.port.quiet = true)

/-- A transaction that ends in an error response or the access timeout has its address captured, empties the lists and
marks, releases the line and enters FAULTED with FAULT and STATE set and MULTIPLE clear; the visit and the sweep in
flight end, and the scheduler's other items, the Exchange Unit's, the journal and the stations are frozen with their
counts and timers; a late error response sets MULTIPLE alone and a late completion nothing; CLEAR_FAULT enters HALTED
with STATE set and leaves everything else. (The line's values at a fault of STARTING, what a late answer finds, that a
timer stopped with the panel clock keeps its place, and that CLEAR_FAULT leaves the frozen sweep-again mark, are read by
inference, log entries 15, 21, 28 and 33; the flag of an abandoned start is the model's, log entry 14.) -/
def Obligations.FaultsAreCaptured : Prop :=
  (∀ (s : State) (failed : Transaction) (late : Bool), s.run.state.transacts = true → s.port.inFlight = some failed →
    ∃ t, exec (if late then .memoryAccessTimeout else .busErrorResponse) s = .next t ∧
      t.run = { s.run with
        state := .faulted, reason := .none, detail := 0#8, multiple := false, startAbandoned := false } ∧
      t.irq = { s.irq with cause := s.irq.cause ||| 0b01010#5, holdOff := none } ∧
      t.port = { s.port with
        reads := [], writes := [], inFlight := none, owed := Vector.replicate 16 false, heldMark := none
        faultAddr := BitVec.ofNat 64 failed.address, abandoned := if late then some failed else none } ∧
      t.line.state = .idle ∧ t.line.receiver = .off ∧ t.line.sendPlace = none ∧ t.line.holding = [] ∧
      t.line.stray = s.line.stray ∧ t.line.disturbed = s.line.disturbed ∧
      t.sched = { s.sched with visit := none } ∧ t.exch = { s.exch with sweepInFlight := false } ∧
      t.stations = s.stations ∧ t.journal = s.journal ∧ t.tornReads = s.tornReads ∧
      ∀ x, (∀ w a bytes, failed = .write w a bytes → x < a ∨ a + bytes.length ≤ x) →
        memoryRead t.memory x = memoryRead s.memory x) ∧
  (∀ s : State, s.port.abandoned.isSome = true →
    exec .lateErrorResponse s = .next { s with run := { s.run with multiple := true } }) ∧
  (∀ s : State, exec .lateCompletion s = .next s) ∧
  ∀ s : State, s.run.resetAsserted = false → s.run.state = .faulted →
    exec .clearFault s = .next
      { s with
        run := { s.run with state := .halted, reason := .none, detail := 0#8 }
        irq := { s.irq with cause := s.irq.cause ||| 0b00010#5 } }

/-! ### Invariants -/

/-- At reset the queues are within their sizes, nothing is driven or in flight, the write queue is in order with its
covered counts right, and every station's records are coherent: the invariants below hold there. -/
def Obligations.InvariantsHoldAtReset : Prop :=
  State.reset.Bounded ∧ State.reset.Quiescent ∧ State.reset.port.Ordered ∧ State.reset.Covered ∧
    State.reset.Coherent

/-- The receive holding stage, the staging queue and the write queue never exceed four, 32 and eight entries, the base
stays a multiple of 4,096, and memory keeps its canonical form. -/
def Obligations.CollectionsStayBounded : Prop := ∀ s t : State, s.Bounded → step s = .next t → t.Bounded

/-- Outside RUNNING and STOPPING, and once the stop drain has begun, the line stays undriven with nothing to send;
outside STARTING, RUNNING and STOPPING no memory transaction is in flight; and STOPPING ends at the first moment the
Memory Port is quiet after the end of the drain. -/
def Obligations.QuietOutsideARun : Prop := ∀ s t : State, s.Quiescent → step s = .next t → t.Quiescent

/-- The write in flight stays the head of the write queue, every RECORD stays directly ahead of a RECORD or a MARK, and
a STATUS is owed or a MARK held only while the queue is full. With that, a RECORD directly ahead of a RECORD has the
serial before its, a RECORD directly ahead of a MARK is the last that the MARK covers, and at work an unstarted MARK at
the tail and a held MARK cover every record written. -/
def Obligations.RecordsStayAheadOfTheirMarks : Prop :=
  (∀ s t : State, s.port.Ordered → step s = .next t → t.port.Ordered) ∧
  ∀ s t : State, s.port.Ordered → s.Covered → step s = .next t → t.Covered

/-- Every contact of a station that is DISABLED or SEARCHING stays UNKNOWN, a station has at most one outstanding
command with its content held, and the sync step is held in SYNCING alone. -/
def Obligations.StationRecordsStayCoherent : Prop := ∀ s t : State, s.Coherent → step s = .next t → t.Coherent
end

