-- ==== Sys2Proof/Laws/State.lean ====
section
/-! SUPPORT. One lemma per field per update of `State`, so that no later proof unfolds a record update. -/

namespace Sys2Proof.Machine

variable (s : State)

section onRun
variable (f : RunControl → RunControl)

@[simp] theorem onRun_pending : (s.onRun f).pending = s.pending := rfl
@[simp] theorem onRun_run : (s.onRun f).run = f s.run := rfl
@[simp] theorem onRun_irq : (s.onRun f).irq = s.irq := rfl
@[simp] theorem onRun_line : (s.onRun f).line = s.line := rfl
@[simp] theorem onRun_sched : (s.onRun f).sched = s.sched := rfl
@[simp] theorem onRun_stations : (s.onRun f).stations = s.stations := rfl
@[simp] theorem onRun_tornReads : (s.onRun f).tornReads = s.tornReads := rfl
@[simp] theorem onRun_journal : (s.onRun f).journal = s.journal := rfl
@[simp] theorem onRun_exch : (s.onRun f).exch = s.exch := rfl
@[simp] theorem onRun_port : (s.onRun f).port = s.port := rfl
@[simp] theorem onRun_memory : (s.onRun f).memory = s.memory := rfl
@[simp] theorem onRun_draws : (s.onRun f).draws = s.draws := rfl
@[simp] theorem onRun_station (e : Entry) : (s.onRun f).station e = s.station e := rfl

end onRun

section onIrq
variable (f : Interrupt → Interrupt)

@[simp] theorem onIrq_pending : (s.onIrq f).pending = s.pending := rfl
@[simp] theorem onIrq_run : (s.onIrq f).run = s.run := rfl
@[simp] theorem onIrq_irq : (s.onIrq f).irq = f s.irq := rfl
@[simp] theorem onIrq_line : (s.onIrq f).line = s.line := rfl
@[simp] theorem onIrq_sched : (s.onIrq f).sched = s.sched := rfl
@[simp] theorem onIrq_stations : (s.onIrq f).stations = s.stations := rfl
@[simp] theorem onIrq_tornReads : (s.onIrq f).tornReads = s.tornReads := rfl
@[simp] theorem onIrq_journal : (s.onIrq f).journal = s.journal := rfl
@[simp] theorem onIrq_exch : (s.onIrq f).exch = s.exch := rfl
@[simp] theorem onIrq_port : (s.onIrq f).port = s.port := rfl
@[simp] theorem onIrq_memory : (s.onIrq f).memory = s.memory := rfl
@[simp] theorem onIrq_draws : (s.onIrq f).draws = s.draws := rfl
@[simp] theorem onIrq_station (e : Entry) : (s.onIrq f).station e = s.station e := rfl
@[simp] theorem onIrq_cfg : (s.onIrq f).cfg = s.cfg := rfl

end onIrq

section onLine
variable (f : Line → Line)

@[simp] theorem onLine_pending : (s.onLine f).pending = s.pending := rfl
@[simp] theorem onLine_run : (s.onLine f).run = s.run := rfl
@[simp] theorem onLine_irq : (s.onLine f).irq = s.irq := rfl
@[simp] theorem onLine_line : (s.onLine f).line = f s.line := rfl
@[simp] theorem onLine_sched : (s.onLine f).sched = s.sched := rfl
@[simp] theorem onLine_stations : (s.onLine f).stations = s.stations := rfl
@[simp] theorem onLine_tornReads : (s.onLine f).tornReads = s.tornReads := rfl
@[simp] theorem onLine_journal : (s.onLine f).journal = s.journal := rfl
@[simp] theorem onLine_exch : (s.onLine f).exch = s.exch := rfl
@[simp] theorem onLine_port : (s.onLine f).port = s.port := rfl
@[simp] theorem onLine_memory : (s.onLine f).memory = s.memory := rfl
@[simp] theorem onLine_draws : (s.onLine f).draws = s.draws := rfl
@[simp] theorem onLine_station (e : Entry) : (s.onLine f).station e = s.station e := rfl
@[simp] theorem onLine_cfg : (s.onLine f).cfg = s.cfg := rfl

end onLine

section onSched
variable (f : Scheduler → Scheduler)

@[simp] theorem onSched_pending : (s.onSched f).pending = s.pending := rfl
@[simp] theorem onSched_run : (s.onSched f).run = s.run := rfl
@[simp] theorem onSched_irq : (s.onSched f).irq = s.irq := rfl
@[simp] theorem onSched_line : (s.onSched f).line = s.line := rfl
@[simp] theorem onSched_sched : (s.onSched f).sched = f s.sched := rfl
@[simp] theorem onSched_stations : (s.onSched f).stations = s.stations := rfl
@[simp] theorem onSched_tornReads : (s.onSched f).tornReads = s.tornReads := rfl
@[simp] theorem onSched_journal : (s.onSched f).journal = s.journal := rfl
@[simp] theorem onSched_exch : (s.onSched f).exch = s.exch := rfl
@[simp] theorem onSched_port : (s.onSched f).port = s.port := rfl
@[simp] theorem onSched_memory : (s.onSched f).memory = s.memory := rfl
@[simp] theorem onSched_draws : (s.onSched f).draws = s.draws := rfl
@[simp] theorem onSched_station (e : Entry) : (s.onSched f).station e = s.station e := rfl
@[simp] theorem onSched_cfg : (s.onSched f).cfg = s.cfg := rfl

end onSched

section onJournal
variable (f : Journal → Journal)

@[simp] theorem onJournal_pending : (s.onJournal f).pending = s.pending := rfl
@[simp] theorem onJournal_run : (s.onJournal f).run = s.run := rfl
@[simp] theorem onJournal_irq : (s.onJournal f).irq = s.irq := rfl
@[simp] theorem onJournal_line : (s.onJournal f).line = s.line := rfl
@[simp] theorem onJournal_sched : (s.onJournal f).sched = s.sched := rfl
@[simp] theorem onJournal_stations : (s.onJournal f).stations = s.stations := rfl
@[simp] theorem onJournal_tornReads : (s.onJournal f).tornReads = s.tornReads := rfl
@[simp] theorem onJournal_journal : (s.onJournal f).journal = f s.journal := rfl
@[simp] theorem onJournal_exch : (s.onJournal f).exch = s.exch := rfl
@[simp] theorem onJournal_port : (s.onJournal f).port = s.port := rfl
@[simp] theorem onJournal_memory : (s.onJournal f).memory = s.memory := rfl
@[simp] theorem onJournal_draws : (s.onJournal f).draws = s.draws := rfl
@[simp] theorem onJournal_station (e : Entry) : (s.onJournal f).station e = s.station e := rfl
@[simp] theorem onJournal_cfg : (s.onJournal f).cfg = s.cfg := rfl

end onJournal

section onExch
variable (f : Exchange → Exchange)

@[simp] theorem onExch_pending : (s.onExch f).pending = s.pending := rfl
@[simp] theorem onExch_run : (s.onExch f).run = s.run := rfl
@[simp] theorem onExch_irq : (s.onExch f).irq = s.irq := rfl
@[simp] theorem onExch_line : (s.onExch f).line = s.line := rfl
@[simp] theorem onExch_sched : (s.onExch f).sched = s.sched := rfl
@[simp] theorem onExch_stations : (s.onExch f).stations = s.stations := rfl
@[simp] theorem onExch_tornReads : (s.onExch f).tornReads = s.tornReads := rfl
@[simp] theorem onExch_journal : (s.onExch f).journal = s.journal := rfl
@[simp] theorem onExch_exch : (s.onExch f).exch = f s.exch := rfl
@[simp] theorem onExch_port : (s.onExch f).port = s.port := rfl
@[simp] theorem onExch_memory : (s.onExch f).memory = s.memory := rfl
@[simp] theorem onExch_draws : (s.onExch f).draws = s.draws := rfl
@[simp] theorem onExch_station (e : Entry) : (s.onExch f).station e = s.station e := rfl
@[simp] theorem onExch_cfg : (s.onExch f).cfg = s.cfg := rfl

end onExch

section onPort
variable (f : Port → Port)

@[simp] theorem onPort_pending : (s.onPort f).pending = s.pending := rfl
@[simp] theorem onPort_run : (s.onPort f).run = s.run := rfl
@[simp] theorem onPort_irq : (s.onPort f).irq = s.irq := rfl
@[simp] theorem onPort_line : (s.onPort f).line = s.line := rfl
@[simp] theorem onPort_sched : (s.onPort f).sched = s.sched := rfl
@[simp] theorem onPort_stations : (s.onPort f).stations = s.stations := rfl
@[simp] theorem onPort_tornReads : (s.onPort f).tornReads = s.tornReads := rfl
@[simp] theorem onPort_journal : (s.onPort f).journal = s.journal := rfl
@[simp] theorem onPort_exch : (s.onPort f).exch = s.exch := rfl
@[simp] theorem onPort_port : (s.onPort f).port = f s.port := rfl
@[simp] theorem onPort_memory : (s.onPort f).memory = s.memory := rfl
@[simp] theorem onPort_draws : (s.onPort f).draws = s.draws := rfl
@[simp] theorem onPort_station (e : Entry) : (s.onPort f).station e = s.station e := rfl
@[simp] theorem onPort_cfg : (s.onPort f).cfg = s.cfg := rfl

end onPort

section onStation
variable (e : Entry) (f : Station → Station)

@[simp] theorem onStation_pending : (s.onStation e f).pending = s.pending := rfl
@[simp] theorem onStation_run : (s.onStation e f).run = s.run := rfl
@[simp] theorem onStation_irq : (s.onStation e f).irq = s.irq := rfl
@[simp] theorem onStation_line : (s.onStation e f).line = s.line := rfl
@[simp] theorem onStation_sched : (s.onStation e f).sched = s.sched := rfl
@[simp] theorem onStation_tornReads : (s.onStation e f).tornReads = s.tornReads := rfl
@[simp] theorem onStation_journal : (s.onStation e f).journal = s.journal := rfl
@[simp] theorem onStation_exch : (s.onStation e f).exch = s.exch := rfl
@[simp] theorem onStation_port : (s.onStation e f).port = s.port := rfl
@[simp] theorem onStation_memory : (s.onStation e f).memory = s.memory := rfl
@[simp] theorem onStation_draws : (s.onStation e f).draws = s.draws := rfl
@[simp] theorem onStation_cfg : (s.onStation e f).cfg = s.cfg := rfl

end onStation

section onLink
variable (e : Entry) (f : Link → Link)

@[simp] theorem onLink_pending : (s.onLink e f).pending = s.pending := rfl
@[simp] theorem onLink_run : (s.onLink e f).run = s.run := rfl
@[simp] theorem onLink_irq : (s.onLink e f).irq = s.irq := rfl
@[simp] theorem onLink_line : (s.onLink e f).line = s.line := rfl
@[simp] theorem onLink_sched : (s.onLink e f).sched = s.sched := rfl
@[simp] theorem onLink_tornReads : (s.onLink e f).tornReads = s.tornReads := rfl
@[simp] theorem onLink_journal : (s.onLink e f).journal = s.journal := rfl
@[simp] theorem onLink_exch : (s.onLink e f).exch = s.exch := rfl
@[simp] theorem onLink_port : (s.onLink e f).port = s.port := rfl
@[simp] theorem onLink_memory : (s.onLink e f).memory = s.memory := rfl
@[simp] theorem onLink_draws : (s.onLink e f).draws = s.draws := rfl
@[simp] theorem onLink_cfg : (s.onLink e f).cfg = s.cfg := rfl

end onLink

section onOutput
variable (e : Entry) (f : Output → Output)

@[simp] theorem onOutput_pending : (s.onOutput e f).pending = s.pending := rfl
@[simp] theorem onOutput_run : (s.onOutput e f).run = s.run := rfl
@[simp] theorem onOutput_irq : (s.onOutput e f).irq = s.irq := rfl
@[simp] theorem onOutput_line : (s.onOutput e f).line = s.line := rfl
@[simp] theorem onOutput_sched : (s.onOutput e f).sched = s.sched := rfl
@[simp] theorem onOutput_tornReads : (s.onOutput e f).tornReads = s.tornReads := rfl
@[simp] theorem onOutput_journal : (s.onOutput e f).journal = s.journal := rfl
@[simp] theorem onOutput_exch : (s.onOutput e f).exch = s.exch := rfl
@[simp] theorem onOutput_port : (s.onOutput e f).port = s.port := rfl
@[simp] theorem onOutput_memory : (s.onOutput e f).memory = s.memory := rfl
@[simp] theorem onOutput_draws : (s.onOutput e f).draws = s.draws := rfl
@[simp] theorem onOutput_cfg : (s.onOutput e f).cfg = s.cfg := rfl

end onOutput

/-! ### Reading a station back -/

@[simp] theorem onStation_self (e : Entry) (f : Station → Station) :
    (s.onStation e f).station e = f (s.station e) := by
  simp [State.station, State.onStation]

@[simp] theorem onStation_other {e e' : Entry} (f : Station → Station) (h : e ≠ e') :
    (s.onStation e f).station e' = s.station e' := by
  have : e.val ≠ e'.val := fun k => h (Fin.ext k)
  simp [State.station, State.onStation, this]

theorem onStation_station (e e' : Entry) (f : Station → Station) :
    (s.onStation e f).station e' = if e = e' then f (s.station e) else s.station e' := by
  split
  · next h => subst h; simp
  · next h => simp [h]

@[simp] theorem onLink_self (e : Entry) (f : Link → Link) :
    (s.onLink e f).station e = { s.station e with link := f (s.station e).link } := by
  simp [State.onLink]

@[simp] theorem onLink_other {e e' : Entry} (f : Link → Link) (h : e ≠ e') :
    (s.onLink e f).station e' = s.station e' := by
  simp [State.onLink, h]

theorem onLink_station (e e' : Entry) (f : Link → Link) :
    (s.onLink e f).station e' =
      if e = e' then { s.station e with link := f (s.station e).link } else s.station e' := by
  simp only [State.onLink, onStation_station]

@[simp] theorem onOutput_self (e : Entry) (f : Output → Output) :
    (s.onOutput e f).station e = { s.station e with output := f (s.station e).output } := by
  simp [State.onOutput]

@[simp] theorem onOutput_other {e e' : Entry} (f : Output → Output) (h : e ≠ e') :
    (s.onOutput e f).station e' = s.station e' := by
  simp [State.onOutput, h]

theorem onOutput_station (e e' : Entry) (f : Output → Output) :
    (s.onOutput e f).station e' =
      if e = e' then { s.station e with output := f (s.station e).output } else s.station e' := by
  simp only [State.onOutput, onStation_station]

/-! ### The queue -/

@[simp] theorem withFront_pending (c : Instr) : (s.withFront c).pending = c :: s.pending := rfl

end Sys2Proof.Machine
end

