-- ==== Sys2Proof/Laws/Frames.lean ====
section
/-! SUPPORT. What each operation leaves unchanged: one lemma per operation over the state, naming the parts it does not
touch. `simp` uses each part as a rewrite rule. -/

namespace Sys2Proof.Machine

variable (s : State)

@[simp] theorem startRead_keeps (r : Read) (rest : List Read) :
    (s.startRead r rest).pending = s.pending ∧ (s.startRead r rest).run = s.run ∧ (s.startRead r rest).irq = s.irq ∧
    (s.startRead r rest).line = s.line ∧ (s.startRead r rest).sched = s.sched ∧ (s.startRead r rest).stations = s.stations ∧
    (s.startRead r rest).tornReads = s.tornReads ∧ (s.startRead r rest).journal = s.journal ∧ (s.startRead r rest).exch = s.exch ∧
    (s.startRead r rest).memory = s.memory ∧ (s.startRead r rest).draws = s.draws ∧ (∀ e', (s.startRead r rest).station e' = s.station e') ∧
    (s.startRead r rest).cfg = s.cfg := by simp [State.startRead]

@[simp] theorem startWrite_keeps (w : WriteEntry) :
    (s.startWrite w).pending = s.pending ∧ (s.startWrite w).run = s.run ∧ (s.startWrite w).irq = s.irq ∧
    (s.startWrite w).line = s.line ∧ (s.startWrite w).sched = s.sched ∧ (s.startWrite w).stations = s.stations ∧
    (s.startWrite w).tornReads = s.tornReads ∧ (s.startWrite w).journal = s.journal ∧ (s.startWrite w).exch = s.exch ∧
    (s.startWrite w).memory = s.memory ∧ (s.startWrite w).draws = s.draws ∧ (∀ e', (s.startWrite w).station e' = s.station e') ∧
    (s.startWrite w).cfg = s.cfg := by simp [State.startWrite]

@[simp] theorem chooseTransaction_keeps :
    (s.chooseTransaction).pending = s.pending ∧ (s.chooseTransaction).run = s.run ∧ (s.chooseTransaction).irq = s.irq ∧
    (s.chooseTransaction).line = s.line ∧ (s.chooseTransaction).sched = s.sched ∧ (s.chooseTransaction).stations = s.stations ∧
    (s.chooseTransaction).tornReads = s.tornReads ∧ (s.chooseTransaction).journal = s.journal ∧ (s.chooseTransaction).exch = s.exch ∧
    (s.chooseTransaction).memory = s.memory ∧ (s.chooseTransaction).draws = s.draws ∧ (∀ e', (s.chooseTransaction).station e' = s.station e') ∧
    (s.chooseTransaction).cfg = s.cfg := by
  simp only [State.chooseTransaction]
  (repeat' split) <;> simp

@[simp] theorem startTransaction_keeps :
    (s.startTransaction).pending = s.pending ∧ (s.startTransaction).run = s.run ∧ (s.startTransaction).irq = s.irq ∧
    (s.startTransaction).line = s.line ∧ (s.startTransaction).sched = s.sched ∧ (s.startTransaction).stations = s.stations ∧
    (s.startTransaction).tornReads = s.tornReads ∧ (s.startTransaction).journal = s.journal ∧ (s.startTransaction).exch = s.exch ∧
    (s.startTransaction).memory = s.memory ∧ (s.startTransaction).draws = s.draws ∧ (∀ e', (s.startTransaction).station e' = s.station e') ∧
    (s.startTransaction).cfg = s.cfg := by
  simp only [State.startTransaction]
  (repeat' split) <;> simp

@[simp] theorem requestStatus_keeps (e : Entry) :
    (s.requestStatus e).pending = s.pending ∧ (s.requestStatus e).run = s.run ∧ (s.requestStatus e).irq = s.irq ∧
    (s.requestStatus e).line = s.line ∧ (s.requestStatus e).sched = s.sched ∧ (s.requestStatus e).tornReads = s.tornReads ∧
    (s.requestStatus e).journal = s.journal ∧ (s.requestStatus e).exch = s.exch ∧ (s.requestStatus e).memory = s.memory ∧
    (s.requestStatus e).draws = s.draws ∧ (s.requestStatus e).cfg = s.cfg := by simp [State.requestStatus]

@[simp] theorem requestMark_keeps (c : Word) (u : Bool) :
    (s.requestMark c u).pending = s.pending ∧ (s.requestMark c u).run = s.run ∧ (s.requestMark c u).irq = s.irq ∧
    (s.requestMark c u).line = s.line ∧ (s.requestMark c u).sched = s.sched ∧ (s.requestMark c u).stations = s.stations ∧
    (s.requestMark c u).tornReads = s.tornReads ∧ (s.requestMark c u).journal = s.journal ∧ (s.requestMark c u).exch = s.exch ∧
    (s.requestMark c u).memory = s.memory ∧ (s.requestMark c u).draws = s.draws ∧ (∀ e', (s.requestMark c u).station e' = s.station e') ∧
    (s.requestMark c u).cfg = s.cfg := by simp [State.requestMark]

@[simp] theorem requestRecord_keeps (n : Nat) (b : List Byte) :
    (s.requestRecord n b).pending = s.pending ∧ (s.requestRecord n b).run = s.run ∧ (s.requestRecord n b).irq = s.irq ∧
    (s.requestRecord n b).line = s.line ∧ (s.requestRecord n b).sched = s.sched ∧ (s.requestRecord n b).stations = s.stations ∧
    (s.requestRecord n b).tornReads = s.tornReads ∧ (s.requestRecord n b).journal = s.journal ∧ (s.requestRecord n b).exch = s.exch ∧
    (s.requestRecord n b).memory = s.memory ∧ (s.requestRecord n b).draws = s.draws ∧ (∀ e', (s.requestRecord n b).station e' = s.station e') ∧
    (s.requestRecord n b).cfg = s.cfg := by simp [State.requestRecord]

@[simp] theorem requestReads_keeps (rs : List Read) :
    (s.requestReads rs).pending = s.pending ∧ (s.requestReads rs).run = s.run ∧ (s.requestReads rs).irq = s.irq ∧
    (s.requestReads rs).line = s.line ∧ (s.requestReads rs).sched = s.sched ∧ (s.requestReads rs).stations = s.stations ∧
    (s.requestReads rs).tornReads = s.tornReads ∧ (s.requestReads rs).journal = s.journal ∧ (s.requestReads rs).exch = s.exch ∧
    (s.requestReads rs).memory = s.memory ∧ (s.requestReads rs).draws = s.draws ∧ (∀ e', (s.requestReads rs).station e' = s.station e') ∧
    (s.requestReads rs).cfg = s.cfg := by simp [State.requestReads]

@[simp] theorem endRead_keeps :
    (s.endRead).pending = s.pending ∧ (s.endRead).run = s.run ∧ (s.endRead).irq = s.irq ∧
    (s.endRead).line = s.line ∧ (s.endRead).sched = s.sched ∧ (s.endRead).stations = s.stations ∧
    (s.endRead).tornReads = s.tornReads ∧ (s.endRead).journal = s.journal ∧ (s.endRead).exch = s.exch ∧
    (s.endRead).memory = s.memory ∧ (s.endRead).draws = s.draws ∧ (∀ e', (s.endRead).station e' = s.station e') ∧
    (s.endRead).cfg = s.cfg := by simp [State.endRead]

@[simp] theorem endWrite_keeps (a : Nat) (b : List Byte) :
    (s.endWrite a b).pending = s.pending ∧ (s.endWrite a b).run = s.run ∧ (s.endWrite a b).irq = s.irq ∧
    (s.endWrite a b).line = s.line ∧ (s.endWrite a b).sched = s.sched ∧ (s.endWrite a b).stations = s.stations ∧
    (s.endWrite a b).tornReads = s.tornReads ∧ (s.endWrite a b).journal = s.journal ∧ (s.endWrite a b).exch = s.exch ∧
    (s.endWrite a b).draws = s.draws ∧ (s.endWrite a b).cfg = s.cfg := by simp [State.endWrite, State.cfg]

@[simp] theorem submit_keeps (v : Event) :
    (s.submit v).pending = s.pending ∧ (s.submit v).run = s.run ∧ (s.submit v).irq = s.irq ∧
    (s.submit v).line = s.line ∧ (s.submit v).sched = s.sched ∧ (s.submit v).stations = s.stations ∧
    (s.submit v).tornReads = s.tornReads ∧ (s.submit v).exch = s.exch ∧ (s.submit v).port = s.port ∧
    (s.submit v).memory = s.memory ∧ (s.submit v).draws = s.draws ∧ (∀ e', (s.submit v).station e' = s.station e') ∧
    (s.submit v).cfg = s.cfg := by
  simp only [State.submit]
  (repeat' split) <;> simp

@[simp] theorem submitAll_keeps (vs : List Event) :
    (s.submitAll vs).pending = s.pending ∧ (s.submitAll vs).run = s.run ∧ (s.submitAll vs).irq = s.irq ∧
    (s.submitAll vs).line = s.line ∧ (s.submitAll vs).sched = s.sched ∧ (s.submitAll vs).stations = s.stations ∧
    (s.submitAll vs).tornReads = s.tornReads ∧ (s.submitAll vs).exch = s.exch ∧ (s.submitAll vs).port = s.port ∧
    (s.submitAll vs).memory = s.memory ∧ (s.submitAll vs).draws = s.draws ∧ (∀ e', (s.submitAll vs).station e' = s.station e') ∧
    (s.submitAll vs).cfg = s.cfg := by
  induction vs generalizing s with
  | nil => simp [State.submitAll]
  | cons v vs ih =>
    have := ih (s.submit v)
    simp_all [State.submitAll]

@[simp] theorem submitBodies_keeps (e : Entry) (bs : List EventBody) :
    (s.submitBodies e bs).pending = s.pending ∧ (s.submitBodies e bs).run = s.run ∧ (s.submitBodies e bs).irq = s.irq ∧
    (s.submitBodies e bs).line = s.line ∧ (s.submitBodies e bs).sched = s.sched ∧ (s.submitBodies e bs).stations = s.stations ∧
    (s.submitBodies e bs).tornReads = s.tornReads ∧ (s.submitBodies e bs).exch = s.exch ∧ (s.submitBodies e bs).port = s.port ∧
    (s.submitBodies e bs).memory = s.memory ∧ (s.submitBodies e bs).draws = s.draws ∧ (∀ e', (s.submitBodies e bs).station e' = s.station e') ∧
    (s.submitBodies e bs).cfg = s.cfg := by simp [State.submitBodies]

@[simp] theorem makeRequest_keeps (r : SendRequest) :
    (s.makeRequest r).pending = s.pending ∧ (s.makeRequest r).run = s.run ∧ (s.makeRequest r).irq = s.irq ∧
    (s.makeRequest r).sched = s.sched ∧ (s.makeRequest r).stations = s.stations ∧ (s.makeRequest r).tornReads = s.tornReads ∧
    (s.makeRequest r).journal = s.journal ∧ (s.makeRequest r).exch = s.exch ∧ (s.makeRequest r).port = s.port ∧
    (s.makeRequest r).memory = s.memory ∧ (s.makeRequest r).draws = s.draws ∧ (∀ e', (s.makeRequest r).station e' = s.station e') ∧
    (s.makeRequest r).cfg = s.cfg := by simp [State.makeRequest]

@[simp] theorem report_keeps (e : Entry) (bs : List EventBody) :
    (s.report e bs).pending = s.pending ∧ (s.report e bs).run = s.run ∧ (s.report e bs).irq = s.irq ∧
    (s.report e bs).line = s.line ∧ (s.report e bs).sched = s.sched ∧ (s.report e bs).tornReads = s.tornReads ∧
    (s.report e bs).exch = s.exch ∧ (s.report e bs).memory = s.memory ∧ (s.report e bs).draws = s.draws ∧
    (s.report e bs).cfg = s.cfg := by
  simp only [State.report]
  (repeat' split) <;> simp

@[simp] theorem endVisit_keeps (e : Entry) (r : VisitResult) :
    (s.endVisit e r).pending = s.pending ∧ (s.endVisit e r).run = s.run ∧ (s.endVisit e r).irq = s.irq ∧
    (s.endVisit e r).line = s.line ∧ (s.endVisit e r).tornReads = s.tornReads ∧ (s.endVisit e r).exch = s.exch ∧
    (s.endVisit e r).memory = s.memory ∧ (s.endVisit e r).draws = s.draws ∧ (s.endVisit e r).cfg = s.cfg := by simp [State.endVisit]

@[simp] theorem beginVisit_keeps (e : Entry) :
    (s.beginVisit e).pending = s.pending ∧ (s.beginVisit e).run = s.run ∧ (s.beginVisit e).irq = s.irq ∧
    (s.beginVisit e).tornReads = s.tornReads ∧ (s.beginVisit e).exch = s.exch ∧ (s.beginVisit e).memory = s.memory ∧
    (s.beginVisit e).draws = s.draws ∧ (s.beginVisit e).cfg = s.cfg := by
  simp only [State.beginVisit]
  (repeat' split) <;> simp

@[simp] theorem walkOver_keeps (es : List Entry) :
    (s.walkOver es).pending = s.pending ∧ (s.walkOver es).run = s.run ∧ (s.walkOver es).irq = s.irq ∧
    (s.walkOver es).tornReads = s.tornReads ∧ (s.walkOver es).exch = s.exch ∧ (s.walkOver es).memory = s.memory ∧
    (s.walkOver es).draws = s.draws ∧ (s.walkOver es).cfg = s.cfg := by
  induction es generalizing s with
  | nil => simp [State.walkOver]
  | cons e es ih =>
    simp only [State.walkOver]
    (repeat' split) <;> simp [ih]

@[simp] theorem walk_keeps :
    (s.walk).pending = s.pending ∧ (s.walk).run = s.run ∧ (s.walk).irq = s.irq ∧
    (s.walk).tornReads = s.tornReads ∧ (s.walk).exch = s.exch ∧ (s.walk).memory = s.memory ∧
    (s.walk).draws = s.draws ∧ (s.walk).cfg = s.cfg := by simp [State.walk]

@[simp] theorem startCycle_keeps (n : Word) :
    (s.startCycle n).pending = s.pending ∧ (s.startCycle n).run = s.run ∧ (s.startCycle n).irq = s.irq ∧
    (s.startCycle n).line = s.line ∧ (s.startCycle n).stations = s.stations ∧ (s.startCycle n).tornReads = s.tornReads ∧
    (s.startCycle n).journal = s.journal ∧ (s.startCycle n).exch = s.exch ∧ (s.startCycle n).port = s.port ∧
    (s.startCycle n).memory = s.memory ∧ (s.startCycle n).draws = s.draws ∧ (∀ e', (s.startCycle n).station e' = s.station e') ∧
    (s.startCycle n).cfg = s.cfg := by simp [State.startCycle]

@[simp] theorem sendDueMark_keeps :
    (s.sendDueMark).pending = s.pending ∧ (s.sendDueMark).run = s.run ∧ (s.sendDueMark).irq = s.irq ∧
    (s.sendDueMark).stations = s.stations ∧ (s.sendDueMark).tornReads = s.tornReads ∧ (s.sendDueMark).journal = s.journal ∧
    (s.sendDueMark).exch = s.exch ∧ (s.sendDueMark).port = s.port ∧ (s.sendDueMark).memory = s.memory ∧
    (s.sendDueMark).draws = s.draws ∧ (∀ e', (s.sendDueMark).station e' = s.station e') ∧ (s.sendDueMark).cfg = s.cfg := by
  simp only [State.sendDueMark]
  (repeat' split) <;> simp

@[simp] theorem continueCycle_keeps :
    (s.continueCycle).pending = s.pending ∧ (s.continueCycle).run = s.run ∧ (s.continueCycle).irq = s.irq ∧
    (s.continueCycle).tornReads = s.tornReads ∧ (s.continueCycle).exch = s.exch ∧ (s.continueCycle).memory = s.memory ∧
    (s.continueCycle).draws = s.draws ∧ (s.continueCycle).cfg = s.cfg := by
  simp only [State.continueCycle]
  (repeat' split) <;> simp

@[simp] theorem schedule_keeps :
    (s.schedule).pending = s.pending ∧ (s.schedule).run = s.run ∧ (s.schedule).irq = s.irq ∧
    (s.schedule).tornReads = s.tornReads ∧ (s.schedule).exch = s.exch ∧ (s.schedule).memory = s.memory ∧
    (s.schedule).draws = s.draws ∧ (s.schedule).cfg = s.cfg := by
  simp only [State.schedule]
  (repeat' split) <;> simp

@[simp] theorem deliver_keeps (o : TryOutcome) :
    (s.deliver o).pending = s.pending ∧ (s.deliver o).run = s.run ∧ (s.deliver o).irq = s.irq ∧
    (s.deliver o).tornReads = s.tornReads ∧ (s.deliver o).exch = s.exch ∧ (s.deliver o).memory = s.memory ∧
    (s.deliver o).draws = s.draws ∧ (s.deliver o).cfg = s.cfg := by
  simp only [State.deliver]
  (repeat' split) <;> simp

@[simp] theorem exchangeEnded_keeps (r : Option SendRequest) (n : Ending) :
    (s.exchangeEnded r n).pending = s.pending ∧ (s.exchangeEnded r n).run = s.run ∧ (s.exchangeEnded r n).irq = s.irq ∧
    (s.exchangeEnded r n).tornReads = s.tornReads ∧ (s.exchangeEnded r n).exch = s.exch ∧ (s.exchangeEnded r n).memory = s.memory ∧
    (s.exchangeEnded r n).draws = s.draws ∧ (s.exchangeEnded r n).cfg = s.cfg := by
  simp only [State.exchangeEnded]
  (repeat' split) <;> simp

@[simp] theorem beginSweep_keeps :
    (s.beginSweep).pending = s.pending ∧ (s.beginSweep).run = s.run ∧ (s.beginSweep).irq = s.irq ∧
    (s.beginSweep).line = s.line ∧ (s.beginSweep).sched = s.sched ∧ (s.beginSweep).stations = s.stations ∧
    (s.beginSweep).tornReads = s.tornReads ∧ (s.beginSweep).journal = s.journal ∧ (s.beginSweep).memory = s.memory ∧
    (s.beginSweep).draws = s.draws ∧ (∀ e', (s.beginSweep).station e' = s.station e') ∧ (s.beginSweep).cfg = s.cfg := by simp [State.beginSweep]

@[simp] theorem requestSweep_keeps :
    (s.requestSweep).pending = s.pending ∧ (s.requestSweep).run = s.run ∧ (s.requestSweep).irq = s.irq ∧
    (s.requestSweep).line = s.line ∧ (s.requestSweep).sched = s.sched ∧ (s.requestSweep).stations = s.stations ∧
    (s.requestSweep).tornReads = s.tornReads ∧ (s.requestSweep).journal = s.journal ∧ (s.requestSweep).memory = s.memory ∧
    (s.requestSweep).draws = s.draws ∧ (∀ e', (s.requestSweep).station e' = s.station e') ∧ (s.requestSweep).cfg = s.cfg := by
  simp only [State.requestSweep]
  (repeat' split) <;> simp

@[simp] theorem statusPassOver_keeps (es : List Entry) :
    (s.statusPassOver es).pending = s.pending ∧ (s.statusPassOver es).run = s.run ∧ (s.statusPassOver es).irq = s.irq ∧
    (s.statusPassOver es).line = s.line ∧ (s.statusPassOver es).sched = s.sched ∧ (s.statusPassOver es).tornReads = s.tornReads ∧
    (s.statusPassOver es).journal = s.journal ∧ (s.statusPassOver es).exch = s.exch ∧ (s.statusPassOver es).memory = s.memory ∧
    (s.statusPassOver es).draws = s.draws ∧ (s.statusPassOver es).cfg = s.cfg := by
  induction es generalizing s with
  | nil => simp [State.statusPassOver]
  | cons e es ih =>
    simp only [State.statusPassOver]
    (repeat' split) <;> simp [ih]

@[simp] theorem statusPass_keeps :
    (s.statusPass).pending = s.pending ∧ (s.statusPass).run = s.run ∧ (s.statusPass).irq = s.irq ∧
    (s.statusPass).line = s.line ∧ (s.statusPass).sched = s.sched ∧ (s.statusPass).tornReads = s.tornReads ∧
    (s.statusPass).journal = s.journal ∧ (s.statusPass).exch = s.exch ∧ (s.statusPass).memory = s.memory ∧
    (s.statusPass).draws = s.draws ∧ (s.statusPass).cfg = s.cfg := by simp [State.statusPass]

@[simp] theorem endSweep_keeps :
    (s.endSweep).pending = s.pending ∧ (s.endSweep).run = s.run ∧ (s.endSweep).irq = s.irq ∧
    (s.endSweep).line = s.line ∧ (s.endSweep).sched = s.sched ∧ (s.endSweep).tornReads = s.tornReads ∧
    (s.endSweep).journal = s.journal ∧ (s.endSweep).memory = s.memory ∧ (s.endSweep).draws = s.draws ∧
    (s.endSweep).cfg = s.cfg := by
  simp only [State.endSweep]
  (repeat' split) <;> simp

@[simp] theorem endSweepIfDone_keeps :
    (s.endSweepIfDone).pending = s.pending ∧ (s.endSweepIfDone).run = s.run ∧ (s.endSweepIfDone).irq = s.irq ∧
    (s.endSweepIfDone).line = s.line ∧ (s.endSweepIfDone).sched = s.sched ∧ (s.endSweepIfDone).tornReads = s.tornReads ∧
    (s.endSweepIfDone).journal = s.journal ∧ (s.endSweepIfDone).memory = s.memory ∧ (s.endSweepIfDone).draws = s.draws ∧
    (s.endSweepIfDone).cfg = s.cfg := by
  simp only [State.endSweepIfDone]
  (repeat' split) <;> simp

@[simp] theorem setCause_keeps (c : Cause) :
    (s.setCause c).pending = s.pending ∧ (s.setCause c).run = s.run ∧ (s.setCause c).line = s.line ∧
    (s.setCause c).sched = s.sched ∧ (s.setCause c).stations = s.stations ∧ (s.setCause c).tornReads = s.tornReads ∧
    (s.setCause c).journal = s.journal ∧ (s.setCause c).exch = s.exch ∧ (s.setCause c).port = s.port ∧
    (s.setCause c).memory = s.memory ∧ (s.setCause c).draws = s.draws ∧ (∀ e', (s.setCause c).station e' = s.station e') ∧
    (s.setCause c).cfg = s.cfg := by simp [State.setCause]

@[simp] theorem runChange_keeps (r : RunState) (n : Reason) (d : Byte) :
    (s.runChange r n d).pending = s.pending ∧ (s.runChange r n d).irq = s.irq ∧ (s.runChange r n d).line = s.line ∧
    (s.runChange r n d).sched = s.sched ∧ (s.runChange r n d).stations = s.stations ∧ (s.runChange r n d).tornReads = s.tornReads ∧
    (s.runChange r n d).journal = s.journal ∧ (s.runChange r n d).exch = s.exch ∧ (s.runChange r n d).port = s.port ∧
    (s.runChange r n d).memory = s.memory ∧ (s.runChange r n d).draws = s.draws ∧ (∀ e', (s.runChange r n d).station e' = s.station e') := by simp [State.runChange]

@[simp] theorem reportHostValue_keeps (f : Byte) (e : Option Entry) :
    (s.reportHostValue f e).pending = s.pending ∧ (s.reportHostValue f e).run = s.run ∧ (s.reportHostValue f e).line = s.line ∧
    (s.reportHostValue f e).sched = s.sched ∧ (s.reportHostValue f e).stations = s.stations ∧ (s.reportHostValue f e).tornReads = s.tornReads ∧
    (s.reportHostValue f e).exch = s.exch ∧ (s.reportHostValue f e).port = s.port ∧ (s.reportHostValue f e).memory = s.memory ∧
    (s.reportHostValue f e).draws = s.draws ∧ (∀ e', (s.reportHostValue f e).station e' = s.station e') ∧ (s.reportHostValue f e).cfg = s.cfg := by simp [State.reportHostValue]

@[simp] theorem judgeReleased_keeps (v : Word) :
    (s.judgeReleased v).pending = s.pending ∧ (s.judgeReleased v).run = s.run ∧ (s.judgeReleased v).line = s.line ∧
    (s.judgeReleased v).sched = s.sched ∧ (s.judgeReleased v).stations = s.stations ∧ (s.judgeReleased v).tornReads = s.tornReads ∧
    (s.judgeReleased v).port = s.port ∧ (s.judgeReleased v).memory = s.memory ∧ (s.judgeReleased v).draws = s.draws ∧
    (∀ e', (s.judgeReleased v).station e' = s.station e') ∧ (s.judgeReleased v).cfg = s.cfg := by
  simp only [State.judgeReleased]
  (repeat' split) <;> simp

@[simp] theorem reportSounder_keeps (e : Entry) (v : Half) :
    (s.reportSounder e v).pending = s.pending ∧ (s.reportSounder e v).run = s.run ∧ (s.reportSounder e v).line = s.line ∧
    (s.reportSounder e v).sched = s.sched ∧ (s.reportSounder e v).tornReads = s.tornReads ∧ (s.reportSounder e v).exch = s.exch ∧
    (s.reportSounder e v).port = s.port ∧ (s.reportSounder e v).memory = s.memory ∧ (s.reportSounder e v).draws = s.draws ∧
    (s.reportSounder e v).cfg = s.cfg := by
  simp only [State.reportSounder]
  (repeat' split) <;> simp

@[simp] theorem reportResync_keeps (e : Entry) (v : Half) :
    (s.reportResync e v).pending = s.pending ∧ (s.reportResync e v).run = s.run ∧ (s.reportResync e v).line = s.line ∧
    (s.reportResync e v).sched = s.sched ∧ (s.reportResync e v).tornReads = s.tornReads ∧ (s.reportResync e v).exch = s.exch ∧
    (s.reportResync e v).port = s.port ∧ (s.reportResync e v).memory = s.memory ∧ (s.reportResync e v).draws = s.draws ∧
    (s.reportResync e v).cfg = s.cfg := by
  simp only [State.reportResync]
  (repeat' split) <;> simp

@[simp] theorem disableNow_keeps (e : Entry) :
    (s.disableNow e).pending = s.pending ∧ (s.disableNow e).run = s.run ∧ (s.disableNow e).irq = s.irq ∧
    (s.disableNow e).line = s.line ∧ (s.disableNow e).sched = s.sched ∧ (s.disableNow e).tornReads = s.tornReads ∧
    (s.disableNow e).exch = s.exch ∧ (s.disableNow e).memory = s.memory ∧ (s.disableNow e).draws = s.draws ∧
    (s.disableNow e).cfg = s.cfg := by simp [State.disableNow]

@[simp] theorem takeEnable_keeps (e : Entry) (b : Byte) :
    (s.takeEnable e b).pending = s.pending ∧ (s.takeEnable e b).run = s.run ∧ (s.takeEnable e b).irq = s.irq ∧
    (s.takeEnable e b).line = s.line ∧ (s.takeEnable e b).sched = s.sched ∧ (s.takeEnable e b).tornReads = s.tornReads ∧
    (s.takeEnable e b).exch = s.exch ∧ (s.takeEnable e b).memory = s.memory ∧ (s.takeEnable e b).draws = s.draws ∧
    (s.takeEnable e b).cfg = s.cfg := by
  simp only [State.takeEnable]
  (repeat' split) <;> simp

@[simp] theorem takeRevision_keeps (e : Entry) (v : Half) :
    (s.takeRevision e v).pending = s.pending ∧ (s.takeRevision e v).run = s.run ∧ (s.takeRevision e v).irq = s.irq ∧
    (s.takeRevision e v).line = s.line ∧ (s.takeRevision e v).sched = s.sched ∧ (s.takeRevision e v).tornReads = s.tornReads ∧
    (s.takeRevision e v).journal = s.journal ∧ (s.takeRevision e v).exch = s.exch ∧ (s.takeRevision e v).memory = s.memory ∧
    (s.takeRevision e v).draws = s.draws ∧ (s.takeRevision e v).cfg = s.cfg := by
  simp only [State.takeRevision]
  (repeat' split) <;> simp

@[simp] theorem handOverSounder_keeps (e : Entry) (v : Half) (b : Byte) :
    (s.handOverSounder e v b).pending = s.pending ∧ (s.handOverSounder e v b).run = s.run ∧ (s.handOverSounder e v b).line = s.line ∧
    (s.handOverSounder e v b).sched = s.sched ∧ (s.handOverSounder e v b).tornReads = s.tornReads ∧ (s.handOverSounder e v b).exch = s.exch ∧
    (s.handOverSounder e v b).memory = s.memory ∧ (s.handOverSounder e v b).draws = s.draws ∧ (s.handOverSounder e v b).cfg = s.cfg := by
  simp only [State.handOverSounder]
  (repeat' split) <;> simp

@[simp] theorem takeSounder_keeps (e : Entry) (v : Half) (b : Byte) :
    (s.takeSounder e v b).pending = s.pending ∧ (s.takeSounder e v b).run = s.run ∧ (s.takeSounder e v b).line = s.line ∧
    (s.takeSounder e v b).sched = s.sched ∧ (s.takeSounder e v b).tornReads = s.tornReads ∧ (s.takeSounder e v b).exch = s.exch ∧
    (s.takeSounder e v b).memory = s.memory ∧ (s.takeSounder e v b).draws = s.draws ∧ (s.takeSounder e v b).cfg = s.cfg := by
  simp only [State.takeSounder]
  (repeat' split) <;> simp

@[simp] theorem takeResync_keeps (e : Entry) (v : Half) :
    (s.takeResync e v).pending = s.pending ∧ (s.takeResync e v).run = s.run ∧ (s.takeResync e v).line = s.line ∧
    (s.takeResync e v).sched = s.sched ∧ (s.takeResync e v).tornReads = s.tornReads ∧ (s.takeResync e v).exch = s.exch ∧
    (s.takeResync e v).port = s.port ∧ (s.takeResync e v).memory = s.memory ∧ (s.takeResync e v).draws = s.draws ∧
    (s.takeResync e v).cfg = s.cfg := by
  simp only [State.takeResync]
  (repeat' split) <;> simp

@[simp] theorem takeLivePart_keeps (e : Entry) (l : LivePart) :
    (s.takeLivePart e l).pending = s.pending ∧ (s.takeLivePart e l).run = s.run ∧ (s.takeLivePart e l).line = s.line ∧
    (s.takeLivePart e l).sched = s.sched ∧ (s.takeLivePart e l).tornReads = s.tornReads ∧ (s.takeLivePart e l).exch = s.exch ∧
    (s.takeLivePart e l).memory = s.memory ∧ (s.takeLivePart e l).draws = s.draws ∧ (s.takeLivePart e l).cfg = s.cfg := by simp [State.takeLivePart]

@[simp] theorem takeFetch_keeps (e : Entry) (b : List Byte) :
    (s.takeFetch e b).pending = s.pending ∧ (s.takeFetch e b).run = s.run ∧ (s.takeFetch e b).irq = s.irq ∧
    (s.takeFetch e b).line = s.line ∧ (s.takeFetch e b).sched = s.sched ∧ (s.takeFetch e b).journal = s.journal ∧
    (s.takeFetch e b).exch = s.exch ∧ (s.takeFetch e b).port = s.port ∧ (s.takeFetch e b).memory = s.memory ∧
    (s.takeFetch e b).draws = s.draws ∧ (s.takeFetch e b).cfg = s.cfg := by
  simp only [State.takeFetch]
  split <;> simp [State.cfg]

@[simp] theorem discardFetches_keeps (rs : List Read) :
    (s.discardFetches rs).pending = s.pending ∧ (s.discardFetches rs).run = s.run ∧ (s.discardFetches rs).irq = s.irq ∧
    (s.discardFetches rs).line = s.line ∧ (s.discardFetches rs).sched = s.sched ∧ (s.discardFetches rs).tornReads = s.tornReads ∧
    (s.discardFetches rs).journal = s.journal ∧ (s.discardFetches rs).exch = s.exch ∧ (s.discardFetches rs).port = s.port ∧
    (s.discardFetches rs).memory = s.memory ∧ (s.discardFetches rs).draws = s.draws ∧ (s.discardFetches rs).cfg = s.cfg := by
  induction rs generalizing s with
  | nil => simp [State.discardFetches]
  | cons r rs ih => cases r <;> simp [State.discardFetches, ih]

@[simp] theorem endDrain_keeps :
    (s.endDrain).pending = s.pending ∧ (s.endDrain).run = s.run ∧ (s.endDrain).irq = s.irq ∧
    (s.endDrain).line = s.line ∧ (s.endDrain).sched = s.sched ∧ (s.endDrain).tornReads = s.tornReads ∧
    (s.endDrain).memory = s.memory ∧ (s.endDrain).draws = s.draws ∧ (s.endDrain).cfg = s.cfg := by simp [State.endDrain]

@[simp] theorem expireDrain_keeps :
    (s.expireDrain).pending = s.pending ∧ (s.expireDrain).run = s.run ∧ (s.expireDrain).irq = s.irq ∧
    (s.expireDrain).line = s.line ∧ (s.expireDrain).sched = s.sched ∧ (s.expireDrain).tornReads = s.tornReads ∧
    (s.expireDrain).memory = s.memory ∧ (s.expireDrain).draws = s.draws ∧ (s.expireDrain).cfg = s.cfg := by simp [State.expireDrain]

@[simp] theorem beginDrain_keeps :
    (s.beginDrain).pending = s.pending ∧ (s.beginDrain).run = s.run ∧ (s.beginDrain).irq = s.irq ∧
    (s.beginDrain).line = s.line ∧ (s.beginDrain).sched = s.sched ∧ (s.beginDrain).tornReads = s.tornReads ∧
    (s.beginDrain).memory = s.memory ∧ (s.beginDrain).draws = s.draws ∧ (s.beginDrain).cfg = s.cfg := by
  simp only [State.beginDrain]
  (repeat' split) <;> simp

@[simp] theorem settle_keeps :
    (s.settle).pending = s.pending ∧ (s.settle).run = s.run ∧ (s.settle).irq = s.irq ∧
    (s.settle).sched = s.sched ∧ (s.settle).tornReads = s.tornReads ∧ (s.settle).memory = s.memory ∧
    (s.settle).draws = s.draws ∧ (s.settle).cfg = s.cfg := by
  simp only [State.settle]
  (repeat' split) <;> simp

@[simp] theorem endCycleInStopping_keeps :
    (s.endCycleInStopping).pending = s.pending ∧ (s.endCycleInStopping).run = s.run ∧ (s.endCycleInStopping).irq = s.irq ∧
    (s.endCycleInStopping).line = s.line ∧ (s.endCycleInStopping).stations = s.stations ∧ (s.endCycleInStopping).tornReads = s.tornReads ∧
    (s.endCycleInStopping).journal = s.journal ∧ (s.endCycleInStopping).exch = s.exch ∧ (s.endCycleInStopping).port = s.port ∧
    (s.endCycleInStopping).memory = s.memory ∧ (s.endCycleInStopping).draws = s.draws ∧ (∀ e', (s.endCycleInStopping).station e' = s.station e') ∧
    (s.endCycleInStopping).cfg = s.cfg := by
  simp only [State.endCycleInStopping]
  (repeat' split) <;> simp

@[simp] theorem proceed_keeps :
    (s.proceed).pending = s.pending ∧ (s.proceed).run = s.run ∧ (s.proceed).irq = s.irq ∧
    (s.proceed).tornReads = s.tornReads ∧ (s.proceed).memory = s.memory ∧ (s.proceed).draws = s.draws ∧
    (s.proceed).cfg = s.cfg := by simp [State.proceed]

@[simp] theorem submitDisturbed_keeps (e : Option Entry) :
    (s.submitDisturbed e).pending = s.pending ∧ (s.submitDisturbed e).run = s.run ∧ (s.submitDisturbed e).irq = s.irq ∧
    (s.submitDisturbed e).line = s.line ∧ (s.submitDisturbed e).sched = s.sched ∧ (s.submitDisturbed e).stations = s.stations ∧
    (s.submitDisturbed e).tornReads = s.tornReads ∧ (s.submitDisturbed e).exch = s.exch ∧ (s.submitDisturbed e).port = s.port ∧
    (s.submitDisturbed e).memory = s.memory ∧ (s.submitDisturbed e).draws = s.draws ∧ (∀ e', (s.submitDisturbed e).station e' = s.station e') ∧
    (s.submitDisturbed e).cfg = s.cfg := by simp [State.submitDisturbed]

@[simp] theorem signalJournal_keeps :
    (s.signalJournal).pending = s.pending ∧ (s.signalJournal).run = s.run ∧ (s.signalJournal).line = s.line ∧
    (s.signalJournal).sched = s.sched ∧ (s.signalJournal).stations = s.stations ∧ (s.signalJournal).tornReads = s.tornReads ∧
    (s.signalJournal).exch = s.exch ∧ (s.signalJournal).port = s.port ∧ (s.signalJournal).memory = s.memory ∧
    (s.signalJournal).draws = s.draws ∧ (∀ e', (s.signalJournal).station e' = s.station e') ∧ (s.signalJournal).cfg = s.cfg := by simp [State.signalJournal]

@[simp] theorem coalesce_keeps (n : Half) (u : Bool) :
    (s.coalesce n u).pending = s.pending ∧ (s.coalesce n u).run = s.run ∧ (s.coalesce n u).line = s.line ∧
    (s.coalesce n u).sched = s.sched ∧ (s.coalesce n u).stations = s.stations ∧ (s.coalesce n u).tornReads = s.tornReads ∧
    (s.coalesce n u).exch = s.exch ∧ (s.coalesce n u).port = s.port ∧ (s.coalesce n u).memory = s.memory ∧
    (s.coalesce n u).draws = s.draws ∧ (∀ e', (s.coalesce n u).station e' = s.station e') ∧ (s.coalesce n u).cfg = s.cfg := by
  simp only [State.coalesce]
  (repeat' split) <;> simp

@[simp] theorem announce_keeps (c : Word) (u : Bool) :
    (s.announce c u).pending = s.pending ∧ (s.announce c u).run = s.run ∧ (s.announce c u).line = s.line ∧
    (s.announce c u).sched = s.sched ∧ (s.announce c u).stations = s.stations ∧ (s.announce c u).tornReads = s.tornReads ∧
    (s.announce c u).exch = s.exch ∧ (s.announce c u).port = s.port ∧ (s.announce c u).memory = s.memory ∧
    (s.announce c u).draws = s.draws ∧ (∀ e', (s.announce c u).station e' = s.station e') ∧ (s.announce c u).cfg = s.cfg := by
  simp only [State.announce]
  (repeat' split) <;> simp

@[simp] theorem haltFromStopping_keeps :
    (s.haltFromStopping).pending = s.pending ∧ (s.haltFromStopping).stations = s.stations ∧ (s.haltFromStopping).tornReads = s.tornReads ∧
    (s.haltFromStopping).exch = s.exch ∧ (s.haltFromStopping).port = s.port ∧ (s.haltFromStopping).memory = s.memory ∧
    (s.haltFromStopping).draws = s.draws ∧ (∀ e', (s.haltFromStopping).station e' = s.station e') := by
  simp only [State.haltFromStopping]
  (repeat' split) <;> simp

@[simp] theorem haltFromStarting_keeps (n : Reason) (d : Byte) :
    (s.haltFromStarting n d).pending = s.pending ∧ (s.haltFromStarting n d).line = s.line ∧ (s.haltFromStarting n d).sched = s.sched ∧
    (s.haltFromStarting n d).stations = s.stations ∧ (s.haltFromStarting n d).tornReads = s.tornReads ∧ (s.haltFromStarting n d).journal = s.journal ∧
    (s.haltFromStarting n d).exch = s.exch ∧ (s.haltFromStarting n d).port = s.port ∧ (s.haltFromStarting n d).memory = s.memory ∧
    (s.haltFromStarting n d).draws = s.draws ∧ (∀ e', (s.haltFromStarting n d).station e' = s.station e') := by simp [State.haltFromStarting]

@[simp] theorem haltIfQuiet_keeps :
    (s.haltIfQuiet).pending = s.pending ∧ (s.haltIfQuiet).stations = s.stations ∧ (s.haltIfQuiet).tornReads = s.tornReads ∧
    (s.haltIfQuiet).exch = s.exch ∧ (s.haltIfQuiet).port = s.port ∧ (s.haltIfQuiet).memory = s.memory ∧
    (s.haltIfQuiet).draws = s.draws ∧ (∀ e', (s.haltIfQuiet).station e' = s.station e') := by
  simp only [State.haltIfQuiet]
  (repeat' split) <;> simp

@[simp] theorem cutOffWrite_keeps :
    (s.cutOffWrite).pending = s.pending ∧ (s.cutOffWrite).run = s.run ∧ (s.cutOffWrite).irq = s.irq ∧
    (s.cutOffWrite).line = s.line ∧ (s.cutOffWrite).sched = s.sched ∧ (s.cutOffWrite).stations = s.stations ∧
    (s.cutOffWrite).tornReads = s.tornReads ∧ (s.cutOffWrite).journal = s.journal ∧ (s.cutOffWrite).exch = s.exch ∧
    (s.cutOffWrite).port = s.port ∧ (∀ e', (s.cutOffWrite).station e' = s.station e') ∧ (s.cutOffWrite).cfg = s.cfg := by
  simp only [State.cutOffWrite]
  split <;> simp [State.cfg, State.station]

@[simp] theorem fault_keeps (l : Bool) :
    (s.fault l).pending = s.pending ∧ (s.fault l).stations = s.stations ∧ (s.fault l).tornReads = s.tornReads ∧
    (s.fault l).journal = s.journal ∧ (∀ e', (s.fault l).station e' = s.station e') := by
  simp only [State.fault]
  (repeat' split) <;> simp

@[simp] theorem formRecord_keeps (n : NextRecord) (j : Journal) :
    (s.formRecord n j).pending = s.pending ∧ (s.formRecord n j).run = s.run ∧ (s.formRecord n j).irq = s.irq ∧
    (s.formRecord n j).line = s.line ∧ (s.formRecord n j).sched = s.sched ∧ (s.formRecord n j).stations = s.stations ∧
    (s.formRecord n j).tornReads = s.tornReads ∧ (s.formRecord n j).exch = s.exch ∧ (s.formRecord n j).memory = s.memory ∧
    (s.formRecord n j).draws = s.draws ∧ (∀ e', (s.formRecord n j).station e' = s.station e') ∧ (s.formRecord n j).cfg = s.cfg := by simp [State.formRecord]

@[simp] theorem completeDrain_keeps :
    (s.completeDrain).pending = s.pending ∧ (s.completeDrain).run = s.run ∧ (s.completeDrain).irq = s.irq ∧
    (s.completeDrain).line = s.line ∧ (s.completeDrain).sched = s.sched ∧ (s.completeDrain).tornReads = s.tornReads ∧
    (s.completeDrain).memory = s.memory ∧ (s.completeDrain).draws = s.draws ∧ (s.completeDrain).cfg = s.cfg := by
  simp only [State.completeDrain]
  (repeat' split) <;> simp

@[simp] theorem acceptStart_keeps :
    (s.acceptStart).pending = s.pending ∧ (s.acceptStart).irq = s.irq ∧ (s.acceptStart).line = s.line ∧
    (s.acceptStart).sched = s.sched ∧ (s.acceptStart).stations = s.stations ∧ (s.acceptStart).tornReads = s.tornReads ∧
    (s.acceptStart).journal = s.journal ∧ (s.acceptStart).exch = s.exch ∧ (s.acceptStart).memory = s.memory ∧
    (s.acceptStart).draws = s.draws ∧ (∀ e', (s.acceptStart).station e' = s.station e') := by simp [State.acceptStart]

@[simp] theorem takeStartValues_keeps :
    (s.takeStartValues).pending = s.pending ∧ (s.takeStartValues).memory = s.memory ∧ (s.takeStartValues).draws = s.draws := by simp [State.takeStartValues]

@[simp] theorem requestStatuses_keeps (es : List Entry) :
    (s.requestStatuses es).pending = s.pending ∧ (s.requestStatuses es).run = s.run ∧ (s.requestStatuses es).irq = s.irq ∧
    (s.requestStatuses es).line = s.line ∧ (s.requestStatuses es).sched = s.sched ∧ (s.requestStatuses es).tornReads = s.tornReads ∧
    (s.requestStatuses es).journal = s.journal ∧ (s.requestStatuses es).exch = s.exch ∧ (s.requestStatuses es).memory = s.memory ∧
    (s.requestStatuses es).draws = s.draws ∧ (s.requestStatuses es).cfg = s.cfg := by
  induction es generalizing s with
  | nil => simp [State.requestStatuses]
  | cons e es ih =>
    simp [State.requestStatuses, ih]

@[simp] theorem firstWrites_keeps :
    (s.firstWrites).pending = s.pending ∧ (s.firstWrites).run = s.run ∧ (s.firstWrites).irq = s.irq ∧
    (s.firstWrites).line = s.line ∧ (s.firstWrites).sched = s.sched ∧ (s.firstWrites).tornReads = s.tornReads ∧
    (s.firstWrites).journal = s.journal ∧ (s.firstWrites).exch = s.exch ∧ (s.firstWrites).memory = s.memory ∧
    (s.firstWrites).draws = s.draws ∧ (s.firstWrites).cfg = s.cfg := by simp [State.firstWrites]

@[simp] theorem enterRunning_keeps :
    (s.enterRunning).pending = s.pending ∧ (s.enterRunning).tornReads = s.tornReads ∧ (s.enterRunning).memory = s.memory ∧
    (s.enterRunning).draws = s.draws := by simp [State.enterRunning]

@[simp] theorem initialise_keeps :
    (s.initialise).pending = s.pending ∧ (s.initialise).memory = s.memory ∧ (s.initialise).draws = s.draws := by simp [State.initialise]

@[simp] theorem forgetSweeps_keeps :
    (s.forgetSweeps).pending = s.pending ∧ (s.forgetSweeps).run = s.run ∧ (s.forgetSweeps).irq = s.irq ∧
    (s.forgetSweeps).line = s.line ∧ (s.forgetSweeps).sched = s.sched ∧ (s.forgetSweeps).tornReads = s.tornReads ∧
    (s.forgetSweeps).journal = s.journal ∧ (s.forgetSweeps).port = s.port ∧ (s.forgetSweeps).memory = s.memory ∧
    (s.forgetSweeps).draws = s.draws ∧ (s.forgetSweeps).cfg = s.cfg := by simp [State.forgetSweeps, State.cfg]

@[simp] theorem abandonStart_keeps :
    (s.abandonStart).pending = s.pending ∧ (s.abandonStart).tornReads = s.tornReads ∧ (s.abandonStart).memory = s.memory ∧
    (s.abandonStart).draws = s.draws := by simp [State.abandonStart]

@[simp] theorem checkStart_keeps :
    (s.checkStart).pending = s.pending ∧ (s.checkStart).memory = s.memory ∧ (s.checkStart).draws = s.draws := by
  simp only [State.checkStart]
  (repeat' split) <;> simp

@[simp] theorem takeStartRead_keeps (i : Nat) (b : List Byte) :
    (s.takeStartRead i b).pending = s.pending ∧ (s.takeStartRead i b).memory = s.memory ∧ (s.takeStartRead i b).draws = s.draws := by
  simp only [State.takeStartRead]
  (repeat' split) <;> simp

@[simp] theorem takeStartFetch_keeps (e : Entry) (b : List Byte) :
    (s.takeStartFetch e b).pending = s.pending ∧ (s.takeStartFetch e b).memory = s.memory ∧ (s.takeStartFetch e b).draws = s.draws := by
  simp only [State.takeStartFetch]
  (repeat' split) <;> simp

@[simp] theorem markFetches_keeps :
    (s.markFetches).pending = s.pending ∧ (s.markFetches).run = s.run ∧ (s.markFetches).irq = s.irq ∧
    (s.markFetches).line = s.line ∧ (s.markFetches).sched = s.sched ∧ (s.markFetches).tornReads = s.tornReads ∧
    (s.markFetches).journal = s.journal ∧ (s.markFetches).exch = s.exch ∧ (s.markFetches).port = s.port ∧
    (s.markFetches).memory = s.memory ∧ (s.markFetches).draws = s.draws ∧ (s.markFetches).cfg = s.cfg := by simp [State.markFetches, State.cfg]

@[simp] theorem refuse_keeps :
    (s.refuse).pending = s.pending ∧ (s.refuse).run = s.run ∧ (s.refuse).line = s.line ∧
    (s.refuse).sched = s.sched ∧ (s.refuse).stations = s.stations ∧ (s.refuse).tornReads = s.tornReads ∧
    (s.refuse).journal = s.journal ∧ (s.refuse).exch = s.exch ∧ (s.refuse).port = s.port ∧
    (s.refuse).memory = s.memory ∧ (s.refuse).draws = s.draws ∧ (∀ e', (s.refuse).station e' = s.station e') ∧
    (s.refuse).cfg = s.cfg := by simp [State.refuse]

@[simp] theorem enterStopping_keeps :
    (s.enterStopping).pending = s.pending ∧ (s.enterStopping).tornReads = s.tornReads ∧ (s.enterStopping).memory = s.memory ∧
    (s.enterStopping).draws = s.draws := by
  simp only [State.enterStopping]
  (repeat' split) <;> simp

@[simp] theorem commandStart_keeps :
    (s.commandStart).pending = s.pending ∧ (s.commandStart).line = s.line ∧ (s.commandStart).sched = s.sched ∧
    (s.commandStart).stations = s.stations ∧ (s.commandStart).tornReads = s.tornReads ∧ (s.commandStart).journal = s.journal ∧
    (s.commandStart).exch = s.exch ∧ (s.commandStart).memory = s.memory ∧ (s.commandStart).draws = s.draws ∧
    (∀ e', (s.commandStart).station e' = s.station e') := by
  simp only [State.commandStart]
  (repeat' split) <;> simp

@[simp] theorem commandStop_keeps :
    (s.commandStop).pending = s.pending ∧ (s.commandStop).tornReads = s.tornReads ∧ (s.commandStop).memory = s.memory ∧
    (s.commandStop).draws = s.draws := by
  simp only [State.commandStop]
  (repeat' split) <;> simp

@[simp] theorem commandSweep_keeps :
    (s.commandSweep).pending = s.pending ∧ (s.commandSweep).run = s.run ∧ (s.commandSweep).line = s.line ∧
    (s.commandSweep).sched = s.sched ∧ (s.commandSweep).stations = s.stations ∧ (s.commandSweep).tornReads = s.tornReads ∧
    (s.commandSweep).journal = s.journal ∧ (s.commandSweep).memory = s.memory ∧ (s.commandSweep).draws = s.draws ∧
    (∀ e', (s.commandSweep).station e' = s.station e') ∧ (s.commandSweep).cfg = s.cfg := by
  simp only [State.commandSweep]
  (repeat' split) <;> simp

@[simp] theorem commandClearFault_keeps :
    (s.commandClearFault).pending = s.pending ∧ (s.commandClearFault).line = s.line ∧ (s.commandClearFault).sched = s.sched ∧
    (s.commandClearFault).stations = s.stations ∧ (s.commandClearFault).tornReads = s.tornReads ∧ (s.commandClearFault).journal = s.journal ∧
    (s.commandClearFault).exch = s.exch ∧ (s.commandClearFault).port = s.port ∧ (s.commandClearFault).memory = s.memory ∧
    (s.commandClearFault).draws = s.draws ∧ (∀ e', (s.commandClearFault).station e' = s.station e') := by
  simp only [State.commandClearFault]
  (repeat' split) <;> simp

@[simp] theorem commandWrite_keeps (v : Word) :
    (s.commandWrite v).pending = s.pending ∧ (s.commandWrite v).tornReads = s.tornReads ∧ (s.commandWrite v).memory = s.memory ∧
    (s.commandWrite v).draws = s.draws := by
  simp only [State.commandWrite]
  (repeat' split) <;> simp

@[simp] theorem writeExbaseLo_keeps (v : Word) :
    (s.writeExbaseLo v).pending = s.pending ∧ (s.writeExbaseLo v).line = s.line ∧ (s.writeExbaseLo v).sched = s.sched ∧
    (s.writeExbaseLo v).stations = s.stations ∧ (s.writeExbaseLo v).tornReads = s.tornReads ∧ (s.writeExbaseLo v).journal = s.journal ∧
    (s.writeExbaseLo v).exch = s.exch ∧ (s.writeExbaseLo v).port = s.port ∧ (s.writeExbaseLo v).memory = s.memory ∧
    (s.writeExbaseLo v).draws = s.draws ∧ (∀ e', (s.writeExbaseLo v).station e' = s.station e') := by
  simp only [State.writeExbaseLo]
  (repeat' split) <;> simp

@[simp] theorem writeExbaseHi_keeps (v : Word) :
    (s.writeExbaseHi v).pending = s.pending ∧ (s.writeExbaseHi v).line = s.line ∧ (s.writeExbaseHi v).sched = s.sched ∧
    (s.writeExbaseHi v).stations = s.stations ∧ (s.writeExbaseHi v).tornReads = s.tornReads ∧ (s.writeExbaseHi v).journal = s.journal ∧
    (s.writeExbaseHi v).exch = s.exch ∧ (s.writeExbaseHi v).port = s.port ∧ (s.writeExbaseHi v).memory = s.memory ∧
    (s.writeExbaseHi v).draws = s.draws ∧ (∀ e', (s.writeExbaseHi v).station e' = s.station e') := by
  simp only [State.writeExbaseHi]
  (repeat' split) <;> simp

@[simp] theorem writeRegister_keeps (o : BitVec 6) (v : Word) :
    (s.writeRegister o v).pending = s.pending ∧ (s.writeRegister o v).tornReads = s.tornReads ∧ (s.writeRegister o v).memory = s.memory ∧
    (s.writeRegister o v).draws = s.draws := by
  simp only [State.writeRegister]
  (repeat' split) <;> simp

@[simp] theorem windowWrite_keeps (o : BitVec 6) (l : BitVec 4) (v : Word) :
    (s.windowWrite o l v).pending = s.pending ∧ (s.windowWrite o l v).tornReads = s.tornReads ∧ (s.windowWrite o l v).memory = s.memory ∧
    (s.windowWrite o l v).draws = s.draws := by
  simp only [State.windowWrite]
  (repeat' split) <;> simp

@[simp] theorem drawGap_keeps (n : Option Ending) :
    (s.drawGap n).pending = s.pending ∧ (s.drawGap n).run = s.run ∧ (s.drawGap n).irq = s.irq ∧
    (s.drawGap n).line = s.line ∧ (s.drawGap n).sched = s.sched ∧ (s.drawGap n).stations = s.stations ∧
    (s.drawGap n).tornReads = s.tornReads ∧ (s.drawGap n).journal = s.journal ∧ (s.drawGap n).exch = s.exch ∧
    (s.drawGap n).port = s.port ∧ (s.drawGap n).memory = s.memory ∧ (∀ e', (s.drawGap n).station e' = s.station e') ∧
    (s.drawGap n).cfg = s.cfg := by
  simp only [State.drawGap]
  split <;> simp [State.cfg, State.station]

@[simp] theorem afterEnding_keeps (r : Option SendRequest) (n : Option Ending) :
    (s.afterEnding r n).pending = s.pending ∧ (s.afterEnding r n).tornReads = s.tornReads ∧ (s.afterEnding r n).memory = s.memory ∧
    (s.afterEnding r n).draws = s.draws := by
  simp only [State.afterEnding]
  (repeat' split) <;> simp

@[simp] theorem receive_keeps (c : RxChar) :
    (s.receive c).pending = s.pending ∧ (s.receive c).tornReads = s.tornReads ∧ (s.receive c).memory = s.memory := by simp [State.receive]

@[simp] theorem takeReleased_keeps (v : Word) :
    (s.takeReleased v).pending = s.pending ∧ (s.takeReleased v).run = s.run ∧ (s.takeReleased v).line = s.line ∧
    (s.takeReleased v).sched = s.sched ∧ (s.takeReleased v).tornReads = s.tornReads ∧ (s.takeReleased v).memory = s.memory ∧
    (s.takeReleased v).draws = s.draws ∧ (s.takeReleased v).cfg = s.cfg := by
  simp only [State.takeReleased]
  (repeat' split) <;> simp

@[simp] theorem takeLive_keeps (e : Entry) (b : List Byte) :
    (s.takeLive e b).pending = s.pending ∧ (s.takeLive e b).run = s.run ∧ (s.takeLive e b).line = s.line ∧
    (s.takeLive e b).sched = s.sched ∧ (s.takeLive e b).tornReads = s.tornReads ∧ (s.takeLive e b).memory = s.memory ∧
    (s.takeLive e b).draws = s.draws ∧ (s.takeLive e b).cfg = s.cfg := by
  simp only [State.takeLive]
  (repeat' split) <;> simp

end Sys2Proof.Machine
end

