-- ==== Sys2Proof/Laws/Memory.lean ====
section
/-! SUPPORT. What the memory operations do to a read of one byte, and that each keeps the canonical form. -/

namespace Sys2Proof.Machine

/-! ### One byte -/

theorem memoryRead_put (m : List Host.Cell) (a x : Nat) (b : Byte) :
    memoryRead (memoryPut a b m) x = if x = a then some b else memoryRead m x := by
  induction m with
  | nil => by_cases h : x = a <;> simp [memoryRead, memoryPut, List.lookup, h, beq_false_of_ne]
  | cons c rest ih =>
    obtain ⟨k, v⟩ := c
    simp only [memoryRead, memoryPut] at ih ⊢
    split
    · by_cases h : x = a <;> simp [List.lookup, h, beq_false_of_ne]
    · split
      · next h => subst h; by_cases h : x = a <;> simp [List.lookup, h, beq_false_of_ne]
      · next hlt hne =>
        by_cases hk : x = k
        · subst hk; simp [List.lookup, Ne.symm hne]
        · have : (x == k) = false := by simpa using hk
          simp only [List.lookup, this]; exact ih

/-- A write leaves every byte outside its range, and puts each of its bytes. -/
theorem memoryRead_write (bytes : List Byte) : ∀ (m : List Host.Cell) (a x : Nat),
    memoryRead (memoryWrite a bytes m) x =
      if h : a ≤ x ∧ x < a + bytes.length then some (bytes[x - a]'(by omega)) else memoryRead m x := by
  induction bytes with
  | nil => intro m a x; rw [dif_neg (by simp only [List.length_nil]; omega)]; rfl
  | cons b rest ih =>
    intro m a x
    simp only [memoryWrite, ih, memoryRead_put, List.length_cons]
    by_cases hx : x = a
    · subst hx
      have h1 : ¬(x + 1 ≤ x ∧ x < x + 1 + rest.length) := by omega
      have h2 : x ≤ x ∧ x < x + (rest.length + 1) := by omega
      rw [dif_neg h1, if_pos rfl, dif_pos h2]; simp only [Nat.sub_self, List.getElem_cons_zero]
    · by_cases h1 : a + 1 ≤ x ∧ x < a + 1 + rest.length
      · have h2 : a ≤ x ∧ x < a + (rest.length + 1) := by omega
        have h3 : x - a = (x - (a + 1)) + 1 := by omega
        rw [dif_pos h1, dif_pos h2]; simp only [h3, List.getElem_cons_succ]
      · have h2 : ¬(a ≤ x ∧ x < a + (rest.length + 1)) := by omega
        rw [dif_neg h1, if_neg hx, dif_neg h2]

/-- A write cut off leaves every byte outside its range. -/
theorem memoryRead_writeSome (reached : Nat → Bool) (a x : Nat) (bytes : List Byte) :
    ∀ (i : Nat) (m : List Host.Cell), x < a + i ∨ a + i + bytes.length ≤ x →
      memoryRead (memoryWriteSome reached a bytes i m) x = memoryRead m x := by
  induction bytes with
  | nil => intro i m _; rfl
  | cons b rest ih =>
    intro i m h
    simp only [List.length_cons] at h
    simp only [memoryWriteSome]
    rw [ih (i + 1) _ (by omega)]
    split
    · rw [memoryRead_put, if_neg (by omega)]
    · rfl

theorem cutOffWrite_read (s : State) (x : Nat)
    (h : ∀ w a bytes, s.port.inFlight = some (.write w a bytes) → x < a ∨ a + bytes.length ≤ x) :
    memoryRead s.cutOffWrite.memory x = memoryRead s.memory x := by
  simp only [State.cutOffWrite]
  split
  · next w a bytes heq => exact memoryRead_writeSome _ _ _ _ _ _ (by simpa using h w a bytes heq)
  · rfl

/-! ### The canonical form -/

theorem memoryPut_keys (a : Nat) (b : Byte) (m : List Host.Cell) :
    ∀ c ∈ memoryPut a b m, c.1 = a ∨ ∃ c' ∈ m, c'.1 = c.1 := by
  induction m with
  | nil => simp [memoryPut]
  | cons c rest ih =>
    intro d hd
    simp only [memoryPut] at hd
    split at hd
    · rcases List.mem_cons.1 hd with rfl | h
      · exact .inl rfl
      · exact .inr ⟨d, h, rfl⟩
    · split at hd
      · rcases List.mem_cons.1 hd with rfl | h
        · exact .inl rfl
        · exact .inr ⟨d, List.mem_cons_of_mem _ h, rfl⟩
      · rcases List.mem_cons.1 hd with rfl | h
        · exact .inr ⟨_, List.mem_cons_self, rfl⟩
        · rcases ih d h with h | ⟨c', h, h'⟩
          · exact .inl h
          · exact .inr ⟨c', List.mem_cons_of_mem _ h, h'⟩

theorem memoryPut_wf (a : Nat) (b : Byte) (m : List Host.Cell) (h : MemoryWf m) : MemoryWf (memoryPut a b m) := by
  induction m with
  | nil => simp [MemoryWf, memoryPut]
  | cons c rest ih =>
    obtain ⟨k, v⟩ := c
    have hr : MemoryWf rest := (List.pairwise_cons.1 h).2
    have hk : ∀ d ∈ rest, k < d.1 := (List.pairwise_cons.1 h).1
    simp only [memoryPut]
    split
    · next hlt =>
      refine List.pairwise_cons.2 ⟨fun d hd => ?_, h⟩
      rcases List.mem_cons.1 hd with rfl | hd
      · exact hlt
      · exact Nat.lt_trans hlt (hk d hd)
    · split
      · next heq => subst heq; exact List.pairwise_cons.2 ⟨hk, hr⟩
      · next h1 h2 =>
        refine List.pairwise_cons.2 ⟨fun d hd => ?_, ih hr⟩
        rcases memoryPut_keys a b rest d hd with h | ⟨c', hc, h⟩
        · show k < d.1; omega
        · have := hk c' hc; show k < d.1; omega

theorem memoryWrite_wf (bytes : List Byte) : ∀ (a : Nat) (m : List Host.Cell), MemoryWf m →
    MemoryWf (memoryWrite a bytes m) := by
  induction bytes with
  | nil => intro a m h; exact h
  | cons b rest ih => intro a m h; exact ih _ _ (memoryPut_wf _ _ _ h)

theorem memoryWriteSome_wf (reached : Nat → Bool) (a : Nat) (bytes : List Byte) : ∀ (i : Nat) (m : List Host.Cell),
    MemoryWf m → MemoryWf (memoryWriteSome reached a bytes i m) := by
  induction bytes with
  | nil => intro i m h; exact h
  | cons b rest ih =>
    intro i m h
    simp only [memoryWriteSome]
    split
    · exact ih _ _ (memoryPut_wf _ _ _ h)
    · exact ih _ _ h

theorem cutOffWrite_wf (s : State) (h : MemoryWf s.memory) : MemoryWf s.cutOffWrite.memory := by
  simp only [State.cutOffWrite]
  split
  · exact memoryWriteSome_wf _ _ _ _ _ h
  · exact h

theorem endWrite_wf (s : State) (a : Nat) (bytes : List Byte) (h : MemoryWf s.memory) :
    MemoryWf (s.endWrite a bytes).memory := by
  simp only [State.endWrite, onPort_memory]; exact memoryWrite_wf _ _ _ h

theorem endWrite_read (s : State) (a x : Nat) (bytes : List Byte) :
    memoryRead (s.endWrite a bytes).memory x =
      if h : a ≤ x ∧ x < a + bytes.length then some (bytes[x - a]'(by omega)) else memoryRead s.memory x := by
  simp only [State.endWrite, onPort_memory]; exact memoryRead_write bytes s.memory a x

end Sys2Proof.Machine
end

