-- ==== Sys2Proof/Laws/Run.lean ====
section
/-! SUPPORT. What each operation does to Run Control, and to CAUSE and MASK: the exchange area base is kept by every one
of them, the panel clock by every one but the start values, and a cause, once set, stays. -/

namespace Sys2Proof.Machine

variable (s : State)

/-- Run Control's items that no operation of a run changes. -/
abbrev RunControl.SameBase (c d : RunControl) : Prop :=
  d.exbaseLo = c.exbaseLo ∧ d.exbaseHi = c.exbaseHi ∧ d.resetAsserted = c.resetAsserted

@[simp] theorem runChange_run (r : RunState) (n : Reason) (d : Byte) :
    (s.runChange r n d).run = { s.run with state := r, reason := n, detail := d } := rfl

@[simp] theorem haltFromStopping_run :
    s.haltFromStopping.run = { s.run with state := .halted, reason := .none, detail := 0#8 } := by
  simp only [State.haltFromStopping]; split <;> simp

@[simp] theorem haltFromStarting_run (n : Reason) (d : Byte) :
    (s.haltFromStarting n d).run =
      { s.run with state := .halted, reason := n, detail := d, startImage := ⟨[], []⟩, startAbandoned := false } := rfl

theorem haltIfQuiet_run :
    s.haltIfQuiet.run = s.run ∨
    (s.run.state = .stopping ∧ s.journal.drain = .ended ∧ s.port.quiet = true ∧
      s.haltIfQuiet.run = { s.run with state := .halted, reason := .none, detail := 0#8 }) ∨
    (s.run.state = .starting ∧ s.run.startAbandoned = true ∧ s.port.inFlight = none ∧
      s.haltIfQuiet.run =
        { s.run with state := .halted, reason := .none, detail := 0#8, startImage := ⟨[], []⟩, startAbandoned := false }) := by
  simp only [State.haltIfQuiet]
  split
  · next h => exact .inr (.inl ⟨h.1, h.2.1, h.2.2, by simp⟩)
  · split
    · next h => exact .inr (.inr ⟨h.1, h.2.1, h.2.2, by simp⟩)
    · exact .inl rfl

/-- Outside STOPPING and an abandoned start nothing follows. -/
theorem haltIfQuiet_running (h : s.run.state = .running) : s.haltIfQuiet = s := by
  simp [State.haltIfQuiet, h]

/-- In STOPPING, before the end of the drain, nothing follows. -/
theorem haltIfQuiet_draining (h : s.run.state = .stopping) (hd : s.journal.drain ≠ .ended) : s.haltIfQuiet = s := by
  simp [State.haltIfQuiet, h, hd]

theorem fault_run (late : Bool) :
    (s.fault late).run = s.run ∨ (s.port.inFlight.isSome = true ∧ (s.fault late).run =
      { s.run with state := .faulted, reason := .none, detail := 0#8, multiple := false, startAbandoned := false }) := by
  simp only [State.fault]
  split
  · exact .inl rfl
  · next h => exact .inr ⟨by simp [h], by simp⟩

@[simp] theorem acceptStart_run :
    s.acceptStart.run =
      { s.run with
        state := .starting, reason := .none, detail := 0#8, startImage := ⟨[], []⟩, startAbandoned := false } := by
  simp [State.acceptStart]

@[simp] theorem takeStartValues_run :
    s.takeStartValues.run =
      { s.run with clock := 0#32, startImage := ⟨[], []⟩, settings := some s.run.startImage.settings } := rfl

@[simp] theorem enterRunning_run :
    s.enterRunning.run = { s.run with state := .running, reason := .none, detail := 0#8 } := by
  simp [State.enterRunning]

@[simp] theorem initialise_run :
    s.initialise.run =
      { s.run with
        state := .running, reason := .none, detail := 0#8, clock := 0#32, startImage := ⟨[], []⟩
        settings := some s.run.startImage.settings } := by
  simp [State.initialise]

/-- The base and the reset line's hold survive the end of a start. -/
theorem checkStart_base : s.run.SameBase s.checkStart.run := by
  simp only [State.checkStart]; (repeat' split) <;> simp [RunControl.SameBase]

theorem takeStartRead_base (i : Nat) (b : List Byte) : s.run.SameBase (s.takeStartRead i b).run := by
  simp only [State.takeStartRead, State.checkStart]; (repeat' split) <;> simp [RunControl.SameBase]

theorem takeStartFetch_base (e : Entry) (b : List Byte) : s.run.SameBase (s.takeStartFetch e b).run := by
  simp only [State.takeStartFetch]; split <;> simp [RunControl.SameBase]

theorem haltIfQuiet_base : s.run.SameBase s.haltIfQuiet.run := by
  rcases haltIfQuiet_run s with h | ⟨_, _, _, h⟩ | ⟨_, _, _, h⟩ <;> simp [RunControl.SameBase, h]

theorem fault_base (late : Bool) : s.run.SameBase (s.fault late).run := by
  rcases fault_run s late with h | ⟨_, h⟩ <;> simp [RunControl.SameBase, h]

/-- Every operation that may halt keeps the panel clock. -/
theorem haltIfQuiet_clock : s.haltIfQuiet.run.clock = s.run.clock := by
  rcases haltIfQuiet_run s with h | ⟨_, _, _, h⟩ | ⟨_, _, _, h⟩ <;> simp [h]

theorem fault_clock (late : Bool) : (s.fault late).run.clock = s.run.clock := by
  rcases fault_run s late with h | ⟨_, h⟩ <;> simp [h]

/-! ### Causes -/

/-- Every cause set in one value is set in another. -/
abbrev CauseKept (a b : BitVec 5) : Prop := a &&& b = a

theorem CauseKept.refl (a : BitVec 5) : CauseKept a a := by simp [CauseKept]

theorem CauseKept.or (a b : BitVec 5) : CauseKept a (a ||| b) := by
  apply BitVec.eq_of_getLsbD_eq; intro i hi; simp; cases a.getLsbD i <;> simp

theorem CauseKept.trans {a b c : BitVec 5} (h : CauseKept a b) (k : CauseKept b c) : CauseKept a c := by
  have : a &&& c = a := by
    rw [← h, BitVec.and_assoc, k]
  exact this

@[simp] theorem setCause_irq (c : Cause) : (s.setCause c).irq = s.irq.set c := rfl

@[simp] theorem set_cause (c : Cause) (i : Interrupt) : (i.set c).cause = i.cause ||| c.bit := rfl

@[simp] theorem set_mask (c : Cause) (i : Interrupt) : (i.set c).mask = i.mask := rfl

@[simp] theorem set_holdOff (c : Cause) (i : Interrupt) : (i.set c).holdOff = i.holdOff := rfl

end Sys2Proof.Machine
end

