-- ==== Sys2Proof/Laws/Schedule.lean ====
section
/-! SUPPORT. What the Poll Scheduler does after an outcome: the cases in which it does nothing more, a try made again
or the visit ended, events submitted at work, and what it leaves of a line that is not IDLE. -/

namespace Sys2Proof.Machine

variable (s : State)

theorem settle_running (h : s.run.state = .running) : s.settle = s := by simp [State.settle, h]

theorem endCycleInStopping_running (h : s.run.state = .running) : s.endCycleInStopping = s := by
  simp [State.endCycleInStopping, h]

theorem proceed_running (h : s.run.state = .running) : s.proceed = s.schedule := by
  have h' : s.schedule.run.state = .running := by simp [h]
  rw [State.proceed, endCycleInStopping_running _ h', settle_running _ h']

theorem schedule_stopping (h : s.run.state ≠ .running) : s.schedule = s := by simp [State.schedule, h]

/-- While a visit is in progress the scheduler waits. -/
theorem schedule_visit (h : s.sched.visit.isSome = true) : s.schedule = s := by
  cases hv : s.sched.visit <;> simp_all [State.schedule]

/-- While the send place is occupied the scheduler waits. -/
theorem schedule_occupied (h : s.line.sendPlace.isSome = true) : s.schedule = s := by
  cases hv : s.line.sendPlace <;> simp_all [State.schedule]

theorem exchangeEnded_serves (r : SendRequest) (e : Entry) (h : r.serves = some e) (how : Ending) :
    s.exchangeEnded (some r) how = s.deliver (how.outcome (s.judgedAgainst e r.expected)) := by
  obtain ⟨a, b, c, d⟩ := r
  simp only at h; subst h; rfl

@[simp] theorem countOutcome_disablePending (o : TryOutcome) (l : Link) :
    (l.countOutcome o).disablePending = l.disablePending := by
  simp only [Link.countOutcome]; split <;> rfl

/-- Another try: the outcome is counted, the same request is made, and one more try is counted. -/
theorem deliver_retry (v : Visit) (o : TryOutcome) (hv : s.sched.visit = some v) (ho : o.result = none)
    (hr : s.run.state = .running) (ht : v.tries < 1 + s.cfg.retryLimit)
    (hd : (s.station v.entry).link.disablePending = false) :
    s.deliver o =
      { s.onLink v.entry (·.countOutcome o) with
        line := s.line.takeRequest s.run.clock v.request
        sched := { s.sched with visit := some { v with tries := v.tries + 1 } } } := by
  have hp : (s.onLink v.entry (·.countOutcome o)).permitsRetry v = true := by
    simp [State.permitsRetry, ht, hr, hd]
  simp only [State.deliver, hv, ho, hp, if_true]; rfl

/-- No other try: the outcome is counted, and the visit ends as Visit MISS (R49). -/
theorem deliver_miss (v : Visit) (o : TryOutcome) (hv : s.sched.visit = some v) (ho : o.result = none)
    (hl : 1 + s.cfg.retryLimit ≤ v.tries ∨ s.run.state ≠ .running ∨ (s.station v.entry).link.disablePending = true) :
    s.deliver o = (s.onLink v.entry (·.countOutcome o)).endVisit v.entry .miss := by
  have hp : (s.onLink v.entry (·.countOutcome o)).permitsRetry v = false := by
    rcases hl with h | h | h
    · have n : ¬v.tries < 1 + s.cfg.retryLimit := Nat.not_lt.2 h
      simp [State.permitsRetry, n]
    all_goals simp [State.permitsRetry, h]
  simp only [State.deliver, hv, ho, hp, Bool.false_eq_true, if_false]

/-- The end of a visit by an outcome: it is counted, and the visit ends with its result. -/
theorem deliver_result (v : Visit) (o : TryOutcome) (r : VisitResult) (hv : s.sched.visit = some v)
    (ho : o.result = some r) : s.deliver o = (s.onLink v.entry (·.countOutcome o)).endVisit v.entry r := by
  simp only [State.deliver, hv, ho]

/-! ### Events -/

/-- Events submitted at work change the Journal Unit alone, one after another. -/
theorem submitAll_works (events : List Event) : ∀ s : State, s.works = true →
    s.submitAll events = { s with journal := events.foldl (fun j e => j.submit e) s.journal } := by
  induction events with
  | nil => intro s _; rfl
  | cons e rest ih =>
    intro s h
    have one : s.submit e = { s with journal := s.journal.submit e } := by
      have h' : s.run.state.works = true := h
      rw [State.submit, if_pos h']; rfl
    show (s.submit e).submitAll rest = _
    rw [ih _ (by rw [one]; exact h), one]; rfl

/-! ### The line -/

/-- A line that is not IDLE keeps everything but its send place and busy timer. -/
abbrev Line.KeptBut (l l' : Line) : Prop := l' = { l with sendPlace := l'.sendPlace, busy := l'.busy }

theorem takeRequest_waits (l : Line) (now : Word) (r : SendRequest) (h : l.state ≠ .idle) :
    l.takeRequest now r = { l with sendPlace := some r, busy := some ⟨now, .ms Config.busyLimitMs⟩ } := by
  simp [Line.takeRequest, h]

theorem Line.KeptBut.state {l l' : Line} (h : l.KeptBut l') : l'.state = l.state := by rw [h]

section principle
variable {P : Line → Prop} (hP : ∀ (l : Line) (now : Word) (r : SendRequest), l.state ≠ .disturbed → P l →
  P (l.takeRequest now r))

include hP

/-! What holds of the line and of every request taken on a line that is not DISTURBED holds after the scheduler. -/

theorem beginVisit_line (e : Entry) (h : P s.line) : P (s.beginVisit e).line := by
  simp only [State.beginVisit]
  split
  · simpa using h
  · next hr =>
    refine hP _ _ _ (fun hc => hr ?_) h
    simp only [State.refuses]; simpa using hc

theorem walkOver_line (es : List Entry) : ∀ s : State, P s.line → P (s.walkOver es).line := by
  induction es with
  | nil => intro s h; exact h
  | cons e rest ih =>
    intro s h
    simp only [State.walkOver]
    split
    · split
      · exact ih _ h
      · have hb : P ((s.onLink e (·.testHold s.run.clock)).beginVisit e).line := beginVisit_line _ hP e h
        split
        · exact hb
        · exact ih _ hb
    · exact ih s h

theorem sendDueMark_line (h : P s.line) : P s.sendDueMark.line := by
  simp only [State.sendDueMark]
  split
  · split
    · exact h
    · next hr => exact hP _ _ _ (fun hc => hr (by simpa [State.refuses] using hc)) h
  · exact h

theorem continueCycle_line (h : P s.line) : P s.continueCycle.line := by
  have hw : P (if s.sched.cycleInProgress then s.walk else s).line := by
    split
    · exact walkOver_line hP _ s h
    · exact h
  simp only [State.continueCycle]
  generalize (if s.sched.cycleInProgress then s.walk else s) = w at hw ⊢
  split
  · exact walkOver_line hP _ _ (by simpa using hw)
  · exact hw

theorem schedule_line (h : P s.line) : P s.schedule.line := by
  simp only [State.schedule]
  split
  · have hm := sendDueMark_line s hP h
    split
    · exact hm
    · exact continueCycle_line _ hP hm
  · exact h

end principle

/-! ### The stations -/

theorem requestStatus_station (e e' : Entry) :
    (s.requestStatus e).station e' =
      if e = e' then { s.station e with link := { (s.station e).link with countersChanged := false } }
      else s.station e' := by
  simp only [State.requestStatus, (startTransaction_keeps _).2.2.2.2.2.2.2.2.2.2.2.1, onLink_station, onPort_station]

section stations
variable {P : Entry → Station → Prop}
  (hMarks : ∀ e st, P e st →
    P e { st with link := { st.link with countersChanged := false } } ∧
    P e { st with link := { st.link with statusChanged := false } })

include hMarks

/-! What holds of every station, and survives what the scheduler does to one station, holds after the scheduler. -/

theorem requestStatus_stations (e : Entry) (h : ∀ e', P e' (s.station e')) : ∀ e', P e' ((s.requestStatus e).station e') := by
  intro e'
  rw [requestStatus_station]
  split
  · next he => subst he; exact (hMarks _ _ (h e)).1
  · exact h e'

theorem report_stations (e : Entry) (bodies : List EventBody) (h : ∀ e', P e' (s.station e')) :
    ∀ e', P e' ((s.report e bodies).station e') := by
  intro e'
  simp only [State.report, (submitBodies_keeps _ _ _).2.2.2.2.2.2.2.2.2.2.2.1]
  split
  · rw [onLink_station]
    have hr := requestStatus_stations s hMarks e h
    split
    · next he => subst he; exact (hMarks _ _ (hr e)).2
    · exact hr e'
  · exact h e'

theorem endVisit_stations (e : Entry) (result : VisitResult)
    (hEnd : P e (s.station e) → P e ((s.station e).endVisit s.cfg s.run.clock result).1)
    (h : ∀ e', P e' (s.station e')) : ∀ e', P e' ((s.endVisit e result).station e') := by
  refine report_stations _ hMarks e _ (fun e' => ?_)
  rw [onSched_station, onStation_station]
  split
  · next he => subst he; exact hEnd (h e)
  · exact h e'

variable (hTest : ∀ e st now, P e st → P e { st with link := st.link.testHold now })
  (hBegin : ∀ e st, P e st → P e st.beginVisit)
  (hLine : ∀ e st settings now, P e st → P e (Station.endVisit settings now .line st).1)

include hBegin hLine

theorem beginVisit_stations (e : Entry) (h : ∀ e', P e' (s.station e')) : ∀ e', P e' ((s.beginVisit e).station e') := by
  have hb : ∀ e', P e' ((s.onStation e (·.beginVisit)).station e') := by
    intro e'
    rw [onStation_station]
    split
    · next he => subst he; exact hBegin _ _ (h e)
    · exact h e'
  simp only [State.beginVisit]
  split
  · exact endVisit_stations _ hMarks e _ (hLine _ _ _ _) hb
  · intro e'; simpa using hb e'

include hTest

theorem walkOver_stations (es : List Entry) : ∀ s : State, (∀ e', P e' (s.station e')) →
    ∀ e', P e' ((s.walkOver es).station e') := by
  induction es with
  | nil => intro s h; exact h
  | cons e rest ih =>
    intro s h
    have ht : ∀ e', P e' ((s.onLink e (·.testHold s.run.clock)).station e') := by
      intro e'
      rw [onLink_station]
      split
      · next he => subst he; exact hTest _ _ _ (h e)
      · exact h e'
    have hb := beginVisit_stations _ hMarks hBegin hLine e ht
    simp only [State.walkOver]
    split
    · split
      · exact ih _ ht
      · split
        · exact hb
        · exact ih _ hb
    · exact ih s h

theorem continueCycle_stations (h : ∀ e', P e' (s.station e')) : ∀ e', P e' (s.continueCycle.station e') := by
  have hw : ∀ e', P e' ((if s.sched.cycleInProgress then s.walk else s).station e') := by
    split
    · exact walkOver_stations hMarks hTest hBegin hLine _ s h
    · exact h
  simp only [State.continueCycle]
  generalize (if s.sched.cycleInProgress then s.walk else s) = w at hw ⊢
  split
  · exact walkOver_stations hMarks hTest hBegin hLine _ _ (by simpa using hw)
  · exact hw

theorem schedule_stations (h : ∀ e', P e' (s.station e')) : ∀ e', P e' (s.schedule.station e') := by
  simp only [State.schedule]
  split
  · split
    · simpa using h
    · exact continueCycle_stations _ hMarks hTest hBegin hLine (by simpa using h)
  · exact h

end stations

/-! ### The journal and the Memory Port -/

section journalAndPort
variable {P : State → Prop}
  (hSame : ∀ s t : State, t.port = s.port → t.journal = s.journal → t.run = s.run → P s → P t)
  (hSubmit : ∀ (s : State) (e : Event), P s → P (s.submit e))

include hSubmit

theorem submitAll_preserves (events : List Event) : ∀ s : State, P s → P (s.submitAll events) := by
  induction events with
  | nil => intro s h; exact h
  | cons e rest ih => intro s h; exact ih _ (hSubmit s e h)

theorem submitBodies_preserves (e : Entry) (bodies : List EventBody) (h : P s) : P (s.submitBodies e bodies) :=
  submitAll_preserves hSubmit _ s h

variable (hStatus : ∀ (s : State) (e : Entry), P s → P (s.requestStatus e))

include hSame hStatus

/-! What depends on the journal, the Memory Port and Run Control alone, and survives a submission and a STATUS request,
holds after the scheduler. -/

theorem report_preserves (e : Entry) (bodies : List EventBody) (h : P s) : P (s.report e bodies) := by
  simp only [State.report]
  refine submitBodies_preserves _ hSubmit e bodies ?_
  split
  · exact hSame (s.requestStatus e) _ rfl rfl rfl (hStatus s e h)
  · exact h

theorem endVisit_preserves (e : Entry) (result : VisitResult) (h : P s) : P (s.endVisit e result) :=
  report_preserves _ hSame hSubmit hStatus e _ (hSame s _ rfl rfl rfl h)

theorem beginVisit_preserves (e : Entry) (h : P s) : P (s.beginVisit e) := by
  simp only [State.beginVisit]
  split
  · exact endVisit_preserves _ hSame hSubmit hStatus e _ (hSame s _ rfl rfl rfl h)
  · exact hSame s _ (by simp) (by simp) (by simp) h

theorem walkOver_preserves (es : List Entry) : ∀ s : State, P s → P (s.walkOver es) := by
  induction es with
  | nil => intro s h; exact hSame s _ rfl rfl rfl h
  | cons e rest ih =>
    intro s h
    simp only [State.walkOver]
    split
    · split
      · exact ih _ (hSame s _ rfl rfl rfl h)
      · have hb := beginVisit_preserves (s.onLink e (·.testHold s.run.clock)) hSame hSubmit hStatus e
          (hSame s _ rfl rfl rfl h)
        split
        · exact hb
        · exact ih _ hb
    · exact ih s h

theorem continueCycle_preserves (h : P s) : P s.continueCycle := by
  have hw : P (if s.sched.cycleInProgress then s.walk else s) := by
    split
    · exact walkOver_preserves hSame hSubmit hStatus _ s h
    · exact h
  simp only [State.continueCycle]
  generalize (if s.sched.cycleInProgress then s.walk else s) = w at hw ⊢
  split
  · exact walkOver_preserves hSame hSubmit hStatus _ _ (hSame w _ rfl rfl rfl hw)
  · exact hw

theorem schedule_preserves (h : P s) : P s.schedule := by
  have hm : P s.sendDueMark := hSame s _ (by simp) (by simp) (by simp) h
  simp only [State.schedule]
  split
  · split
    · exact hm
    · exact continueCycle_preserves _ hSame hSubmit hStatus hm
  · exact h

theorem deliver_preserves (o : TryOutcome) (h : P s) : P (s.deliver o) := by
  simp only [State.deliver]
  (repeat' split)
  · exact h
  · exact endVisit_preserves _ hSame hSubmit hStatus _ _ (hSame s _ rfl rfl rfl h)
  · exact hSame s _ (by simp) (by simp) (by simp) h
  · exact endVisit_preserves _ hSame hSubmit hStatus _ _ (hSame s _ rfl rfl rfl h)

theorem exchangeEnded_preserves (request : Option SendRequest) (how : Ending) (h : P s) :
    P (s.exchangeEnded request how) := by
  simp only [State.exchangeEnded]
  split
  · exact deliver_preserves _ hSame hSubmit hStatus _ h
  · exact h

end journalAndPort

/-- The scheduler leaves a line that is not IDLE as it is, but for a request that waits. -/
theorem schedule_kept (h : s.line.state ≠ .idle) : s.line.KeptBut s.schedule.line := by
  refine (schedule_line s (P := fun l => s.line.KeptBut l) (fun l now r _ hl => ?_) (by simp [Line.KeptBut]))
  rw [takeRequest_waits l now r (by rw [hl.state]; exact h)]
  unfold Line.KeptBut at *; rw [hl]

/-- The scheduler makes no request on a DISTURBED line. -/
theorem schedule_disturbed (h : s.line.state = .disturbed) : s.schedule.line = s.line := by
  refine schedule_line s (P := fun l => l = s.line) (fun l now r hd hl => ?_) rfl
  subst hl; exact absurd h hd

theorem deliver_kept (o : TryOutcome) (h : s.line.state ≠ .idle) : s.line.KeptBut (s.deliver o).line := by
  simp only [State.deliver]
  (repeat' split)
  · simp [Line.KeptBut]
  · simp [Line.KeptBut]
  · simp [State.makeRequest, takeRequest_waits _ _ _ h, Line.KeptBut]
  · simp [Line.KeptBut]

end Sys2Proof.Machine
end

