-- ==== Sys2Proof/Laws/Station.lean ====
section
/-! SUPPORT. A visit's beginning case by case, and the settling and hand-over of sounder requests, each as an
equation. -/

namespace Sys2Proof.Machine

/-! ### Sounder requests -/

@[simp] theorem ahead_self (x : Half) : ahead x x = false := by simp [ahead, forward]

theorem discardRequests_pending (o : Output) (h : ahead o.sounderRequest o.sounderDone = true) :
    o.discardRequests =
      ({ o with sounderDone := o.sounderRequest },
        [.sounderDone .discarded (o.sounderRequest - o.sounderDone)]) := by
  simp [Output.discardRequests, Output.sounderPending, h]

theorem discardRequests_settled (o : Output) (h : ahead o.sounderRequest o.sounderDone = false) :
    o.discardRequests = (o, []) := by
  simp [Output.discardRequests, Output.sounderPending, h]

/-! The three courses of a valid count's hand-over, in the order in which the unit acts (R99, R102, R145). -/

section handOver
variable (s : State) (e : Entry) (count : Half) (pattern : Byte)

/-- The hand-over at a station's record. -/
abbrev State.handed : Output × List EventBody :=
  (s.station e).output.handOver count pattern (s.station e).link.state

theorem handOverSounder_rejected (h : 8 ≤ pattern.toNat) :
    s.handOverSounder e count pattern =
      (((s.onOutput e fun _ => (s.handed e count pattern).1).requestStatus e).submitBodies e
        (s.handed e count pattern).2).reportHostValue 28#8 (some e) := by
  simp only [State.handOverSounder, handOverCourse, if_pos h]

theorem handOverSounder_discarded (h : pattern.toNat < 8)
    (k : (s.station e).link.state = .disabled ∨ (s.station e).link.state = .searching) :
    s.handOverSounder e count pattern =
      ((s.onOutput e fun _ => (s.handed e count pattern).1).requestStatus e).submitBodies e
        (s.handed e count pattern).2 := by
  simp only [State.handOverSounder, handOverCourse, if_neg (Nat.not_le.2 h), if_pos k]

theorem handOverSounder_pending (h : pattern.toNat < 8)
    (k : ¬((s.station e).link.state = .disabled ∨ (s.station e).link.state = .searching)) :
    s.handOverSounder e count pattern = s.onOutput e fun _ => (s.handed e count pattern).1 := by
  simp only [State.handOverSounder, handOverCourse, if_neg (Nat.not_le.2 h), if_neg k]

end handOver

/-! ### The beginning of a visit -/

variable (st : Station)

/-- The station with its visit counted. -/
abbrev Station.counted (st : Station) : Station := { st with link := st.link.count Counters.countVisit }

theorem beginVisit_resend (o : Outstanding) (h : st.link.outstanding = some o) : st.beginVisit = st.counted := by
  simp [Station.beginVisit, Link.count, h]

theorem beginVisit_new (h : st.link.outstanding = none) : st.beginVisit = st.counted.buildOrder := by
  have h' : (st.link.count Counters.countVisit).outstanding = none := h
  simp only [Station.beginVisit, h', Option.isSome_none, Bool.false_eq_true, if_false]

theorem buildOrder_disabled (h : st.link.state = .disabled) : st.buildOrder = st := by
  simp [Station.buildOrder, h]

theorem buildOrder_searching (h : st.link.state = .searching) : st.buildOrder = st.newReset := by
  simp [Station.buildOrder, h]

theorem buildOrder_syncImage (h : st.link.state = .syncing) (k : st.link.step = some .image) :
    st.buildOrder = st.newSet := by
  simp [Station.buildOrder, h, k]

theorem buildOrder_syncReset (h : st.link.state = .syncing) (k : st.link.step ≠ some .image) :
    st.buildOrder = st.newReset := by
  simp [Station.buildOrder, h, k]

theorem buildOrder_resync (h : st.link.state = .online) (k : st.link.resyncPending = true) :
    st.buildOrder = st.enterResync.newReset := by
  simp [Station.buildOrder, h, k]

theorem buildOrder_output (h : st.link.state = .online) (k : st.link.resyncPending = false)
    (o : st.output.outputPending = true) : st.buildOrder = st.newSet := by
  simp [Station.buildOrder, h, k, o]

theorem buildOrder_sounder (h : st.link.state = .online) (k : st.link.resyncPending = false)
    (o : st.output.outputPending = false) (p : st.output.sounderPending = true) : st.buildOrder = st.newSound := by
  simp [Station.buildOrder, h, k, o, p]

theorem buildOrder_poll (h : st.link.state = .online) (k : st.link.resyncPending = false)
    (o : st.output.outputPending = false) (p : st.output.sounderPending = false) : st.buildOrder = st := by
  simp [Station.buildOrder, h, k, o, p]

/-- Every order a visit can build: none, or one of the four, of a station as it stands or entering a resync. -/
theorem buildOrder_cases :
    st.buildOrder = st ∨ st.buildOrder = st.newReset ∨ st.buildOrder = st.newSet ∨ st.buildOrder = st.newSound ∨
    st.buildOrder = st.enterResync.newReset := by
  cases h : st.link.state
  · exact .inl (buildOrder_disabled st h)
  · exact .inr (.inl (buildOrder_searching st h))
  · by_cases k : st.link.step = some .image
    · exact .inr (.inr (.inl (buildOrder_syncImage st h k)))
    · exact .inr (.inl (buildOrder_syncReset st h k))
  · by_cases k : st.link.resyncPending = true
    · exact .inr (.inr (.inr (.inr (buildOrder_resync st h k))))
    · have k' : st.link.resyncPending = false := by simpa using k
      by_cases o : st.output.outputPending = true
      · exact .inr (.inr (.inl (buildOrder_output st h k' o)))
      · have o' : st.output.outputPending = false := by simpa using o
        by_cases p : st.output.sounderPending = true
        · exact .inr (.inr (.inr (.inl (buildOrder_sounder st h k' o' p))))
        · exact .inl (buildOrder_poll st h k' o' (by simpa using p))

/-- What no visit's beginning changes. -/
theorem beginVisit_keeps_station :
    st.beginVisit.takesPart = st.takesPart ∧ st.beginVisit.address = st.address ∧
    st.beginVisit.contacts = st.contacts ∧ st.beginVisit.link.misses = st.link.misses ∧
    st.beginVisit.link.waits = st.link.waits ∧ st.beginVisit.link.lastAcked = st.link.lastAcked ∧
    st.beginVisit.link.holdUntil = st.link.holdUntil ∧
    st.beginVisit.link.disablePending = st.link.disablePending ∧
    st.beginVisit.link.resyncRequest = st.link.resyncRequest ∧ st.beginVisit.link.resyncDone = st.link.resyncDone := by
  cases h : st.link.outstanding with
  | some o => rw [beginVisit_resend st o h]; simp [Link.count]
  | none =>
    rw [beginVisit_new st h]
    rcases buildOrder_cases st.counted with e | e | e | e | e <;> rw [e] <;>
      simp [Link.count, Station.newReset, Station.newSet, Station.newSound, Station.enterResync, Link.takeTurn]

end Sys2Proof.Machine
end

