-- ==== Sys2Proof/Laws/Port.lean ====
section
/-! SUPPORT. The write queue: what each request makes of it, and that each operation keeps its order and its size. -/

namespace Sys2Proof.Machine

/-! ### The order of the queue -/

theorem followed_cons {x : WriteEntry} {xs : List WriteEntry} (h : recordsFollowed (x :: xs) = true) :
    recordsFollowed xs = true := by
  cases xs with
  | nil => rfl
  | cons y ys => cases x <;> cases y <;> simp_all [recordsFollowed]

theorem followed_drop {xs : List WriteEntry} (h : recordsFollowed xs = true) : recordsFollowed (xs.drop 1) = true := by
  cases xs with
  | nil => rfl
  | cons x xs => exact followed_cons h

/-- An entry that is no RECORD may join at the tail. -/
theorem followed_append {w : WriteEntry} (hw : w.isRecord = false) : ∀ {xs : List WriteEntry},
    recordsFollowed xs = true → recordsFollowed (xs ++ [w]) = true
  | [], _ => by cases w <;> simp_all [recordsFollowed, WriteEntry.isRecord]
  | [x], h => by cases x <;> cases w <;> simp_all [recordsFollowed, WriteEntry.isRecord]
  | x :: y :: rest, h => by
    have ih := followed_append hw (followed_cons h)
    cases x <;> cases y <;> simp_all [recordsFollowed]

/-- A RECORD may stand in front of a MARK at the tail. -/
theorem followed_insert {c c' : Word} {u u' : Bool} {slot : Nat} {bytes : List Byte} : ∀ {xs : List WriteEntry},
    recordsFollowed (xs ++ [.mark c u]) = true →
    recordsFollowed (xs ++ [.record slot bytes, .mark c' u']) = true
  | [], _ => by simp [recordsFollowed]
  | [x], h => by cases x <;> simp_all [recordsFollowed]
  | x :: y :: rest, h => by
    have ih := followed_insert (c' := c') (u' := u') (slot := slot) (bytes := bytes)
      (xs := y :: rest) (c := c) (u := u) (followed_cons (x := x) h)
    cases x <;> cases y <;> simp_all [recordsFollowed]

theorem followed_replace {c c' : Word} {u u' : Bool} : ∀ {xs : List WriteEntry},
    recordsFollowed (xs ++ [.mark c u]) = true → recordsFollowed (xs ++ [.mark c' u']) = true
  | [], _ => by simp [recordsFollowed]
  | [x], h => by cases x <;> simp_all [recordsFollowed]
  | x :: y :: rest, h => by
    have ih := followed_replace (c' := c') (u' := u') (xs := y :: rest) (c := c) (u := u) (followed_cons (x := x) h)
    cases x <;> cases y <;> simp_all [recordsFollowed]

/-- A RECORD and the MARK behind it may join at the tail. -/
theorem followed_pair {c : Word} {u : Bool} {slot : Nat} {bytes : List Byte} : ∀ {xs : List WriteEntry},
    recordsFollowed xs = true → recordsFollowed (xs ++ [.record slot bytes, .mark c u]) = true
  | [], _ => by simp [recordsFollowed]
  | [x], h => by cases x <;> simp_all [recordsFollowed]
  | x :: y :: rest, h => by
    have ih := followed_pair (c := c) (u := u) (slot := slot) (bytes := bytes) (followed_cons h)
    cases x <;> cases y <;> simp_all [recordsFollowed]

/-! ### The requests -/

variable (p : Port)

/-- The tail MARK into which a request merges is the last entry, and not the write in flight. -/
theorem tailMark_some {m : HeldMark} (h : p.tailMark = some m) :
    ∃ front, p.writes = front ++ [.mark m.covered m.urgent] ∧ (p.writeInFlight = true → front ≠ []) := by
  have hl : ∃ w, p.unstarted.getLast? = some w ∧ w = .mark m.covered m.urgent := by
    simp only [Port.tailMark] at h
    split at h
    · next c u hg => simp only [Option.some.injEq] at h; subst h; exact ⟨_, hg, rfl⟩
    · cases h
  obtain ⟨w, hg, rfl⟩ := hl
  simp only [Port.unstarted] at hg
  split at hg
  · next hf =>
    cases hw : p.writes with
    | nil => simp [hw] at hg
    | cons x xs =>
      rw [hw] at hg
      simp only [List.drop_succ_cons, List.drop_zero] at hg
      obtain ⟨ys, hy⟩ := List.getLast?_eq_some_iff.1 hg
      exact ⟨x :: ys, by simp [hy], fun _ => by simp⟩
  · next hf =>
    obtain ⟨ys, hy⟩ := List.getLast?_eq_some_iff.1 hg
    exact ⟨ys, hy, fun h => absurd h hf⟩

theorem joinMark_some {m : HeldMark} (h : p.tailMark = some m) (c : Word) (u : Bool) :
    ∃ front, p.writes = front ++ [.mark m.covered m.urgent] ∧ (p.writeInFlight = true → front ≠ []) ∧
      p.joinMark c u = { p with writes := front ++ [.mark c (m.urgent || u)] } := by
  obtain ⟨front, hw, hf⟩ := tailMark_some p h
  exact ⟨front, hw, hf, by simp [Port.joinMark, h, hw]⟩

theorem joinMark_none (h : p.tailMark = none) (c : Word) (u : Bool) :
    p.joinMark c u = { p with writes := p.writes ++ [.mark c u] } := by
  simp [Port.joinMark, h]

/-- What the arbiter can start: nothing, the head of the read list, or the head of the write queue; the write queue
itself stands. -/
theorem startTransaction_cases (s : State) :
    s.startTransaction.port = s.port ∨
    (s.port.inFlight = none ∧ ∃ r rest, s.port.reads = r :: rest ∧ s.startTransaction.port =
      { s.port with reads := rest, inFlight := some (.read r (s.readAddress r)), lastServed := .read }) ∨
    (s.port.inFlight = none ∧ ∃ w rest, s.port.writes = w :: rest ∧ s.startTransaction.port =
      { s.port with inFlight := some (.write w (s.writeAddress w) (s.writeBytes w)), lastServed := .write }) := by
  simp only [State.startTransaction]
  split
  · next h =>
    have hi : s.port.inFlight = none := by simpa using (Bool.and_eq_true_iff.1 h).2
    simp only [State.chooseTransaction]
    split
    · exact .inl rfl
    · next r rest hr hw => exact .inr (.inl ⟨hi, r, rest, hr, rfl⟩)
    · next w rest hr hw => exact .inr (.inr ⟨hi, w, rest, hw, rfl⟩)
    · next r rest w rest' hr hw =>
      split
      · exact .inr (.inr ⟨hi, w, rest', hw, rfl⟩)
      · exact .inr (.inl ⟨hi, r, rest, hr, rfl⟩)
  · exact .inl rfl

/-- The arbiter leaves the write queue, the owed marks and the held MARK. -/
@[simp] theorem startTransaction_queue (s : State) :
    s.startTransaction.port.writes = s.port.writes ∧ s.startTransaction.port.owed = s.port.owed ∧
    s.startTransaction.port.heldMark = s.port.heldMark ∧ s.startTransaction.port.faultAddr = s.port.faultAddr ∧
    s.startTransaction.port.abandoned = s.port.abandoned := by
  rcases startTransaction_cases s with h | ⟨_, r, rest, _, h⟩ | ⟨_, w, rest, _, h⟩ <;> rw [h] <;> simp

/-- A STATUS asked for waits in the queue or is owed (R154). -/
theorem requestStatus_waits (p : Port) (e : Entry) :
    .status e ∈ (p.requestStatus e).writes ∨ (p.requestStatus e).owed[e.val] = true := by
  simp only [Port.requestStatus]
  split
  · next h =>
    left
    simp only [Port.unstarted] at h
    split at h
    · exact List.mem_of_mem_drop h
    · exact h
  · split
    · next h => exact .inr h
    · split
      · exact .inl (List.mem_append_right _ List.mem_cons_self)
      · exact .inr (Vector.getElem_set_self _)

/-- The same of the state, where the arbiter may start it at once (R154, R156). -/
theorem requestStatus_waits_state (s : State) (e : Entry) :
    .status e ∈ (s.requestStatus e).port.writes ∨ (s.requestStatus e).port.owed[e.val] = true := by
  obtain ⟨hw, ho, _⟩ := startTransaction_queue
    ((s.onPort (·.requestStatus e)).onLink e fun l => { l with countersChanged := false })
  rcases requestStatus_waits s.port e with h | h
  · exact .inl (by rw [State.requestStatus, hw]; exact h)
  · exact .inr ((congrArg (fun o : Vector Bool 16 => o[e.val]) ho).trans h)

/-! ### What keeps the order -/

theorem startTransaction_ordered (s : State) (h : s.port.Ordered) : s.startTransaction.port.Ordered := by
  rcases startTransaction_cases s with e | ⟨_, r, rest, _, e⟩ | ⟨_, w, rest, hw, e⟩ <;> rw [e]
  · exact h
  · exact ⟨by simp, h.followed, h.owed, h.held⟩
  · refine ⟨?_, h.followed, h.owed, h.held⟩
    intro w' a b hh
    simp only [Option.some.injEq, Transaction.write.injEq] at hh
    rw [← hh.1, hw]; rfl

theorem requestStatus_ordered (e : Entry) (h : p.Ordered) : (p.requestStatus e).Ordered := by
  simp only [Port.requestStatus]
  split
  · exact h
  · split
    · exact h
    · split
      · refine ⟨?_, followed_append rfl h.followed, ?_, ?_⟩
        · intro w a b hi
          have hh := h.head w a b hi
          cases hw : p.writes <;> simp_all
        · intro e' he
          have := h.owed e' he
          simp only [List.length_append]; omega
        · intro hm
          have := h.held hm
          simp only [List.length_append]; omega
      · next hf =>
        have hfull : Config.writesMax ≤ p.writes.length := by simpa [Port.hasFree] using hf
        exact ⟨h.head, h.followed, fun _ _ => hfull, h.held⟩

theorem joinMark_ordered (c : Word) (u : Bool) (h : p.Ordered) : (p.joinMark c u).Ordered := by
  cases ht : p.tailMark with
  | some m =>
    obtain ⟨front, hw, hf, e⟩ := joinMark_some p ht c u
    rw [e]
    refine ⟨?_, followed_replace (hw ▸ h.followed), ?_, ?_⟩
    · intro w a b hi
      have hh := h.head w a b hi
      have hne := hf (by simp only at hi; simp [Port.writeInFlight, hi])
      rw [hw] at hh
      cases front with
      | nil => exact absurd rfl hne
      | cons x xs => simpa using hh
    · intro e' he
      have := h.owed e' he
      rw [hw] at this; simpa using this
    · intro hm
      have := h.held hm
      rw [hw] at this; simpa using this
  | none =>
    rw [joinMark_none p ht]
    refine ⟨?_, followed_append rfl h.followed, ?_, ?_⟩
    · intro w a b hi
      have hh := h.head w a b hi
      cases hw : p.writes <;> simp_all
    · intro e' he
      have := h.owed e' he
      simp only [List.length_append]; omega
    · intro hm
      have := h.held hm
      simp only [List.length_append]; omega

theorem requestMark_ordered (c : Word) (u : Bool) (h : p.Ordered) : (p.requestMark c u).Ordered := by
  simp only [Port.requestMark]
  split
  · next m hm => exact ⟨h.head, h.followed, h.owed, fun _ => h.held (by simp [hm])⟩
  · split
    · exact joinMark_ordered p c u h
    · next hf =>
      have hfull : Config.writesMax ≤ p.writes.length := by
        have : p.hasFree = false := by
          by_cases hh : p.hasFree = true <;> simp_all
        simpa [Port.hasFree] using this
      exact ⟨h.head, h.followed, h.owed, fun _ => hfull⟩

theorem firstOwed_some {e : Entry} (h : p.firstOwed = some e) : p.owed[e.val] = true := by
  have := List.find?_some h; simpa using this

theorem firstOwed_none (h : p.firstOwed = none) (e : Entry) : p.owed[e.val] = false := by
  have := (List.find?_eq_none.1 h) e (by simp [allEntries])
  simpa using this

/-- The end of a write keeps the order: the freed entry is offered at once. -/
theorem offerFreed_ordered (w : WriteEntry) (a : Nat) (b : List Byte) (h : p.Ordered)
    (hi : p.inFlight = some (.write w a b)) :
    ({ p with writes := p.writes.drop 1, inFlight := none }.offerFreed).Ordered := by
  have hlen : p.writes ≠ [] := by
    intro hc; have := h.head w a b hi; simp [hc] at this
  have hpos : 1 ≤ p.writes.length := by
    cases hw : p.writes <;> simp_all
  simp only [Port.offerFreed]
  split
  · next e he =>
    have ho : p.owed[e.val] = true := firstOwed_some { p with writes := p.writes.drop 1, inFlight := none } he
    have hfull := h.owed e ho
    have hl : Config.writesMax ≤ (p.writes.drop 1 ++ [WriteEntry.status e]).length := by
      simp only [List.length_append, List.length_drop, List.length_cons, List.length_nil]; omega
    exact ⟨by simp, followed_append rfl (followed_drop h.followed), fun _ _ => hl, fun _ => hl⟩
  · next hn =>
    have hno := firstOwed_none { p with writes := p.writes.drop 1, inFlight := none } hn
    split
    · next m hm =>
      have hj := joinMark_ordered { p with writes := p.writes.drop 1, inFlight := none, heldMark := none } m.covered
        m.urgent ⟨by simp, followed_drop h.followed, fun e he => absurd he (by rw [hno e]; simp), by simp⟩
      have e : { Port.joinMark m.covered m.urgent { p with writes := p.writes.drop 1, inFlight := none } with
          heldMark := none } =
          Port.joinMark m.covered m.urgent { p with writes := p.writes.drop 1, inFlight := none, heldMark := none } := by
        simp only [Port.joinMark, Port.tailMark, Port.unstarted, Port.writeInFlight]
        split <;> split <;> simp_all
      rw [e]; exact hj
    · next hm =>
      refine ⟨by simp, followed_drop h.followed, fun e he => absurd he (by rw [hno e]; simp), fun hh => ?_⟩
      simp only at hm hh; rw [hm] at hh; simp at hh

theorem formRecord_ordered (s : State) (next : NextRecord) (left : Journal) (h : s.port.Ordered)
    (hfree : s.port.writes.length + 2 ≤ Config.writesMax) : (s.formRecord next left).port.Ordered := by
  have hheld : s.port.heldMark = none := by
    cases hm : s.port.heldMark with
    | none => rfl
    | some m => have := h.held (by simp [hm]); omega
  have howed : ∀ e : Entry, s.port.owed[e.val] ≠ true := fun e he => by have := h.owed e he; omega
  let w := s.journal.written
  have hr : ∃ (q : Port) (slot : Nat) (bytes : List Byte),
      ((s.onJournal fun _ => left).requestRecord (w.toNat % s.cfg.journalCapacity)
        (next.bytes (w.setWidth 16) s.run.clock)).port = q ∧ q.heldMark = none ∧ q.owed = s.port.owed ∧
      (∀ x a b, q.inFlight = some (.write x a b) → q.writes.head? = some x) ∧
      q.writes.length + 1 ≤ Config.writesMax ∧
      ((∃ front c u, q.writes = front ++ [.record slot bytes, .mark c u] ∧ recordsFollowed q.writes = true) ∨
        (∃ front, q.writes = front ++ [.record slot bytes] ∧ recordsFollowed front = true)) := by
    refine ⟨_, w.toNat % s.cfg.journalCapacity, next.bytes (w.setWidth 16) s.run.clock, rfl, ?_⟩
    generalize w.toNat % s.cfg.journalCapacity = slot
    generalize next.bytes (w.setWidth 16) s.run.clock = bytes
    simp only [State.requestRecord]
    generalize hs' : (s.onJournal fun _ => left).onPort (·.requestRecord slot bytes) = s'
    have hp : s'.port = s.port.requestRecord slot bytes := by rw [← hs']; rfl
    have hq : s'.port.heldMark = none ∧ s'.port.owed = s.port.owed ∧ s'.port.inFlight = s.port.inFlight ∧
        (∀ x a b, s'.port.inFlight = some (.write x a b) → s'.port.writes.head? = some x) ∧
        s'.port.writes.length + 1 ≤ Config.writesMax ∧
        ((∃ front c u, s'.port.writes = front ++ [.record slot bytes, .mark c u] ∧
            recordsFollowed s'.port.writes = true) ∨
          (∃ front, s'.port.writes = front ++ [.record slot bytes] ∧ recordsFollowed front = true)) := by
      rw [hp]
      cases ht : s.port.tailMark with
      | some m =>
        obtain ⟨front, hw, hf⟩ := tailMark_some s.port ht
        have e : s.port.requestRecord slot bytes =
            { s.port with writes := front ++ [.record slot bytes, .mark m.covered m.urgent] } := by
          simp [Port.requestRecord, ht, hw]
        rw [e]
        refine ⟨hheld, rfl, rfl, ?_, ?_, .inl ⟨front, _, _, rfl, followed_insert (hw ▸ h.followed)⟩⟩
        · intro x a b hi
          have hh := h.head x a b hi
          have hne := hf (by simp only at hi; simp [Port.writeInFlight, hi])
          rw [hw] at hh
          cases front with
          | nil => exact absurd rfl hne
          | cons y ys => simpa using hh
        · rw [hw] at hfree; simp only [List.length_append, List.length_cons, List.length_nil] at hfree ⊢; omega
      | none =>
        have e : s.port.requestRecord slot bytes = { s.port with writes := s.port.writes ++ [.record slot bytes] } := by
          simp [Port.requestRecord, ht]
        rw [e]
        refine ⟨hheld, rfl, rfl, ?_, ?_, .inr ⟨_, rfl, h.followed⟩⟩
        · intro x a b hi
          have hh := h.head x a b hi
          cases hw : s.port.writes <;> simp_all
        · simp only [List.length_append, List.length_cons, List.length_nil]; omega
    obtain ⟨q1, q2, q3, q4, q5, q6⟩ := hq
    obtain ⟨t1, t2, t3, _, _⟩ := startTransaction_queue s'
    refine ⟨by rw [t3, q1], by rw [t2, q2], ?_, by rw [t1]; exact q5, by rw [t1]; exact q6⟩
    rcases startTransaction_cases s' with e | ⟨_, r, rest, _, e⟩ | ⟨_, x, rest, hw, e⟩ <;> rw [e]
    · exact q4
    · simp
    · intro y a b hi
      simp only [Option.some.injEq, Transaction.write.injEq] at hi
      rw [← hi.1]; simp only [hw]; rfl
  obtain ⟨q, slot, bytes, hq, qh, qo, qhead, qlen, qw⟩ := hr
  simp only [State.formRecord, State.requestMark]
  apply startTransaction_ordered
  simp only [onPort_port, onJournal_port]
  rw [hq]
  have hown : ∀ e : Entry, q.owed[e.val] ≠ true := by rw [qo]; exact howed
  have hfree' : q.hasFree = true := by simp only [Port.hasFree, decide_eq_true_eq]; omega
  simp only [Port.requestMark, qh, hfree', Bool.or_true, if_true]
  rcases qw with ⟨front, c, u, hw, hfol⟩ | ⟨front, hw, hfol⟩
  · exact joinMark_ordered q _ _ ⟨qhead, hfol, fun e he => absurd he (hown e), by simp [qh]⟩
  · cases ht : q.tailMark with
    | some m =>
      obtain ⟨front', hw', _⟩ := tailMark_some q ht
      rw [hw] at hw'
      have := congrArg List.getLast? hw'
      simp at this
    | none =>
      rw [joinMark_none q ht]
      refine ⟨?_, ?_, fun e he => absurd he (hown e), by simp [qh]⟩
      · intro x a b hi
        have hh := qhead x a b hi
        simp only [hw] at hh ⊢
        cases front <;> simp_all
      · simp only [hw, List.append_assoc, List.cons_append, List.nil_append]
        exact followed_pair hfol

/-! ### What keeps the size -/

theorem requestStatus_size (e : Entry) (h : p.writes.length ≤ Config.writesMax) :
    (p.requestStatus e).writes.length ≤ Config.writesMax := by
  simp only [Port.requestStatus]
  (repeat' split) <;> try exact h
  next hf =>
    have : p.writes.length < Config.writesMax := by simpa [Port.hasFree] using hf
    simp only [List.length_append, List.length_cons, List.length_nil]; omega

theorem joinMark_size (c : Word) (u : Bool) (h : p.writes.length ≤ Config.writesMax)
    (hf : p.tailMark.isSome = true ∨ p.writes.length < Config.writesMax) :
    (p.joinMark c u).writes.length ≤ Config.writesMax := by
  cases ht : p.tailMark with
  | some m =>
    obtain ⟨front, hw, _, e⟩ := joinMark_some p ht c u
    rw [e]; rw [hw] at h
    simpa using h
  | none =>
    rw [joinMark_none p ht]
    have : p.writes.length < Config.writesMax := by simpa [ht] using hf
    simp only [List.length_append, List.length_cons, List.length_nil]; omega

theorem requestMark_size (c : Word) (u : Bool) (h : p.writes.length ≤ Config.writesMax) :
    (p.requestMark c u).writes.length ≤ Config.writesMax := by
  simp only [Port.requestMark]
  split
  · exact h
  · split
    · next hf => exact joinMark_size p c u h (by simpa [Port.hasFree] using hf)
    · exact h

theorem requestRecord_size (slot : Nat) (bytes : List Byte) (h : p.writes.length + 1 ≤ Config.writesMax) :
    (p.requestRecord slot bytes).writes.length ≤ Config.writesMax := by
  cases ht : p.tailMark with
  | some m =>
    obtain ⟨front, hw, _⟩ := tailMark_some p ht
    simp only [Port.requestRecord, ht, hw] at h ⊢
    simp only [List.dropLast_concat, List.length_append, List.length_cons, List.length_nil] at h ⊢; omega
  | none =>
    simp only [Port.requestRecord, ht, List.length_append, List.length_cons, List.length_nil]; omega

theorem offerFreed_size (h : p.writes.length ≤ Config.writesMax) :
    ({ p with writes := p.writes.drop 1, inFlight := none }.offerFreed).writes.length ≤ Config.writesMax := by
  have hd : (p.writes.drop 1).length < Config.writesMax := by
    simp only [List.length_drop, Config.writesMax] at h ⊢; omega
  simp only [Port.offerFreed]
  split
  · simp only [List.length_append, List.length_cons, List.length_nil]; omega
  · split
    · exact joinMark_size _ _ _ (Nat.le_of_lt hd) (.inr hd)
    · exact Nat.le_of_lt hd

/-- A submission keeps the staging queue within its size. -/
theorem submit_size (s : State) (e : Event) (h : s.journal.staging.length ≤ Config.stagingMax) :
    (s.submit e).journal.staging.length ≤ Config.stagingMax := by
  simp only [State.submit]
  split
  · simp only [onJournal_journal, Journal.submit]
    split
    · exact h
    · simp only [Journal.stage]
      split
      · simp only [List.length_append, List.length_cons, List.length_nil]; omega
      · exact h
  · exact h

end Sys2Proof.Machine
end

