-- ==== Sys2Proof/Laws/Coherent.lean ====
section
/-! SUPPORT. Each operation on one station keeps its records coherent. -/

namespace Sys2Proof.Machine

variable (st : Station)

theorem beginVisit_coherent (h : st.Coherent) : st.beginVisit.Coherent := by
  obtain ⟨h1, h2, h3, h4, h5, h6⟩ := h
  cases ho : st.link.outstanding with
  | some o =>
    rw [beginVisit_resend st o ho]
    exact ⟨h1, h2, h3, h4, h5, h6⟩
  | none =>
    have hk : st.link.outstandingKind = none := by simp [Link.outstandingKind, ho]
    have hs : st.output.outSet = none := by simpa [hk] using h1
    have hd : st.output.outSound = none := by simpa [hk] using h2
    rw [beginVisit_new st ho]
    cases hst : st.link.state <;> have hc : st.counted.link.state = _ := hst
    · rw [buildOrder_disabled _ hc]
      exact ⟨h1, h2, h3, h4, h5, h6⟩
    · rw [buildOrder_searching _ hc]
      refine ⟨?_, ?_, ?_, ?_, ?_, ?_⟩ <;>
        simp_all [Station.newReset, Link.takeTurn, Link.count, Link.outstandingKind]
    · by_cases k : st.link.step = some .image
      · rw [buildOrder_syncImage _ hc k]
        refine ⟨?_, ?_, ?_, ?_, ?_, ?_⟩ <;>
          simp_all [Station.newSet, Link.takeTurn, Link.count, Link.outstandingKind, Output.buildSet]
      · rw [buildOrder_syncReset _ hc k]
        refine ⟨?_, ?_, ?_, ?_, ?_, ?_⟩ <;>
          simp_all [Station.newReset, Link.takeTurn, Link.count, Link.outstandingKind]
    · by_cases k : st.counted.link.resyncPending = true
      · rw [buildOrder_resync _ hc k]
        refine ⟨?_, ?_, ?_, ?_, ?_, ?_⟩ <;>
          simp_all [Station.enterResync, Station.newReset, Link.takeTurn, Link.count, Link.outstandingKind]
      · have k' : st.counted.link.resyncPending = false := by simpa using k
        by_cases o : st.counted.output.outputPending = true
        · rw [buildOrder_output _ hc k' o]
          refine ⟨?_, ?_, ?_, ?_, ?_, ?_⟩ <;>
            simp_all [Station.newSet, Link.takeTurn, Link.count, Link.outstandingKind, Output.buildSet]
        · have o' : st.counted.output.outputPending = false := by simpa using o
          by_cases p : st.counted.output.sounderPending = true
          · rw [buildOrder_sounder _ hc k' o' p]
            refine ⟨?_, ?_, ?_, ?_, ?_, ?_⟩ <;>
              simp_all [Station.newSound, Link.takeTurn, Link.count, Link.outstandingKind, Output.buildSound]
          · rw [buildOrder_poll _ hc k' o' (by simpa using p)]
            exact ⟨h1, h2, h3, h4, h5, h6⟩

theorem makeUnknown_unknown (t : ContactTable) : ∀ c ∈ t.makeUnknown.records, c.state = .unknown := by
  intro c hc
  simp only [ContactTable.makeUnknown, List.mem_map] at hc
  obtain ⟨d, _, rfl⟩ := hc; rfl

theorem disable_coherent : st.disable.1.Coherent := by
  refine ⟨?_, ?_, ?_, ?_, ?_, fun _ => makeUnknown_unknown _⟩ <;>
    simp [Station.disable, Station.abandon, Output.abandon, Output.discardRequests, Output.markDiscard,
      Link.outstandingKind]

theorem lose_coherent : st.lose.1.Coherent := by
  refine ⟨?_, ?_, ?_, ?_, ?_, fun _ => makeUnknown_unknown _⟩ <;>
    simp [Station.lose, Station.abandon, Output.abandon, Output.discardRequests, Link.count, Link.outstandingKind]

/-- Coherence asks of the link only its state, its step and its outstanding command. -/
theorem coherent_of_same (st' : Station) (hs : st'.link.state = st.link.state) (hp : st'.link.step = st.link.step)
    (ho : st'.link.outstanding = st.link.outstanding) (hset : st'.output.outSet = st.output.outSet)
    (hsound : st'.output.outSound = st.output.outSound) (hc : st'.contacts = st.contacts) (h : st.Coherent) :
    st'.Coherent := by
  obtain ⟨h1, h2, h3, h4, h5, h6⟩ := h
  refine ⟨?_, ?_, ?_, ?_, ?_, ?_⟩ <;> simp_all [Link.outstandingKind]

theorem countMiss_coherent (limit : Nat) (h : st.Coherent) : (st.countMiss limit).1.Coherent := by
  simp only [Station.countMiss]
  (repeat' split) <;> first | exact lose_coherent st | exact coherent_of_same st _ rfl rfl rfl rfl rfl rfl h

@[simp] theorem setAcknowledged_content (o : Output) :
    o.setAcknowledged.1.outSet = none ∧ o.setAcknowledged.1.outSound = o.outSound := by
  simp only [Output.setAcknowledged]; split <;> simp

@[simp] theorem soundAcknowledged_content (o : Output) :
    o.soundAcknowledged.1.outSound = none ∧ o.soundAcknowledged.1.outSet = o.outSet := by
  simp only [Output.soundAcknowledged]
  cases h : o.outSound <;> simp [h]

theorem acknowledge_coherent (o : Outstanding) (ho : st.link.outstanding = some o) (h : st.Coherent) :
    (st.acknowledge o).1.Coherent := by
  obtain ⟨h1, h2, h3, h4, h5, h6⟩ := h
  obtain ⟨kind, turn⟩ := o
  have hk : st.link.outstandingKind = some kind := by simp [Link.outstandingKind, ho]
  rw [hk] at h1 h2 h3
  have b1 : (OrderKind.resetStation == OrderKind.set) = false := rfl
  have b2 : (OrderKind.resetStation == OrderKind.sound) = false := rfl
  have b3 : (OrderKind.set == OrderKind.sound) = false := rfl
  have b4 : (OrderKind.sound == OrderKind.set) = false := rfl
  have l1 : (LinkState.online == LinkState.syncing) = false := rfl
  have l2 : (LinkState.searching == LinkState.syncing) = false := rfl
  cases hst : st.link.state <;> cases kind <;>
    simp_all only [Option.some_beq_some, Option.isSome_eq_false_iff, Option.isNone_iff_eq_none, reduceCtorEq,
      not_false_eq_true, ne_eq, not_true_eq_false, and_true, and_false, forall_const, or_true, or_false,
      Option.some.injEq, false_implies, implies_true] <;>
    (refine ⟨?_, ?_, ?_, ?_, ?_, ?_⟩ <;>
      simp_all [Station.acknowledge, Link.acknowledged, Link.resetAcknowledged, Link.completeSync,
        Link.outstandingKind])

/-- A snapshot is taken only by a station that is neither DISABLED nor SEARCHING once its order is acknowledged. -/
theorem takeSnapshot_coherent (report : Nat) (now : Word) (rows : List Byte) (h : st.Coherent)
    (hd : st.link.state ≠ .disabled) (hs : st.link.state ≠ .searching) :
    (st.takeSnapshot report now rows).1.Coherent := by
  obtain ⟨h1, h2, h3, h4, h5, h6⟩ := h
  refine ⟨?_, ?_, ?_, ?_, ?_, ?_⟩ <;> simp_all [Station.takeSnapshot, Link.outstandingKind]

theorem visitOk_coherent (report : Nat) (now : Word) (snapshot : Snapshot) (h : st.Coherent)
    (hp : st.link.state ≠ .disabled)
    (hr : st.link.state = .searching → st.link.outstandingKind = some .resetStation) :
    (st.visitOk report now snapshot).1.Coherent := by
  simp only [Station.visitOk]
  split
  · next o ho =>
    have ha := acknowledge_coherent st o ho h
    have hst : (st.acknowledge o).1.link.state ≠ .disabled ∧ (st.acknowledge o).1.link.state ≠ .searching := by
      obtain ⟨kind, turn⟩ := o
      cases hl : st.link.state <;> cases kind <;>
        simp_all [Station.acknowledge, Link.acknowledged, Link.resetAcknowledged, Link.completeSync,
          Link.outstandingKind]
    exact takeSnapshot_coherent _ _ _ _ (coherent_of_same (st.acknowledge o).1 _ rfl rfl rfl rfl rfl rfl ha) hst.1 hst.2
  · next ho =>
    have hs : st.link.state ≠ .searching := fun hc => by
      have := hr hc; simp [Link.outstandingKind, ho] at this
    exact takeSnapshot_coherent _ _ _ _ (coherent_of_same st _ rfl rfl rfl rfl rfl rfl h) hp hs

theorem visitTurn_coherent (h : st.Coherent) : st.visitTurn.Coherent := by
  obtain ⟨h1, h2, h3, h4, h5, h6⟩ := h
  cases hl : st.link.state <;> (refine ⟨?_, ?_, ?_, ?_, ?_, ?_⟩ <;>
    simp_all [Station.visitTurn, Station.abandon, Output.abandon, Link.outstandingKind])

/-- A visit's end keeps the station's records coherent, where the visit was at a station of the poll list, with its
RESET-STATION outstanding where it is SEARCHING. -/
theorem endVisit_coherent (settings : Settings) (now : Word) (result : VisitResult) (h : st.Coherent)
    (hp : st.link.state ≠ .disabled)
    (hr : st.link.state = .searching → st.link.outstandingKind = some .resetStation) :
    (st.endVisit settings now result).1.Coherent := by
  have ht : (st.takeResult settings now result).1.Coherent := by
    cases result with
    | ok snapshot => exact visitOk_coherent st _ _ _ h hp hr
    | wait hold =>
      simp only [Station.takeResult, Station.visitWait]
      split
      · exact countMiss_coherent _ _ (coherent_of_same st _ rfl rfl rfl rfl rfl rfl h)
      · exact coherent_of_same st _ rfl rfl rfl rfl rfl rfl h
    | turn => exact visitTurn_coherent st h
    | miss => exact countMiss_coherent _ _ (coherent_of_same st _ rfl rfl rfl rfl rfl rfl h)
    | line => exact h
  simp only [Station.endVisit]
  split
  · exact disable_coherent _
  · exact ht

end Sys2Proof.Machine
end

