-- ==== Sys2Proof/Laws/Covered.lean ====
section
/-! SUPPORT. The covered counts of the write queue: what a record adds to the queue, and that each request keeps the
serials and the covered counts in step with the written count. -/

namespace Sys2Proof.Machine

/-! ### The queue alone -/

theorem covered_cons {x : WriteEntry} {xs : List WriteEntry} (h : recordsCovered (x :: xs) = true) :
    recordsCovered xs = true := by
  cases xs with
  | nil => rfl
  | cons y ys => cases x <;> cases y <;> simp_all [recordsCovered]

theorem covered_drop {xs : List WriteEntry} (h : recordsCovered xs = true) : recordsCovered (xs.drop 1) = true := by
  cases xs with
  | nil => rfl
  | cons x xs => exact covered_cons h

/-- Any entry may join at the tail, since no RECORD is there. -/
theorem covered_append (w : WriteEntry) : ∀ {xs : List WriteEntry}, recordsFollowed xs = true →
    recordsCovered xs = true → recordsCovered (xs ++ [w]) = true
  | [], _, _ => by cases w <;> rfl
  | [x], hf, _ => by cases x <;> cases w <;> simp_all [recordsFollowed, recordsCovered]
  | x :: y :: rest, hf, hc => by
    have ih := covered_append w (followed_cons hf) (covered_cons hc)
    cases x <;> cases y <;> simp_all [recordsCovered]

/-- A RECORD that the MARK at the tail does not cover yet may stand in front of it, once the MARK covers it. -/
theorem covered_insert {c c' : Word} {u u' : Bool} {slot : Nat} {bytes : List Byte}
    (hs : halfAt bytes 0 = c.setWidth 16) (hc : c'.setWidth 16 = halfAt bytes 0 + 1#16) : ∀ {xs : List WriteEntry},
    recordsCovered (xs ++ [.mark c u]) = true → recordsCovered (xs ++ [.record slot bytes, .mark c' u']) = true
  | [], _ => by simp [recordsCovered, hc]
  | [x], h => by cases x <;> simp_all [recordsCovered]
  | x :: y :: rest, h => by
    have ih := covered_insert (u' := u') (slot := slot) hs hc (xs := y :: rest) (covered_cons (x := x) h)
    cases x <;> cases y <;> simp_all [recordsCovered]

/-- A RECORD and the MARK that covers it may join at the tail. -/
theorem covered_pair {c : Word} {u : Bool} {slot : Nat} {bytes : List Byte}
    (hc : c.setWidth 16 = halfAt bytes 0 + 1#16) : ∀ {xs : List WriteEntry}, recordsFollowed xs = true →
    recordsCovered xs = true → recordsCovered (xs ++ [.record slot bytes, .mark c u]) = true
  | [], _, _ => by simp [recordsCovered, hc]
  | [x], hf, _ => by cases x <;> simp_all [recordsFollowed, recordsCovered]
  | x :: y :: rest, hf, h => by
    have ih := covered_pair (u := u) (slot := slot) hc (followed_cons hf) (covered_cons h)
    cases x <;> cases y <;> simp_all [recordsCovered]

/-- A MARK at the tail may be replaced by one with the same covered count. -/
theorem covered_replace {c : Word} {u u' : Bool} : ∀ {xs : List WriteEntry},
    recordsCovered (xs ++ [.mark c u]) = true → recordsCovered (xs ++ [.mark c u']) = true
  | [], _ => rfl
  | [x], h => by cases x <;> simp_all [recordsCovered]
  | x :: y :: rest, h => by
    have ih := covered_replace (u' := u') (xs := y :: rest) (covered_cons (x := x) h)
    cases x <;> cases y <;> simp_all [recordsCovered]

/-! ### The requests -/

/-- The serials and covered counts of the queue are in step with `n` records written. -/
structure Port.Covers (n : Word) (p : Port) : Prop where
  chain : recordsCovered p.writes = true
  tail : ∀ m, p.tailMark = some m → m.covered = n
  held : ∀ m, p.heldMark = some m → m.covered = n

variable {n : Word} {p : Port}

/-- An unstarted MARK at the tail is the last entry of the queue. -/
theorem tailMark_last {m : HeldMark} (h : p.tailMark = some m) :
    p.writes.getLast? = some (.mark m.covered m.urgent) := by
  obtain ⟨front, hw, _⟩ := tailMark_some p h
  rw [hw, List.getLast?_concat]

/-- A queue whose last entry is no MARK has no MARK at its tail. -/
theorem tailMark_of_last (h : ∀ c u, p.writes.getLast? ≠ some (.mark c u)) : p.tailMark = none := by
  cases ht : p.tailMark with
  | none => rfl
  | some m => exact absurd (tailMark_last ht) (h _ _)

theorem tailMark_congr {q : Port} (h : p.unstarted = q.unstarted) : p.tailMark = q.tailMark := by
  simp only [Port.tailMark, h]

/-- A transaction that starts leaves no other MARK at the tail than before. -/
theorem startTransaction_tail (s : State) {m : HeldMark} (h : s.startTransaction.port.tailMark = some m) :
    s.port.tailMark = some m := by
  rcases startTransaction_cases s with e | ⟨hi, r, rest, _, e⟩ | ⟨hi, w, rest, hw, e⟩ <;> rw [e] at h
  · exact h
  · rwa [tailMark_congr (q := s.port) (by
      simp only [Port.unstarted, Port.writeInFlight, hi, Bool.false_eq_true, if_false])] at h
  · have hu : s.port.unstarted = w :: rest := by
      simp only [Port.unstarted, Port.writeInFlight, hi, hw, Bool.false_eq_true, if_false]
    cases rest with
    | nil =>
      have hl : ({ s.port with
          inFlight := some (.write w (s.writeAddress w) (s.writeBytes w)), lastServed := .write }).tailMark = none := by
        simp only [Port.tailMark, Port.unstarted, Port.writeInFlight, hw, if_true, List.drop_succ_cons, List.drop_nil,
          List.getLast?_nil]
      rw [hl] at h; cases h
    | cons y ys =>
      simp only [Port.tailMark, Port.unstarted, Port.writeInFlight, hw, if_true, List.drop_succ_cons,
        List.drop_zero] at h
      simp only [Port.tailMark, hu, List.getLast?_cons_cons]
      exact h

theorem startTransaction_covers (s : State) (h : s.port.Covers n) : s.startTransaction.port.Covers n := by
  obtain ⟨h1, _, h3, _, _⟩ := startTransaction_queue s
  exact ⟨by rw [h1]; exact h.chain, fun m hm => h.tail m (startTransaction_tail s hm), by rw [h3]; exact h.held⟩

theorem requestStatus_covers (e : Entry) (ho : p.Ordered) (h : p.Covers n) : (p.requestStatus e).Covers n := by
  simp only [Port.requestStatus]
  split
  · exact h
  · split
    · exact h
    · split
      · refine ⟨covered_append _ ho.followed h.chain, fun m hm => ?_, h.held⟩
        have hl := tailMark_last hm
        simp only [List.getLast?_concat, Option.some.injEq, reduceCtorEq] at hl
      · exact ⟨h.chain, h.tail, h.held⟩

theorem joinMark_covers (u : Bool) (ho : p.Ordered) (h : p.Covers n) : (p.joinMark n u).Covers n := by
  cases ht : p.tailMark with
  | some m =>
    obtain ⟨front, hw, _, e⟩ := joinMark_some p ht n u
    rw [e]
    have hc : recordsCovered (front ++ [.mark n m.urgent]) = true := by rw [← h.tail m ht, ← hw]; exact h.chain
    refine ⟨covered_replace hc, fun m' hm => ?_, h.held⟩
    have hl := tailMark_last hm
    simp only [List.getLast?_concat, Option.some.injEq, WriteEntry.mark.injEq] at hl
    exact hl.1.symm
  | none =>
    rw [joinMark_none p ht]
    refine ⟨covered_append _ ho.followed h.chain, fun m' hm => ?_, h.held⟩
    have hl := tailMark_last hm
    simp only [List.getLast?_concat, Option.some.injEq, WriteEntry.mark.injEq] at hl
    exact hl.1.symm

theorem requestMark_covers (u : Bool) (ho : p.Ordered) (h : p.Covers n) : (p.requestMark n u).Covers n := by
  simp only [Port.requestMark]
  split
  · next m hm =>
    refine ⟨h.chain, h.tail, fun m' he => ?_⟩
    simp only [Option.some.injEq] at he; rw [← he]
  · split
    · exact joinMark_covers u ho h
    · refine ⟨h.chain, h.tail, fun m' he => ?_⟩
      simp only [Option.some.injEq] at he; rw [← he]

/-! ### The record -/

/-- A record begins with its serial (section 11.5). -/
theorem record_serial (next : NextRecord) (serial : Half) (now : Word) :
    halfAt (next.bytes serial now) 0 = serial := by
  have hb : ∀ rest : List Byte, halfAt (halfBytes serial ++ rest) 0 = serial := by
    intro rest
    have hs : serial.extractLsb' 8 8 ++ serial.extractLsb' 0 8 = serial := by
      apply BitVec.eq_of_getLsbD_eq
      intro i hi
      rw [BitVec.getLsbD_append]
      by_cases h8 : i < 8
      · simp only [h8, decide_true, BitVec.getLsbD_extractLsb', Bool.true_and, Nat.zero_add, if_true]
      · simp only [h8, if_false, BitVec.getLsbD_extractLsb', show i - 8 < 8 by omega, decide_true, Bool.true_and,
          show 8 + (i - 8) = i by omega]
    exact hs
  cases next <;> simp only [NextRecord.bytes, recordBytes, List.append_assoc] <;> exact hb _

/-- What a record adds to the queue: it stands last but for its MARK, which takes the place and the urgent mark of a MARK
unstarted at the tail, or joins behind the queue as it stood (R112, R155). -/
theorem formRecord_writes (s : State) (next : NextRecord) (left : Journal) (h : s.port.Ordered)
    (hfree : s.port.writes.length + 2 ≤ Config.writesMax) :
    ∃ front u, (s.formRecord next left).port.writes = front ++
        [.record (s.journal.written.toNat % s.cfg.journalCapacity)
            (next.bytes (s.journal.written.setWidth 16) s.run.clock), .mark (s.journal.written + 1#32) u] ∧
      (s.formRecord next left).port.heldMark = none ∧
      ((∃ m, s.port.tailMark = some m ∧ s.port.writes = front ++ [.mark m.covered m.urgent] ∧
          u = (m.urgent || next.urgent)) ∨
        s.port.tailMark = none ∧ s.port.writes = front ∧ u = next.urgent) := by
  have hheld : s.port.heldMark = none := by
    cases hm : s.port.heldMark with
    | none => rfl
    | some m => have := h.held (by simp [hm]); omega
  generalize hslot : s.journal.written.toNat % s.cfg.journalCapacity = slot
  generalize hbytes : next.bytes (s.journal.written.setWidth 16) s.run.clock = bytes
  generalize hq : ((s.onJournal fun _ => left).requestRecord slot bytes).port = q
  have hqw : q.writes = (s.port.requestRecord slot bytes).writes ∧
      q.heldMark = (s.port.requestRecord slot bytes).heldMark := by
    obtain ⟨t1, _, t3, _, _⟩ := startTransaction_queue ((s.onJournal fun _ => left).onPort (·.requestRecord slot bytes))
    rw [← hq]; exact ⟨t1, t3⟩
  have hfin : (s.formRecord next left).port.writes = (q.requestMark (s.journal.written + 1#32) next.urgent).writes ∧
      (s.formRecord next left).port.heldMark = (q.requestMark (s.journal.written + 1#32) next.urgent).heldMark := by
    simp only [State.formRecord, State.requestMark, hslot, hbytes]
    obtain ⟨t1, _, t3, _, _⟩ := startTransaction_queue
      ((((s.onJournal fun _ => left).requestRecord slot bytes).onJournal fun j =>
        { j with written := s.journal.written + 1#32 }).onPort
          (·.requestMark (s.journal.written + 1#32) next.urgent))
    refine ⟨t1.trans ?_, t3.trans ?_⟩ <;> simp only [onPort_port, onJournal_port, hq]
  rw [hfin.1, hfin.2]
  cases ht : s.port.tailMark with
  | some m =>
    obtain ⟨front, hw, hf⟩ := tailMark_some s.port ht
    have hrw : q.writes = front ++ [.record slot bytes, .mark m.covered m.urgent] := by
      rw [hqw.1]; simp only [Port.requestRecord, ht, hw, List.dropLast_concat]
    have hqh : q.heldMark = none := by rw [hqw.2]; simp only [Port.requestRecord, ht, hheld]
    have hqt : q.tailMark = some m := by
      have hl : q.unstarted.getLast? = some (.mark m.covered m.urgent) := by
        simp only [Port.unstarted]
        split
        · rw [hrw]; cases front <;>
            simp only [List.nil_append, List.cons_append, List.drop_succ_cons, List.drop_zero, List.getLast?_singleton,
              List.getLast?_append, List.getLast?_cons_cons, Option.some_or]
        · rw [hrw]; simp only [List.getLast?_append, List.getLast?_cons_cons, List.getLast?_singleton, Option.some_or]
      simp only [Port.tailMark, hl]
    refine ⟨front, m.urgent || next.urgent, ?_, ?_, .inl ⟨m, rfl, hw, rfl⟩⟩
    · simp only [Port.requestMark, hqh, hqt, Option.isSome_some, Bool.true_or, if_true, Port.joinMark, hrw]
      rw [show front ++ [WriteEntry.record slot bytes, .mark m.covered m.urgent] =
        (front ++ [.record slot bytes]) ++ [.mark m.covered m.urgent] by
          simp only [List.append_assoc, List.cons_append, List.nil_append], List.dropLast_concat]
      simp only [List.append_assoc, List.cons_append, List.nil_append]
    · simp only [Port.requestMark, hqh, hqt, Option.isSome_some, Bool.true_or, if_true, Port.joinMark]
  | none =>
    have hrw : q.writes = s.port.writes ++ [.record slot bytes] := by
      rw [hqw.1]; simp only [Port.requestRecord, ht]
    have hqh : q.heldMark = none := by rw [hqw.2]; simp only [Port.requestRecord, ht, hheld]
    have hqt : q.tailMark = none := tailMark_of_last fun c u hc => by
      rw [hrw, List.getLast?_concat] at hc
      simp only [Option.some.injEq, reduceCtorEq] at hc
    have hqf : q.hasFree = true := by
      simp only [Port.hasFree, hrw, List.length_append, List.length_cons, List.length_nil, decide_eq_true_eq]; omega
    refine ⟨s.port.writes, next.urgent, ?_, ?_, .inr ⟨rfl, rfl, rfl⟩⟩
    · simp only [Port.requestMark, hqh, hqf, Bool.or_true, if_true, joinMark_none q hqt, hrw, List.append_assoc,
        List.cons_append, List.nil_append]
    · simp only [Port.requestMark, hqh, hqf, Bool.or_true, if_true, joinMark_none q hqt]

/-- A record advances the written count, and its MARK covers it. -/
theorem formRecord_covers (s : State) (next : NextRecord) (left : Journal) (ho : s.port.Ordered)
    (hfree : s.port.writes.length + 2 ≤ Config.writesMax) (h : s.port.Covers s.journal.written) :
    (s.formRecord next left).port.Covers (s.journal.written + 1#32) := by
  obtain ⟨front, u, hw, hh, hold⟩ := formRecord_writes s next left ho hfree
  have hser := record_serial next (s.journal.written.setWidth 16) s.run.clock
  have hnext : (s.journal.written + 1#32).setWidth 16 =
      halfAt (next.bytes (s.journal.written.setWidth 16) s.run.clock) 0 + 1#16 := by
    rw [hser, BitVec.setWidth_add _ _ (by decide)]; rfl
  refine ⟨?_, fun m hm => ?_, fun m hm => by rw [hh] at hm; cases hm⟩
  · rw [hw]
    rcases hold with ⟨m, ht, hs, _⟩ | ⟨_, hs, _⟩
    · refine covered_insert (c := m.covered) (u := m.urgent) ?_ hnext (by rw [← hs]; exact h.chain)
      rw [hser, h.tail m ht]
    · exact covered_pair hnext (by rw [← hs]; exact ho.followed) (by rw [← hs]; exact h.chain)
  · have hl := tailMark_last hm
    rw [hw] at hl
    simp only [List.getLast?_append, List.getLast?_cons_cons, List.getLast?_singleton, Option.some_or, Option.some.injEq,
      WriteEntry.mark.injEq] at hl
    exact hl.1.symm

/-- The end of the write in flight: the freed entry goes to an owed STATUS or to the held MARK. -/
theorem offerFreed_covers (w : WriteEntry) (a : Nat) (b : List Byte) (ho : p.Ordered) (h : p.Covers n)
    (hi : p.inFlight = some (.write w a b)) :
    ({ p with writes := p.writes.drop 1, inFlight := none }.offerFreed).Covers n := by
  have hbase : ({ p with writes := p.writes.drop 1, inFlight := none } : Port).Covers n := by
    refine ⟨covered_drop h.chain, fun m hm => h.tail m ?_, h.held⟩
    rw [← hm]
    apply tailMark_congr
    simp only [Port.unstarted, Port.writeInFlight, hi, if_true, Bool.false_eq_true, if_false]
  simp only [Port.offerFreed]
  split
  · refine ⟨covered_append _ (followed_drop ho.followed) (covered_drop h.chain), fun m hm => ?_, h.held⟩
    have hl := tailMark_last hm
    simp only [List.getLast?_concat, Option.some.injEq, reduceCtorEq] at hl
  · next hn =>
    have hno := firstOwed_none { p with writes := p.writes.drop 1, inFlight := none } hn
    split
    · next m hm =>
      have hcov : m.covered = n := h.held m hm
      have hj : ({ p with writes := p.writes.drop 1, inFlight := none, heldMark := none } : Port).Covers n :=
        ⟨hbase.chain, fun m' hm' => hbase.tail m' (by rw [← hm']; rfl), fun m' hm' => by cases hm'⟩
      have hjo : ({ p with writes := p.writes.drop 1, inFlight := none, heldMark := none } : Port).Ordered :=
        ⟨fun _ _ _ hc => (by cases hc), followed_drop ho.followed, fun e he => absurd he (by rw [hno e]; decide),
          fun hc => (by cases hc)⟩
      have e : { Port.joinMark m.covered m.urgent { p with writes := p.writes.drop 1, inFlight := none } with
          heldMark := none } =
          Port.joinMark m.covered m.urgent { p with writes := p.writes.drop 1, inFlight := none, heldMark := none } := by
        simp only [Port.joinMark, Port.tailMark, Port.unstarted, Port.writeInFlight]
        split <;> split <;> simp_all
      rw [e, hcov]
      exact joinMark_covers m.urgent hjo hj
    · exact hbase

end Sys2Proof.Machine
end

