-- ==== Sys2Proof/Laws/Drain.lean ====
section
/-! SUPPORT. What a status pass and the end of the drain do, each said once: what waits in the Memory Port stays waiting,
what becomes of each station, and what is left of the reads. -/

namespace Sys2Proof.Machine

variable {p q : Port} (s : State)

/-- Two states that agree in every part are the same. -/
theorem state_eq {s t : State} (h1 : s.pending = t.pending) (h2 : s.run = t.run) (h3 : s.irq = t.irq)
    (h4 : s.line = t.line) (h5 : s.sched = t.sched) (h6 : s.stations = t.stations) (h7 : s.tornReads = t.tornReads)
    (h8 : s.journal = t.journal) (h9 : s.exch = t.exch) (h10 : s.port = t.port) (h11 : s.memory = t.memory)
    (h12 : s.draws = t.draws) : s = t := by
  cases s; cases t; simp_all

/-! ### What waits to be written stays -/

/-- What waits to be written in `p` waits in `q` too. -/
def Port.KeepsWaiting (p q : Port) : Prop :=
  (∀ w ∈ p.writes, w ∈ q.writes) ∧ (∀ e : Entry, p.owed[e.val] = true → q.owed[e.val] = true) ∧
  q.heldMark = p.heldMark

theorem keepsWaiting_refl (p : Port) : p.KeepsWaiting p := ⟨fun _ h => h, fun _ h => h, rfl⟩

theorem Port.KeepsWaiting.trans {r : Port} (h : p.KeepsWaiting q) (k : q.KeepsWaiting r) : p.KeepsWaiting r :=
  ⟨fun w hw => k.1 w (h.1 w hw), fun e he => k.2.1 e (h.2.1 e he), k.2.2.trans h.2.2⟩

/-- A STATUS that waits or is owed still is. -/
theorem Port.KeepsWaiting.status (h : p.KeepsWaiting q) {e : Entry}
    (k : .status e ∈ p.writes ∨ p.owed[e.val] = true) : .status e ∈ q.writes ∨ q.owed[e.val] = true :=
  k.imp (h.1 _) (h.2.1 _)

theorem keepsWaiting_startTransaction : s.port.KeepsWaiting s.startTransaction.port := by
  obtain ⟨hw, ho, hm, _⟩ := startTransaction_queue s
  exact ⟨fun w h => by rw [hw]; exact h, fun e h => by rw [ho]; exact h, hm⟩

theorem keepsWaiting_requestStatus (e : Entry) : s.port.KeepsWaiting (s.requestStatus e).port := by
  have hp : s.port.KeepsWaiting (s.port.requestStatus e) := by
    simp only [Port.requestStatus]
    (repeat' split)
    · exact keepsWaiting_refl _
    · exact keepsWaiting_refl _
    · exact ⟨fun w h => List.mem_append_left _ h, fun _ h => h, rfl⟩
    · refine ⟨fun _ h => h, fun e' h => ?_, rfl⟩
      simp only [Vector.getElem_set]
      split
      · rfl
      · exact h
  exact hp.trans (keepsWaiting_startTransaction
    ((s.onPort (·.requestStatus e)).onLink e fun l => { l with countersChanged := false }))

/-- While a transaction is in flight the arbiter starts none, and with no read waiting it takes none: the reads stand. -/
theorem startTransaction_reads (h : s.port.inFlight.isSome = true ∨ s.port.reads = []) :
    s.startTransaction.port.reads = s.port.reads ∧
    (s.startTransaction.port.inFlight.isSome = true ∨ s.startTransaction.port.reads = []) := by
  rcases startTransaction_cases s with k | ⟨hi, r, rest, hr, k⟩ | ⟨hi, w, rest, hw, k⟩ <;> rw [k]
  · exact ⟨rfl, h⟩
  · rcases h with h | h
    · rw [hi] at h; exact absurd h (by simp)
    · rw [hr] at h; exact absurd h (by simp)
  · exact ⟨rfl, .inl rfl⟩

theorem requestStatus_reads (e : Entry) (h : s.port.inFlight.isSome = true ∨ s.port.reads = []) :
    (s.requestStatus e).port.reads = s.port.reads ∧
    ((s.requestStatus e).port.inFlight.isSome = true ∨ (s.requestStatus e).port.reads = []) := by
  have hp : (s.port.requestStatus e).reads = s.port.reads ∧ (s.port.requestStatus e).inFlight = s.port.inFlight := by
    simp only [Port.requestStatus]; (repeat' split) <;> exact ⟨rfl, rfl⟩
  have := startTransaction_reads
    ((s.onPort (·.requestStatus e)).onLink e fun l => { l with countersChanged := false })
    (by rw [onLink_port, onPort_port, hp.1, hp.2]; exact h)
  rw [onLink_port, onPort_port, hp.1] at this
  exact this

/-- A RECORD asked for leaves the reads. -/
theorem requestRecord_reads (slot : Nat) (bytes : List Byte) (h : s.port.inFlight.isSome = true ∨ s.port.reads = []) :
    (s.requestRecord slot bytes).port.reads = s.port.reads ∧
    ((s.requestRecord slot bytes).port.inFlight.isSome = true ∨ (s.requestRecord slot bytes).port.reads = []) := by
  have hp : (s.port.requestRecord slot bytes).reads = s.port.reads ∧
      (s.port.requestRecord slot bytes).inFlight = s.port.inFlight := by
    simp only [Port.requestRecord]; (repeat' split) <;> exact ⟨rfl, rfl⟩
  have := startTransaction_reads (s.onPort (·.requestRecord slot bytes)) (by rw [onPort_port, hp.1, hp.2]; exact h)
  rw [onPort_port, hp.1] at this
  exact this

/-- A MARK asked for leaves the reads. -/
theorem requestMark_reads (c : Word) (u : Bool) (h : s.port.inFlight.isSome = true ∨ s.port.reads = []) :
    (s.requestMark c u).port.reads = s.port.reads ∧
    ((s.requestMark c u).port.inFlight.isSome = true ∨ (s.requestMark c u).port.reads = []) := by
  have hp : (s.port.requestMark c u).reads = s.port.reads ∧
      (s.port.requestMark c u).inFlight = s.port.inFlight := by
    simp only [Port.requestMark, Port.joinMark]; (repeat' split) <;> exact ⟨rfl, rfl⟩
  have := startTransaction_reads (s.onPort (·.requestMark c u)) (by rw [onPort_port, hp.1, hp.2]; exact h)
  rw [onPort_port, hp.1] at this
  exact this

/-- The forming of a record leaves the reads (R111). -/
theorem formRecord_reads (next : NextRecord) (left : Journal) (h : s.port.inFlight.isSome = true ∨ s.port.reads = []) :
    (s.formRecord next left).port.reads = s.port.reads ∧
    ((s.formRecord next left).port.inFlight.isSome = true ∨ (s.formRecord next left).port.reads = []) := by
  obtain ⟨h1, h2⟩ := requestRecord_reads (s.onJournal fun _ => left) (s.journal.written.toNat % s.cfg.journalCapacity)
    (next.bytes (s.journal.written.setWidth 16) s.run.clock) h
  obtain ⟨k1, k2⟩ := requestMark_reads
    (((s.onJournal fun _ => left).requestRecord (s.journal.written.toNat % s.cfg.journalCapacity)
      (next.bytes (s.journal.written.setWidth 16) s.run.clock)).onJournal fun j =>
        { j with written := s.journal.written + 1#32 })
    (s.journal.written + 1#32) next.urgent h2
  exact ⟨k1.trans h1, k2⟩

/-- A MARK asked for waits in the queue, or is held with the covered count asked for; it takes no other write out of
the queue (R155). -/
theorem requestMark_waits (p : Port) (c : Word) (u : Bool) :
    ((∃ urgent, .mark c urgent ∈ (p.requestMark c u).writes) ∨
      ∃ urgent, (p.requestMark c u).heldMark = some ⟨c, urgent⟩) ∧
    ∀ w ∈ p.writes, w.isMark = false → w ∈ (p.requestMark c u).writes := by
  simp only [Port.requestMark]
  split
  · exact ⟨.inr ⟨_, rfl⟩, fun _ h _ => h⟩
  · split
    · simp only [Port.joinMark]
      split
      · next m hm =>
        refine ⟨.inl ⟨_, List.mem_append_right _ List.mem_cons_self⟩, fun w hw hk => List.mem_append_left _ ?_⟩
        obtain ⟨front, hf, _⟩ := tailMark_some p hm
        rw [hf] at hw ⊢
        rw [List.dropLast_concat]
        rcases List.mem_append.1 hw with h | h
        · exact h
        · rw [List.mem_singleton.1 h] at hk; cases hk
      · exact ⟨.inl ⟨_, List.mem_append_right _ List.mem_cons_self⟩, fun w hw _ => List.mem_append_left _ hw⟩
    · exact ⟨.inr ⟨_, rfl⟩, fun _ h _ => h⟩

/-- The same of the state, where the arbiter may start it at once (R155, R156). -/
theorem requestMark_waits_state (c : Word) (u : Bool) :
    ((∃ urgent, .mark c urgent ∈ (s.requestMark c u).port.writes) ∨
      ∃ urgent, (s.requestMark c u).port.heldMark = some ⟨c, urgent⟩) ∧
    ∀ w ∈ s.port.writes, w.isMark = false → w ∈ (s.requestMark c u).port.writes := by
  obtain ⟨hw, _, hm, _⟩ := startTransaction_queue (s.onPort (·.requestMark c u))
  rw [State.requestMark, hw, hm, onPort_port]
  exact requestMark_waits s.port c u

/-! ### The status pass -/

/-- A status pass over some entries requests the STATUS of each of them whose counters changed, clears the mark of
each, and leaves every other part of the stations, the reads and what waits (R148). -/
theorem statusPassOver_does (es : List Entry) : ∀ s : State,
    s.port.KeepsWaiting (s.statusPassOver es).port ∧
    (s.port.inFlight.isSome = true ∨ s.port.reads = [] → (s.statusPassOver es).port.reads = s.port.reads ∧
      ((s.statusPassOver es).port.inFlight.isSome = true ∨ (s.statusPassOver es).port.reads = [])) ∧
    (∀ e ∈ es, (s.station e).link.countersChanged = true →
      .status e ∈ (s.statusPassOver es).port.writes ∨ (s.statusPassOver es).port.owed[e.val] = true) ∧
    ∀ e, (s.statusPassOver es).station e = { s.station e with
      link := { (s.station e).link with
        countersChanged := (s.station e).link.countersChanged && !decide (e ∈ es) } } := by
  induction es with
  | nil => intro s; exact ⟨keepsWaiting_refl _, fun h => ⟨rfl, h⟩, by simp, fun e => by simp [State.statusPassOver]⟩
  | cons x rest ih =>
    intro s
    simp only [State.statusPassOver]
    split
    · next hc =>
      obtain ⟨h1, h2, h3, h4⟩ := ih (s.requestStatus x)
      have hst := requestStatus_station s x
      refine ⟨(keepsWaiting_requestStatus s x).trans h1, fun h => ?_, fun e he hcc => ?_, fun e => ?_⟩
      · obtain ⟨k1, k2⟩ := requestStatus_reads s x h
        exact ⟨(h2 k2).1.trans k1, (h2 k2).2⟩
      · by_cases hx : x = e
        · subst hx; exact h1.status (requestStatus_waits_state s x)
        · refine h3 e ((List.mem_cons.1 he).resolve_left (fun k => hx k.symm)) ?_
          rw [hst, if_neg hx]; exact hcc
      · rw [h4, hst]
        by_cases hx : x = e
        · subst hx; simp
        · simp [hx, show ¬e = x from fun k => hx k.symm]
    · next hc =>
      obtain ⟨h1, h2, h3, h4⟩ := ih s
      refine ⟨h1, h2, fun e he hcc => ?_, fun e => ?_⟩
      · refine h3 e ((List.mem_cons.1 he).resolve_left ?_) hcc
        rintro rfl; exact hc hcc
      · rw [h4]
        by_cases hx : e = x
        · subst hx; simp only [Bool.not_eq_true] at hc; simp [hc]
        · simp [hx]

/-! ### The end of the drain -/

/-- Withdrawn fetches complete as discarded, and nothing else of a station changes (R160). -/
theorem discardFetches_station (rs : List Read) : ∀ (s : State) (e : Entry),
    (s.discardFetches rs).station e = { s.station e with
      output := if .image e ∈ rs then (s.station e).output.fetchDiscarded else (s.station e).output } := by
  induction rs with
  | nil => intro s e; simp [State.discardFetches]
  | cons r rest ih =>
    intro s e
    cases r with
    | image x =>
      simp only [State.discardFetches, ih, onOutput_station]
      by_cases hx : x = e
      · subst hx; simp [Output.fetchDiscarded]
      · simp [hx, show ¬e = x from fun k => hx k.symm]
    | start i => simp [State.discardFetches, ih]
    | released => simp [State.discardFetches, ih]
    | live x => simp [State.discardFetches, ih]

/-- The end of the drain: the final MARK is asked for, the sweeps end with the status pass in their place, every read
not started is withdrawn and each fetch among them completes as discarded; the other units stand (R121, R149, R160). -/
theorem endDrain_does :
    s.endDrain = { s with
      journal := { s.journal with drain := .ended, drainTimer := none }
      exch := { s.exch with sweepTimer := none, sweepAgain := false, sweepInFlight := false }
      stations := s.endDrain.stations
      port := s.endDrain.port } ∧
    s.endDrain.port.reads = [] ∧
    (∀ w ∈ s.port.writes, w.isMark = false → w ∈ s.endDrain.port.writes) ∧
    ((∃ urgent, .mark s.journal.written urgent ∈ s.endDrain.port.writes) ∨
      ∃ urgent, s.endDrain.port.heldMark = some ⟨s.journal.written, urgent⟩) ∧
    (s.port.inFlight.isSome = true ∨ s.port.reads = [] → ∀ e,
      ((s.station e).takesPart = true → (s.station e).link.countersChanged = true →
        .status e ∈ s.endDrain.port.writes ∨ s.endDrain.port.owed[e.val] = true) ∧
      s.endDrain.station e = { s.station e with
        link := { (s.station e).link with
          countersChanged := (s.station e).link.countersChanged && !(s.station e).takesPart }
        output := if .image e ∈ s.port.reads then (s.station e).output.fetchDiscarded
          else (s.station e).output }) := by
  let marked := (s.onJournal fun j => { j with drain := .ended, drainTimer := none }).requestMark s.journal.written false
  let closed := marked.onExch fun x => { x with sweepTimer := none, sweepAgain := false, sweepInFlight := false }
  let passed := closed.statusPassOver closed.takingPart
  have hEnd : s.endDrain = (passed.discardFetches passed.port.reads).onPort Port.withdrawReads := rfl
  have hMark := requestMark_waits_state (s.onJournal fun j => { j with drain := .ended, drainTimer := none })
    s.journal.written false
  obtain ⟨hWait, hReads, hStatus, hStation⟩ := statusPassOver_does closed.takingPart closed
  have hPort : s.endDrain.port = passed.port.withdrawReads := by rw [hEnd, onPort_port, (discardFetches_keeps _ _).2.2.2.2.2.2.2.2.1]
  have hClosed : ∀ e, closed.station e = s.station e := fun e => by simp [closed, marked]
  refine ⟨?_, ?_, ?_, ?_, ?_⟩
  · rw [hEnd]
    refine state_eq ?_ ?_ ?_ ?_ ?_ ?_ ?_ ?_ ?_ ?_ ?_ ?_ <;> simp [passed, closed, marked]
  · rw [hPort]; rfl
  · intro w hw hk
    rw [hPort]
    exact hWait.1 w (hMark.2 w hw hk)
  · rw [hPort]
    refine hMark.1.imp (fun ⟨u, h⟩ => ⟨u, hWait.1 _ h⟩) (fun ⟨u, h⟩ => ⟨u, hWait.2.2.trans h⟩)
  · intro h e
    have hr := requestMark_reads (s.onJournal fun j => { j with drain := .ended, drainTimer := none })
      s.journal.written false h
    have hTakes : e ∈ closed.takingPart ↔ (s.station e).takesPart = true := by
      simp [State.takingPart, allEntries, hClosed]
    refine ⟨fun ht hc => ?_, ?_⟩
    · rw [hPort]
      exact hStatus e (hTakes.2 ht) (by rw [hClosed]; exact hc)
    · have hd : decide (e ∈ closed.takingPart) = (s.station e).takesPart := by
        rw [Bool.eq_iff_iff, decide_eq_true_eq]; exact hTakes
      have hp : passed.port.reads = s.port.reads := (hReads hr.2).1.trans hr.1
      rw [hEnd, onPort_station, discardFetches_station, hStation, hClosed, hd, hp]

/-- The final MARK waits, so that HALTED is not entered within the command that ends the drain (R160, R171). -/
theorem haltIfQuiet_endDrain (h : s.run.state = .stopping) : s.endDrain.haltIfQuiet = s.endDrain := by
  obtain ⟨-, -, -, hMark, -⟩ := endDrain_does s
  have hq : s.endDrain.port.quiet = false := by
    rcases hMark with ⟨u, hu⟩ | ⟨u, hu⟩
    · have : s.endDrain.port.writes ≠ [] := List.ne_nil_of_mem hu
      simp [Port.quiet, this]
    · simp [Port.quiet, hu]
  simp [State.haltIfQuiet, h, hq]

end Sys2Proof.Machine
end

