-- ==== Sys2Proof/Laws/Line.lean ====
section
/-! SUPPORT. The line's small facts: a saturating count by one, the millisecond of a disturbance, and when the settings
fix that the quiet gap has passed at NO_REPLY. -/

namespace Sys2Proof.Machine

/-- One added to a saturating count, either way it is written. -/
theorem satAdd_one {w : Nat} (x : BitVec w) : satAdd x 1 = satInc x := by
  have h := x.isLt
  have full : x = BitVec.allOnes w ↔ ¬x.toNat + 1 < 2 ^ w := by
    rw [← BitVec.toNat_inj, BitVec.toNat_allOnes]; omega
  by_cases k : x.toNat + 1 < 2 ^ w
  · have n : x ≠ BitVec.allOnes w := fun e => full.1 e k
    rw [satAdd, if_pos k, satInc, if_neg n, BitVec.ofNat_add, BitVec.ofNat_toNat, BitVec.setWidth_eq]
  · rw [satAdd, if_neg k, satInc, if_pos (full.2 k), full.2 k]

/-- A millisecond changes nothing of the line but the time it has been DISTURBED (R15). -/
theorem passMillisecond_eq (l : Line) :
    l.passMillisecond =
      { l with disturbedMs := if l.state = .disturbed then min 65536 (l.disturbedMs + 1) else l.disturbedMs } := by
  unfold Line.passMillisecond; split <;> simp [*]

/-- The milliseconds that LINE_CLEAR carries: those counted in DISTURBED, or one fewer, whatever the free value (R15; log
entry 9). -/
theorem disturbedFor_cases (cutShort : Bool) (l : Line) :
    ∃ ms, (ms = l.disturbedMs ∨ ms + 1 = l.disturbedMs) ∧
      l.disturbedFor cutShort = BitVec.ofNat 16 (min 65535 ms) := by
  refine ⟨l.disturbedMs - cutShort.toNat, ?_, rfl⟩
  cases cutShort <;> (simp; try omega)

theorem gapPassedAtWindow_iff (g : Settings) :
    gapPassedAtWindow g = true ↔ 44000 ≤ g.responseWindow * Config.bitRate g.lineRate := decide_eq_true_iff

theorem gapOpen_iff (g : Settings) :
    gapOpen g = true ↔ g.responseWindow * Config.bitRate g.lineRate < 44000 ∧
      44000 ≤ g.responseWindow * Config.bitRate g.lineRate + 11000 := by
  rw [gapOpen, Bool.and_eq_true, Bool.not_eq_true', ← Bool.not_eq_true, gapPassedAtWindow_iff, Nat.not_le]
  exact and_congr Iff.rfl decide_eq_true_iff

end Sys2Proof.Machine
end

