-- ==== Sys2Proof/Laws/PerInstr.lean ====
section
/-! SUPPORT. What well-formedness says of a command's operands, one lemma per constructor. -/

namespace Sys2Proof

open Sys2Proof.Machine

/-- The byte lanes of a register write, where the command is one (R163). -/
def Instr.lanes : Instr → Option (BitVec 4)
  | .undefinedCommand lanes _ | .exbaseLoWrite lanes _ | .exbaseHiWrite lanes _ | .causeWrite lanes _
  | .maskWrite lanes _ | .otherRegisterWrite _ lanes _ => some lanes
  | _ => none

/-- The bytes of a completed read, where the command is one (R151). -/
def Instr.bytesRead : Instr → Option (List Byte)
  | .releasedCountReadComplete data | .livePartReadComplete data | .imageFetchComplete data
  | .startReadComplete data => some data
  | _ => none

/-- A well-formed command writes some byte lane, and carries 4, 12, 20, 44 or 64 bytes read. -/
def Laws.Operands.Statement (i : Instr) : Prop :=
  i.wellFormed = true → i.lanes ≠ some 0#4 ∧ ∀ data ∈ i.bytesRead, data.length ∈ [4, 12, 20, 44, 64]

namespace Laws.Operands

theorem fullReset : Statement .fullReset := by
  simp [Statement, Instr.lanes, Instr.bytesRead]

theorem resetRelease : Statement .resetRelease := by
  simp [Statement, Instr.lanes, Instr.bytesRead]

theorem start : Statement .start := by
  simp [Statement, Instr.lanes, Instr.bytesRead]

theorem stop : Statement .stop := by
  simp [Statement, Instr.lanes, Instr.bytesRead]

theorem sweep : Statement .sweep := by
  simp [Statement, Instr.lanes, Instr.bytesRead]

theorem clearFault : Statement .clearFault := by
  simp [Statement, Instr.lanes, Instr.bytesRead]

theorem undefinedCommand (lanes : BitVec 4) (value : Word) : Statement (.undefinedCommand lanes value) := by
  simp [Statement, Instr.wellFormed, Instr.lanes, Instr.bytesRead]
  intro h _; exact h

theorem exbaseLoWrite (lanes : BitVec 4) (value : Word) : Statement (.exbaseLoWrite lanes value) := by
  simp [Statement, Instr.wellFormed, Instr.lanes, Instr.bytesRead]

theorem exbaseHiWrite (lanes : BitVec 4) (value : Word) : Statement (.exbaseHiWrite lanes value) := by
  simp [Statement, Instr.wellFormed, Instr.lanes, Instr.bytesRead]

theorem causeWrite (lanes : BitVec 4) (value : Word) : Statement (.causeWrite lanes value) := by
  simp [Statement, Instr.wellFormed, Instr.lanes, Instr.bytesRead]

theorem maskWrite (lanes : BitVec 4) (value : Word) : Statement (.maskWrite lanes value) := by
  simp [Statement, Instr.wellFormed, Instr.lanes, Instr.bytesRead]

theorem otherRegisterWrite (offset : BitVec 6) (lanes : BitVec 4) (value : Word) : Statement (.otherRegisterWrite offset lanes value) := by
  simp [Statement, Instr.wellFormed, Instr.lanes, Instr.bytesRead]

theorem panelClockAdvance : Statement .panelClockAdvance := by
  simp [Statement, Instr.lanes, Instr.bytesRead]

theorem characterReceived (data : Byte) (parityBit stopBit : Bool) : Statement (.characterReceived data parityBit stopBit) := by
  simp [Statement, Instr.lanes, Instr.bytesRead]

theorem pairReturnsToRest : Statement .pairReturnsToRest := by
  simp [Statement, Instr.lanes, Instr.bytesRead]

theorem pairLeavesRest : Statement .pairLeavesRest := by
  simp [Statement, Instr.lanes, Instr.bytesRead]

theorem frameSent : Statement .frameSent := by
  simp [Statement, Instr.lanes, Instr.bytesRead]

theorem replyWindowExpiry : Statement .replyWindowExpiry := by
  simp [Statement, Instr.lanes, Instr.bytesRead]

theorem interCharacterLimitExpiry : Statement .interCharacterLimitExpiry := by
  simp [Statement, Instr.lanes, Instr.bytesRead]

theorem discardPeriodEnd : Statement .discardPeriodEnd := by
  simp [Statement, Instr.lanes, Instr.bytesRead]

theorem quietGapExpiry : Statement .quietGapExpiry := by
  simp [Statement, Instr.lanes, Instr.bytesRead]

theorem busyLimitExpiry : Statement .busyLimitExpiry := by
  simp [Statement, Instr.lanes, Instr.bytesRead]

theorem clearTestExpiry : Statement .clearTestExpiry := by
  simp [Statement, Instr.lanes, Instr.bytesRead]

theorem stopLimitExpiry : Statement .stopLimitExpiry := by
  simp [Statement, Instr.lanes, Instr.bytesRead]

theorem cycleTimerExpiry : Statement .cycleTimerExpiry := by
  simp [Statement, Instr.lanes, Instr.bytesRead]

theorem timeMarkDue : Statement .timeMarkDue := by
  simp [Statement, Instr.lanes, Instr.bytesRead]

theorem sweepTimerExpiry : Statement .sweepTimerExpiry := by
  simp [Statement, Instr.lanes, Instr.bytesRead]

theorem releasedCountReadComplete (data : List Byte) : Statement (.releasedCountReadComplete data) := by
  simp [Statement, Instr.wellFormed, Instr.lanes, Instr.bytesRead]
  omega

theorem livePartReadComplete (data : List Byte) : Statement (.livePartReadComplete data) := by
  simp [Statement, Instr.wellFormed, Instr.lanes, Instr.bytesRead]
  omega

theorem imageFetchComplete (data : List Byte) : Statement (.imageFetchComplete data) := by
  simp [Statement, Instr.wellFormed, Instr.lanes, Instr.bytesRead]
  omega

theorem startReadComplete (data : List Byte) : Statement (.startReadComplete data) := by
  simp [Statement, Instr.wellFormed, Instr.lanes, Instr.bytesRead]
  omega

theorem recordTaken : Statement .recordTaken := by
  simp [Statement, Instr.lanes, Instr.bytesRead]

theorem stopDrainLimitExpiry : Statement .stopDrainLimitExpiry := by
  simp [Statement, Instr.lanes, Instr.bytesRead]

theorem statusWriteComplete : Statement .statusWriteComplete := by
  simp [Statement, Instr.lanes, Instr.bytesRead]

theorem recordWriteComplete : Statement .recordWriteComplete := by
  simp [Statement, Instr.lanes, Instr.bytesRead]

theorem markWriteComplete : Statement .markWriteComplete := by
  simp [Statement, Instr.lanes, Instr.bytesRead]

theorem holdOffExpiry : Statement .holdOffExpiry := by
  simp [Statement, Instr.lanes, Instr.bytesRead]

theorem busErrorResponse : Statement .busErrorResponse := by
  simp [Statement, Instr.lanes, Instr.bytesRead]

theorem memoryAccessTimeout : Statement .memoryAccessTimeout := by
  simp [Statement, Instr.lanes, Instr.bytesRead]

theorem lateErrorResponse : Statement .lateErrorResponse := by
  simp [Statement, Instr.lanes, Instr.bytesRead]

theorem lateCompletion : Statement .lateCompletion := by
  simp [Statement, Instr.lanes, Instr.bytesRead]

theorem startBitConfirmed : Statement .startBitConfirmed := by
  simp [Statement, Instr.lanes, Instr.bytesRead]

theorem receiverArmed : Statement .receiverArmed := by
  simp [Statement, Instr.lanes, Instr.bytesRead]

end Laws.Operands

end Sys2Proof
end

