-- ==== Sys2Proof/Laws/Quiet.lean ====
section
/-! SUPPORT. What leads up to HALTED: when the Memory Port is quiet after a write, what an announcement makes of the
counts and of CAUSE, and what the entries to HALTED leave. -/

namespace Sys2Proof.Machine

/-! ### The Memory Port after a write -/

/-- The arbiter leaves the port quiet exactly where nothing waited. -/
theorem startTransaction_quiet (s : State) (ht : s.run.state.transacts = true) (hi : s.port.inFlight = none) :
    s.startTransaction.port.quiet = true ↔
      s.port.reads = [] ∧ s.port.writes = [] ∧ s.port.noneOwed = true ∧ s.port.heldMark = none := by
  simp only [State.startTransaction, ht, hi, Option.isNone_none, Bool.and_self, if_true, State.chooseTransaction]
  split
  · next hr hw => simp [Port.quiet, hi, hr, hw]
  · next r rest hr hw => simp [State.startRead, Port.quiet, hr]
  · next w rest hr hw => simp [State.startWrite, Port.quiet, hw]
  · next r rest w rest' hr hw => split <;> simp [State.startRead, State.startWrite, Port.quiet, hr]

/-- Offering a freed entry leaves nothing waiting exactly where nothing waited. -/
theorem offerFreed_empty (p : Port) :
    (p.offerFreed.reads = [] ∧ p.offerFreed.writes = [] ∧ p.offerFreed.noneOwed = true ∧
      p.offerFreed.heldMark = none) ↔
    (p.reads = [] ∧ p.writes = [] ∧ p.noneOwed = true ∧ p.heldMark = none) := by
  have hno : p.noneOwed = true ↔ p.firstOwed = none := by simp [Port.noneOwed]
  unfold Port.offerFreed
  cases h : p.firstOwed with
  | some e => simp [hno, h]
  | none =>
    cases hm : p.heldMark with
    | none => simp [hm]
    | some m =>
      cases ht : p.tailMark with
      | some m' => simp [Port.joinMark, ht]
      | none => simp [Port.joinMark, ht]

/-- Once a write has ended, something waits exactly where more waited than that write. -/
theorem endWrite_empty (s : State) (a : Nat) (b : List Byte) :
    ((s.endWrite a b).port.reads = [] ∧ (s.endWrite a b).port.writes = [] ∧
      (s.endWrite a b).port.noneOwed = true ∧ (s.endWrite a b).port.heldMark = none) ↔
    s.port.moreWaits = false := by
  have hlen : s.port.writes.drop 1 = [] ↔ ¬2 ≤ s.port.writes.length := by
    rcases s.port.writes with _ | ⟨x, _ | ⟨y, ys⟩⟩ <;> simp
  simp only [State.endWrite, onPort_port, offerFreed_empty, hlen]
  have hn : ({ s.port with writes := s.port.writes.drop 1, inFlight := none } : Port).noneOwed = s.port.noneOwed := rfl
  rw [hn]
  simp only [Port.moreWaits, Bool.or_eq_false_iff, Bool.not_eq_false', decide_eq_false_iff_not,
    List.isEmpty_iff, Option.isSome_eq_false_iff, Option.isNone_iff_eq_none, and_assoc]

/-! ### Announcements -/

/-- What a decision of the coalescing logic can do: JOURNAL is set and the unannounced count zeroed, or neither. -/
theorem coalesce_parts (s : State) (before : Half) (urgent : Bool) :
    (s.coalesce before urgent).irq.mask = s.irq.mask ∧
    ((s.coalesce before urgent).journal = s.journal ∧ (s.coalesce before urgent).irq.cause = s.irq.cause ∨
      (s.coalesce before urgent).journal = { s.journal with unannounced := 0#16 } ∧
        (s.coalesce before urgent).irq.cause = s.irq.cause ||| 1#5) := by
  simp only [State.coalesce]
  generalize ht : (if before = 0#16 ∧ s.cfg.holdOff ≠ 0 then
    s.onIrq fun i => { i with holdOff := some (s.timer (.ms s.cfg.holdOff)) } else s) = timed
  obtain ⟨hj, hm, hc⟩ : timed.journal = s.journal ∧ timed.irq.mask = s.irq.mask ∧ timed.irq.cause = s.irq.cause := by
    subst ht; split <;> exact ⟨rfl, rfl, rfl⟩
  split
  · refine ⟨hm, .inr ⟨?_, ?_⟩⟩
    · rw [← hj]; rfl
    · rw [← hc]; rfl
  · exact ⟨hm, .inl ⟨hj, hc⟩⟩

/-- An announcement keeps the drain, the staging queue and the written count. -/
theorem announce_parts (s : State) (covered : Word) (urgent : Bool) :
    (s.announce covered urgent).irq.mask = s.irq.mask ∧
    (s.announce covered urgent).journal.drain = s.journal.drain ∧
    (s.announce covered urgent).journal.staging = s.journal.staging ∧
    (s.announce covered urgent).journal.written = s.journal.written := by
  simp only [State.announce]
  split
  · exact ⟨rfl, rfl, rfl, rfl⟩
  · obtain ⟨hm, ⟨hj, _⟩ | ⟨hj, _⟩⟩ :=
      coalesce_parts (s.onJournal (·.announce covered)) s.journal.unannounced urgent <;>
    exact ⟨hm, by rw [hj]; rfl, by rw [hj]; rfl, by rw [hj]; rfl⟩

/-! ### The entries to HALTED -/

/-- Return to HALTED from STOPPING: JOURNAL joins STATE where records are unsignalled. -/
theorem haltFromStopping_parts (s : State) :
    s.haltFromStopping.sched = { s.sched with visit := none } ∧
    s.haltFromStopping.irq.mask = s.irq.mask ∧ s.haltFromStopping.irq.holdOff = none ∧
    s.haltFromStopping.irq.cause =
      s.irq.cause ||| 0b00010#5 ||| (if s.journal.unannounced = 0#16 then 0#5 else 0b00001#5) ∧
    s.haltFromStopping.journal = { s.journal with unannounced := 0#16 } ∧
    s.haltFromStopping.line = s.line.switchOff := by
  simp only [State.haltFromStopping]
  split
  · next h =>
    refine ⟨rfl, rfl, rfl, ?_, ?_, rfl⟩
    · exact (BitVec.or_zero (x := s.irq.cause ||| 0b00010#5)).symm
    · rw [← h]; rfl
  · exact ⟨rfl, rfl, rfl, rfl, rfl, rfl⟩

@[simp] theorem forgetSweeps_station (s : State) (e : Entry) :
    s.forgetSweeps.station e = { s.station e with rememberedSounder := none, rememberedResync := none } := by
  simp [State.forgetSweeps, State.station]

@[simp] theorem forgetSweeps_exch (s : State) : s.forgetSweeps.exch = Exchange.reset := rfl

/-- What the halt that may follow leaves of every unit that the abandoned start has set. -/
theorem haltIfQuiet_starting (s : State) (h : s.run.state = .starting) :
    s.haltIfQuiet.line = s.line ∧ s.haltIfQuiet.journal = s.journal ∧ s.haltIfQuiet.sched = s.sched := by
  simp only [State.haltIfQuiet, h, reduceCtorEq, false_and, if_false]
  split <;> exact ⟨rfl, rfl, rfl⟩

/-- STOP in STARTING sets the Line Engine, the Journal Unit and the Exchange Unit, and of each station only the two
remembered values (R18, R122, R150). -/
theorem abandonStart_parts (s : State) (h : s.run.state = .starting) :
    s.abandonStart.line = s.line.released ∧ s.abandonStart.journal = s.journal.abandoned ∧
    s.abandonStart.exch = Exchange.reset ∧ s.abandonStart.sched = s.sched ∧
    ∀ e, s.abandonStart.station e =
      { s.station e with rememberedSounder := none, rememberedResync := none } := by
  refine ⟨(haltIfQuiet_starting _ ?_).1, (haltIfQuiet_starting _ ?_).2.1, (haltIfQuiet_keeps _).2.2.2.1,
    (haltIfQuiet_starting _ ?_).2.2, fun e => ((haltIfQuiet_keeps _).2.2.2.2.2.2.2 e).trans (forgetSweeps_station _ e)⟩
  all_goals exact h

end Sys2Proof.Machine
end

