-- ==== Sys2Proof/Laws/Refused.lean ====
section
/-! SUPPORT. The cycle's walk on a DISTURBED line, where each visit is refused at once and ends as a Visit LINE: what it
makes of each station, of the journal and of the Memory Port, said once (R5, R45, R54, R60, R63). -/

namespace Sys2Proof.Machine

variable (s : State)

/-! ### One visit -/

/-- A station whose visit has been refused: it begins, ends as a Visit LINE, and a pending disable takes effect. -/
def Station.refusedVisit (st : Station) : Station × List EventBody :=
  if st.beginVisit.link.disablePending then st.beginVisit.disable else (st.beginVisit, [])

theorem endVisit_line (settings : Settings) (now : Word) (st : Station) :
    st.beginVisit.endVisit settings now .line = st.refusedVisit := by
  simp only [Station.endVisit, Station.takeResult, Station.refusedVisit, List.nil_append]
  rfl

/-- A station once its end of visit has been reported: a STATUS request clears both marks (R63, R141). -/
def Station.reported (st : Station) : Station :=
  if st.link.statusChanged then
    { st with link := { st.link with statusChanged := false, countersChanged := false } }
  else st

/-- The events of a station, produced now. -/
def State.eventsOf (s : State) (e : Entry) (bodies : List EventBody) : List Event :=
  bodies.map (s.event (some e))

/-- At work, the submission of a station's events changes the journal alone. -/
theorem submitBodies_works (e : Entry) (bodies : List EventBody) (h : s.works = true) :
    s.submitBodies e bodies =
      { s with journal := (s.eventsOf e bodies).foldl (fun j x => j.submit x) s.journal } :=
  submitAll_works (s.eventsOf e bodies) s h

/-- A visit on a DISTURBED line is over at once. -/
theorem beginVisit_refused (e : Entry) (hd : s.line.state = .disturbed) (hw : s.works = true) :
    s.beginVisit e = { s with
      stations := (s.beginVisit e).stations
      sched := { s.sched with visit := none, nextIndex := e.val + 1 }
      journal := (s.eventsOf e (s.station e).refusedVisit.2).foldl (fun j x => j.submit x) s.journal
      port := (s.beginVisit e).port } ∧
    s.port.KeepsWaiting (s.beginVisit e).port ∧
    ((s.station e).refusedVisit.1.link.statusChanged = true →
      .status e ∈ (s.beginVisit e).port.writes ∨ (s.beginVisit e).port.owed[e.val] = true) ∧
    ∀ e', (s.beginVisit e).station e' =
      if e = e' then (s.station e).refusedVisit.1.reported else s.station e' := by
  have hb : s.beginVisit e = (s.onStation e (·.beginVisit)).endVisit e .line := by
    simp [State.beginVisit, State.refuses, hd]
  have he : ((s.onStation e (·.beginVisit)).station e).endVisit (s.onStation e (·.beginVisit)).cfg
      (s.onStation e (·.beginVisit)).run.clock .line = (s.station e).refusedVisit := by
    rw [onStation_station, if_pos rfl, endVisit_line]
  let ended := ((s.onStation e (·.beginVisit)).onStation e fun _ => (s.station e).refusedVisit.1).onSched fun c =>
    { c with visit := none, nextIndex := e.val + 1 }
  have hv : s.beginVisit e = ended.report e (s.station e).refusedVisit.2 := by
    rw [hb, State.endVisit, he]
  have hst : ∀ e', ended.station e' = if e = e' then (s.station e).refusedVisit.1 else s.station e' := by
    intro e'
    simp only [ended, onSched_station, onStation_station]
    split <;> rfl
  let told := if (ended.station e).link.statusChanged then
      (ended.requestStatus e).onLink e fun l => { l with statusChanged := false }
    else ended
  have ht : told = { ended with stations := told.stations, port := told.port } := by
    simp only [told]
    split
    · refine state_eq ?_ ?_ ?_ ?_ ?_ ?_ ?_ ?_ ?_ ?_ ?_ ?_ <;> simp
    · rfl
  have hu : ended.report e (s.station e).refusedVisit.2 = { told with
      journal := (s.eventsOf e (s.station e).refusedVisit.2).foldl (fun j x => j.submit x) s.journal } := by
    have hk : told.works = true := by rw [ht]; exact hw
    have hj : told.journal = s.journal := by rw [ht]; rfl
    have hv : told.eventsOf e (s.station e).refusedVisit.2 = s.eventsOf e (s.station e).refusedVisit.2 := by
      rw [ht]; rfl
    show told.submitBodies e _ = _
    rw [submitBodies_works told e _ hk, hj, hv]
  rw [hv, hu]
  have hs : (ended.station e).link.statusChanged = (s.station e).refusedVisit.1.link.statusChanged := by
    rw [hst, if_pos rfl]
  refine ⟨by rw [ht]; rfl, ?_, ?_, ?_⟩
  · show s.port.KeepsWaiting told.port
    simp only [told]
    split
    · exact keepsWaiting_requestStatus ended e
    · exact keepsWaiting_refl _
  · intro hc
    show .status e ∈ told.port.writes ∨ told.port.owed[e.val] = true
    simp only [told]
    rw [if_pos (hs.trans hc)]
    exact requestStatus_waits_state ended e
  · intro e'
    show told.station e' = _
    simp only [told, hs, Station.reported]
    by_cases hx : e = e'
    · subst hx
      split
      · simp [requestStatus_station, hst]
      · simp [hst]
    · split
      · simp [requestStatus_station, hst, hx]
      · simp [hst, hx]

/-! ### The walk -/

/-- The walk visits a station that is not DISABLED and is not skipped (R43, R45). -/
def State.visits (s : State) (e : Entry) : Bool :=
  (s.station e).polled && !(s.station e).link.skipped s.run.clock s.sched.cycleNumber s.cfg.searchDivisor

/-- A station as its hold is tested (R45). -/
def State.tested (s : State) (e : Entry) : Station :=
  { s.station e with link := (s.station e).link.testHold s.run.clock }

/-- What the walk makes of a station on a DISTURBED line. -/
def State.passed (s : State) (e : Entry) : Station :=
  if s.visits e then (s.tested e).refusedVisit.1.reported
  else if (s.station e).polled then s.tested e else s.station e

/-- What the walk over some entries on a DISTURBED line makes of a state. -/
structure State.Refused (s : State) (es : List Entry) (u : State) : Prop where
  parts : u = { s with stations := u.stations, sched := u.sched, journal := u.journal, port := u.port }
  sched : u.sched = { s.sched with cycleInProgress := false, nextIndex := u.sched.nextIndex }
  keeps : s.port.KeepsWaiting u.port
  status : ∀ e ∈ es, s.visits e = true → (s.tested e).refusedVisit.1.link.statusChanged = true →
    .status e ∈ u.port.writes ∨ u.port.owed[e.val] = true
  stations : ∀ e, u.station e = if e ∈ es then s.passed e else s.station e
  journal : u.journal = ((es.filter s.visits).flatMap fun e => s.eventsOf e (s.tested e).refusedVisit.2).foldl
    (fun j x => j.submit x) s.journal

/-- The walk over some entries on a DISTURBED line: each visit is over at once, and the cycle ends. -/
theorem walkOver_refused (es : List Entry) : ∀ s : State, s.line.state = .disturbed → s.works = true →
    s.sched.visit = none → es.Nodup → s.Refused es (s.walkOver es) := by
  induction es with
  | nil =>
    intro s _ _ _ _
    exact ⟨rfl, rfl, keepsWaiting_refl _, by simp, fun e => by simp [State.walkOver], rfl⟩
  | cons x rest ih =>
    intro s hd hw hv hn
    obtain ⟨hx, hrest⟩ := List.nodup_cons.1 hn
    -- One station is passed, and the walk goes on over the others from `t`.
    have step : ∀ t : State, s.walkOver (x :: rest) = t.walkOver rest →
        t = { s with stations := t.stations, sched := t.sched, journal := t.journal, port := t.port } →
        t.sched = { s.sched with nextIndex := t.sched.nextIndex } → s.port.KeepsWaiting t.port →
        (s.visits x = true → (s.tested x).refusedVisit.1.link.statusChanged = true →
          .status x ∈ t.port.writes ∨ t.port.owed[x.val] = true) →
        (∀ e, t.station e = if x = e then s.passed x else s.station e) →
        t.journal = (if s.visits x then s.eventsOf x (s.tested x).refusedVisit.2 else []).foldl
          (fun j e => j.submit e) s.journal → s.Refused (x :: rest) (s.walkOver (x :: rest)) := by
      intro t hwalk ht hsched hkeep hwait hst hj
      have hrun : t.run = s.run := by rw [ht]
      have hcfg : t.cfg = s.cfg := by simp only [State.cfg, hrun]
      have hsame : ∀ e ∈ rest, t.station e = s.station e := fun e he => by
        rw [hst, if_neg]; rintro rfl; exact hx he
      have hvisits : ∀ e ∈ rest, t.visits e = s.visits e := fun e he => by
        simp only [State.visits, hsame e he, hrun, hcfg]; rw [hsched]
      have htested : ∀ e ∈ rest, t.tested e = s.tested e := fun e he => by
        simp only [State.tested, hsame e he, hrun]
      have hpassed : ∀ e ∈ rest, t.passed e = s.passed e := fun e he => by
        simp only [State.passed, hsame e he, hvisits e he, htested e he]
      have hevents : ∀ e b, t.eventsOf e b = s.eventsOf e b := fun e b => by
        simp only [State.eventsOf]; congr 1; funext b; simp only [State.event, hrun]
      obtain ⟨k1, k2, k3, k4, k5, k6⟩ := ih t (by rw [ht]; exact hd) (by rw [ht]; exact hw) (by rw [hsched]; exact hv) hrest
      rw [hwalk]
      generalize t.walkOver rest = u at k1 k2 k3 k4 k5 k6
      refine ⟨?_, ?_, hkeep.trans k3, ?_, ?_, ?_⟩
      · exact k1.trans (by rw [ht])
      · rw [k2, hsched]
      · intro e he hvis hc
        rcases List.mem_cons.1 he with rfl | he
        · exact k3.status (hwait hvis hc)
        · exact k4 e he ((hvisits e he).trans hvis) (by rw [htested e he]; exact hc)
      · intro e
        rw [k5]
        by_cases hxe : x = e
        · subst hxe; rw [if_neg hx, hst, if_pos rfl, if_pos List.mem_cons_self]
        · by_cases he : e ∈ rest
          · rw [if_pos he, if_pos (List.mem_cons_of_mem _ he), hpassed e he]
          · rw [if_neg he, hst, if_neg hxe, if_neg (by simp [he, Ne.symm hxe])]
      · have hf : rest.filter t.visits = rest.filter s.visits := List.filter_congr hvisits
        have hm : (rest.filter s.visits).flatMap (fun e => t.eventsOf e (t.tested e).refusedVisit.2) =
            (rest.filter s.visits).flatMap fun e => s.eventsOf e (s.tested e).refusedVisit.2 := by
          simp only [List.flatMap]
          congr 1
          refine List.map_congr_left fun e he => ?_
          rw [htested e ((List.mem_filter.1 he).1), hevents]
        rw [k6, hf, hm, hj, ← List.foldl_append]
        congr 1
        simp only [List.filter_cons]
        split <;> simp
    by_cases hp : (s.station x).polled = true
    · by_cases hk : (s.station x).link.skipped s.run.clock s.sched.cycleNumber s.cfg.searchDivisor = true
      · have hvis : s.visits x = false := by simp [State.visits, hk]
        refine step ((s.onLink x (·.testHold s.run.clock)).onSched fun c => { c with nextIndex := x.val + 1 })
          (by simp only [State.walkOver, hp, hk, if_true]) rfl rfl (keepsWaiting_refl _) (by simp [hvis]) ?_
          (by simp [hvis])
        intro e
        simp only [State.passed, hvis, hp, Bool.false_eq_true, if_false, if_true, State.tested, onSched_station,
          onLink_station]
      · have hvis : s.visits x = true := by simp [State.visits, hk, hp]
        let tested := s.onLink x (·.testHold s.run.clock)
        have hts : tested.station x = s.tested x := by simp [tested, State.tested]
        obtain ⟨k1, k2, k3, k4⟩ := beginVisit_refused tested x hd hw
        rw [hts] at k1 k3 k4
        have hov : (tested.beginVisit x).sched.visit.isSome = false := by rw [k1]; rfl
        refine step (tested.beginVisit x) ?_ ?_ ?_ k2 (fun _ => k3) ?_ ?_
        · simp only [State.walkOver, hp, if_true]
          rw [if_neg hk, if_neg (by rw [hov]; decide)]
        · rw [k1]; rfl
        · rw [k1, ← hv]; rfl
        · intro e
          rw [k4]
          simp only [State.passed, hvis, if_true]
          by_cases hxe : x = e
          · simp [hxe]
          · simp [hxe, tested]
        · rw [if_pos hvis, k1]; rfl
    · have hvis : s.visits x = false := by simp [State.visits, hp]
      refine step s (by simp only [State.walkOver]; rw [if_neg hp]) rfl rfl (keepsWaiting_refl _) (by simp [hvis]) ?_
        (by simp [hvis])
      intro e
      by_cases hxe : x = e
      · subst hxe; simp [State.passed, hvis, hp]
      · simp [hxe]

end Sys2Proof.Machine
end

