-- ==== Sys2Proof/Laws/Start.lean ====
section
/-! SUPPORT. What leads into RUNNING: the first STATUS requests and the first MARK, and where the walk of a cycle that
has just begun comes to its first visit. -/

namespace Sys2Proof.Machine

variable (s : State)

/-- STATUS requests for some entries: each waits or is owed, and of the stations only their counters changed marks are
cleared (R141, R154, R167 step 5). -/
theorem requestStatuses_does (es : List Entry) : ∀ s : State,
    s.port.KeepsWaiting (s.requestStatuses es).port ∧
    (s.port.inFlight.isSome = true ∨ s.port.reads = [] → (s.requestStatuses es).port.reads = s.port.reads ∧
      ((s.requestStatuses es).port.inFlight.isSome = true ∨ (s.requestStatuses es).port.reads = [])) ∧
    (∀ e ∈ es, .status e ∈ (s.requestStatuses es).port.writes ∨ (s.requestStatuses es).port.owed[e.val] = true) ∧
    ∀ e, (s.requestStatuses es).station e = { s.station e with
      link := { (s.station e).link with
        countersChanged := (s.station e).link.countersChanged && !decide (e ∈ es) } } := by
  induction es with
  | nil => intro s; exact ⟨keepsWaiting_refl _, fun h => ⟨rfl, h⟩, by simp, fun e => by simp [State.requestStatuses]⟩
  | cons x rest ih =>
    intro s
    simp only [State.requestStatuses]
    obtain ⟨h1, h2, h3, h4⟩ := ih (s.requestStatus x)
    refine ⟨(keepsWaiting_requestStatus s x).trans h1, fun h => ?_, fun e he => ?_, fun e => ?_⟩
    · obtain ⟨k1, k2⟩ := requestStatus_reads s x h
      exact ⟨(h2 k2).1.trans k1, (h2 k2).2⟩
    · rcases List.mem_cons.1 he with rfl | he
      · exact h1.status (requestStatus_waits_state s e)
      · exact h3 e he
    · rw [h4, requestStatus_station]
      by_cases hx : x = e
      · subst hx; simp
      · simp [hx, show ¬e = x from fun k => hx k.symm]

/-- The address of the latest fault stays through STATUS requests (R159). -/
theorem requestStatuses_faultAddr (es : List Entry) : ∀ s : State,
    (s.requestStatuses es).port.faultAddr = s.port.faultAddr := by
  induction es with
  | nil => intro s; rfl
  | cons x rest ih =>
    intro s
    simp only [State.requestStatuses, ih, State.requestStatus, (startTransaction_queue _).2.2.2.1, onLink_port,
      onPort_port, Port.requestStatus]
    (repeat' split) <;> rfl

/-- The address of the latest fault stays through a MARK request (R159). -/
theorem requestMark_faultAddr (c : Word) (u : Bool) : (s.requestMark c u).port.faultAddr = s.port.faultAddr := by
  simp only [State.requestMark, (startTransaction_queue _).2.2.2.1, onPort_port, Port.requestMark, Port.joinMark]
  (repeat' split) <;> rfl

/-- A MARK asked for takes no STATUS out of the queue or out of what is owed (R155). -/
theorem requestMark_status (c : Word) (u : Bool) {e : Entry}
    (h : .status e ∈ s.port.writes ∨ s.port.owed[e.val] = true) :
    .status e ∈ (s.requestMark c u).port.writes ∨ (s.requestMark c u).port.owed[e.val] = true := by
  rcases h with h | h
  · exact .inl ((requestMark_waits_state s c u).2 _ h rfl)
  · right
    have ho : (s.requestMark c u).port.owed = s.port.owed := by
      simp only [State.requestMark, (startTransaction_queue _).2.1, onPort_port, Port.requestMark, Port.joinMark]
      (repeat' split) <;> rfl
    rw [ho]; exact h

/-- STATUS requests bring no MARK and no RECORD into a queue (R154). -/
theorem requestStatuses_status (es : List Entry) : ∀ s : State, (∀ w ∈ s.port.writes, w.isStatus = true) →
    ∀ w ∈ (s.requestStatuses es).port.writes, w.isStatus = true := by
  induction es with
  | nil => intro s h; exact h
  | cons x rest ih =>
    intro s h
    refine ih (s.requestStatus x) ?_
    simp only [State.requestStatus, (startTransaction_queue _).1, onLink_port, onPort_port, Port.requestStatus]
    (repeat' split)
    · exact h
    · exact h
    · intro w hw
      rcases List.mem_append.1 hw with hw | hw
      · exact h w hw
      · rw [List.mem_singleton.1 hw]; rfl
    · exact h

/-- A MARK asked for where none waits is the MARK that then waits, in the queue or held (R155). -/
theorem requestMark_first (c : Word) (u : Bool) (hw : ∀ w ∈ s.port.writes, w.isStatus = true)
    (hm : s.port.heldMark = none) :
    .mark c u ∈ (s.requestMark c u).port.writes ∨ (s.requestMark c u).port.heldMark = some ⟨c, u⟩ := by
  have ht : s.port.tailMark = none := by
    cases h : s.port.tailMark with
    | none => rfl
    | some m =>
      obtain ⟨front, hf, _⟩ := tailMark_some s.port h
      exact absurd (hw (.mark m.covered m.urgent) (by rw [hf]; simp)) (by simp [WriteEntry.isStatus])
  simp only [State.requestMark, (startTransaction_queue _).1, (startTransaction_queue _).2.2.1, onPort_port,
    Port.requestMark, hm, ht, Option.isSome_none, Bool.false_or]
  split
  · left; simp only [Port.joinMark, ht]; exact List.mem_append_right _ List.mem_cons_self
  · exact .inr rfl

/-! ### The first visit of a cycle -/

/-- A walk that comes to no station of the poll list ends the cycle (R44). -/
theorem walkOver_none (es : List Entry) : ∀ s : State, (∀ e ∈ es, (s.station e).polled = false) →
    s.walkOver es = s.onSched fun c => { c with cycleInProgress := false } := by
  induction es with
  | nil => intro s _; rfl
  | cons e rest ih =>
    intro s h
    simp only [State.walkOver, h e List.mem_cons_self, Bool.false_eq_true, if_false]
    exact ih s fun e' he => h e' (List.mem_cons_of_mem _ he)

/-- A walk begins the visit of the first station of the poll list, where it is not skipped and the line takes requests
(R45, R47). -/
theorem walkOver_first (pre post : List Entry) (e : Entry) (hpre : ∀ e' ∈ pre, (s.station e').polled = false)
    (hp : (s.station e).polled = true)
    (hk : (s.station e).link.skipped s.run.clock s.sched.cycleNumber s.cfg.searchDivisor = false)
    (hr : s.refuses = false) :
    s.walkOver (pre ++ e :: post) = (s.onLink e (·.testHold s.run.clock)).beginVisit e := by
  induction pre with
  | nil =>
    have hb : ((s.onLink e (·.testHold s.run.clock)).beginVisit e).sched.visit.isSome = true := by
      have : (s.onLink e (·.testHold s.run.clock)).refuses = false := hr
      rw [State.beginVisit, if_neg (by rw [this]; decide)]; rfl
    simp only [List.nil_append, State.walkOver, hp, hk, if_true, Bool.false_eq_true, if_false, hb]
  | cons x rest ih =>
    simp only [List.cons_append, State.walkOver, hpre x List.mem_cons_self, Bool.false_eq_true, if_false]
    exact ih fun e' he => hpre e' (List.mem_cons_of_mem _ he)

end Sys2Proof.Machine
end

