-- ==== Sys2Proof/Laws/Walk.lean ====
section
/-! SUPPORT. The cycle's walk on a line that takes requests: the stations it passes without a visit, the visit it comes to,
and the walk of the entries above an index, each said once (R44, R45, R47). -/

namespace Sys2Proof.Machine

variable (s : State)

/-- A station once the walk has passed it with no visit: its hold has been tested (R45). -/
def State.skippedOver (s : State) (e : Entry) : Station := if (s.station e).polled then s.tested e else s.station e

/-- What passing some entries with no visit makes of a state. -/
structure State.Skips (s : State) (es : List Entry) (u : State) : Prop where
  parts : u = { s with stations := u.stations, sched := { s.sched with nextIndex := u.sched.nextIndex } }
  stations : ∀ e, u.station e = if e ∈ es then s.skippedOver e else s.station e

/-- Entries that are not visited are passed, and the walk goes on over the others. -/
theorem walkOver_skips (post pre : List Entry) : ∀ s : State, pre.Nodup → (∀ e ∈ pre, s.visits e = false) →
    ∃ u, s.walkOver (pre ++ post) = u.walkOver post ∧ s.Skips pre u := by
  induction pre with
  | nil => intro s _ _; exact ⟨s, rfl, rfl, fun e => by simp⟩
  | cons x rest ih =>
    intro s hn hv
    obtain ⟨hx, hrest⟩ := List.nodup_cons.1 hn
    have step : ∀ t : State, s.walkOver (x :: rest ++ post) = t.walkOver (rest ++ post) → s.Skips [x] t →
        ∃ u, s.walkOver (x :: rest ++ post) = u.walkOver post ∧ s.Skips (x :: rest) u := by
      intro t hwalk ⟨hparts, hst⟩
      have hrun : t.run = s.run := by rw [hparts]
      have hcfg : t.cfg = s.cfg := by simp only [State.cfg, hrun]
      have hnum : t.sched.cycleNumber = s.sched.cycleNumber := by rw [hparts]
      have hsame : ∀ e ∈ rest, t.station e = s.station e := fun e he => by
        rw [hst, if_neg (by rw [List.mem_singleton]; rintro rfl; exact hx he)]
      obtain ⟨u, hu, ⟨kparts, kst⟩⟩ := ih t hrest fun e he => by
        rw [State.visits, hsame e he, hrun, hnum, hcfg]; exact hv e (List.mem_cons_of_mem _ he)
      refine ⟨u, hwalk.trans hu, ?_, fun e => ?_⟩
      · rw [kparts, hparts]
      · rw [kst]
        by_cases he : e ∈ rest
        · rw [if_pos he, if_pos (List.mem_cons_of_mem _ he)]
          simp only [State.skippedOver, State.tested, hsame e he, hrun]
        · rw [if_neg he, hst]
          by_cases hxe : e = x
          · rw [if_pos (by simp [hxe]), if_pos (by simp [hxe])]
          · rw [if_neg (by simp [hxe]), if_neg (by simp [hxe, he])]
    have hvx : s.visits x = false := hv x List.mem_cons_self
    by_cases hp : (s.station x).polled = true
    · have hk : (s.station x).link.skipped s.run.clock s.sched.cycleNumber s.cfg.searchDivisor = true := by
        simpa [State.visits, hp] using hvx
      refine step ((s.onLink x (·.testHold s.run.clock)).onSched fun c => { c with nextIndex := x.val + 1 })
        (by simp only [List.cons_append, State.walkOver, hp, hk, if_true]) ⟨rfl, fun e => ?_⟩
      simp only [onSched_station, onLink_station, List.mem_singleton, eq_comm (a := x)]
      split
      · next h => subst h; simp only [State.skippedOver, hp, if_true]; rfl
      · rfl
    · refine step s (by simp only [List.cons_append, State.walkOver]; rw [if_neg hp]) ⟨rfl, fun e => ?_⟩
      split
      · next h => rw [List.mem_singleton.1 h]; simp only [State.skippedOver]; rw [if_neg hp]
      · rfl

/-- A walk that visits no station passes them all and ends the cycle (R44). -/
theorem walkOver_ends (es : List Entry) (hn : es.Nodup) (hv : ∀ e ∈ es, s.visits e = false) :
    ∃ u, s.walkOver es = u.onSched (fun c => { c with cycleInProgress := false }) ∧ s.Skips es u := by
  obtain ⟨u, hu, hs⟩ := walkOver_skips [] es s hn hv
  rw [List.append_nil] at hu
  exact ⟨u, hu, hs⟩

/-- On a line that takes requests, the walk begins the visit of the first station that is not skipped. -/
theorem walkOver_visits (pre post : List Entry) (e : Entry) (hn : (pre ++ e :: post).Nodup)
    (hpre : ∀ e' ∈ pre, s.visits e' = false) (hv : s.visits e = true) (hr : s.line.state ≠ .disturbed) :
    ∃ u, s.walkOver (pre ++ e :: post) = (u.onLink e (·.testHold u.run.clock)).beginVisit e ∧ s.Skips pre u ∧
      u.station e = s.station e := by
  have he : e ∉ pre := fun h => (List.nodup_append.1 hn).2.2 e h e List.mem_cons_self rfl
  obtain ⟨u, hu, hs⟩ := walkOver_skips (e :: post) pre s (List.nodup_append.1 hn).1 hpre
  have hst : u.station e = s.station e := by rw [hs.stations, if_neg he]
  have hrun : u.run = s.run := by rw [hs.parts]
  have hcfg : u.cfg = s.cfg := by simp only [State.cfg, hrun]
  have hnum : u.sched.cycleNumber = s.sched.cycleNumber := by rw [hs.parts]
  have hvu : u.visits e = true := by rw [State.visits, hst, hrun, hnum, hcfg]; exact hv
  have hp : (u.station e).polled = true ∧ (u.station e).link.skipped u.run.clock u.sched.cycleNumber
      u.cfg.searchDivisor = false := by simpa [State.visits] using hvu
  have hfree : (u.onLink e (·.testHold u.run.clock)).refuses = false := by
    have : u.line.state = s.line.state := by rw [hs.parts]
    simpa [State.refuses, this] using hr
  have hb : ((u.onLink e (·.testHold u.run.clock)).beginVisit e).sched.visit.isSome = true := by
    rw [State.beginVisit, if_neg (by rw [hfree]; decide)]; rfl
  refine ⟨u, ?_, hs, hst⟩
  rw [hu]
  simp only [State.walkOver, hp.1, hp.2, if_true, Bool.false_eq_true, if_false, hb]

/-- The entries that the walk has not yet passed, in order (R45). -/
theorem mem_notPassed (low : Nat) (e : Entry) :
    e ∈ allEntries.filter (fun e => decide (low ≤ e.val)) ↔ low ≤ e.val := by
  simp [allEntries, List.mem_finRange]

theorem notPassed_sorted (low : Nat) : (allEntries.filter fun e : Entry => decide (low ≤ e.val)).Pairwise (· < ·) :=
  List.Pairwise.filter _ (by decide)

end Sys2Proof.Machine
end

