-- ==== Sys2Proof/Tests/Slice0.lean ====
section
/-! SUPPORT. Tests on fixed values: well-formedness, the manual's worked examples, and for the statements a concrete
state and operands that meet their hypotheses, with what the step leaves there. -/

namespace Sys2Proof.Tests

/- One test after the other: each waits for the kernel, and in the one-file compile all of them would wait at once, a
thread each. -/
set_option Elab.async false

open Sys2Proof.Machine

/-! ### Small states -/

/-- The next state, or the same state where the command gives none. -/
def after (c : Instr) (s : State) : State :=
  match exec c s with
  | .next t => t
  | .fault _ | .refused _ => s

/-- Settings of a run: 19,200 bits per second, one retry, two misses. -/
def cfg : Settings where
  lineRate := 0
  responseWindow := 1
  retryLimit := 1
  missLimit := 2
  searchDivisor := 2
  cycleMinimum := 40
  sweepPeriod := 10
  ambiguityReport := 1
  journalBase := 0x200000#64
  journalCapacity := 64
  threshold := 4
  holdOff := 20
  stopDrainLimit := 500
  stationCount := 2

/-- An ONLINE station at line address 12 with 4 rows and 6 columns. -/
def online : Station :=
  { Station.reset with
    takesPart := true
    address := 12#5
    link := { Link.reset with state := .online, nextTurn := 7#3, lastAcked := 3#3 }
    contacts :=
      { ContactTable.reset with
        rows := 4, columns := 6, closeDebounce := 30, openDebounce := 30
        records := (geometry 4 6).map Contact.fresh }
    output :=
      { Output.reset with
        indicatorCount := 5, fetchedRevision := some 7#16, fetchedImage := List.replicate 16 0xE1#8, applied := 7#16 } }

/-- A SEARCHING station at line address 12. -/
def searching : Station := { online with link := { online.link with state := .searching } }

/-- RUNNING at 2,000 milliseconds, with station 0 as given, the line IDLE and nothing waiting. -/
def running (st : Station) : State :=
  { State.reset with
    run :=
      { RunControl.reset with
        state := .running, clock := 2000#32, exbaseLo := 0x100000#32, settings := some cfg }
    line := { Line.reset with receiver := .armed }
    sched := { Scheduler.reset with cycleNumber := 5#32, markTimer := some ⟨1000#32, .ms 1000⟩ }
    stations := (Vector.replicate 16 Station.reset).set 0 st
    exch := { Exchange.reset with sweepTimer := some ⟨1990#32, .ms 10⟩ } }

/-- RUNNING with an ONLINE station. -/
def run0 : State := running online

/-- STOPPING, the line not settled. -/
def stop0 : State :=
  { run0 with run := { run0.run with state := .stopping }, line := { run0.line with stopLimit := some ⟨1990#32, .ms 20⟩ } }

/-- HALTED. -/
def halt0 : State := { State.reset with run := { RunControl.reset with exbaseLo := 0x100000#32 } }

/-- FAULTED. -/
def fault0 : State := { halt0 with run := { halt0.run with state := .faulted } }

/-- The request of a visit to station 0. -/
def request : SendRequest := online.request 0

/-- A visit of station 0 with its first try at a line state and receiver. -/
def visiting (line : LineState) (receiver : Receiver) : State :=
  { run0 with
    sched := { run0.sched with visit := some ⟨0, request, 1⟩, cycleInProgress := true }
    line :=
      { run0.line with
        state := line, receiver := receiver, sendPlace := some request, interChar := some ⟨1999#32, .chars 2⟩
        reply := .running ⟨1998#32, .ms 1⟩, sentAt := 1998#32 } }

/-- A run with a read in flight. -/
def reading (r : Read) (s : State) : State := { s with port := { s.port with inFlight := some (.read r 0x100078) } }

/-- A run with a write in flight at the head of the queue. -/
def writing (w : WriteEntry) (s : State) : State :=
  { s with port := { s.port with writes := [w], inFlight := some (.write w 0x100080 [1#8, 2#8]) } }

/-- The control block's first 64 bytes of an acceptable start image with one station. -/
def control : List Byte :=
  [1, 0, 0, 0, 0, 1, 2, 2, 1, 0, 40, 0, 10, 1, 4, 1, 20, 0, 0xF4, 1, 64, 0, 0, 0, 0, 0, 0x20, 0, 0, 0, 0, 0] ++
    List.replicate 32 0#8

/-- A station entry's 44 bytes: address 12, 4 rows, 6 columns, 5 lamps, enabled, revision 7. -/
def entry0 : List Byte := [1, 12, 4, 6, 0, 5, 30, 30] ++ List.replicate 24 0#8 ++ [1, 0, 0, 0, 7, 0, 3, 0, 2, 0, 1, 0]

/-- The start image after its first `n` reads. -/
def image (n : Nat) : StartImage :=
  ⟨([control, List.replicate 64 0#8, entry0] ++ List.replicate 15 (List.replicate 44 0#8)).take n, []⟩

/-- An image block of 20 bytes, revision 7. -/
def imageBlock (revisionB : Byte) : List Byte := [7, 0] ++ List.replicate 16 0xE1#8 ++ [revisionB, 0]

/-- STARTING with start read `i` in flight. -/
def starting (i : Nat) : State :=
  { halt0 with
    run := { halt0.run with state := .starting, startImage := image i }
    port :=
      { Port.reset with
        inFlight := some (.read (.start i) 0x100000)
        reads := ((List.range 18).drop (i + 1)).map .start } }

/-- STARTING with the last start fetch in flight. -/
def fetching : State :=
  { starting 18 with port := { Port.reset with inFlight := some (.read (.image 0) 0x10012C) } }

/-- STOPPING with the drain ended and the final MARK, covering 3 records, in flight. -/
def ending : State :=
  { writing (.mark 3 false) stop0 with
    line := { Line.reset with receiver := .armed, settled := true }
    journal := { Journal.reset with written := 3, drain := .ended } }

/-! ### Well-formed commands -/

theorem test_wellFormed :
    (Instr.undefinedCommand 0b1111#4 5#32).wellFormed = true ∧ (Instr.exbaseLoWrite 0b0001#4 0#32).wellFormed = true ∧
    (Instr.otherRegisterWrite 0x0C#6 0b1000#4 0#32).wellFormed = true ∧
    (Instr.otherRegisterWrite 0x20#6 0b1111#4 0#32).wellFormed = true ∧
    (Instr.startReadComplete control).wellFormed = true ∧ (Instr.startReadComplete entry0).wellFormed = true ∧
    Instr.fullReset.wellFormed = true := by decide

/-- No byte written: the check of each register write refuses it. -/
theorem test_illFormed_no_lane :
    (Instr.undefinedCommand 0#4 5#32).wellFormed = false ∧ (Instr.exbaseLoWrite 0#4 0#32).wellFormed = false ∧
    (Instr.exbaseHiWrite 0#4 0#32).wellFormed = false ∧ (Instr.causeWrite 0#4 0#32).wellFormed = false ∧
    (Instr.maskWrite 0#4 0#32).wellFormed = false ∧ (Instr.otherRegisterWrite 0x0C#6 0#4 0#32).wellFormed = false := by
  decide

/-- A code that names a command, also where a byte lane cut it down to one, is no undefined command. -/
theorem test_illFormed_code :
    (Instr.undefinedCommand 0b1111#4 1#32).wellFormed = false ∧
    (Instr.undefinedCommand 0b0001#4 0x104#32).wellFormed = false ∧
    (Instr.undefinedCommand 0b0011#4 0x104#32).wellFormed = true := by decide

/-- A register with a row of its own is no other register. -/
theorem test_illFormed_offset :
    (Instr.otherRegisterWrite 0x08#6 0b1111#4 0#32).wellFormed = false ∧
    (Instr.otherRegisterWrite 0x14#6 0b1111#4 0#32).wellFormed = false := by decide

theorem test_illFormed_lengths :
    (Instr.releasedCountReadComplete [0]).wellFormed = false ∧ (Instr.livePartReadComplete []).wellFormed = false ∧
    (Instr.imageFetchComplete (List.replicate 19 0)).wellFormed = false ∧
    (Instr.startReadComplete (List.replicate 43 0)).wellFormed = false := by decide

/-- The table gives no row bits. -/
theorem test_no_word_spells_a_command :
    decodeTableWord 8 0 = none ∧ State.reset.withFetchWord 8 0 = State.reset := by decide +kernel

/-! ### The manual's worked examples -/

/-- The two check values that the manual gives (R20). -/
theorem test_check_values :
    checkValue [0x00] = 0xE1F0#16 ∧
    checkValue [0x31, 0x32, 0x33, 0x34, 0x35, 0x36, 0x37, 0x38, 0x39] = 0x29B1#16 := by decide +kernel

theorem test_mark_numbers : markNumber 1000#32 = 1#8 ∧ markNumber 256400#32 = 0#8 ∧ markNumber 300250#32 = 44#8 := by
  decide +kernel

/-- The six replies of "Judgement, worked" but for the two that never reach judgement (02). -/
def judged (chars : List Byte) : TryOutcome := judge ⟨12#5, 4, 6, 3#3⟩ false chars

theorem test_judgement :
    judged (uplinkFrame 12#5 0x21 3 [1, 0xFF, 0x3F, 0x40, 0]) = .ok ⟨3#3, true, false, [0x3F, 0x3F, 0, 0]⟩ ∧
    judged ((uplinkFrame 12#5 0x21 3 [1, 0xFF, 0x3F, 0x40, 0]).set 6 0xFE) = .badCrc ∧
    judged (uplinkFrame 13#5 0x21 3 [0, 0, 0, 0, 0]) = .wrongAddress ∧
    judged (uplinkFrame 12#5 0x21 3 [0, 0, 0, 0, 0, 0, 0, 0, 0]) = .badFormat ∧
    judged (uplinkFrame 12#5 0x21 4 [0, 0, 0, 0, 0]) = .turnMismatch ∧
    judged (uplinkFrame 12#5 0x21 9 [0, 0, 0, 0, 0]) = .badFormat ∧
    judged (uplinkFrame 12#5 0x22 3 [0]) = .wait 1 ∧ judged (uplinkFrame 12#5 0x22 3 []) = .badFormat ∧
    judged (uplinkFrame 12#5 0x11 3 []) = .badFormat := by decide +kernel

/-- The indices that are ambiguous with some indices closed, in a matrix of 4 rows and 4 columns (04). -/
def ambiguous (diode : Bool) (closed : List Nat) : List (Fin 64) :=
  let t : ContactTable := { ContactTable.reset with rows := 4, columns := 4, diodeIsolated := diode }
  let rows : List Byte := (List.range 4).map fun r =>
    (closed.filter fun i => i / 8 = r).foldl (fun b i => b ||| (1#8 <<< (i % 8))) 0#8
  (geometry 4 4).filter fun i => t.ambiguousAt rows (i.val / 8) (i.val % 8)

theorem test_ambiguity_table :
    ambiguous false [0, 1, 8] = [9] ∧ ambiguous false [0, 1, 8, 9] = [0, 1, 8, 9] ∧
    ambiguous false [0, 1, 2, 3] = [] ∧ ambiguous false [0, 9, 18, 27] = [] ∧
    ambiguous false [0, 2, 16, 18, 24] = [0, 2, 16, 18, 26] ∧ ambiguous true [0, 1, 8] = [] := by decide +kernel

/-- A contact with a close debounce of 30 taken through raw values at times; the states and events it passes (04). -/
def debounced : List (Word × Bool) → Contact → List (ContactState × Nat)
  | [], _ => []
  | (now, raw) :: rest, c =>
    let r := c.transition { ContactTable.reset with closeDebounce := 30 } now raw
    (r.contact.state, r.events.length) :: debounced rest r.contact

theorem test_debounce_worked :
    debounced [(1000, false), (1020, true), (1040, false), (1060, true), (1080, true), (1100, true)]
      { Contact.fresh 0 with state := .opened, lastKnown := some false } =
    [(.opened, 0), (.closing, 0), (.opened, 0), (.closing, 0), (.closing, 0), (.closed, 1)] := by decide +kernel

/-- The counter pairs of the second worked sequence (08). -/
theorem test_counter_pairs :
    judgePair 9 9 4 = .tooFar ∧ judgePair 9 9 10 = .valid ∧ judgePair 10 9 10 = .unchanged ∧
    judgePair 10 9 4 = .tooFar ∧ judgePair 10 9 8 = .tooFar ∧ judgePair 10 5 7 = .backward := by decide +kernel

/-- Steps 6 to 13 of the merging example: a RECORD goes in front of an unstarted MARK, a STATUS merges, is owed at a full
queue, and takes the entry that the completion of R17 frees (09). -/
theorem test_merging_worked :
    let p : Port :=
      { Port.reset with
        writes := [.record 17 [], .record 18 [], .mark 19 false]
        inFlight := some (.write (.record 17 []) 0 []) }
    let q := ((((((p.requestStatus 5).requestRecord 19 []).requestMark 20 false).requestStatus 5).requestRecord 20
      []).requestMark 21 false |>.requestStatus 0).requestStatus 2
    q.writes = [.record 17 [], .record 18 [], .mark 19 false, .status 5, .record 19 [], .record 20 [], .mark 21 false,
      .status 0] ∧ q.firstOwed = some 2 ∧
    ({ q with writes := q.writes.drop 1, inFlight := none }.offerFreed).writes =
      [.record 18 [], .mark 19 false, .status 5, .record 19 [], .record 20 [], .mark 21 false, .status 0, .status 2] := by
  decide +kernel

/-- The lamps 0 to 3 ON, OFF, SLOW and FAST are byte 0 as 0xE1; the lamps from the indicator count on are OFF (11). -/
theorem test_lamp_arrangement : online.output.payload = [0xE1, 0x01] ++ List.replicate 14 0 := by decide +kernel

/-- A frame of a POLL to address 12 in the order sent (R19, R22). -/
theorem test_poll_frame :
    request.frame.take 5 = [0xC3, 0x0C, 0x11, 0x03, 0x00] ∧ request.frame.length = 7 := by decide +kernel

/-! ### Concrete cases of the statements: their hypotheses met, clause by clause, and what the step leaves -/

/-- StepRunsTheFrontCommand. -/
theorem witness_queue :
    ({ run0 with pending := [.stop, .sweep] }).pending = .stop :: [.sweep] ∧ run0.pending = [] ∧
    (after .stop { run0 with pending := [.sweep] }).pending = [.sweep] := by decide +kernel

/-- ImpossibleCommandsChangeNothing. -/
theorem witness_impossible :
    State.reset.possible .frameSent = false ∧ after .frameSent State.reset = State.reset ∧
    run0.possible .clearTestExpiry = false ∧ after .clearTestExpiry run0 = run0 ∧
    run0.possible (.releasedCountReadComplete [0, 0, 0]) = false := by decide +kernel

/-- FullResetAndRelease: a write in flight at 0x100080 of two bytes, the held line, and the release. -/
theorem witness_reset :
    (writing (.mark 0 false) run0).port.inFlight = some (.write (.mark 0 false) 0x100080 [1#8, 2#8]) ∧
    (0x10007F < 0x100080 ∧ 0x100080 + 2 ≤ 0x100082) ∧
    (after .fullReset run0).run.resetAsserted = true ∧
    after (.maskWrite 0b1111#4 1#32) (after .fullReset run0) = after .fullReset run0 ∧
    (after .resetRelease (after .fullReset run0)).run.state = .halted ∧
    (after (.maskWrite 0b0001#4 1#32) (after .resetRelease (after .fullReset run0))).irq.mask = 1#5 := by
  decide +kernel

/-- RefusedWritesOnlySetRefused. -/
theorem witness_refused :
    (run0.run.resetAsserted = false ∧ run0.run.state ≠ .halted ∧ run0.run.state ≠ .faulted) ∧
    (halt0.run.state ≠ .starting ∧ halt0.run.state ≠ .running) ∧ namesCommand (laneValue 0b0001#4 0x105#32) = false ∧
    after .start run0 = { run0 with irq := { run0.irq with cause := 4#5 } } ∧
    after .stop halt0 = { halt0 with irq := { halt0.irq with cause := 4#5 } } ∧
    after .clearFault halt0 = { halt0 with irq := { halt0.irq with cause := 4#5 } } ∧
    otherOffset 0x0C#6 = true ∧ otherOffset 0x18#6 = true ∧ otherOffset 0x1C#6 = true ∧ otherOffset 0x20#6 = true ∧
    otherOffset 0x3F#6 = true ∧ 0x20 ≤ (0x20#6).toNat ∧ after (.otherRegisterWrite 0x3F#6 0b1111#4 1#32) run0 = run0 := by
  decide +kernel

/-- The same, for the run states that take each write. -/
theorem witness_taken :
    (halt0.run.state = .halted ∧ (starting 0).run.state = .starting ∧ run0.run.state = .running ∧
      fault0.run.state = .faulted) ∧
    (after .start halt0).irq.cause = 0#5 ∧ (after (.exbaseLoWrite 0b1111#4 0#32) halt0).irq.cause = 0#5 ∧
    (after (.exbaseHiWrite 0b1111#4 0#32) halt0).irq.cause = 0#5 ∧ (after .stop (starting 0)).irq.cause = 0#5 ∧
    (after .stop run0).irq.cause = 0#5 ∧ (after .sweep run0).irq.cause = 0#5 ∧
    (after .clearFault fault0).irq.cause = 2#5 := by decide +kernel

/-- ExchangeBaseIsWrittenInHaltedAlone. -/
theorem witness_exbase :
    (halt0.run.resetAsserted = false ∧ halt0.run.state = .halted) ∧
    (after (.exbaseLoWrite 0b1111#4 0x12345FFF#32) halt0).run.exbaseLo = 0x12345000#32 ∧
    (after (.exbaseHiWrite 0b0010#4 0xFFFFFFFF#32) halt0).run.exbaseHi = 0x0000FF00#32 ∧
    run0.run.state ≠ .halted ∧ (after (.exbaseHiWrite 0b1111#4 1#32) run0).irq.cause = 4#5 ∧
    Instr.stop.wellFormed = true ∧ Instr.stop ≠ .fullReset ∧ halt0.readWindow 0x00#6 0b1111#4 = 0x100000#32 := by
  decide +kernel

/-- WindowWritesAndReads: every register, the last offset, a byte lane of FAULT_ADDR_HI, and the reset line held. -/
theorem witness_window :
    let s : State :=
      { run0 with
        run := { run0.run with exbaseHi := 0x89ABCDEF, reason := .releaseNotZero, detail := 0xFF, multiple := true }
        irq := ⟨0b10011#5, 0b11111#5, none⟩, port := { Port.reset with faultAddr := 0x0123456789ABCDEF#64 } }
    s.run.resetAsserted = false ∧
    ([0x00#6, 0x04#6, 0x08#6, 0x0C#6, 0x10#6, 0x14#6, 0x18#6, 0x1C#6, 0x20#6, 0x3F#6].map s.register) =
      [0x100000#32, 0x89ABCDEF#32, 0#32, 0x80FF0C02#32, 0x13#32, 0x1F#32, 0x89ABCDEF#32, 0x01234567#32, 0#32, 0#32] ∧
    s.readWindow 0x1C#6 0b0010#4 = 0x4500#32 ∧
    { s with run := { s.run with resetAsserted := true } }.readWindow 0x1C#6 0b1111#4 = 0#32 := by decide +kernel

/-- MaskAndInterruptLine, CauseBitsStayUntilCleared. -/
theorem witness_mask_and_cause :
    let s : State := { run0 with irq := ⟨0b01010#5, 0#5, none⟩ }
    s.run.resetAsserted = false ∧ (after (.maskWrite 0b1111#4 0xFFFFFFF2#32) s).irq.mask = 0b10010#5 ∧
    (after (.maskWrite 0b1111#4 2#32) s).interruptLine = true ∧ s.interruptLine = false ∧
    (after (.causeWrite 0b1111#4 2#32) s).irq.cause = 0b01000#5 ∧
    Instr.stop.wellFormed = true ∧ s.irq.cause.getLsbD 3 = true ∧ (after .stop s).irq.cause.getLsbD 3 = true := by
  decide +kernel

/-- PanelClockCountsWhileRunning, and a wrap. -/
theorem witness_clock :
    (stop0.run.state = .running ∨ stop0.run.state = .stopping) ∧ (after .panelClockAdvance stop0).run.clock = 2001#32 ∧
    (halt0.run.state ≠ .running ∧ halt0.run.state ≠ .stopping) ∧ after .panelClockAdvance halt0 = halt0 ∧
    (after .panelClockAdvance { run0 with run := { run0.run with clock := 0xFFFFFFFF#32 } }).run.clock = 0#32 ∧
    ([0, 65535, 65536].map fun ms => (after .panelClockAdvance
      (run0.onLine fun l => { l with state := .disturbed, disturbedMs := ms })).line.disturbedMs) = [1, 65536, 65536] ∧
    (Instr.stop ≠ .panelClockAdvance ∧ Instr.stop ≠ .fullReset) := by decide +kernel

/-- RunStateTransitions: a transition of each kind. -/
theorem witness_transitions :
    (after .start halt0).run.state = .starting ∧ (after .stop run0).run.state = .stopping ∧
    (after .clearFault fault0).run.state = .halted ∧ (after .fullReset run0).run.state = .halted ∧
    (after .busErrorResponse (reading .released run0)).run.state = .faulted ∧
    (after (.imageFetchComplete (imageBlock 7)) fetching).run.state = .running ∧
    (after .memoryAccessTimeout fetching).run.state = .faulted ∧
    (after (.imageFetchComplete (imageBlock 7)) (after .stop fetching)).run.state = .halted ∧
    isCompletion (.imageFetchComplete (imageBlock 7)) = true ∧ isCompletion .markWriteComplete = true ∧
    (after .markWriteComplete ending).run.state = .halted ∧ (after .busErrorResponse ending).run.state = .faulted ∧
    Instr.stop.wellFormed = true := by decide +kernel

/-- StartPlacesTheStartReads. -/
theorem witness_start :
    halt0.run.resetAsserted = false ∧ halt0.run.state = .halted ∧
    (after .start halt0).port.inFlight = some (.read (.start 0) 0x100000) ∧
    (after .start halt0).port.reads.length = 17 := by decide +kernel

/-- StartReadsThenChecks: the first read and the last but one go on; the last meets a failing check, and an image that
passes. -/
theorem witness_start_reads :
    ((starting 0).run.state = .starting ∧ (starting 0).run.startAbandoned = false ∧
      (starting 0).port.inFlight = some (.read (.start 0) 0x100000) ∧ control.length = (Read.start 0).size ∧
      (starting 0).port.writes = []) ∧
    ((starting 0).port.reads = .start (0 + 1) :: ((List.range 18).drop 2).map .start) ∧
    (starting 16).port.reads = .start (16 + 1) :: [] ∧
    (after (.startReadComplete control) (starting 0)).port.inFlight = some (.read (.start 1) 0x100040) ∧
    (List.replicate 44 0#8).length = (Read.start 17).size ∧ (starting 17).port.reads = [] ∧
    (image 18).check 0x100000 = none ∧ (image 18).entries = [0] ∧
    (after (.startReadComplete (List.replicate 44 0#8)) (starting 17)).port.inFlight =
      some (.read (.image 0) 0x10012C) := by decide +kernel

/-- The same, where no entry is configured. -/
theorem witness_start_empty :
    let i : StartImage := { image 17 with blocks := (image 17).blocks.set 2 (entry0.set 0 0) }
    let s : State := { starting 17 with run := { (starting 17).run with startImage := i } }
    let last : StartImage := { i with blocks := i.blocks ++ [List.replicate 44 0#8] }
    let t := after (.startReadComplete (List.replicate 44 0#8)) s
    (last.check s.run.exchangeBase = none ∧ last.entries = [] ∧ s.port.writes = []) ∧ t.run.state = .running ∧
    t.port.writes = [.mark 0 false] ∧ t.sched.cycleInProgress = false ∧
    t.journal.staging.map (·.event.body) = [.runStart 64 0] := by decide +kernel

/-- The same, where the second block holds a released count of 1. -/
theorem witness_start_fails :
    let i : StartImage := { image 17 with blocks := (image 17).blocks.set 1 (List.replicate 0x38 0#8 ++ [1, 0, 0, 0, 0, 0, 0, 0]) }
    let s : State := { starting 17 with run := { (starting 17).run with startImage := i } }
    ({ i with blocks := i.blocks ++ [List.replicate 44 0#8] }).check s.run.exchangeBase = some (.releaseNotZero, 0#8) ∧
    (after (.startReadComplete (List.replicate 44 0#8)) s).run.reason = .releaseNotZero ∧
    (after (.startReadComplete (List.replicate 44 0#8)) s).run.state = .halted := by decide +kernel

/-- StartChecksFollowTheTable: layout version 2; line rate 5 and 4; an entry at fault, at a duplicate address. -/
theorem witness_checks :
    let with0 (f : List Byte → List Byte) : StartImage := { image 18 with blocks := (image 18).blocks.modify 0 f }
    let with3 (b : List Byte) : StartImage :=
      { image 18 with blocks := ((image 18).blocks.modify 0 (·.set 0x0F 2)).set 3 b }
    (with0 (·.set 0 2)).layoutVersion ≠ 1#32 ∧ (with0 (·.set 0 2)).check 0x100000 = some (.layoutVersion, 0#8) ∧
    ((with0 (·.set 4 5)).layoutVersion = 1#32 ∧ 4 < (with0 (·.set 4 5)).settings.lineRate) ∧
    (with0 (·.set 4 5)).check 0x100000 = some (.rate, 0#8) ∧ (with0 (·.set 4 4)).check 0x100000 = none ∧
    (with3 entry0).check 0x100000 = some (.duplicateAddress, 1#8) ∧
    (with3 (entry0.set 1 32)).check 0x100000 = some (.address, 1#8) ∧
    (with3 (entry0.set 2 9)).check 0x100000 = some (.geometry, 1#8) ∧
    (with3 (entry0.set 5 65)).check 0x100000 = some (.indicatorCount, 1#8) ∧
    (with3 (entry0.set 1 31)).check 0x100000 = none := by decide +kernel

/-- The first failing check of the start image with its control block changed. -/
def found (f : List Byte → List Byte) : Option CheckFailure :=
  { image 18 with blocks := (image 18).blocks.modify 0 f }.check 0x100000

/-- The same: the parameters at the values next to their bounds. -/
theorem witness_parameter_checks :
    (([0, 1, 50, 51].map fun x => found (·.set 8 x)) = [some (.parameter, 3), none, none, some (.parameter, 3)] ∧
      ([3, 4].map fun x => found (·.set 5 x)) = [none, some (.parameter, 4)] ∧
      ([0, 1, 15, 16].map fun x => found (·.set 6 x)) = [some (.parameter, 5), none, none, some (.parameter, 5)] ∧
      ([0, 1, 16, 17].map fun x => found (·.set 7 x)) = [some (.parameter, 6), none, none, some (.parameter, 6)]) ∧
    (([0xE8, 0xE9].map fun x => found fun b => (b.set 10 x).set 11 3) = [none, some (.parameter, 7)] ∧
      ([12, 13, 14].map fun i => found (·.set i 0)) =
        [some (.parameter, 8), some (.parameter, 9), some (.parameter, 12)] ∧
      ([0xE8, 0xE9].map fun x => found fun b => (b.set 16 x).set 17 3) = [none, some (.parameter, 13)] ∧
      ([0x10, 0x11].map fun x => found fun b => (b.set 18 x).set 19 0x27) = [none, some (.parameter, 14)]) := by
  decide +kernel

/-- The same: the checks after the parameters, and of two checks that fail the one that comes first. -/
theorem witness_check_order :
    let entry (f : List Byte → List Byte) : StartImage := { image 18 with blocks := (image 18).blocks.modify 2 f }
    let released : StartImage := { image 18 with blocks := (image 18).blocks.modify 1 (·.set 0x38 1) }
    (([0, 17].map fun x => found (·.set 15 x)) = [some (.stationCount, 0), some (.stationCount, 0)] ∧
      ([32, 65].map fun x => found (·.set 20 x)) = [some (.journalSize, 0), some (.journalSize, 0)] ∧
      found (·.set 24 8) = some (.journalAlign, 0) ∧ found (·.set 26 0x10) = some (.journalOverlap, 0) ∧
      released.check 0x100000 = some (.releaseNotZero, 0)) ∧
    (found (fun b => (b.set 8 0).set 24 8) = some (.parameter, 3) ∧
      found (fun b => (b.set 20 1).set 24 8) = some (.journalSize, 0) ∧
      (entry fun b => (b.set 3 0).set 1 0).check 0x100000 = some (.geometry, 0) ∧
      (entry fun b => (b.set 1 0).set 5 65).check 0x100000 = some (.address, 0)) := by decide +kernel

/-- The same: the settings of the control block, the released count, and the entries, the start-time and the live part. -/
theorem witness_layout :
    let counted (b : List Byte) : List Byte := ((b.set 0x37 9).set 0x38 4).set 0x3B 1
    let i : StartImage := { image 18 with blocks := (image 18).blocks.modify 1 counted }
    (image 18).settings = { cfg with stationCount := 1 } ∧ i.released = 0x01000004#32 ∧ i.entries = [0] ∧
    i.fields 0 = ⟨true, 12, 4, 6, false, 5, 30, 30⟩ ∧ i.live 0 = ⟨1#8, 7#16, 3#16, 2#16, 1#8⟩ ∧
    i.fields 15 = ⟨false, 0, 0, 0, false, 0, 0, 0⟩ := by decide +kernel

/-- StartFetchesEnterRunning: an accepted fetch and a torn one, and an entry whose enable flag is 0. -/
theorem witness_running :
    let off : State := fetching.onRun fun c =>
      { c with startImage := { c.startImage with blocks := c.startImage.blocks.set 2 (entry0.set 32 0) } }
    (fetching.run.state = .starting ∧ fetching.run.startAbandoned = false ∧
      fetching.port.inFlight = some (.read (.image 0) 0x10012C) ∧ fetching.port.reads = [] ∧
      (imageBlock 7).length = 20) ∧
    fetching.run.startImage.takesPart 0 = true ∧ fetching.run.startImage.takesPart 1 = false ∧
    (after (.imageFetchComplete (imageBlock 7)) fetching).run.state = .running ∧
    ((after (.imageFetchComplete (imageBlock 7)) fetching).station 0).output.fetchedRevision = some 7#16 ∧
    (after (.imageFetchComplete (imageBlock 8)) fetching).tornReads = 1#16 ∧
    (after (.imageFetchComplete (imageBlock 8)) fetching).line.state = .sending ∧
    (fetching.run.startImage.live 0).enable ≠ 0#8 ∧
    (after (.imageFetchComplete (imageBlock 7)) fetching).sched.visit.map (·.entry) = some 0 ∧
    (after (.imageFetchComplete (imageBlock 7)) fetching).sched.cycleInProgress = true ∧
    (after (.imageFetchComplete (imageBlock 7)) fetching).sched.cycleTimer = .running ⟨0#32, .ms 40⟩ ∧
    (off.run.startImage.takesPart 0 = true ∧ (off.run.startImage.live 0).enable = 0#8) ∧
    (after (.imageFetchComplete (imageBlock 7)) off).sched.visit = none ∧
    (after (.imageFetchComplete (imageBlock 7)) off).sched.cycleInProgress = false := by decide +kernel

/-- The same: revision A alone and revision B alone at the live revision, and a fetch that is not the last. -/
theorem witness_start_fetch :
    let i := image 18
    let torn (a b : Byte) : List Byte := a :: (imageBlock b).drop 1
    let first : State := fetching.onPort fun p => { p with reads := [.image 1] }
    let t := after (.imageFetchComplete (imageBlock 7)) first
    ((i.live 0).revision = 7 ∧ halfAt (imageBlock 7) 0 = 7 ∧ halfAt (imageBlock 7) 18 = 7 ∧
      (∀ f ∈ i.fetches, f.entry ≠ 0)) ∧
    (i.fetchResult 0 (imageBlock 7) = ⟨0, some (7, List.replicate 16 0xE1)⟩ ∧ i.fetchResult 0 (imageBlock 8) = ⟨0, none⟩ ∧
      i.fetchResult 0 (torn 6 7) = ⟨0, none⟩ ∧ i.fetchResult 0 (torn 8 8) = ⟨0, none⟩) ∧
    (first.port.reads = .image 1 :: [] ∧ first.port.writes = [] ∧ t.run.state = .starting ∧
      t.port.inFlight = some (.read (.image 1) 0x1001AC) ∧ t.port.reads = [] ∧
      t.run.startImage.fetched 0 = some (7, List.replicate 16 0xE1) ∧ t.run.startImage.fetched 1 = none ∧
      t.run.startImage.tornFetches = 0 ∧ first.run.startImage.tornFetches = 1) := by decide +kernel

/-- The same: the records of a visited entry and of one outside the run, and the line with the pair at rest and not. -/
theorem witness_running_records :
    let t := after (.imageFetchComplete (imageBlock 7)) fetching
    let busy := after (.imageFetchComplete (imageBlock 7)) (fetching.onLine fun l => { l with pairAtRest := false })
    ((t.station 0).link.counters.visits = 1 ∧ (t.station 0).link.outstanding = some ⟨.resetStation, 0⟩ ∧
      (t.station 0).link.nextTurn = 1 ∧ (t.station 0).link.sampledResync = some 2 ∧ (t.station 0).link.lastAcked = 0 ∧
      (t.station 0).contacts.records.length = 24 ∧ t.station 1 = Station.reset) ∧
    (t.line.state = .sending ∧ t.line.receiver = .disarmed ∧ t.line.busy = none ∧ busy.line.state = .idle ∧
      busy.line.busy = some ⟨0, .ms 20⟩ ∧ t.port.reads = []) := by decide +kernel

/-- StopInStartingAbandonsTheStart: a start read in flight, and an image fetch; and what a run before has left. -/
theorem witness_stop_in_starting :
    let used : State :=
      { starting 0 with
        line := { Line.reset with state := .disturbed, disturbed := true, stray := 3 }
        journal := { Journal.reset with written := 9, discarded := 1, staging := [⟨⟨.lineDisturbed, none, 0⟩, Gap.zero⟩] }
        exch := { Exchange.reset with sweepCount := 7 }
        stations := (Vector.replicate 16 Station.reset).set 0 { online with rememberedSounder := some 5 } }
    ((starting 0).run.resetAsserted = false ∧ (starting 0).run.state = .starting ∧ (Read.start 0).isStart = true ∧
      (Read.image 0).isImage = true ∧ (imageBlock 7).length = (Read.image 0).size ∧ fetching.port.writes = []) ∧
    (after .stop (starting 0)).run.startAbandoned = true ∧ (after .stop (starting 0)).port.reads = [] ∧
    (after .stop fetching).run.startImage = fetching.run.startImage ∧
    (after (.imageFetchComplete (imageBlock 7)) (after .stop fetching)).run.startImage = ⟨[], []⟩ ∧
    (after (.startReadComplete control) (after .stop (starting 0))).run.state = .halted ∧
    (after (.imageFetchComplete (imageBlock 7)) (after .stop fetching)).run.state = .halted ∧
    (used.run.resetAsserted = false ∧ used.run.state = .starting ∧
      used.port.inFlight = some (.read (.start 0) 0x100000)) ∧
    (after .stop used).line = { Line.reset with disturbed := true, stray := 3 } ∧
    (after .stop used).journal = Journal.reset ∧ (after .stop used).exch = Exchange.reset ∧
    (after .stop used).station 0 = online := by decide +kernel

/-- StopInRunningEntersStopping: with a fetch in flight, and a cycle with no visit in progress. -/
theorem witness_stop :
    let s : State := { run0 with sched := { run0.sched with cycleInProgress := true, markDue := true } }.onOutput 0
      (·.requestFetch 8#16)
    (s.run.resetAsserted = false ∧ s.run.state = .running ∧ s.journal.drain = .notBegun ∧ s.sched.visit = none ∧
      (s.station 0).output.fetchInFlight.isSome = true) ∧
    (after .stop s).sched.cycleInProgress = false ∧ ((after .stop s).station 0).output.fetchDiscard = true ∧
    (after .stop (visiting .awaiting .armed)).sched.visit = some ⟨0, request, 1⟩ := by decide +kernel

/-- The same: the line in QUIET and in the discard period, with the stop limit running, and with a request waiting; and the
reads, of a sweep with its released count waiting, and of one with no read left, without and with the sweep-again mark. -/
theorem witness_stop_line_and_reads :
    let line (f : Line → Line) : Line := (after .stop (run0.onLine f)).line
    let quiet (l : Line) : Line := { l with state := .quiet, quietGap := some ⟨1999#32, .chars 4⟩ }
    let discarding (l : Line) : Line := { l with state := .receiving, discard := true }
    let limited (l : Line) : Line := { quiet l with stopLimit := some ⟨1990#32, .ms 20⟩ }
    let waiting (l : Line) : Line := { l with sendPlace := some request, busy := some ⟨1999#32, .ms 20⟩ }
    let s (again : Bool) (r : Read) (reads : List Read) : State :=
      ({ reading r run0 with exch := { run0.exch with sweepInFlight := true, sweepAgain := again, sweepCount := 4 } }.onPort
        fun p => { p with reads := reads }).onLink 0 fun l => { l with countersChanged := true }
    let t (again : Bool) (r : Read) (reads : List Read) : State := after .stop (s again r reads)
    (line quiet = { quiet run0.line with stopLimit := some ⟨2000#32, .ms 20⟩ } ∧
      line discarding = { discarding run0.line with stopLimit := some ⟨2000#32, .ms 20⟩ } ∧
      line limited = limited run0.line ∧ line waiting = waiting run0.line) ∧
    (run0.line.settled = false ∧ (s true (.image 1) []).port.inFlight.isSome = true ∧
      (s true (.image 1) []).cfg.stopDrainLimit ≠ 0 ∧ ((s true (.image 1) []).station 0).takesPart = true) ∧
    ((t true (.image 1) [.released, .live 0, .image 0]).port.reads = [.released, .image 0] ∧
      (t true (.live 0) [.live 1, .image 0]).port.reads = [.image 0] ∧ (t true (.live 0) [.live 1]).exch.sweepCount = 4 ∧
      (t true (.image 1) [.released]).exch = (s true (.image 1) []).exch) ∧
    ((t false (.image 1) [.live 0, .image 0]).port.reads = [.image 0] ∧
      (t false (.image 1) [.live 0]).exch.sweepInFlight = false ∧ (t false (.image 1) [.live 0]).exch.sweepCount = 5 ∧
      (t false (.image 1) [.live 0]).port.writes = [.status 0] ∧
      (t true (.image 1) [.live 0, .image 0]).port.reads = [.image 0, .released] ∧
      (t true (.image 1) [.live 0]).exch.sweepInFlight = true ∧
      (t true (.image 1) [.live 0]).exch.sweepAgain = false) := by decide +kernel

/-- SettlingBeginsTheStopDrain: the quiet gap's expiry, and the stop limit's in the same state. -/
theorem witness_settling :
    let quiet : State := stop0.onLine fun l => { l with state := .quiet, quietGap := some ⟨1999#32, .chars 4⟩ }
    (quiet.run.state = .stopping ∧ quiet.line.settled = false ∧ quiet.journal.drain = .notBegun ∧
      quiet.cfg.stopDrainLimit ≠ 0 ∧ quiet.line.sendPlace = none ∧ quiet.line.state = .quiet ∧
      quiet.line.quietGap.isSome = true ∧ quiet.line.stopLimit.isSome = true) ∧
    (after .quietGapExpiry quiet).journal.drain = .running ∧ (after .stopLimitExpiry quiet).line.state = .disturbed := by
  decide +kernel

/-- The same, and BusyLimitDisturbsTheLine: the clear test on entry to DISTURBED, with the pair at rest, active, and at rest
with a character in reception. -/
theorem witness_clear_test_on_entry :
    let pairs : List (Bool × Receiver) := [(true, .armed), (false, .armed), (true, .inReception)]
    let stopped (p : Bool × Receiver) : Option Timer := (after .stopLimitExpiry (stop0.onLine fun l =>
      { l with state := .quiet, pairAtRest := p.1, receiver := p.2, clearTest := none })).line.clearTest
    let busy (p : Bool × Receiver) : Option Timer := (after .busyLimitExpiry ((visiting .idle p.2).onLine fun l =>
      { l with pairAtRest := p.1, busy := some ⟨1980#32, .ms 20⟩ })).line.clearTest
    pairs.map stopped = [some ⟨2000#32, .chars 10⟩, none, none] ∧
    pairs.map busy = [some ⟨2000#32, .chars 10⟩, none, none] := by decide +kernel

/-- The same: after a result or a "sent" in STOPPING, with the line at rest, with a stop drain limit of 0, and in QUIET
without and with the stop limit running. -/
theorem witness_settling_after_a_result :
    let resting : State := { stop0 with sched := { stop0.sched with cycleInProgress := true } }
    let free : State := resting.onRun fun c => { c with settings := some { cfg with stopDrainLimit := 0 } }
    let quiet (limit : Option Timer) : State := resting.onLine fun l => { l with state := .quiet, stopLimit := limit }
    (resting.run.state = .stopping ∧ resting.sched.visit = none ∧ resting.line.settled = false ∧
      resting.line.sendPlace = none ∧ resting.line.state = .idle ∧ resting.journal.drain = .notBegun ∧
      resting.cfg.stopDrainLimit ≠ 0 ∧ free.cfg.stopDrainLimit = 0) ∧
    (resting.proceed.line.settled = true ∧ resting.proceed.journal.drain = .running ∧
      resting.proceed.sched.cycleInProgress = false ∧ free.proceed.journal.drain = .ended) ∧
    ((quiet none).proceed.line.stopLimit = some ⟨2000#32, .ms 20⟩ ∧
      (quiet (some ⟨1990#32, .ms 20⟩)).proceed.line.stopLimit = some ⟨1990#32, .ms 20⟩ ∧
      (quiet none).proceed.journal.drain = .notBegun) := by decide +kernel

/-- The same: at STOP with the line IDLE and with it DISTURBED, and with a stop drain limit of 0 for each of the three
commands, of which the last discards LINE_DISTURBED with RUN_STOP. -/
theorem witness_settling_at_once :
    let free (s : State) : State := s.onRun fun c => { c with settings := some { cfg with stopDrainLimit := 0 } }
    let disturbed : State := run0.onLine fun l => { l with state := .disturbed, disturbed := true }
    let quiet : State := stop0.onLine fun l => { l with state := .quiet, quietGap := some ⟨1999#32, .chars 4⟩ }
    let bodies (s : State) : List EventBody := s.journal.staging.map (·.event.body)
    (run0.run.state = .running ∧ run0.run.resetAsserted = false ∧ run0.line.settled = false ∧
      run0.journal.drain = .notBegun ∧ run0.line.sendPlace = none ∧ run0.line.state = .idle ∧
      (free run0).cfg.stopDrainLimit = 0 ∧ (free quiet).line.stopLimit.isSome = true) ∧
    ((after .stop run0).line.settled = true ∧ (after .stop run0).journal.drain = .running ∧
      bodies (after .stop run0) = [.runStop 5] ∧ (after .stop disturbed).line.state = .disturbed ∧
      (after .stop disturbed).line.settled = true) ∧
    ((after .stop (free run0)).journal.drain = .ended ∧ (after .stop (free run0)).journal.discarded = 1 ∧
      (after .stop (free run0)).port.writes = [.mark 0 false] ∧ (after .stop (free run0)).run.state = .stopping) ∧
    ((after .quietGapExpiry (free quiet)).journal.discarded = 1 ∧
      (after .stopLimitExpiry (free quiet)).journal.discarded = 2) := by decide +kernel

/-- PairAndReceiverEvents: one case for each clause. -/
theorem witness_pair :
    let low (st : LineState) (r : Receiver) : State :=
      run0.onLine fun l => { l with state := st, receiver := r, pairAtRest := false, discard := true }
    (run0.works = true ∧ run0.line.pairAtRest = true ∧ run0.line.state ≠ .sending) ∧
    (after .pairLeavesRest run0).line.receiver = .edgeSeen ∧ halt0.works = false ∧
    (after .pairReturnsToRest (after .pairLeavesRest halt0)) = halt0 ∧
    ((low .disturbed .disarmed).line.pairAtRest = false ∧ (low .disturbed .disarmed).line.receiver ≠ .inReception) ∧
    (after .pairReturnsToRest (low .disturbed .disarmed)).line.clearTest = some ⟨2000#32, .chars 10⟩ ∧
    (after .pairReturnsToRest (low .receiving .disarmed)).line.discardRest = some ⟨2000#32, .chars 2⟩ ∧
    (after .pairReturnsToRest ((low .idle .armed).onLine fun l => { l with sendPlace := some request })).line.state =
      .sending ∧
    (after .startBitConfirmed (run0.onLine fun l => { l with receiver := .edgeSeen })).line.receiver = .armed ∧
    (after .startBitConfirmed (low .idle .edgeSeen)).line.receiver = .inReception ∧
    (after .receiverArmed (run0.onLine fun l => { l with receiver := .disarmed })).line.receiver = .armed := by
  decide +kernel

/-- The same: a return in every other case leaves all but the level as it is. -/
theorem witness_pair_level_alone :
    let low (f : Line → Line) : State := run0.onLine fun l => { f l with pairAtRest := false }
    let levelAlone (f : Line → Line) : Prop :=
      after .pairReturnsToRest (low f) = run0.onLine fun l => { f l with pairAtRest := true }
    levelAlone (fun l => { l with state := .disturbed, receiver := .inReception }) ∧
    levelAlone (fun l => { l with state := .receiving, discard := true, receiver := .inReception }) ∧
    levelAlone (fun l => { l with state := .quiet, quietGap := some ⟨1999#32, .chars 4⟩ }) ∧
    levelAlone (fun l => { l with state := .awaiting, sendPlace := some request }) ∧
    levelAlone (fun l => { l with state := .sending, sendPlace := some request }) ∧
    levelAlone (fun l => { l with state := .receiving, sendPlace := some request, assembler := [0xC3] }) ∧
    levelAlone id ∧
    levelAlone (fun l => { l with sendPlace := some request, receiver := .inReception }) := by decide +kernel

/-- CharacterCheckResults: even and odd numbers of ones, and the parity error of an even one. -/
theorem test_characters :
    sampledChar 0xC3 true true = ⟨0xC3, false, false⟩ ∧ sampledChar 0xC3 false true = ⟨0xC3, true, false⟩ ∧
    sampledChar 0x01 false false = ⟨0x01, false, true⟩ := by decide +kernel

/-- A run with a character in reception at a line state. -/
def receiving (st : LineState) (held : Nat) : State :=
  run0.onLine fun l =>
    { l with
      state := st, receiver := .inReception, discard := st = .receiving
      holding := List.replicate held ⟨0x55, false, false⟩ }

/-- StrayAndHeldCharacters: one case for each clause, with three and four characters held. -/
theorem witness_stray :
    ((receiving .idle 0).works = true ∧ (receiving .idle 0).line.receiver = .inReception) ∧
    (after (.characterReceived 0x55 true true) (receiving .idle 0)).line.state = .quiet ∧
    (after (.characterReceived 0x55 true true) (receiving .quiet 0)).line.stray = 1#16 ∧
    (after (.characterReceived 0x55 true false) (receiving .disturbed 0)).line.receiver = .disarmed ∧
    ((receiving .awaiting 0).line.reply ≠ .expiryHeld ∧ (sampledChar 0x55 true true).parityError = false) ∧
    (after (.characterReceived 0x55 true true) (receiving .awaiting 0)).line.stray = 1#16 ∧
    (after (.characterReceived 0x55 true true) (receiving .receiving 3)).line.holding.length = 4 ∧
    (after (.characterReceived 0x55 true true) (receiving .receiving 4)).line.holding.length = 4 ∧
    (after (.characterReceived 0x55 true true) (receiving .receiving 4)).line.stray = 1#16 := by decide +kernel

/-- The same, where the reply window's expiry waited for the character: the gap is open at a window of 1 ms, may have
passed at one of 2 and has passed at one of 3. -/
theorem witness_stray_expiry :
    let held (window : Nat) : State :=
      ((visiting .awaiting .inReception).onLine fun l => { l with reply := .expiryHeld }).onRun fun c =>
        { c with settings := some { cfg with responseWindow := window } }
    ((held 2).works = true ∧ (sampledChar 0x55 true true).parityError = false ∧ (held 2).line.sendPlace = some request ∧
      request.serves = some 0 ∧ (held 2).cfg.responseWindow = 2) ∧
    (1 * Config.bitRate 0 + 11000 < 44000 ∧ 2 * Config.bitRate 0 < 44000 ∧ 44000 ≤ 2 * Config.bitRate 0 + 11000 ∧
      44000 ≤ 3 * Config.bitRate 0 ∧ cfg.lineRate = 0) ∧
    (after (.characterReceived 0x55 true true) (held 1)).line.state = .quiet ∧
    (after (.characterReceived 0x55 true true) (held 1)).line.quietGap = some ⟨1998#32, .chars 4⟩ ∧
    (after (.characterReceived 0x55 true true) (held 3)).line.state = .sending ∧
    (after (.characterReceived 0x55 true true) (held 3)).line.stray = 1#16 ∧
    ((after (.characterReceived 0x55 true true) (held 1)).station 0).link.counters.noReply = 1#16 := by decide +kernel

/-- A visit in a reply with some characters assembled. -/
def replying (chars : List Byte) : State :=
  (visiting .receiving .inReception).onLine fun l => { l with assembler := chars }

/-- ReplyIsAssembled: the lead character, the second character, a length of 24, and a character after the length. -/
theorem witness_reply :
    ((visiting .awaiting .inReception).works = true ∧ (visiting .awaiting .inReception).line.state = .awaiting ∧
      (sampledChar 0xC3 true true).parityError = false) ∧
    (after (.characterReceived 0xC3 true true) (visiting .awaiting .inReception)).line.assembler = [0xC3] ∧
    (replying [0xC3]).line.discard = false ∧
    (after (.characterReceived 0x8C false true) (replying [0xC3])).line.assembler = [0xC3, 0x8C] ∧
    (after (.characterReceived 0x18 true true) (replying [0xC3, 0x8C, 0x21, 3])).line.assembler.length = 5 ∧
    (after (.characterReceived 0x18 true true) (replying [0xC3, 0x8C, 0x21, 3, 1])).line.assembler.length = 6 := by
  decide +kernel

/-- DamagedCharacterEndsTheTry: in place of the lead character, and in a reply. -/
theorem witness_damaged :
    let s := visiting .awaiting .inReception
    (s.run.state = .running ∧ (sampledChar 0xC3 false true).damaged = true ∧ s.sched.visit = some ⟨0, request, 1⟩ ∧
      s.line.sendPlace = some request ∧ request.serves = some 0 ∧ 1 < 1 + s.cfg.retryLimit ∧
      (s.station 0).link.disablePending = false) ∧
    (after (.characterReceived 0xC3 false true) s).line.discard = true ∧
    ((after (.characterReceived 0xC3 true false) (replying [0xC3])).station 0).link.counters.charError = 1#16 := by
  decide +kernel

/-- CompleteSequenceIsJudged: the last check character of a SNAP with the expected turn, and a length of 25. -/
theorem witness_sequence :
    let frame := uplinkFrame 12#5 0x21 3 [0, 1, 0, 0, 0]
    let last := frame.getLast?.getD 0
    let s := replying frame.dropLast
    (s.line.discard = false ∧ (frame.dropLast ++ [last]).length = 7 + (byteAt (frame.dropLast ++ [last]) 4).toNat) ∧
    ((after (.characterReceived last (sampledChar last false true).parityError true) s).station 0).link.counters.ok =
      1#16 ∧
    ([0xC3, 0x8C, 0x21, 3] ++ [25#8]).length = 5 ∧ 24 < (25#8).toNat ∧
    (after (.characterReceived 25 false true) (replying [0xC3, 0x8C, 0x21, 3])).line.discard = true := by decide +kernel

/-- The same in STOPPING: the sequence is judged and applied, the visit has ended and the stop limit runs. -/
theorem witness_sequence_stopping :
    let frame := uplinkFrame 12#5 0x21 3 [0, 1, 0, 0, 0]
    let last := frame.getLast?.getD 0
    let stopping (s : State) : State := s.onRun fun c => { c with state := .stopping }
    let s := stopping (replying frame.dropLast)
    let t := after (.characterReceived last (sampledChar last false true).parityError true) s
    let tooLong := after (.characterReceived 25 false true) (stopping (replying [0xC3, 0x8C, 0x21, 3]))
    (s.run.state = .stopping ∧ s.journal.drain ≠ .ended ∧ s.line.settled = false ∧ s.line.stopLimit = none) ∧
    ((t.station 0).link.counters.ok = 1 ∧ t.sched.visit = none ∧ t.sched.cycleInProgress = false ∧
      t.line.state = .quiet ∧ t.line.stopLimit = some ⟨2000, .ms 20⟩) ∧
    (tooLong.line.discard = true ∧ tooLong.line.stopLimit = some ⟨2000, .ms 20⟩ ∧
      (tooLong.station 0).link.counters.badFormat = 1) := by decide +kernel

/-- The same: an ending on the last permitted try, in STOPPING, and with a disable pending, each a Visit MISS; one with
another try; and the outcomes that are no failure. -/
theorem witness_outcomes :
    let last (s : State) : State := { s with sched := { s.sched with visit := some ⟨0, request, 2⟩ } }
    let waiting := visiting .awaiting .armed
    let stopping : State := { waiting with run := { waiting.run with state := .stopping } }
    let disabling := waiting.onLink 0 fun l => { l with disablePending := true }
    (1 + waiting.cfg.retryLimit = 2 ∧ stopping.works = true ∧ waiting.line.interChar.isSome = true ∧
      (disabling.station 0).link.disablePending = true ∧ waiting.sched.visit = some ⟨0, request, 1⟩) ∧
    ((after .replyWindowExpiry (last waiting)).station 0).link.misses = 1 ∧
    ((after .replyWindowExpiry stopping).station 0).link.misses = 1 ∧
    (after .replyWindowExpiry stopping).sched.visit = none ∧
    ((after .replyWindowExpiry disabling).station 0).link.state = .disabled ∧
    (waiting.deliver .badFormat).sched.visit = some ⟨0, request, 2⟩ ∧
    ((after .interCharacterLimitExpiry (last (replying [0xC3]))).station 0).link.counters.truncated = 1 ∧
    ((after (.characterReceived 0xC3 false true) (last (visiting .awaiting .inReception))).station 0).link.misses = 1 ∧
    ((waiting.deliver (.wait 5)).station 0).link.holdUntil = some 2005 ∧
    ((waiting.deliver .turnMismatch).station 0).link.state = .syncing ∧
    ((waiting.deliver .lineDisturbed).station 0).link.counters = online.link.counters := by decide +kernel

/-- FramesAreBuiltAndReadBack: payloads of 0 and 24 bytes, and eight rows. -/
theorem witness_frames :
    (FramePlan.mk 0x11 3 []).payload.length ≤ 24 ∧ (List.replicate 24 0#8).length ≤ 24 ∧
    (buildFrame 12#5 ⟨0x12, 3, List.replicate 24 0#8⟩).length = 31 ∧
    judge ⟨12#5, 8, 8, 3#3⟩ false (uplinkFrame 12#5 0x21 3 (2 :: List.replicate 8 0xFF)) =
      .ok ⟨3#3, false, true, List.replicate 8 0xFF⟩ ∧
    judge ⟨12#5, 8, 8, 3#3⟩ false (uplinkFrame 12#5 0x22 9 [255]) = .wait 255 := by decide +kernel

/-- The same, for a sequence of each judgement: every field at the edge of its range, bits 5 and 6 of the address set, and
the columns at their ends. -/
theorem witness_judgement_order :
    let of (frame : List Byte) : TryOutcome := judge ⟨12#5, 4, 6, 3#3⟩ false frame
    let refield (address : Byte) : List Byte :=
      let covered : List Byte := [address, 0x22, 9, 1, 7]
      0xC3 :: covered ++ [(checkValue covered).extractLsb' 8 8, (checkValue covered).extractLsb' 0 8]
    of (refield 0x8C) = .wait 7 ∧ of (refield 0xEC) = .wait 7 ∧ of (refield 0x0C) = .wrongAddress ∧
    of (refield 0x8D) = .wrongAddress ∧ of ((refield 0x0C).set 5 8) = .badCrc ∧
    judge ⟨12#5, 4, 6, 3#3⟩ true (refield 0x8C) = .badFormat ∧
    of (uplinkFrame 12#5 0x22 3 [1, 2]) = .badFormat ∧ of (uplinkFrame 12#5 0x21 8 [0, 0, 0, 0, 0]) = .badFormat ∧
    of (uplinkFrame 12#5 0x21 7 [0, 0, 0, 0, 0]) = .turnMismatch ∧ of (uplinkFrame 12#5 0x21 3 [0]) = .badFormat ∧
    cleanRow 0 0xFF = 0 ∧ cleanRow 7 0xFF = 0x7F ∧ cleanRow 8 0xFF = 0xFF := by decide +kernel

/-- The same, for the bits on the pair: 0xC3 and 0x80 as R2 lays them out, and the seven characters of a POLL. -/
theorem witness_sent_bits :
    sentBits 0xC3 = [false, true, true, false, false, false, false, true, true, true, true] ∧
    sentBits 0x80 = [false, false, false, false, false, false, false, false, true, false, true] ∧
    ((visiting .sending .armed).line.state = .sending ∧ (visiting .sending .armed).line.sendPlace = some request) ∧
    (visiting .sending .armed).line.driven.length = 77 ∧ run0.line.driven = [] := by decide +kernel

/-- FrameSentTurnsThePairRound: a frame with a reply and a TIME MARK. -/
theorem witness_frame_sent :
    let mark : State := run0.onLine fun l => { l with state := .sending, sendPlace := some run0.markRequest }
    ((visiting .sending .armed).line.state = .sending ∧ request.expectsReply = true ∧ mark.works = true ∧
      run0.markRequest.expectsReply = false) ∧
    (after .frameSent (visiting .sending .armed)).line.state = .awaiting ∧ (after .frameSent mark).line.state = .quiet := by
  decide +kernel

/-- The same: a TIME MARK in STOPPING, where the stop limit starts, or runs on. -/
theorem witness_mark_sent_stopping :
    let mark (limit : Option Timer) : State := stop0.onLine fun l =>
      { l with state := .sending, sendPlace := some run0.markRequest, stopLimit := limit }
    ((mark none).run.state = .stopping ∧ (mark none).journal.drain ≠ .ended ∧ (mark none).sched.visit = none ∧
      (mark none).line.settled = false) ∧
    (after .frameSent (mark none)).line.stopLimit = some ⟨2000, .ms 20⟩ ∧
    (after .frameSent (mark (some ⟨1990, .ms 20⟩))).line.stopLimit = some ⟨1990, .ms 20⟩ ∧
    (after .frameSent (mark none)).line.state = .quiet := by decide +kernel

/-- ReplyTimersEndTheTry: the expiry held, the gap open at a window of 1 and passed at one of 3, and the truncation. -/
theorem witness_reply_timers :
    let long : State := (visiting .awaiting .armed).onRun fun c =>
      { c with settings := some { cfg with responseWindow := 3 } }
    (visiting .awaiting .inReception).line.reply = .running ⟨1998#32, .ms 1⟩ ∧
    (after .replyWindowExpiry (visiting .awaiting .inReception)).line.reply = .expiryHeld ∧
    1 * Config.bitRate 0 < 44000 ∧ 44000 ≤ 3 * Config.bitRate 0 ∧ long.cfg.responseWindow = 3 ∧
    (after .replyWindowExpiry (visiting .awaiting .armed)).line.state = .quiet ∧
    (after .replyWindowExpiry long).line.state = .sending ∧
    (after .replyWindowExpiry (long.onLine fun l => { l with pairAtRest := false })).line.state = .idle ∧
    (replying [0xC3]).line.interChar.isSome = true ∧
    ((after .interCharacterLimitExpiry (replying [0xC3])).station 0).link.counters.truncated = 1#16 := by
  decide +kernel

/-- LineTimersInRunning: the discard period's end, the quiet gap's expiry without and with a request, the clear test. -/
theorem witness_line_timers :
    let discarding : State := (receiving .receiving 3).onLine fun l =>
      { l with receiver := .armed, discardRest := some ⟨1999#32, .chars 2⟩ }
    let gap : State := run0.onLine fun l => { l with state := .quiet, quietGap := some ⟨1999#32, .chars 4⟩ }
    let clear : State := run0.onLine fun l =>
      { l with state := .disturbed, disturbed := true, clearTest := some ⟨1999#32, .chars 10⟩, disturbedMs := 0 }
    (discarding.run.state = .running ∧ discarding.line.discard = true ∧ gap.line.sendPlace = none ∧
      clear.line.sendPlace = none) ∧
    (after .discardPeriodEnd discarding).line.stray = 3#16 ∧ (after .quietGapExpiry gap).line.state = .idle ∧
    (after .quietGapExpiry (gap.onLine fun l => { l with sendPlace := some request })).line.state = .sending ∧
    (after .clearTestExpiry clear).line.state = .idle ∧ (after .clearTestExpiry clear).draws = 1 ∧
    ({ clear.line with disturbedMs := 65536 }.disturbedFor true = 65535 ∧
      { clear.line with disturbedMs := 65536 }.disturbedFor false = 65535 ∧ clear.line.disturbedFor true = 0 ∧
      { clear.line with disturbedMs := 100 }.disturbedFor true = 99) := by decide +kernel

/-- The same in STOPPING: the discard period's end with the stop limit running; the quiet gap's expiry with a request in
the send place, and once the line has settled; and a clear test once it has, after the end of the drain too. -/
theorem witness_line_timers_stopping :
    let stopping (s : State) : State := s.onRun fun c => { c with state := .stopping }
    let discarding : State := (stopping (receiving .receiving 3)).onLine fun l =>
      { l with receiver := .armed, discardRest := some ⟨1999#32, .chars 2⟩, stopLimit := some ⟨1990#32, .ms 20⟩ }
    let gap : State := stop0.onLine fun l =>
      { l with state := .quiet, quietGap := some ⟨1999#32, .chars 4⟩, sendPlace := some request }
    let settled : State := ending.onLine fun l => { l with state := .quiet, quietGap := some ⟨1999#32, .chars 4⟩ }
    let clear : State := ending.onLine fun l =>
      { l with state := .disturbed, disturbed := true, clearTest := some ⟨1999#32, .chars 10⟩ }
    (discarding.line.stopLimit.isSome = true ∧ discarding.journal.drain ≠ .ended ∧ gap.line.stopLimit.isSome = true ∧
      gap.line.sendPlace.isSome = true ∧ settled.line.settled = true ∧ settled.port.quiet = false ∧
      clear.line.settled = true ∧ clear.journal.drain = .ended) ∧
    ((after .discardPeriodEnd discarding).line.stray = 3 ∧ (after .quietGapExpiry gap).line.state = .sending ∧
      (after .quietGapExpiry settled).line.state = .idle ∧ (after .clearTestExpiry clear).line.disturbed = false ∧
      (after .clearTestExpiry clear).journal.discarded = 1 ∧ (after .clearTestExpiry clear).run.state = .stopping) := by
  decide +kernel

/-- BusyLimitDisturbsTheLine: with no command outstanding, and with one where the cycle timer has expired. -/
theorem witness_busy :
    let s : State := (visiting .idle .armed).onLine fun l =>
      { l with pairAtRest := false, busy := some ⟨1980#32, .ms 20⟩, holding := [⟨1, false, false⟩] }
    (s.works = true ∧ s.line.sendPlace = some request ∧ s.line.busy.isSome = true ∧ s.journal.drain = .notBegun ∧
      s.cfg.stopDrainLimit ≠ 0 ∧ s.journal.staging.length < 32 ∧ (s.station 0).link.disablePending = false) ∧
    let late : State :=
      ({ s with sched := { s.sched with cycleTimer := .expired } }).onLink 0 fun l => { l with outstanding := some ⟨.set, 2⟩ }
    (after .busyLimitExpiry s).line.state = .disturbed ∧
    ((after .busyLimitExpiry s).station 0).link.misses = 0 ∧
    (request.serves = some 0 ∧ s.sched.visit = some ⟨0, request, 1⟩ ∧ s.sched.cycleTimer ≠ .expired) ∧
    (after .busyLimitExpiry s).sched.visit = none ∧ ((after .busyLimitExpiry s).station 0).link.state = .online ∧
    (late.station 0).link.outstanding.isSome = true ∧ (after .busyLimitExpiry late).sched.cycleNumber = 6#32 ∧
    ((after .busyLimitExpiry late).station 0).link.outstanding = some ⟨.set, 2⟩ := by decide +kernel

/-- SendingNeedsAFreePair. -/
theorem witness_sending :
    let s : State := run0.onLine fun l =>
      { l with state := .quiet, quietGap := some ⟨1999#32, .chars 4⟩, sendPlace := some request }
    s.line.state ≠ .sending ∧ (after .quietGapExpiry s).line.state = .sending ∧ s.works = true := by decide +kernel

/-- NewOrdersTakeTheNextTurn, ChoiceOfFrame: a POLL, an outstanding command, a resync, output, a SOUND, and the sync
steps; turn 7 is followed by 0. -/
theorem witness_visits :
    let link (f : Link → Link) : Station := { online with link := f online.link }
    let output (f : Output → Output) : Station := { online with output := f online.output }
    online.link.outstanding = none ∧ online.beginVisit.framePlan = ⟨0x11, 3, []⟩ ∧
    (link fun l => { l with outstanding := some ⟨.set, 2⟩ }).beginVisit.framePlan.turn = 2 ∧
    (let resend : Station :=
      { online with
        link := { online.link with outstanding := some ⟨.sound, 0⟩ }
        output := { online.output with sounderPattern := 6, outSound := some ⟨5, 2, 2⟩ } }
     resend.beginVisit.framePlan = ⟨0x13, 0, [5]⟩ ∧ resend.beginVisit.expectedTurn = 0) ∧
    online.beginVisit.expectedTurn = 3 ∧
    (link fun l => { l with resyncRequest := 1 }).beginVisit.framePlan = ⟨0x14, 7, [4, 6]⟩ ∧
    (link fun l => { l with resyncRequest := 1 }).beginVisit.link.nextTurn = 0 ∧
    (output fun o => { o with applied := 6 }).beginVisit.framePlan.kind = 0x12 ∧
    (output fun o => { o with sounderRequest := 2, sounderPattern := 5 }).beginVisit.framePlan = ⟨0x13, 7, [5]⟩ ∧
    searching.beginVisit.framePlan.kind = 0x14 ∧
    (link fun l => { l with state := .syncing, step := some .reset }).beginVisit.framePlan.kind = 0x14 ∧
    (link fun l => { l with state := .syncing, step := some .image }).beginVisit.framePlan.kind = 0x12 := by
  decide +kernel

/-- ChoiceOfFrame: the bounds of what is pending. -/
theorem witness_pending :
    (ahead 8 7 = true ∧ ahead 7 7 = false ∧ ahead 0 65535 = true ∧ ahead 32774 7 = true ∧ ahead 32775 7 = false) ∧
    ((8#16).toNat = ((7#16).toNat + 1) % 65536 ∧ (32774#16).toNat = ((7#16).toNat + 32767) % 65536) ∧
    (online.output.fetchedRevision = some online.output.applied ∧ online.output.outputPending = false ∧
      { online.output with applied := 6 }.outputPending = true ∧
      { online.output with fetchedRevision := none }.outputPending = false ∧
      { online.output with sounderRequest := 1 }.sounderPending = true) := by decide +kernel

/-- CyclesAreWalkedInOrder: kept during a visit; an empty poll list; the visit of cycle 6 to a SEARCHING station,
and to an ONLINE one. -/
theorem witness_cycle :
    let timed (s : State) : State := { s with sched := { s.sched with cycleTimer := .running ⟨1960#32, .ms 40⟩ } }
    let empty : State := timed (running { online with link := Link.reset })
    let found : State := timed (running searching)
    ((timed (visiting .awaiting .armed)).run.state = .running ∧ (timed (visiting .awaiting .armed)).sched.visit ≠ none) ∧
    (after .cycleTimerExpiry (timed (visiting .awaiting .armed))).sched.cycleTimer = .expired ∧
    (empty.sched.visit = none ∧ empty.line.sendPlace = none ∧ empty.sched.markDue = false ∧
      empty.sched.cycleInProgress = false ∧ ∀ e, (empty.station e).link.state = .disabled) ∧
    (after .cycleTimerExpiry empty).sched.cycleNumber = 6#32 ∧
    (found.line.state = .idle ∧ found.line.pairAtRest = true ∧ found.line.receiver ≠ .inReception ∧
      (∀ e' < (0 : Entry), (found.station e').link.state = .disabled) ∧ (found.station 0).link.state ≠ .disabled ∧
      (found.station 0).link.holdUntil = none ∧ (found.station 0).link.state = .searching ∧
      (found.sched.cycleNumber + 1#32).toNat % found.cfg.searchDivisor = 0) ∧
    (after .cycleTimerExpiry found).line.state = .sending ∧
    ((timed run0).sched.cycleTimer = .running ⟨1960#32, .ms 40⟩ ∧ ((timed run0).station 0).link.state = .online ∧
      ((timed run0).station 0).link.holdUntil = none ∧ (timed run0).line.state = .idle ∧
      (timed run0).line.pairAtRest = true ∧ (timed run0).line.sendPlace = none ∧ (timed run0).sched.visit = none ∧
      (timed run0).sched.markDue = false ∧ (timed run0).sched.cycleInProgress = false) ∧
    (after .cycleTimerExpiry (timed run0)).line.state = .sending ∧
    (after .cycleTimerExpiry (timed run0)).sched.visit = some ⟨0, request, 1⟩ := by decide +kernel

/-- The same, and TimeMarkIsSentOrDropped, in STOPPING before the line settles. -/
theorem witness_stopping_requests_nothing :
    let s (due : Bool) : State :=
      { stop0 with sched := { stop0.sched with cycleTimer := .running ⟨1960#32, .ms 40⟩, markDue := due } }
    let t := after .timeMarkDue (s false)
    ((s false).run.state = .stopping ∧ (s false).line.state = .idle ∧ (s false).line.sendPlace = none ∧
      (s false).sched.markTimer = some ⟨1000#32, .ms 1000⟩) ∧
    (s true).schedule = s true ∧ (after .cycleTimerExpiry (s false)).sched.cycleTimer = .expired ∧
    (after .cycleTimerExpiry (s false)).sched.visit = none ∧ (after .cycleTimerExpiry (s false)).line = stop0.line ∧
    t.sched.markDue = true ∧ t.line = stop0.line ∧ t.sched.markTimer = some ⟨2000#32, .ms 1000⟩ := by decide +kernel

/-- The same: a TIME MARK in the send place; in cycle 7 a SEARCHING station with its hold reached and an ONLINE one with a
hold that is 1 millisecond ahead are skipped, and an ONLINE one whose hold is reached is visited, its request sent at
once or waiting in QUIET; with the first two alone the cycle ends at once; and the bounds of a hold. -/
theorem witness_walk :
    let hold (h : Word) (st : Station) : Station := { st with link := { st.link with holdUntil := some h } }
    let base (st2 : Station) : State :=
      { run0 with
        sched := { run0.sched with cycleNumber := 6#32, cycleTimer := .running ⟨1960#32, .ms 40⟩ }
        stations := ((run0.stations.set 0 (hold 1999 searching)).set 1 (hold 2001 online)).set 2 st2 }
    let s := base (hold 2000 online)
    let t := after .cycleTimerExpiry s
    let none2 := base Station.reset
    let quiet := after .cycleTimerExpiry (s.onLine fun l => { l with state := .quiet })
    let marking : State := s.onLine fun l => { l with sendPlace := some s.markRequest }
    (marking.sched.visit = none ∧ marking.line.sendPlace ≠ none ∧
      (after .cycleTimerExpiry marking).sched.cycleTimer = .expired) ∧
    ((s.station 0).link.state = .searching ∧ (s.sched.cycleNumber + 1#32).toNat % s.cfg.searchDivisor ≠ 0 ∧
      (s.station 1).link.state = .online ∧ 0 < (2001#32 - s.run.clock).toNat ∧ (2001#32 - s.run.clock).toNat < 2147483648 ∧
      (s.station 2).link.state = .online ∧ ¬0 < (2000#32 - s.run.clock).toNat ∧
      (none2.station 2).link.state = .disabled ∧ s.line.state = .idle ∧ s.sched.cycleInProgress = false) ∧
    (t.station 0 = searching ∧ t.station 1 = hold 2001 online ∧ t.station 2 = online.beginVisit ∧
      t.sched.visit.map (·.entry) = some 2 ∧ t.line.state = .sending) ∧
    (quiet.sched.visit.map (·.entry) = some 2 ∧ quiet.line.state = .quiet ∧ quiet.line.busy = some ⟨2000#32, .ms 20⟩) ∧
    ((after .cycleTimerExpiry none2).sched.cycleNumber = 7#32 ∧
      (after .cycleTimerExpiry none2).sched.cycleInProgress = false ∧
      (after .cycleTimerExpiry none2).station 0 = searching) ∧
    ((hold 0x800007CF online).link.testHold 2000 = (hold 0x800007CF online).link ∧
      (hold 0x800007D0 online).link.testHold 2000 = online.link) := by decide +kernel

/-- The same on a DISTURBED line: a SEARCHING station is skipped in cycle 7, an ONLINE one's visit is refused, and one with
a disable pending is then DISABLED, with its STATUS requested and STATION_DOWN submitted. -/
theorem witness_refused_walk :
    let leaving : Station := { online with link := { online.link with disablePending := true } }
    let s : State :=
      { run0 with
        line := { run0.line with state := .disturbed, disturbed := true }
        sched := { run0.sched with cycleNumber := 6#32, cycleTimer := .running ⟨1960#32, .ms 40⟩ }
        stations := ((run0.stations.set 0 searching).set 1 online).set 2 leaving }
    let t := after .cycleTimerExpiry s
    (s.sched.visit = none ∧ s.line.sendPlace = none ∧ s.sched.markDue = false ∧ s.sched.cycleInProgress = false ∧
      (s.station 0).link.state = .searching ∧ (s.sched.cycleNumber + 1#32).toNat % s.cfg.searchDivisor ≠ 0 ∧
      online.beginVisit.link.statusChanged = false ∧ online.beginVisit.link.disablePending = false ∧
      leaving.beginVisit.link.disablePending = true ∧ leaving.beginVisit.disable.1.link.statusChanged = true) ∧
    (t.station 0 = searching ∧ t.station 1 = online.beginVisit ∧ (t.station 2).link.state = .disabled ∧
      t.port.writes = [.status 2] ∧ t.journal.staging.map (·.event.body) = [.stationDown .disabled] ∧
      t.sched.cycleNumber = 7 ∧ t.sched.cycleInProgress = false ∧ t.sched.visit = none ∧ t.line = s.line) ∧
    ([1, 2] : List Entry).Pairwise (· < ·) := by decide +kernel

/-- The same in the middle of a cycle, once the visit at entry 0 has ended: the walk goes on to entry 2, on a DISTURBED
line to the end; with nothing above, the cycle ends, and where the timer's expiry was kept cycle 6 starts at once and
visits entry 0; a due mark goes first, and on a DISTURBED line it is dropped and the walk follows. -/
theorem witness_walk_goes_on :
    let middle (third : Station) (timer : CycleTimer) (low : Nat) (due : Bool) : State :=
      { run0 with
        sched :=
          { run0.sched with cycleInProgress := true, nextIndex := low, cycleTimer := timer, markDue := due }
        stations := run0.stations.set 2 third }
    let ticking : CycleTimer := .running ⟨1990#32, .ms 40⟩
    let disturb (s : State) : State := s.onLine fun l => { l with state := .disturbed }
    let s := middle online ticking 1 false
    let next := (middle Station.reset .expired 1 false).schedule
    let marked := (middle online ticking 1 true).schedule
    let between (timer : CycleTimer) : State := { run0 with sched := { run0.sched with cycleTimer := timer } }
    (s.run.state = .running ∧ s.sched.visit = none ∧ s.line.sendPlace = none ∧ s.sched.cycleInProgress = true ∧
      s.line.state ≠ .disturbed ∧ (s.station 1).link.state = .disabled ∧ (s.station 2).link.state = .online ∧
      (visiting .awaiting .armed).schedule = visiting .awaiting .armed) ∧
    (s.schedule.sched.visit.map (·.entry) = some 2 ∧ s.schedule.sched.cycleNumber = 5 ∧ s.schedule.station 0 = online ∧
      s.schedule.station 2 = online.beginVisit ∧ (s.endVisit 2 .line).sched.nextIndex = 3) ∧
    ((disturb s).schedule.sched.cycleInProgress = false ∧ (disturb s).schedule.station 0 = online ∧
      (disturb s).schedule.station 2 = online.beginVisit) ∧
    ((middle Station.reset ticking 1 false).schedule.sched.cycleInProgress = false ∧
      (middle Station.reset ticking 1 false).schedule.sched.cycleNumber = 5) ∧
    (next.sched.cycleNumber = 6 ∧ next.sched.visit.map (·.entry) = some 0 ∧ next.sched.cycleInProgress = true) ∧
    (marked.line.sendPlace = some s.markRequest ∧ marked.sched.markDue = false ∧ marked.sched.visit = none) ∧
    ((disturb (middle online ticking 1 true)).schedule = (disturb s).schedule) ∧
    ((between ticking).schedule = between ticking ∧ (between .expired).schedule.sched.cycleNumber = 6) := by
  decide +kernel

/-- TimeMarkIsSentOrDropped: kept during a visit, sent, dropped on a DISTURBED line, and waiting in QUIET, in the discard
period and in IDLE with the pair active. -/
theorem witness_time_mark :
    let broken : State := run0.onLine fun l => { l with state := .disturbed }
    let quiet : State := run0.onLine fun l => { l with state := .quiet, quietGap := some ⟨1999#32, .chars 4⟩ }
    let discarding : State := run0.onLine fun l => { l with state := .receiving, discard := true }
    let active : State := run0.onLine fun l => { l with pairAtRest := false }
    let waits (s : State) : Prop :=
      (after .timeMarkDue s).line =
        { s.line with sendPlace := some s.markRequest, busy := some ⟨2000#32, .ms 20⟩ } ∧
      (after .timeMarkDue s).sched.markDue = false
    ((visiting .awaiting .armed).sched.markTimer = some ⟨1000#32, .ms 1000⟩ ∧ run0.sched.visit = none ∧
      run0.line.state = .idle ∧ run0.line.receiver ≠ .inReception ∧ broken.sched.cycleTimer ≠ .expired ∧
      broken.sched.cycleInProgress = false) ∧
    (after .timeMarkDue (visiting .awaiting .armed)).sched.markDue = true ∧
    (after .timeMarkDue run0).line.state = .sending ∧ (after .timeMarkDue broken).line = broken.line ∧
    waits quiet ∧ waits discarding ∧ waits active := by decide +kernel

/-- MissesLeadToLoss: one miss below the limit and the one that reaches it, a SEARCHING station at the limit, and the
fifteenth and sixteenth WAIT. -/
theorem witness_misses :
    let link (f : Link → Link) : Station := { online with link := f online.link }
    (online.link.state = .online ∧ online.link.misses + 1 < 2) ∧ (online.visitMiss 2).1.link.misses = 1 ∧
    ((link fun l => { l with misses := 1 }).visitMiss 2).1.link.state = .searching ∧
    ((link fun l => { l with misses := 1 }).visitMiss 2).2 = [.stationDown .lost] ∧
    ({ link fun l => { l with misses := 1 } with
        output := { online.output with sounderRequest := 3 } }.visitMiss 2).2 =
      [.stationDown .lost, .sounderDone .discarded 3] ∧
    ({ searching with link := { searching.link with misses := 2 } }.visitMiss 2).1.link.misses = 2 ∧
    ((link fun l => { l with waits := 14 }).visitWait 2 100#32 5).1.link.waits = 15 ∧
    ((link fun l => { l with waits := 15 }).visitWait 2 100#32 5).1.link.misses = 1 ∧
    ((link fun l => { l with waits := 15 }).visitWait 2 100#32 5).1.link.waits = 0 := by decide +kernel

/-- AcknowledgementEffects: a RESET-STATION in SEARCHING and in SYNCING, a SET that completes a sync, and a SOUND. -/
theorem witness_acknowledgements :
    let syncing (step : SyncStep) (o : Output → Output) : Station :=
      { online with
        link :=
          { online.link with
            state := .syncing, step := some step, origin := some .searching, sampledResync := some 1 }
        output := o online.output }
    (searching.acknowledge ⟨.resetStation, 7⟩).1.link.step = some .image ∧
    ((syncing .reset id).acknowledge ⟨.resetStation, 7⟩).1.link.step = some .image ∧
    (syncing .image fun o => { o with outSet := some ⟨some 9, []⟩ }).output.outSet = some ⟨some 9, []⟩ ∧
    ((syncing .image fun o => { o with outSet := some ⟨some 9, []⟩ }).acknowledge ⟨.set, 7⟩).2 =
      [.outputApplied 9, .stationUp, .resyncDone 1] ∧
    ({ online with output := { online.output with outSet := some ⟨some 9, []⟩ } }.acknowledge ⟨.set, 7⟩).2 =
      [.outputApplied 9] ∧
    ({ online with output := { online.output with outSound := some ⟨5, 2, 2⟩ } }.acknowledge ⟨.sound, 7⟩).1.output.sounderDone
      = 2 := by decide +kernel

/-- The same: a Visit OK that answers a POLL and one that acknowledges a SET, with and without a change of LOCAL_FAULT. -/
theorem witness_visit_ok :
    let small : Station :=
      { online with
        link := { online.link with misses := 1, waits := 3 }
        contacts := { online.contacts with rows := 1, columns := 1, records := [Contact.fresh 0] } }
    let seeded : Station := { small with contacts := { small.contacts with records := [(Contact.fresh 0).settle false] } }
    let set : Station :=
      { seeded with
        link := { small.link with outstanding := some ⟨.set, 7⟩ }
        output := { small.output with outSet := some ⟨some 9, []⟩ } }
    let ok (fault : Bool) (st : Station) := st.visitOk 100 2000#32 ⟨3#3, fault, false, [0#8]⟩
    ((ok true small).1.link = { online.link with localFault := true, statusChanged := true } ∧
      (ok true small).2 = [.stationFault true]) ∧
    ((ok false seeded).1 = { online with contacts := seeded.contacts } ∧ (ok false seeded).2 = []) ∧
    (small.contacts.known = false ∧ (ok false small).1.link.statusChanged = true) ∧
    ((ok true set).1.link.lastAcked = 7#3 ∧ (ok true set).2 = [.outputApplied 9, .stationFault true]) := by
  decide +kernel

/-- The same: a Visit TURN in each link state; a pending disable after the result; and the STATUS request and the events
at a visit's end, with the mark and without it. -/
theorem witness_visit_end :
    let sent (st : Station) : Station :=
      { st with
        link := { st.link with outstanding := some ⟨.sound, 7⟩, waits := 3, misses := 1 }
        output := { st.output with sounderRequest := 2, outSound := some ⟨5, 2, 2⟩ } }
    let syncing : Station := { online with link := { online.link with state := .syncing, step := some .image } }
    let pending : Station := { online with link := { online.link with disablePending := true } }
    let marked : State := running { online with link := { online.link with statusChanged := true } }
    let t := marked.report 0 [.stationUp, .stationFault true]
    ((sent online).visitTurn.link.state = .syncing ∧ (sent online).visitTurn.link.origin = some .online ∧
      (sent online).visitTurn.link.misses = 1 ∧ (sent online).visitTurn.output.sounderPending = true ∧
      (sent syncing).visitTurn.link.step = some .reset ∧ (sent syncing).visitTurn.link.origin = none ∧
      (sent searching).visitTurn.link.state = .searching ∧ (sent searching).visitTurn.link.outstanding = none) ∧
    ((pending.endVisit cfg 2000#32 .line).1.link.state = .disabled ∧ online.endVisit cfg 2000#32 .line = (online, [])) ∧
    (marked.works = true ∧ (marked.station 0).link.statusChanged = true ∧ t.port.writes = [.status 0] ∧
      (t.station 0).link.statusChanged = false ∧
      t.journal.staging.map (·.event) = [⟨.stationUp, some 0, 2000⟩, ⟨.stationFault true, some 0, 2000⟩]) ∧
    ((run0.report 0 [.stationUp]).port = run0.port ∧ (run0.endVisit 0 .turn).sched.nextIndex = 1 ∧
      (run0.endVisit 0 .turn).port.writes = [.status 0]) := by decide +kernel

/-- DisableEffects: from ONLINE with a fetch in flight and a sounder request pending. -/
theorem witness_disable :
    let st : Station :=
      { online with output := { online.output with sounderRequest := 3, fetchInFlight := some 8 } }
    st.output.fetchInFlight.isSome = true ∧ st.disable.1.output.fetchDiscard = true ∧
    st.disable.2 = [.stationDown .disabled, .sounderDone .discarded 3] ∧ searching.disable.2 = [] := by decide +kernel

/-- DebounceTransitions: a debounce of 0 and of 30, elapsed times of 29 and 30. -/
theorem witness_debounce :
    let t : ContactTable := { ContactTable.reset with closeDebounce := 30, openDebounce := 30 }
    let at0 (st : ContactState) : Contact := { Contact.fresh 0 with state := st, changeStart := 1000#32 }
    (t.closeDebounce ≠ 0 ∧ t.openDebounce ≠ 0) ∧
    ((at0 .opened).transition ContactTable.reset 1000#32 true).contact.state = .closed ∧
    ((at0 .opened).transition t 1000#32 true).contact.state = .closing ∧
    ((at0 .opened).transition t 1000#32 false).contact.state = .opened ∧
    ((at0 .closing).transition t 1029#32 true).contact.state = .closing ∧
    ((at0 .closing).transition t 1030#32 true).contact.state = .closed ∧
    ((at0 .closing).transition t 1030#32 false).bounced = true ∧
    ((at0 .closed).transition ContactTable.reset 1000#32 false).contact.state = .opened ∧
    ((at0 .closed).transition t 1000#32 false).contact.state = .opening ∧
    ((at0 .opening).transition t 1029#32 false).contact.state = .opening ∧
    ((at0 .opening).transition t 1030#32 false).contact.state = .opened ∧
    ((at0 .opening).transition t 1030#32 true).bounced = true := by decide +kernel

/-- The same: the six rows of the seeding table, with a debounce of 0 and of 30. -/
theorem witness_seeding :
    let t (d : Nat) : ContactTable := { ContactTable.reset with closeDebounce := d, openDebounce := d }
    let c (known : Option Bool) : Contact := { Contact.fresh 0 with lastKnown := known, extended := true }
    let seen (d : Nat) (known : Option Bool) (raw : Bool) := (c known).transition (t d) 1000#32 raw
    (c none).state = .unknown ∧ (seen 30 none false).contact.state = .opened ∧
    seen 30 none true = ⟨{ Contact.fresh 0 with state := .closed, lastKnown := some true }, [], false⟩ ∧
    (seen 30 (some false) false).contact.state = .opened ∧ (seen 0 (some true) true).contact.state = .closed ∧
    seen 30 (some false) true = ⟨{ Contact.fresh 0 with
      state := .closing, lastKnown := some false, changeStart := 1000, recovery := true }, [], false⟩ ∧
    (seen 30 (some true) false).contact.state = .opening ∧
    (seen 0 (some false) true).events = [.contactClosed 0 true false] ∧
    (seen 0 (some true) false).events = [.contactOpened 0 true false] := by decide +kernel

/-- The same: an ambiguity that begins, its report at 300 milliseconds and not at 299 and only once, the extended mark, and
a release with its report and without. -/
theorem witness_ambiguity :
    let c : Contact := { Contact.fresh 9 with state := .closing, lastKnown := some false, changeStart := 990 }
    let held (reported : Bool) : Contact := { c with ambiguous := true, ambiguityStart := 1000, reported := reported }
    let t : ContactTable := { ContactTable.reset with closeDebounce := 30, openDebounce := 30 }
    c.foundAmbiguous 300 1000 = ⟨{ held false with extended := true }, [], false⟩ ∧
    ((held false).foundAmbiguous 300 1299).events = [] ∧
    (held false).foundAmbiguous 300 1300 =
      ⟨{ held true with extended := true }, [.contactAmbiguous 9 true], false⟩ ∧
    ((held true).foundAmbiguous 300 1400).events = [] ∧
    ((Contact.fresh 9).foundAmbiguous 300 1000).contact.extended = false ∧
    ((held true).foundClear t 1400 true).events = [.contactAmbiguous 9 false, .contactClosed 9 false false] ∧
    ((held false).foundClear t 1400 false).events = [] ∧ ((held false).foundClear t 1400 false).bounced = true ∧
    (c.foundClear t 1400 true).contact.state = .closed := by decide +kernel

/-- The same: a snapshot of two rows and two columns, closed at 0, 1 and 8, which makes 9 ambiguous; and of one that
bounces. -/
theorem witness_snapshot :
    let t : ContactTable :=
      { ContactTable.reset with
        rows := 2, columns := 2, closeDebounce := 30, openDebounce := 30, records := (geometry 2 2).map Contact.fresh }
    let seen := t.process 300 1000 [3#8, 1#8]
    let bouncing : ContactTable :=
      { t with records := t.records.map fun c => { c with state := .closing, lastKnown := some false } }
    seen.table.records.map (·.state) = [.closed, .closed, .closed, .unknown] ∧
    seen.table.records.map (·.ambiguous) = [false, false, false, true] ∧ seen.changed = true ∧ seen.bounced = false ∧
    (bouncing.process 300 1000 [0#8, 0#8]).table.bounces = 4 ∧
    (bouncing.process 300 1000 [0#8, 0#8]).changed = false := by decide +kernel

/-- AmbiguityIsTheFourthCorner, BitmapAndKnownFlag, SetCarriesTheImage: a matrix of one row and one of one column, contact
index 63, and lamps 4, 5 and 63. -/
theorem witness_tables :
    let one (rows columns : Nat) : ContactTable := { ContactTable.reset with rows := rows, columns := columns }
    let last : ContactTable := { one 8 8 with records := [{ Contact.fresh 63 with lastKnown := some true }] }
    ((one 1 8).rows ≤ 1 ∧ 0 < (one 1 8).rows ∧ 7 < (one 1 8).columns) ∧ (one 1 8).ambiguousAt [0xFF] 0 7 = false ∧
    ((one 8 1).columns ≤ 1 ∧ 7 < (one 8 1).rows) ∧ (one 8 1).ambiguousAt (List.replicate 8 1) 7 0 = false ∧
    last.bitmap.getLsbD 63 = true ∧ last.known = false ∧ online.contacts.known = false ∧
    (byteAt online.output.payload 1).extractLsb' 0 2 = 1#2 ∧ (byteAt online.output.payload 1).extractLsb' 2 2 = 0#2 ∧
    (byteAt online.output.payload 15).extractLsb' 6 2 = 0#2 := by decide +kernel

/-- FetchIsDiscardedAcceptedOrTorn: a run's fetch discarded, accepted and torn. -/
theorem witness_fetch :
    let s (discard : Bool) : State := (reading (.image 0) run0).onOutput 0 fun o =>
      { o with fetchInFlight := some 7, fetchDiscard := discard, fetchedRevision := none }
    ((s false).run.state = .running ∧ (s false).port.inFlight = some (.read (.image 0) 0x100078) ∧
      ((s false).station 0).output.fetchInFlight = some 7 ∧ halfAt (imageBlock 7) 0 = 7 ∧ halfAt (imageBlock 7) 18 = 7 ∧
      halfAt (imageBlock 8) 18 ≠ 7) ∧
    ((after (.imageFetchComplete (imageBlock 7)) (s true)).station 0).output.fetchedRevision = none ∧
    ((after (.imageFetchComplete (imageBlock 7)) (s false)).station 0).output.fetchedRevision = some 7 ∧
    ((after (.imageFetchComplete (imageBlock 8)) (s false)).station 0).output.tornReads = 1 := by decide +kernel

/-- The same in STOPPING: a discarded completion with the final MARK still waiting, and the one that leads to HALTED, with
records unsignalled and without. -/
theorem witness_fetch_stopping :
    let s (writes : List WriteEntry) : State := ((reading (.image 0) ending).onOutput 0 fun o =>
      { o with fetchInFlight := some 7, fetchDiscard := true }).onPort fun p => { p with writes := writes }
    let t (unannounced : Half) (writes : List WriteEntry) : State := after (.imageFetchComplete (imageBlock 8))
      ((s writes).onJournal fun j => { j with unannounced := unannounced })
    ((s []).run.state = .stopping ∧ (s []).journal.drain = .ended ∧
      { (s []).port with inFlight := none }.quiet = true ∧
      { (s [.mark 3 false]).port with inFlight := none }.quiet = false) ∧
    ((t 0 [.mark 3 false]).run.state = .stopping ∧ (t 0 [.mark 3 false]).port.inFlight.isSome = true ∧
      (t 0 []).run.state = .halted ∧ (t 0 []).irq.cause = 2 ∧ (t 1 []).irq.cause = 3 ∧
      ((t 0 []).station 0).output.fetchInFlight = none ∧ ((t 0 []).station 0).output.tornReads = 0) := by decide +kernel

/-- SounderHandOverSettles: patterns 7, 8 and 255, and the longest distance. -/
theorem witness_hand_over :
    8 ≤ (8#8).toNat ∧ (7#8).toNat < 8 ∧ (32767#16 - online.output.sounderDone).toNat ≤ 32767 ∧
    (online.output.handOver 3 8 .online).2 = [.sounderDone .rejected 3] ∧
    (online.output.handOver 3 255 .disabled).2 = [.sounderDone .rejected 3] ∧
    (online.output.handOver 32767 7 .searching).2 = [.sounderDone .discarded 32767] ∧
    (online.output.handOver 3 7 .syncing).2 = [] := by decide +kernel

/-- The same, at the Exchange Unit: patterns 8 and 255, a SEARCHING station, and an ONLINE one. -/
theorem witness_hand_over_told :
    let t := run0.takeSounder 0 3 8
    let d := (running searching).takeSounder 0 3 7
    (judgePair 0 0 3 = .valid ∧ run0.run.state = .running ∧ online.output.sounderRequest = 0 ∧
      searching.output.sounderRequest = 0 ∧ searching.link.state = .searching) ∧
    (t.port.writes = [.status 0] ∧ t.irq.cause = 0b10000 ∧
      t.journal.staging.map (·.event) =
        [⟨.sounderDone .rejected 3, some 0, 2000⟩, ⟨.hostValue 28, some 0, 2000⟩]) ∧
    (run0.takeSounder 0 3 255).journal = t.journal ∧
    (d.port.writes = [.status 0] ∧ d.irq.cause = 0 ∧
      d.journal.staging.map (·.event) = [⟨.sounderDone .discarded 3, some 0, 2000⟩]) ∧
    (run0.takeSounder 0 3 7 = run0.onOutput 0 fun o => { o with sounderRequest := 3, sounderPattern := 7 }) := by
  decide +kernel

/-- A run whose staging queue holds some events. -/
def staged (n : Nat) : State :=
  { run0 with journal := { run0.journal with staging := List.replicate n ⟨⟨.stationUp, some 0, 0⟩, Gap.zero⟩ } }

/-- SubmissionIsStagedOrCounted: 31 and 32 events staged, and a kind of each class. -/
theorem witness_submission :
    ((staged 31).works = true ∧ (staged 31).journal.drain ≠ .ended ∧ (staged 31).journal.staging.length < 32 ∧
      32 ≤ (staged 32).journal.staging.length) ∧
    ((staged 31).submit ⟨.lineDisturbed, none, 0⟩).journal.staging.length = 32 ∧
    ((staged 32).submit ⟨.lineDisturbed, none, 0⟩).journal.openGap = ⟨0, 0, 0, 1⟩ ∧
    [EventBody.contactAmbiguous 0 true, .resyncDone 1, .sounderDone .discarded 1, .hostValue 16].map (·.class) =
      [.contact, .station, .output, .control] := by decide +kernel

/-- RecordIsFormedWithItsMark: what is taken at the head's gap, at its event, at the open gap and at nothing. -/
theorem witness_take_next :
    let gap : Gap := ⟨0, 1, 0, 0⟩
    let event : Event := ⟨.stationUp, some 0, 0⟩
    let j (staging : List Staged) (g : Gap) : Journal := { Journal.reset with staging := staging, openGap := g }
    (j [⟨event, gap⟩] gap).takeNext = some (.loss gap, j [⟨event, Gap.zero⟩] gap) ∧
    (j [⟨event, Gap.zero⟩] gap).takeNext = some (.event event, j [] gap) ∧
    (j [] gap).takeNext = some (.loss gap, j [] Gap.zero) ∧ (j [] Gap.zero).takeNext = none := by decide +kernel

/-- The same: the bytes of a LOSS and of three kinds of event, with the station and without. -/
theorem witness_record_bytes :
    NextRecord.bytes 0x0102 0x03040506 (.loss ⟨1, 2, 3, 0x405⟩) =
      [2, 1, 0x7F, 0xFF, 6, 5, 4, 3, 1, 0, 2, 0, 3, 0, 5, 4] ∧
    NextRecord.bytes 7 0 (.event ⟨.contactClosed 26 true true, some 15, 0x10⟩) =
      [7, 0, 0x10, 15, 0x10, 0, 0, 0, 26, 3, 0, 0, 0, 0, 0, 0] ∧
    NextRecord.bytes 7 0 (.event ⟨.sounderDone .discarded 0x102, some 0, 0⟩) =
      [7, 0, 0x31, 0, 0, 0, 0, 0, 3, 0, 2, 1, 0, 0, 0, 0] ∧
    NextRecord.bytes 0 0 (.event ⟨.runStart 64 2, none, 0⟩) =
      [0, 0, 0x01, 0xFF, 0, 0, 0, 0, 64, 0, 2, 0, 0, 0, 0, 0] ∧
    (NextRecord.loss ⟨1, 2, 3, 4⟩).urgent = true ∧ (NextRecord.event ⟨.stationUp, none, 0⟩).urgent = false := by
  decide +kernel

/-- The same: an event staged, the write queue empty. -/
theorem witness_record :
    ((staged 1).journal.takeNext =
        some (.event ⟨.stationUp, some 0, 0⟩, { (staged 1).journal with staging := [] }) ∧
      ((staged 1).journal.written - (staged 1).journal.view).toNat < (staged 1).cfg.journalCapacity ∧
      (staged 1).port.writes.length ≤ 6 ∧ (∀ e : Entry, (staged 1).port.owed[e.val] = false) ∧
      (staged 1).canTakeRecord = true ∧ (staged 1).journal.drain = .notBegun ∧ (staged 1).run.state = .running) ∧
    (after .recordTaken (staged 1)).journal.written = 1#32 ∧
    (after .recordTaken (staged 1)).port.writes.map WriteEntry.isMark = [false, true] := by decide +kernel

/-- The same: an urgent MARK not started at the tail, a MARK in flight alone, and the last record of the drain. -/
theorem witness_record_tail :
    let tail : State := (staged 1).onPort fun p =>
      { p with inFlight := some (.read .released 0), writes := [.status 0, .mark 0 true] }
    let alone : State := writing (.mark 0 true) (staged 1)
    let drain (n : Nat) : State :=
      { stop0 with journal := { (staged n).journal with drain := .running, drainTimer := some ⟨1990#32, .ms 500⟩ } }
    let shape (s : State) : List (Bool × Bool) :=
      (after .recordTaken s).port.writes.map fun w => (w.isMark, decide (w = .mark 1 true))
    shape tail = [(false, false), (false, false), (true, true)] ∧
    shape alone = [(true, false), (false, false), (true, false)] ∧
    ((drain 1).run.state = .stopping ∧ (drain 1).journal.drain ≠ .ended) ∧
    (after .recordTaken (drain 2)).journal.drain = .running ∧ (after .recordTaken (drain 1)).journal.drain = .ended ∧
    (after .recordTaken (drain 1)).port.writes.map WriteEntry.isMark = [false, true] := by decide +kernel

theorem witness_record_ordered : (staged 1).port.Ordered where
  head := by intro w a b h; exact absurd h (by simp [staged, run0, running, State.reset, Port.reset])
  followed := by decide
  owed := by decide
  held := by decide

/-- DrainLimitDiscardsWhatIsLeft: two events and a gap of one left. -/
theorem witness_drain :
    let s : State :=
      { stop0 with
        journal :=
          { (staged 2).journal with
            openGap := ⟨1, 0, 0, 0⟩, drain := .running, drainTimer := some ⟨1500#32, .ms 500⟩ } }
    (s.run.state = .stopping ∧ s.journal.drain = .running ∧ s.journal.drainTimer.isSome = true) ∧
    (after .stopDrainLimitExpiry s).journal.discarded = 3#32 := by decide +kernel

/-- The same: a station whose counters changed and a fetch not started, while a read is in flight; the last record of a
drain with the same; and an event after the end of the drain. -/
theorem witness_drain_end :
    let changed : Station :=
      { online with
        link := { online.link with countersChanged := true }
        output := { online.output with fetchInFlight := some 8, fetchDiscard := true } }
    let s (n : Nat) : State :=
      { stop0 with
        stations := stop0.stations.set 0 changed
        port := { Port.reset with inFlight := some (.read .released 0x100078), reads := [.image 0] }
        journal := { (staged n).journal with drain := .running, drainTimer := some ⟨1500#32, .ms 500⟩ } }
    let ended (t : State) : Bool := t.port.writes.contains (.status 0) && t.port.reads.isEmpty &&
      !(t.station 0).link.countersChanged && (t.station 0).output == { changed.output with
        fetchInFlight := none, fetchDiscard := false }
    ((s 2).port.inFlight.isSome = true ∧ ((s 2).station 0).takesPart = true ∧
      ((s 2).station 0).link.countersChanged = true ∧ Read.image 0 ∈ (s 2).port.reads) ∧
    ended (after .stopDrainLimitExpiry (s 2)) = true ∧ ended (after .recordTaken (s 1)) = true ∧
    ((ending.submit ⟨.lineDisturbed, none, 0⟩).journal.discarded = 1 ∧ ending.works = true ∧
      ending.journal.drain = .ended) := by decide +kernel

/-- AnnouncementsAreCoalesced: a MARK that covers nothing new, three records below the threshold of 4, four at it, an
urgent one, and the timer's expiry. -/
theorem witness_coalescing :
    let s (covered : Word) (urgent : Bool) : State := writing (.mark covered urgent) run0
    let marked (covered : Word) (urgent : Bool) : State := after .markWriteComplete (s covered urgent)
    ((s 3 false).run.state = .running ∧ (s 3 false).journal.announced ≠ 3) ∧
    (stop0.run.state = .stopping ∧ stop0.journal.drain ≠ .ended) ∧
    (ending.run.state = .stopping ∧ ending.port.moreWaits = false ∧
      (ending.onPort fun p => { p with writes := p.writes ++ [.status 0] }).port.moreWaits = true) ∧
    (marked 0 true).irq = run0.irq ∧ (marked 3 false).journal.unannounced = 3 ∧
    (marked 3 false).irq.holdOff = some ⟨2000#32, .ms 20⟩ ∧ (marked 4 false).irq.cause = 1#5 ∧
    (marked 4 false).journal.unannounced = 0 ∧ (marked 1 true).irq.cause = 1#5 ∧
    ((marked 3 false).works = true ∧ (marked 3 false).irq.holdOff.isSome = true) ∧
    (after .holdOffExpiry (marked 3 false)).irq = ⟨1#5, 0#5, none⟩ := by decide +kernel

/-- SweepsAreRequested: with a sweep in flight, with a transaction in flight, with the port empty, and at the timer. -/
theorem witness_sweeps :
    let flying : State := reading .released { run0 with exch := { run0.exch with sweepInFlight := true } }
    (flying.run.state = .running ∧ flying.exch.sweepInFlight = true ∧ run0.exch.sweepInFlight = false ∧
      run0.port.inFlight = none ∧ run0.port.reads = [] ∧ run0.port.writes = [] ∧
      (writing (.status 0) run0).port.inFlight.isSome = true ∧ run0.exch.sweepTimer = some ⟨1990#32, .ms 10⟩) ∧
    (after .sweep flying).exch.sweepAgain = true ∧
    (after .sweep (writing (.status 0) run0)).port.reads = [.released, .live 0] ∧
    (after .sweep run0).port.inFlight = some (.read .released 0x100078) ∧
    (after .sweepTimerExpiry flying).exch.sweepAgain = true ∧
    (after .sweepTimerExpiry run0).port.inFlight = some (.read .released 0x100078) ∧
    (after .sweepTimerExpiry run0).port.reads = [.live 0] ∧
    (after .sweepTimerExpiry stop0).port.reads = [] ∧
    (after .sweepTimerExpiry (writing (.status 0) run0)).exch.sweepTimer = some ⟨2000#32, .ms 10⟩ := by decide +kernel

/-- A sweep read in flight with a further one waiting. -/
def sweeping (r : Read) (s : State) : State :=
  { reading r s with
    exch := { s.exch with sweepInFlight := true }, port := { (reading r s).port with reads := [.live 1] } }

/-- ReleasedCountIsJudged: at the announced count, one beyond it, and again one beyond it. -/
theorem witness_released :
    let s (remembered : Option Word) : State := sweeping .released
      { run0 with
        journal := { run0.journal with announced := 3, written := 3 }
        exch := { run0.exch with rememberedReleased := remembered } }
    ((s none).run.state = .running ∧ (s none).port.inFlight = some (.read .released 0x100078) ∧
      (s none).journal.drain = .notBegun ∧ (s none).port.sweepReads ≠ []) ∧
    (after (.releasedCountReadComplete [3, 0, 0, 0]) (s none)).journal.view = 3 ∧
    (after (.releasedCountReadComplete [4, 0, 0, 0]) (s none)).irq.cause = 0b10000#5 ∧
    (after (.releasedCountReadComplete [4, 0, 0, 0]) (s (some 4))).irq.cause = 0#5 := by decide +kernel

/-- The same: the last read of its sweep in RUNNING, with the sweep-again mark, and in STOPPING; and after the end of the
drain, with a STATUS waiting and with nothing. -/
theorem witness_released_last :
    let last (s : State) : State :=
      { (reading .released s).onLink 0 (fun l => { l with countersChanged := true }) with
        journal := { s.journal with announced := 3, written := 3 }
        exch := { s.exch with sweepInFlight := true, sweepAgain := true, sweepCount := 4 } }
    let ended : State := reading .released { ending with port := Port.reset }
    let more : State := ended.onPort fun p => { p with writes := [.status 0] }
    let read (v : Byte) : Instr := .releasedCountReadComplete [v, 0, 0, 0]
    ((last run0).port.sweepReads = [] ∧ (last run0).exch.sweepInFlight = true ∧ (last stop0).run.state = .stopping ∧
      (last stop0).journal.drain ≠ .ended) ∧
    ((after (read 3) (last run0)).journal.view = 3 ∧ (after (read 3) (last run0)).exch.sweepCount = 5 ∧
      (after (read 3) (last run0)).exch.sweepInFlight = true ∧
      (after (read 3) (last run0)).port.writes = [.status 0]) ∧
    ((after (read 4) (last stop0)).irq.cause = 0b10000#5 ∧ (after (read 4) (last stop0)).exch.sweepCount = 5 ∧
      (after (read 4) (last stop0)).port.inFlight = some (.read .released 0x100078)) ∧
    (more.journal.drain = .ended ∧ more.port.writes ≠ [] ∧ (after (read 3) more).run.state = .stopping ∧
      (after (read 3) more).journal.view = 0) ∧
    (ended.port.reads = [] ∧ ended.port.writes = [] ∧ ended.port.heldMark = none ∧
      (after (read 3) ended).run.state = .halted ∧ (after (read 3) ended).journal.view = 0) := by decide +kernel

/-- CounterPairsAreJudged: the bounds of each finding. -/
theorem witness_pairs :
    (0#16 - 0#16).toNat ≤ 32767 ∧ judgePair 0 0 32767 = .valid ∧ judgePair 0 0 32768 = .tooFar ∧
    judgePair 32767 0 32767 = .unchanged ∧ judgePair 32767 0 32766 = .backward ∧
    ((run0.takeSounder 0 5 3).station 0).output.sounderRequest = 5 ∧
    ((run0.takeResync 0 0xFFFF).station 0).rememberedResync = some 0xFFFF ∧
    (run0.takeResync 0 0xFFFF).takeResync 0 0xFFFF = run0.takeResync 0 0xFFFF := by decide +kernel

/-- LivePartIsActedOn: nothing new, a disable during a try, a new revision with a resync, and STOPPING. -/
theorem witness_live_part :
    let live (enable revision resync : Byte) : List Byte := [enable, 0, 0, 0, revision, 0, 0, 0, resync, 0, 0, 0]
    let s := sweeping (.live 0) run0
    (s.run.state = .running ∧ (live 1 7 0).length = 12 ∧ s.port.sweepReads ≠ [] ∧
      (s.station 0).link.state ≠ .disabled ∧ (readLivePart (live 1 7 0)).revision = 7 ∧
      (s.station 0).output.fetchedRevision = some 7 ∧ (readLivePart (live 1 8 1)).sounderCount = 0) ∧
    (after (.livePartReadComplete (live 1 7 0)) s).stations = s.stations ∧
    (sweeping (.live 0) (visiting .awaiting .armed)).sched.visit.map (·.entry) = some 0 ∧
    ((after (.livePartReadComplete (live 0 7 0)) (sweeping (.live 0) (visiting .awaiting .armed))).station
      0).link.disablePending = true ∧
    judgePair 0 0 1 = .valid ∧
    ((after (.livePartReadComplete (live 1 8 1)) s).station 0).output.fetchInFlight = some 8 ∧
    ((after (.livePartReadComplete [1, 0, 0, 0, 7, 0, 3, 0, 0, 0, 8, 0]) s).irq.cause = 0b10000 ∧
      (after (.livePartReadComplete [1, 0, 0, 0, 7, 0, 3, 0, 0, 0, 8, 0]) s).journal.staging.map (·.event.body) =
        [.sounderDone .rejected 3, .hostValue 28]) ∧
    (sweeping (.live 0) stop0).run.state = .stopping ∧
    (after (.livePartReadComplete (live 0 8 1)) (sweeping (.live 0) stop0)).stations = run0.stations := by decide +kernel

/-- The same: the fields of a live part, the steps one by one, and an invalid resync request count behind a new revision. -/
theorem witness_live_steps :
    let s := sweeping (.live 0) run0
    let data : List Byte := [1, 2, 3, 4, 8, 1, 4, 0, 0xFF, 0xFF, 7, 9]
    let t := after (.livePartReadComplete data) s
    let off := s.onLink 0 fun _ => Link.reset
    readLivePart data = ⟨1, 0x0108, 4, 0xFFFF, 7⟩ ∧
    (off.takeEnable 0 0 = off ∧ ((off.takeEnable 0 1).station 0).link.state = .searching ∧
      (off.takeEnable 0 1).port.writes = [.status 0]) ∧
    ((s.takeEnable 0 1).stations = s.stations ∧ ((s.takeEnable 0 0).station 0).link.state = .disabled ∧
      (((visiting .awaiting .armed).takeEnable 0 0).station 0).link.disablePending = true) ∧
    (off.takeRevision 0 8 = off ∧ s.takeRevision 0 7 = s ∧ ((s.takeRevision 0 8).station 0).output.fetchInFlight = some 8) ∧
    (s.port.sweepReads ≠ [] ∧ (t.station 0).output.fetchInFlight = some 0x0108 ∧
      (t.station 0).output.sounderRequest = 4 ∧ (t.station 0).rememberedResync = some 0xFFFF ∧ t.irq.cause = 0b10000 ∧
      t.journal.staging.map (·.event.body) = [.hostValue 29]) := by decide +kernel

/-- The same: a DISABLED station enabled, with its revision fetched already and with a new one, and a station disabled with
no try in progress. -/
theorem witness_enable :
    let live (enable revision : Byte) : List Byte := [enable, 0, 0, 0, revision, 0, 0, 0, 0, 0, 0, 0]
    let s := sweeping (.live 0) (running { online with link := Link.reset })
    let on := sweeping (.live 0) run0
    (s.run.state = .running ∧ (s.station 0).link.state = .disabled ∧ (readLivePart (live 1 7)).enable ≠ 0#8 ∧
      (readLivePart (live 1 7)).sounderCount = (s.station 0).output.sounderRequest ∧
      (readLivePart (live 1 7)).resyncCount = (s.station 0).link.resyncRequest ∧ s.port.sweepReads ≠ []) ∧
    ((after (.livePartReadComplete (live 1 7)) s).station 0).link.state = .searching ∧
    ((after (.livePartReadComplete (live 1 7)) s).station 0).output = online.output ∧
    ((after (.livePartReadComplete (live 1 8)) s).station 0).output.fetchInFlight = some 8 ∧
    (on.sched.visit.map (·.entry) ≠ some 0 ∧ (on.station 0).link.state ≠ .disabled ∧
      (readLivePart (live 0 8)).enable = 0#8) ∧
    ((after (.livePartReadComplete (live 0 8)) on).station 0).link.state = .disabled ∧
    (after (.livePartReadComplete (live 0 8)) on).port.writes = [.status 0] ∧
    (after (.livePartReadComplete (live 0 8)) on).journal.staging.map (·.event.body) = [.stationDown .disabled] := by
  decide +kernel

/-- The same: the last read of a sweep, in RUNNING with the sweep-again mark set and in STOPPING. -/
theorem witness_sweep_end :
    let live : List Byte := [1, 0, 0, 0, 7, 0, 0, 0, 0, 0, 0, 0]
    let last (again : Bool) (s : State) : State :=
      { (reading (.live 0) s).onLink 0 (fun l => { l with countersChanged := true }) with
        exch := { s.exch with sweepInFlight := true, sweepAgain := again, sweepCount := 4 } }
    ((last true run0).port.sweepReads = [] ∧ (last true run0).exch.sweepInFlight = true ∧ live.length = 12 ∧
      ((last true run0).station 0).takesPart = true ∧ (last false stop0).journal.drain ≠ .ended) ∧
    (after (.livePartReadComplete live) (last true run0)).exch.sweepCount = 5 ∧
    (after (.livePartReadComplete live) (last true run0)).exch.sweepInFlight = true ∧
    (after (.livePartReadComplete live) (last true run0)).port.writes = [.status 0] ∧
    (after (.livePartReadComplete live) (last false stop0)).exch.sweepInFlight = false ∧
    ((after (.livePartReadComplete live) (last false stop0)).station 0).link.countersChanged = false := by decide +kernel

/-- StatusRequestIsTaken: merged, owed, joined behind seven entries, and owed at eight. -/
theorem witness_status :
    let p (n : Nat) : Port := { Port.reset with writes := List.replicate n (.mark 0 false) }
    WriteEntry.status 0 ∈ ({ Port.reset with writes := [.status 0] } : Port).unstarted ∧
    WriteEntry.status 0 ∉ (p 7).unstarted ∧ (p 7).owed[0] = false ∧ (p 7).writes.length < 8 ∧ 8 ≤ (p 8).writes.length ∧
    ((p 7).requestStatus 0).writes.length = 8 ∧ ((p 8).requestStatus 0).owed[0] = true ∧
    ((p 8).requestStatus 0).requestStatus 0 = (p 8).requestStatus 0 ∧
    { run0 with port := (p 8).requestStatus 0 }.canTakeRecord = false := by decide +kernel

/-- ArbiterAlternates: one list, and both with each kind last served. -/
theorem witness_arbiter :
    let s (last : Direction) : State :=
      { run0 with port := { Port.reset with reads := [.released], writes := [.status 0], lastServed := last } }
    ((s .read).run.state.transacts = true ∧ (s .read).port.inFlight = none ∧ (s .read).port.reads = .released :: [] ∧
      (s .read).port.writes = .status 0 :: []) ∧
    (s .read).startTransaction.port.writeInFlight = true ∧ (s .write).startTransaction.port.writeInFlight = false ∧
    run0.startTransaction = run0 ∧ (run0.requestReads [.released]).port.inFlight.isSome = true ∧
    (run0.requestMark 0 false).port.writeInFlight = true := by decide +kernel

/-- The same: the addresses of the last entry and slot, and the bytes of a MARK and of a STATUS. -/
theorem witness_bytes :
    let s : State :=
      { run0 with
        sched := { run0.sched with cycleNumber := 0x01020304 }, tornReads := 0x0506, line := { run0.line with disturbed := true }
        run := { run0.run with exbaseHi := 1 } }
    let st : Station :=
      { online with
        link := { online.link with
          localFault := true, sounderActive := true, resyncDone := 0x0203, counters := { Counters.reset with visits := 5 } }
        contacts := { online.contacts with records := [{ Contact.fresh 63 with state := .closed }] } }
    s.writeAddress (.status 15) = 0x1001008C0 ∧ s.writeAddress (.mark 0 false) = 0x100100080 ∧
    s.writeAddress (.record 63 []) = 0x2003F0 ∧ s.readAddress (.image 15) = 0x1001008AC ∧
    s.readAddress (.start 17) = 0x100100880 ∧
    s.writeBytes (.mark 9 false) =
      [9, 0, 0, 0, 4, 3, 2, 1] ++ List.replicate 8 0 ++ [0xD0, 7, 0, 0, 6, 5, 0, 0, 1] ++ List.replicate 39 0 ∧
    (running st).writeBytes (.status 0) =
      [3, 1, 3, 0, 7, 0, 0, 0, 3, 2, 0, 0] ++ List.replicate 7 0 ++ [0x80, 5, 0] ++ List.replicate 42 0 := by
  decide +kernel

/-- CompletedWritesReachMemory: one write of each kind. -/
theorem witness_writes :
    (writing (.status 0) run0).run.state = .running ∧ (WriteEntry.status 0).isStatus = true ∧
    (WriteEntry.record 0 []).isRecord = true ∧ (WriteEntry.mark 0 false).isMark = true ∧
    (writing (.status 0) run0).port.noneOwed = true ∧ (writing (.status 0) run0).port.heldMark = none ∧
    memoryRead (after .statusWriteComplete (writing (.status 0) run0)).memory 0x100081 = some 2#8 ∧
    (after .recordWriteComplete (writing (.record 0 []) run0)).port.writes = [] ∧
    memoryRead (after .markWriteComplete (writing (.mark 0 false) run0)).memory 0x100082 = none := by decide +kernel

/-- The same: the entry freed goes to the lowest STATUS owed, and with none owed to the held MARK, which joins or merges. -/
theorem witness_freed_entry :
    let s (owed : Vector Bool 16) (rest : List WriteEntry) : State := (writing (.status 0) run0).onPort fun p =>
      { p with writes := .status 0 :: rest, owed := owed, heldMark := some ⟨5, true⟩ }
    let freed (owed : Vector Bool 16) (rest : List WriteEntry) : Port := (after .statusWriteComplete (s owed rest)).port
    let nobody : Vector Bool 16 := Vector.replicate 16 false
    let two : Vector Bool 16 := (nobody.set 3 true).set 15 true
    ((s two []).port.owed[3] = true ∧ ∀ e' < (3 : Entry), (s two []).port.owed[e'.val] = false) ∧
    (freed two [.mark 4 false]).writes = [.mark 4 false, .status 3] ∧ (freed two []).owed = nobody.set 15 true ∧
    (freed two []).heldMark = some ⟨5, true⟩ ∧
    ((freed nobody [.status 1]).writes = [.status 1, .mark 5 true] ∧ (freed nobody [.status 1]).heldMark = none ∧
      (freed nobody []).writes = [.mark 5 true] ∧
      (freed nobody [.status 1, .mark 4 false]).writes = [.status 1, .mark 5 true]) := by decide +kernel

/-- The same, at the end of STOPPING: with nothing more waiting, records unsignalled and none; and with a STATUS
waiting. -/
theorem witness_ending :
    let more : State := ending.onPort fun p => { p with writes := p.writes ++ [.status 0] }
    let told : State := ending.onJournal fun j => { j with announced := 3 }
    (ending.run.state = .stopping ∧ ending.journal.drain = .ended ∧ ending.port.moreWaits = false ∧
      ending.port.inFlight = some (.write (.mark 3 false) 0x100080 [1#8, 2#8]) ∧ more.port.moreWaits = true) ∧
    (after .markWriteComplete ending).run.state = .halted ∧ (after .markWriteComplete ending).irq.cause = 0b00011#5 ∧
    (after .markWriteComplete ending).journal.unannounced = 0 ∧
    (after .markWriteComplete ending).line.receiver = .off ∧ (after .markWriteComplete told).irq.cause = 0b00010#5 ∧
    (after .markWriteComplete more).run.state = .stopping := by decide +kernel

/-- FaultsAreCaptured: a read's error response, a timeout with its late answers, and CLEAR_FAULT. -/
theorem witness_faults :
    let s := reading (.live 3) run0
    let f := after .memoryAccessTimeout s
    (s.run.state.transacts = true ∧ s.port.inFlight = some (.read (.live 3) 0x100078)) ∧
    (after .busErrorResponse s).port.faultAddr = 0x100078#64 ∧ (after .busErrorResponse s).port.abandoned = none ∧
    (f.port.abandoned.isSome = true ∧ f.irq.cause = 0b01010#5) ∧ (after .lateErrorResponse f).run.multiple = true ∧
    after .lateCompletion f = f ∧ (f.run.resetAsserted = false ∧ f.run.state = .faulted) ∧
    (after .clearFault (after .lateErrorResponse f)).run.multiple = true ∧ (after .clearFault f).run.state = .halted ∧
    f.sched.markTimer = some ⟨1000#32, .ms 1000⟩ ∧ f.exch.sweepTimer = some ⟨1990#32, .ms 10⟩ ∧
    (after .timeMarkDue f) = f ∧ (after .sweepTimerExpiry f) = f := by
  decide +kernel

/-! ### A state that meets every invariant, with a command waiting -/

/-- RUNNING with STOP waiting. -/
def waiting : State := { run0 with pending := [.stop] }

theorem witness_step : ∃ t, step waiting = .next t := ⟨_, rfl⟩

theorem witness_bounded : waiting.Bounded where
  holding := by decide
  staging := by decide
  writes := by decide
  base := by decide
  memory := by decide

theorem witness_quiescent : waiting.Quiescent where
  receiver := by decide
  sendPlace := by decide
  driver := by decide
  visit := by decide
  port := by decide
  drain := by decide
  sending := by decide
  drained := by decide
  unquiet := by decide

/-- STOPPING after the end of the drain, with the final MARK in flight, is quiescent too. -/
theorem witness_quiescent_ending : ending.Quiescent where
  receiver := by decide
  sendPlace := by decide
  driver := by decide
  visit := by decide
  port := by decide
  drain := by decide
  sending := by decide
  drained := by decide
  unquiet := by decide

theorem witness_ordered : waiting.port.Ordered where
  head := by intro w a b h; exact absurd h (by simp [waiting, run0, running, State.reset, Port.reset])
  followed := by decide
  owed := by decide
  held := by decide

theorem witness_covered : waiting.Covered where
  chain := by decide
  tail := by decide
  held := by decide
  start := by decide

/-- Serials follow on past 65,535, and the MARK behind them covers the last; a MARK that covers one less does not. -/
theorem test_covered :
    recordsCovered [.status 0, .record 63 [0xFF, 0xFF], .record 0 [0, 0], .mark 0x10001#32 false] = true ∧
    recordsCovered [.record 0 [0, 0], .mark 0#32 false] = false ∧
    recordsCovered [.record 0 [0, 0], .record 1 [2, 0], .mark 3#32 false] = false := by decide +kernel

theorem witness_coherent : waiting.Coherent where
  station := fun e =>
    { set := by revert e; decide +kernel
      sound := by revert e; decide +kernel
      searching := by revert e; decide +kernel
      disabled := by revert e; decide +kernel
      step := by revert e; decide +kernel
      away := by revert e; decide +kernel }
  polled := by intro v h; exact absurd h (by simp [waiting, run0, running, Scheduler.reset])
  reset := by intro v h; exact absurd h (by simp [waiting, run0, running, Scheduler.reset])

end Sys2Proof.Tests
end

section
/-! The ambiguity test of the Contact Table (04, R70). -/

namespace Sys2Proof.Machine

/-- What the ambiguity test looks for, as a statement over rows and columns: `(r, c)` is the fourth corner of a rectangle
inside the geometry, and the station has no diodes (R70). -/
theorem ambiguousAt_iff (t : ContactTable) (rows : List Byte) (r c : Nat) :
    t.ambiguousAt rows r c = true ↔
      t.diodeIsolated = false ∧ ∃ r' < t.rows, ∃ c' < t.columns, r' ≠ r ∧ c' ≠ c ∧
        rawClosed rows r c' = true ∧ rawClosed rows r' c = true ∧ rawClosed rows r' c' = true := by
  simp only [ContactTable.ambiguousAt, Bool.and_eq_true, Bool.not_eq_true', List.any_eq_true, List.mem_range,
    bne_iff_ne]
  refine and_congr_right fun _ => ⟨?_, ?_⟩
  · rintro ⟨r', hr', otherRow, c', hc', ⟨⟨otherColumn, inRow⟩, inColumn⟩, opposite⟩
    exact ⟨r', hr', c', hc', otherRow, otherColumn, inRow, inColumn, opposite⟩
  · rintro ⟨r', hr', c', hc', otherRow, otherColumn, inRow, inColumn, opposite⟩
    exact ⟨r', hr', otherRow, c', hc', ⟨⟨otherColumn, inRow⟩, inColumn⟩, opposite⟩

/-- A geometry of one row or one column has no rectangle, so none of its contacts is ambiguous (R70). -/
theorem ambiguousAt_single (t : ContactTable) (rows : List Byte) {r c : Nat} (single : t.rows ≤ 1 ∨ t.columns ≤ 1)
    (hr : r < t.rows) (hc : c < t.columns) : t.ambiguousAt rows r c = false := by
  rw [← Bool.not_eq_true, ambiguousAt_iff]
  rintro ⟨-, r', hr', c', hc', otherRow, otherColumn, -⟩
  rcases single with oneRow | oneColumn
  · exact otherRow (by omega)
  · exact otherColumn (by omega)

end Sys2Proof.Machine

namespace Sys2Proof.Proofs

open Sys2Proof.Machine

/-- Settles O39: the test's two searches are the two quantifiers of R70 (`ambiguousAt_iff`), and a single row or column
leaves one of them nothing to find (`ambiguousAt_single`). -/
theorem ambiguityIsTheFourthCorner : Obligations.AmbiguityIsTheFourthCorner := fun t rows r c =>
  ⟨ambiguousAt_iff t rows r c, ambiguousAt_single t rows⟩

end Sys2Proof.Proofs
end

section
/-! Submissions to the Journal Unit (06, R105 and R106). -/

namespace Sys2Proof.Machine

/-! ### The class of each kind (R106) -/

theorem class_eq_contact_iff (b : EventBody) :
    b.class = .contact ↔ (∃ i recovered extended, b = .contactClosed i recovered extended) ∨
      (∃ i recovered extended, b = .contactOpened i recovered extended) ∨ ∃ i set, b = .contactAmbiguous i set := by
  cases b <;> simp [EventBody.class]

theorem class_eq_station_iff (b : EventBody) :
    b.class = .station ↔ b = .stationUp ∨ (∃ reason, b = .stationDown reason) ∨ (∃ set, b = .stationFault set) ∨
      ∃ count, b = .resyncDone count := by
  cases b <;> simp [EventBody.class]

theorem class_eq_output_iff (b : EventBody) :
    b.class = .output ↔ (∃ revision, b = .outputApplied revision) ∨ ∃ outcome count, b = .sounderDone outcome count := by
  cases b <;> simp [EventBody.class]

theorem class_eq_control_iff (b : EventBody) :
    b.class = .control ↔ (∃ capacity stations, b = .runStart capacity stations) ∨ (∃ cycle, b = .runStop cycle) ∨
      b = .lineDisturbed ∨ (∃ length, b = .lineClear length) ∨ ∃ field, b = .hostValue field := by
  cases b <;> simp [EventBody.class]

/-! ### A dropped event advances the count of its class alone (R105) -/

@[simp] theorem Gap.drop_contact (c : EventClass) (g : Gap) :
    (g.drop c).contact = if c = .contact then satInc g.contact else g.contact := by cases c <;> rfl

@[simp] theorem Gap.drop_station (c : EventClass) (g : Gap) :
    (g.drop c).station = if c = .station then satInc g.station else g.station := by cases c <;> rfl

@[simp] theorem Gap.drop_output (c : EventClass) (g : Gap) :
    (g.drop c).output = if c = .output then satInc g.output else g.output := by cases c <;> rfl

@[simp] theorem Gap.drop_control (c : EventClass) (g : Gap) :
    (g.drop c).control = if c = .control then satInc g.control else g.control := by cases c <;> rfl

/-! ### The staging queue with a free place, and full (R105) -/

theorem Journal.stage_of_lt {j : Journal} (e : Event) (free : j.staging.length < Config.stagingMax) :
    j.stage e = { j with staging := j.staging ++ [⟨e, j.openGap⟩], openGap := Gap.zero } := if_pos free

theorem Journal.stage_of_le {j : Journal} (e : Event) (full : Config.stagingMax ≤ j.staging.length) :
    j.stage e = { j with openGap := j.openGap.drop e.body.class } := if_neg (Nat.not_lt_of_le full)

theorem Journal.submit_of_not_ended {j : Journal} (e : Event) (h : j.drain ≠ .ended) : j.submit e = j.stage e :=
  if_neg h

/-- While the block works, and before the end of the drain, a submission stages its event and touches nothing else. -/
theorem submit_of_not_ended {s : State} (e : Event) (works : s.works = true) (drain : s.journal.drain ≠ .ended) :
    s.submit e = { s with journal := s.journal.stage e } := by
  have one : s.submit e = { s with journal := s.journal.submit e } := submitAll_works [e] s works
  rw [one, Journal.submit_of_not_ended e drain]

end Sys2Proof.Machine

namespace Sys2Proof.Proofs

open Sys2Proof.Machine

/-- Settles O44: the class table kind by kind, and the two branches of R105 (`Journal.stage_of_lt`,
`Journal.stage_of_le`); the gap that a full queue leaves is the open gap with one event of the class dropped. -/
theorem submissionIsStagedOrCounted : Obligations.SubmissionIsStagedOrCounted := by
  refine ⟨fun b => ⟨class_eq_contact_iff b, class_eq_station_iff b, class_eq_output_iff b, class_eq_control_iff b⟩,
    fun s e works drain => ⟨fun free => ?_, fun full => ⟨s.journal.openGap.drop e.body.class, ?_, ?_⟩⟩⟩
  · rw [submit_of_not_ended e works drain, Journal.stage_of_lt e free]; rfl
  · rw [submit_of_not_ended e works drain, Journal.stage_of_le e full]
  · exact ⟨Gap.drop_contact _ _, Gap.drop_station _ _, Gap.drop_output _ _, Gap.drop_control _ _⟩

end Sys2Proof.Proofs
end

section
/-! The register window with the reset line released: what each write does (10, R163 to R165), which writes leave the
REFUSED cause as it stands (07, R126), and MASK and the interrupt line (07, R124). -/

namespace Sys2Proof.Machine

variable {s : State}

/-! ### The register that a write reaches -/

theorem windowWrite_of_released (h : s.run.resetAsserted = false) (offset : BitVec 6) (lanes : BitVec 4)
    (value : Word) : s.windowWrite offset lanes value = s.writeRegister offset (laneValue lanes value) := by
  simp [State.windowWrite, h]

theorem exec_start (h : s.run.resetAsserted = false) : exec .start s = .next s.commandStart :=
  congrArg Host.Outcome.next (windowWrite_of_released h _ _ _)

theorem exec_stop (h : s.run.resetAsserted = false) : exec .stop s = .next s.commandStop :=
  congrArg Host.Outcome.next (windowWrite_of_released h _ _ _)

theorem exec_sweep (h : s.run.resetAsserted = false) : exec .sweep s = .next s.commandSweep :=
  congrArg Host.Outcome.next (windowWrite_of_released h _ _ _)

theorem exec_clearFault (h : s.run.resetAsserted = false) : exec .clearFault s = .next s.commandClearFault :=
  congrArg Host.Outcome.next (windowWrite_of_released h _ _ _)

variable (lanes : BitVec 4) (value : Word)

theorem exec_undefinedCommand (h : s.run.resetAsserted = false) :
    exec (.undefinedCommand lanes value) s = .next (s.commandWrite (laneValue lanes value)) :=
  congrArg Host.Outcome.next (windowWrite_of_released h _ _ _)

theorem exec_exbaseLoWrite (h : s.run.resetAsserted = false) :
    exec (.exbaseLoWrite lanes value) s = .next (s.writeExbaseLo (laneValue lanes value)) :=
  congrArg Host.Outcome.next (windowWrite_of_released h _ _ _)

theorem exec_exbaseHiWrite (h : s.run.resetAsserted = false) :
    exec (.exbaseHiWrite lanes value) s = .next (s.writeExbaseHi (laneValue lanes value)) :=
  congrArg Host.Outcome.next (windowWrite_of_released h _ _ _)

theorem exec_maskWrite (h : s.run.resetAsserted = false) :
    exec (.maskWrite lanes value) s = .next (s.onIrq (·.setMask (laneValue lanes value))) :=
  congrArg Host.Outcome.next (windowWrite_of_released h _ _ _)

theorem exec_otherRegisterWrite (h : s.run.resetAsserted = false) (offset : BitVec 6) :
    exec (.otherRegisterWrite offset lanes value) s = .next (s.writeRegister offset (laneValue lanes value)) :=
  congrArg Host.Outcome.next (windowWrite_of_released h _ _ _)

/-! ### Writes refused, and offsets that take none -/

/-- Every code that names no command is refused (R164). -/
theorem commandWrite_undefined {code : Word} (h : namesCommand code = false) : s.commandWrite code = s.refuse := by
  obtain ⟨⟨⟨notStart, notStop⟩, notSweep⟩, notClearFault⟩ :
      ((code ≠ 1#32 ∧ code ≠ 2#32) ∧ code ≠ 3#32) ∧ code ≠ 4#32 := by simpa [namesCommand] using h
  simp only [State.commandWrite, notStart, notStop, notSweep, notClearFault, if_false]

/-- A register that takes writes has none of the other offsets. -/
theorem otherOffset_ne {offset k : BitVec 6} (h : otherOffset offset = true) (writable : otherOffset k = false) :
    offset ≠ k := by
  rintro rfl
  exact absurd h (by simp [writable])

/-- The read-only registers and the offsets that hold no register take no write (R163). -/
theorem writeRegister_otherOffset {offset : BitVec 6} (h : otherOffset offset = true) :
    s.writeRegister offset value = s := by
  have ne (k : BitVec 6) (writable : otherOffset k = false) : offset ≠ k := otherOffset_ne h writable
  simp only [State.writeRegister, ne 0x00#6 rfl, ne 0x04#6 rfl, ne 0x08#6 rfl, ne 0x10#6 rfl, ne 0x14#6 rfl, if_false]

/-- The offsets that hold no register read 0 (R163). -/
theorem register_of_le {offset : BitVec 6} (h : 0x20 ≤ offset.toNat) : s.register offset = 0#32 := by
  have ne (k : BitVec 6) (low : k.toNat < 0x20) : offset ≠ k := by
    rintro rfl
    omega
  simp only [State.register, ne 0x00#6 (by decide), ne 0x04#6 (by decide), ne 0x0C#6 (by decide),
    ne 0x10#6 (by decide), ne 0x14#6 (by decide), ne 0x18#6 (by decide), ne 0x1C#6 (by decide), if_false]

theorem readWindow_of_register_eq_zero {offset : BitVec 6} (h : s.register offset = 0#32) :
    s.readWindow offset lanes = 0#32 := by
  simp [State.readWindow, h, laneValue]

/-! ### Only a refusal sets REFUSED (R126) -/

/-- The REFUSED bit of CAUSE. -/
def State.refusedCause (s : State) : Bool := s.irq.cause.getLsbD 2

theorem refusedCause_congr {t : State} (h : t.irq = s.irq) : t.refusedCause = s.refusedCause := by
  rw [State.refusedCause, h, State.refusedCause]

/-- REFUSED stands as it did after any bits but its own are set. -/
theorem refusedCause_of_or {t : State} {bits : BitVec 5} (h : t.irq.cause = s.irq.cause ||| bits)
    (others : bits.getLsbD 2 = false) : t.refusedCause = s.refusedCause := by
  rw [State.refusedCause, h, BitVec.getLsbD_or, others, Bool.or_false, State.refusedCause]

theorem haltFromStarting_refusedCause (n : Reason) (d : Byte) :
    (s.haltFromStarting n d).refusedCause = s.refusedCause :=
  refusedCause_of_or (bits := Cause.state.bit) rfl rfl

theorem haltFromStopping_refusedCause : s.haltFromStopping.refusedCause = s.refusedCause := by
  obtain ⟨_, _, _, hcause, _, _⟩ := haltFromStopping_parts s
  rw [BitVec.or_assoc] at hcause
  exact refusedCause_of_or hcause (by split <;> rfl)

theorem haltIfQuiet_refusedCause : s.haltIfQuiet.refusedCause = s.refusedCause := by
  simp only [State.haltIfQuiet]
  split
  · exact haltFromStopping_refusedCause
  · split
    · exact haltFromStarting_refusedCause _ _
    · rfl

theorem abandonStart_refusedCause : s.abandonStart.refusedCause = s.refusedCause :=
  haltIfQuiet_refusedCause.trans (refusedCause_congr (by simp))

theorem enterStopping_refusedCause : s.enterStopping.refusedCause = s.refusedCause := by
  refine haltIfQuiet_refusedCause.trans (refusedCause_congr ?_)
  split <;> simp

/-! ### Each command in the run states that take it, and in the others (R164 to R170) -/

theorem commandStart_refused (h : s.run.state ≠ .halted) : s.commandStart = s.refuse := if_neg h

theorem commandStart_taken (h : s.run.state = .halted) : s.commandStart.refusedCause = s.refusedCause := by
  rw [State.commandStart, if_pos h]
  exact refusedCause_congr (by simp)

theorem commandStop_refused (h : s.run.state ≠ .starting ∧ s.run.state ≠ .running) : s.commandStop = s.refuse := by
  obtain ⟨notStarting, notRunning⟩ := h
  rw [State.commandStop, if_neg notStarting, if_neg notRunning]

theorem commandStop_taken (h : s.run.state = .starting ∨ s.run.state = .running) :
    s.commandStop.refusedCause = s.refusedCause := by
  rcases h with starting | running
  · rw [State.commandStop, if_pos starting]
    exact abandonStart_refusedCause
  · rw [State.commandStop, if_neg (by simp [running]), if_pos running]
    exact enterStopping_refusedCause

theorem commandSweep_refused (h : s.run.state ≠ .running) : s.commandSweep = s.refuse := if_neg h

theorem commandSweep_taken (h : s.run.state = .running) : s.commandSweep.refusedCause = s.refusedCause := by
  rw [State.commandSweep, if_pos h]
  exact refusedCause_congr (by simp)

theorem commandClearFault_refused (h : s.run.state ≠ .faulted) : s.commandClearFault = s.refuse := if_neg h

theorem commandClearFault_taken (h : s.run.state = .faulted) :
    s.commandClearFault.refusedCause = s.refusedCause := by
  rw [State.commandClearFault, if_pos h]
  exact refusedCause_of_or (bits := Cause.state.bit) rfl rfl

theorem writeExbaseLo_refused (h : s.run.state ≠ .halted) : s.writeExbaseLo value = s.refuse := if_neg h

theorem writeExbaseLo_taken (h : s.run.state = .halted) :
    (s.writeExbaseLo value).refusedCause = s.refusedCause := by
  rw [State.writeExbaseLo, if_pos h]
  rfl

theorem writeExbaseHi_refused (h : s.run.state ≠ .halted) : s.writeExbaseHi value = s.refuse := if_neg h

theorem writeExbaseHi_taken (h : s.run.state = .halted) :
    (s.writeExbaseHi value).refusedCause = s.refusedCause := by
  rw [State.writeExbaseHi, if_pos h]
  rfl

/-! ### MASK and the interrupt line (R124) -/

theorem register_mask : s.register 0x14#6 = s.irq.mask.setWidth 32 := rfl

/-- A read on all four byte lanes answers the whole register. -/
theorem readWindow_all (h : s.run.resetAsserted = false) (offset : BitVec 6) :
    s.readWindow offset 0b1111#4 = s.register offset := by
  have all : laneMask 0b1111#4 = BitVec.allOnes 32 := by decide
  rw [State.readWindow, h, if_neg Bool.false_ne_true, laneValue, all, BitVec.and_allOnes]

/-- The two values have a bit in common where their conjunction differs from 0 in some bit. -/
theorem Interrupt.line_iff (i : Interrupt) :
    i.line = true ↔ ∃ n < 5, i.cause.getLsbD n = true ∧ i.mask.getLsbD n = true := by
  rw [Interrupt.line, bne_iff_ne, Ne, BitVec.eq_of_getLsbD_eq_iff]
  simp

end Sys2Proof.Machine

namespace Sys2Proof.Proofs

open Sys2Proof.Machine

/-- Settles O5: each write is put through to its register (`exec_start` and the like); in the run states that take it
none of its effects sets REFUSED (`commandStart_taken` and the like), and in the others it is `State.refuse`. -/
theorem refusedWritesOnlySetRefused : Obligations.RefusedWritesOnlySetRefused := by
  intro s lanes value offset released
  have taken {c : Instr} {t : State} (next : exec c s = .next t) (kept : t.refusedCause = s.refusedCause) :
      ∃ t, exec c s = .next t ∧ t.irq.cause.getLsbD 2 = s.irq.cause.getLsbD 2 := ⟨t, next, kept⟩
  have refused {c : Instr} {t : State} (next : exec c s = .next t) (h : t = s.refuse) :
      exec c s = .next { s with irq := { s.irq with cause := s.irq.cause ||| 0b00100#5 } } := by rw [next, h]; rfl
  have lo := exec_exbaseLoWrite lanes value released
  have hi := exec_exbaseHiWrite lanes value released
  exact ⟨
    fun halted => ⟨taken (exec_start released) (commandStart_taken halted),
      taken lo (writeExbaseLo_taken _ halted), taken hi (writeExbaseHi_taken _ halted)⟩,
    fun h => taken (exec_stop released) (commandStop_taken h),
    fun h => taken (exec_sweep released) (commandSweep_taken h),
    fun h => taken (exec_clearFault released) (commandClearFault_taken h),
    fun h => refused (exec_start released) (commandStart_refused h),
    fun h => refused (exec_stop released) (commandStop_refused h),
    fun h => refused (exec_sweep released) (commandSweep_refused h),
    fun h => refused (exec_clearFault released) (commandClearFault_refused h),
    fun h => refused (exec_undefinedCommand lanes value released) (commandWrite_undefined h),
    fun h => refused lo (writeExbaseLo_refused _ h),
    fun h => refused hi (writeExbaseHi_refused _ h),
    fun h => by rw [exec_otherRegisterWrite lanes value released, writeRegister_otherOffset _ h],
    fun h => readWindow_of_register_eq_zero lanes (register_of_le h)⟩

/-- Settles O7: a write to MASK is its one record update (`exec_maskWrite`), a whole read answers the register
(`readWindow_all`), and the line's test is for a common bit (`Interrupt.line_iff`). -/
theorem maskAndInterruptLine : Obligations.MaskAndInterruptLine := by
  refine ⟨fun s lanes value released => ⟨(laneValue lanes value).setWidth 5, exec_maskWrite lanes value released, ?_⟩,
    fun s released i hi => ?_, fun s => s.irq.line_iff⟩
  · intro i hi
    simp [hi]
  · rw [readWindow_all released, register_mask, BitVec.getLsbD_setWidth]
    by_cases below : i < 5
    · simp [below, hi]
    · simp [below, BitVec.getLsbD_of_ge s.irq.mask i (Nat.le_of_not_lt below)]

end Sys2Proof.Proofs
end

section
/-! What a STATUS request finds at the Memory Port, and what it leaves (09, R154). -/

namespace Sys2Proof.Machine

/-! ### The four findings of R154, in the order they are looked for -/

section
variable {p : Port} {e : Entry}

theorem Port.requestStatus_of_unstarted (h : .status e ∈ p.unstarted) : p.requestStatus e = p := if_pos h

variable (fresh : .status e ∉ p.unstarted)
include fresh

theorem Port.requestStatus_of_owed (owed : p.owed[e.val] = true) : p.requestStatus e = p := by
  rw [Port.requestStatus, if_neg fresh, if_pos owed]

variable (notOwed : p.owed[e.val] = false)
include notOwed

theorem Port.requestStatus_of_not_owed :
    p.requestStatus e = if p.writes.length < Config.writesMax then { p with writes := p.writes ++ [.status e] }
      else { p with owed := p.owed.set e.val true } := by
  simp only [Port.requestStatus, if_neg fresh, notOwed, Bool.false_eq_true, if_false, Port.hasFree, decide_eq_true_eq]

theorem Port.requestStatus_of_lt (free : p.writes.length < Config.writesMax) :
    p.requestStatus e = { p with writes := p.writes ++ [.status e] } := by
  rw [Port.requestStatus_of_not_owed fresh notOwed, if_pos free]

theorem Port.requestStatus_of_le (full : Config.writesMax ≤ p.writes.length) :
    p.requestStatus e = { p with owed := p.owed.set e.val true } := by
  rw [Port.requestStatus_of_not_owed fresh notOwed, if_neg (Nat.not_lt_of_le full)]

end

/-! ### The counters changed mark, and the taking of records -/

theorem requestStatus_countersChanged (s : State) (e : Entry) :
    ((s.requestStatus e).station e).link.countersChanged = false := by
  rw [requestStatus_station, if_pos rfl]

theorem noneOwed_eq_false {p : Port} {e : Entry} (owed : p.owed[e.val] = true) : p.noneOwed = false := by
  cases first : p.firstOwed with
  | some e' => simp [Port.noneOwed, first]
  | none => exact absurd (firstOwed_none p first e) (by simp [owed])

/-- Condition 4 of R111. -/
theorem canTakeRecord_of_owed {s : State} {e : Entry} (owed : s.port.owed[e.val] = true) :
    s.canTakeRecord = false := by
  simp [State.canTakeRecord, noneOwed_eq_false owed]

end Sys2Proof.Machine

namespace Sys2Proof.Proofs

open Sys2Proof.Machine

/-- Settles O52: one lemma for each of the four findings of R154, the mark that every request clears
(`requestStatus_countersChanged`), and R111's condition on the owed marks (`canTakeRecord_of_owed`). -/
theorem statusRequestIsTaken : Obligations.StatusRequestIsTaken := by
  intro p e
  exact ⟨Port.requestStatus_of_unstarted, Port.requestStatus_of_owed, Port.requestStatus_of_lt,
    Port.requestStatus_of_le, fun s => ⟨requestStatus_countersChanged s e, canTakeRecord_of_owed⟩⟩

end Sys2Proof.Proofs
end

section
/-! Full reset, the window while the reset line is held asserted, and the release (10, R174). -/

namespace Sys2Proof.Machine

variable (s : State)

/-! ### What full reset leaves -/

/-- Run Control after FULL_RESET: its reset values, with the reset line held asserted. -/
theorem fullReset_run : s.fullReset.run = { RunControl.reset with resetAsserted := true } := rfl

/-- No cause is set and no cause is unmasked, so the interrupt line is not asserted (R124). -/
theorem fullReset_interruptLine : s.fullReset.interruptLine = false := by
  have closed : Interrupt.reset.line = false := by decide
  exact closed

theorem fullReset_station (e : Entry) : s.fullReset.station e = Station.reset := by
  simp [State.station, State.fullReset, State.reset]

/-- Every register of the window stands at 0 (R163, R174). -/
theorem fullReset_register (offset : BitVec 6) : s.fullReset.register offset = 0#32 := by
  have state : RunControl.stateRegister { RunControl.reset with resetAsserted := true } = 0#32 := by decide
  have irq : s.fullReset.irq = Interrupt.reset := rfl
  have address : s.fullReset.port.faultAddr = 0#64 := rfl
  simp only [State.register, fullReset_run, state, irq, address]
  (repeat' split) <;> rfl

/-- Only the write in flight, cut off by the reset, may have changed memory (R151, R174). -/
theorem fullReset_memoryRead (a : Nat)
    (outside : ∀ w base bytes, s.port.inFlight = some (.write w base bytes) →
      a < base ∨ base + bytes.length ≤ a) :
    memoryRead s.fullReset.memory a = memoryRead s.memory a :=
  cutOffWrite_read s a outside

/-! ### The window while the reset line is held asserted -/

variable {s}

theorem windowWrite_of_held (h : s.run.resetAsserted = true) (offset : BitVec 6) (lanes : BitVec 4) (value : Word) :
    s.windowWrite offset lanes value = s := if_pos h

theorem readWindow_of_held (h : s.run.resetAsserted = true) (offset : BitVec 6) (lanes : BitVec 4) :
    s.readWindow offset lanes = 0#32 := if_pos h

/-! ### Late answers, and the release -/

/-- A late error response finds no transaction abandoned (R160). -/
theorem exec_lateErrorResponse_of_none (h : s.port.abandoned = none) : exec .lateErrorResponse s = .next s := by
  change Host.Outcome.next (if s.port.abandoned.isSome then _ else s) = _
  simp [h]

theorem exec_resetRelease (s : State) :
    exec .resetRelease s = .next { s with run := { s.run with resetAsserted := false } } := rfl

end Sys2Proof.Machine

namespace Sys2Proof.Proofs

open Sys2Proof.Machine

/-- Settles O4: the units stand at their reset records; the registers, the stations and memory by `fullReset_register`,
`fullReset_station` and `fullReset_memoryRead`; every write of the window is one `State.windowWrite`, which the
held line ignores (`windowWrite_of_held`) and which reaches MASK again after the release (`exec_maskWrite`). -/
theorem fullResetAndRelease : Obligations.FullResetAndRelease := by
  refine ⟨fun s => ⟨s.fullReset, rfl, ?units⟩, fun s held => ⟨readWindow_of_held held, ?writes⟩,
    exec_resetRelease, ?after⟩
  case units =>
    refine ⟨rfl, rfl, rfl, rfl, rfl, rfl, rfl, rfl, fullReset_register s, rfl,
      fullReset_interruptLine s, rfl, rfl, rfl, rfl, rfl, rfl, rfl,
      rfl, rfl, rfl, rfl, rfl, rfl, rfl, rfl, rfl, fun e => ?_, rfl, rfl, rfl, rfl, fullReset_memoryRead s⟩
    rw [fullReset_station]
    exact ⟨rfl, rfl, rfl, rfl, rfl⟩
  case writes =>
    intro lanes value offset
    have ignored (o : BitVec 6) (l : BitVec 4) (v : Word) : Host.Outcome.next (s.windowWrite o l v) =
        (.next s : Result) := congrArg _ (windowWrite_of_held held o l v)
    simp only [List.forall_mem_cons]
    exact ⟨ignored _ _ _, ignored _ _ _, ignored _ _ _, ignored _ _ _, ignored _ _ _, ignored _ _ _, ignored _ _ _,
      ignored _ _ _, ignored _ _ _, ignored _ _ _, List.forall_mem_nil _⟩
  case after =>
    rintro s t ⟨⟩
    exact ⟨exec_lateErrorResponse_of_none rfl, rfl, _, exec_resetRelease _, rfl,
      fun lanes value _ => exec_maskWrite lanes value rfl⟩

end Sys2Proof.Proofs
end

section
/-! The exchange area base: who writes it, and that no other command of a run changes it (10, R165). -/

namespace Sys2Proof.Machine

variable {s t u : State}

/-! ### Run Control's items that no operation of a run changes -/

theorem sameBase_of_run (h : t.run = s.run) : s.run.SameBase t.run := by simp [RunControl.SameBase, h]

theorem RunControl.SameBase.trans {a b c : RunControl} (first : a.SameBase b) (second : b.SameBase c) :
    a.SameBase c := by
  obtain ⟨lo, hi, held⟩ := first
  obtain ⟨lo', hi', held'⟩ := second
  exact ⟨lo'.trans lo, hi'.trans hi, held'.trans held⟩

/-- An operation that leaves Run Control alone may be followed by the entry to HALTED. -/
theorem sameBase_halt (h : t.run = s.run) : s.run.SameBase t.haltIfQuiet.run :=
  (sameBase_of_run h).trans (haltIfQuiet_base t)

theorem sameBase_ite {c : Prop} [Decidable c] (h : s.run.SameBase t.run) (k : s.run.SameBase u.run) :
    s.run.SameBase (if c then t else u).run := by
  split
  · exact h
  · exact k

/-- A command that acts under a condition alone. -/
theorem sameBase_guard {c : Prop} [Decidable c] (h : s.run.SameBase t.run) :
    s.run.SameBase (if c then t else s).run := sameBase_ite h (sameBase_of_run rfl)

/-- The command answers a next state, with the base and the reset line's hold as they stood. -/
def KeepsBase (s : State) (r : Result) : Prop := ∃ t, r = .next t ∧ s.run.SameBase t.run

theorem keepsBase_next (h : s.run.SameBase t.run) : KeepsBase s (.next t) := ⟨t, rfl, h⟩

/-! ### The window -/

theorem refuse_base : s.run.SameBase s.refuse.run := sameBase_of_run (by simp)

theorem abandonStart_base : s.run.SameBase s.abandonStart.run :=
  RunControl.SameBase.trans (by simp [RunControl.SameBase]) (haltIfQuiet_base _)

theorem enterStopping_base : s.run.SameBase s.enterStopping.run := by
  refine RunControl.SameBase.trans ?_ (haltIfQuiet_base _)
  split <;> simp [RunControl.SameBase]

theorem commandStart_base : s.run.SameBase s.commandStart.run :=
  sameBase_ite (by simp [RunControl.SameBase]) refuse_base

theorem commandStop_base : s.run.SameBase s.commandStop.run :=
  sameBase_ite abandonStart_base (sameBase_ite enterStopping_base refuse_base)

theorem commandClearFault_base : s.run.SameBase s.commandClearFault.run :=
  sameBase_ite (by simp [RunControl.SameBase]) refuse_base

/-- No code written to COMMAND changes the base, whether it names a command or not. -/
theorem commandWrite_base (code : Word) : s.run.SameBase (s.commandWrite code).run :=
  sameBase_ite commandStart_base <| sameBase_ite commandStop_base <|
    sameBase_ite (sameBase_of_run (by simp)) <| sameBase_ite commandClearFault_base refuse_base

/-- A write to the window changes the base at the offsets of EXBASE_LO and EXBASE_HI alone. -/
theorem windowWrite_base {offset : BitVec 6} (notLo : offset ≠ 0x00#6) (notHi : offset ≠ 0x04#6) (lanes : BitVec 4)
    (value : Word) : s.run.SameBase (s.windowWrite offset lanes value).run := by
  refine sameBase_ite (sameBase_of_run rfl) ?_
  rw [State.writeRegister, if_neg notLo, if_neg notHi]
  exact sameBase_ite (commandWrite_base _) <| sameBase_ite (sameBase_of_run rfl) <|
    sameBase_ite (sameBase_of_run rfl) (sameBase_of_run rfl)

/-! ### The pair and the line -/

/-- What the scheduler makes of an ending leaves Run Control alone, but for the entry to HALTED. -/
theorem afterEnding_base (request : Option SendRequest) (ending : Option Ending) (h : t.run = s.run) :
    s.run.SameBase (t.afterEnding request ending).run := by
  cases ending with
  | none => exact sameBase_of_run h
  | some how => exact sameBase_halt (by simp [h])

theorem receive_base (c : RxChar) : s.run.SameBase (s.receive c).run := afterEnding_base _ _ (by simp)

theorem execFrameSent_base : KeepsBase s (execFrameSent s) := by
  refine keepsBase_next ?_
  split
  · exact sameBase_guard <| sameBase_ite (sameBase_of_run rfl) (sameBase_halt (by simp))
  · exact sameBase_of_run rfl

theorem execReplyWindowExpiry_base : KeepsBase s (execReplyWindowExpiry s) := by
  refine keepsBase_next ?_
  split
  · exact sameBase_guard <| sameBase_ite (sameBase_of_run rfl) (afterEnding_base _ _ rfl)
  · exact sameBase_of_run rfl
  · exact sameBase_of_run rfl

theorem execBusyLimitExpiry_base : KeepsBase s (execBusyLimitExpiry s) := by
  refine keepsBase_next ?_
  split
  · refine sameBase_guard (sameBase_halt ?_)
    split <;> simp
  · exact sameBase_of_run rfl

/-! ### The bus's answers -/

theorem execImageFetchComplete_base (data : List Byte) : KeepsBase s (execImageFetchComplete data s) := by
  refine keepsBase_next ?_
  split
  · exact sameBase_guard <| sameBase_ite (sameBase_halt (by simp)) <| sameBase_guard <|
      sameBase_ite (sameBase_halt (by simp)) (takeStartFetch_base _ _ _)
  · exact sameBase_of_run rfl

theorem execStartReadComplete_base (data : List Byte) : KeepsBase s (execStartReadComplete data s) := by
  refine keepsBase_next ?_
  split
  · exact sameBase_guard <| sameBase_ite (sameBase_halt (by simp)) (takeStartRead_base _ _ _)
  · exact sameBase_of_run rfl

/-! ### Every command -/

/-- No command of a run changes the base: those left out are the base writes and the two of the reset line. -/
theorem exec_base (c : Instr) (s : State) (wf : c.wellFormed = true)
    (noBaseWrite : ∀ lanes value, c ≠ .exbaseLoWrite lanes value ∧ c ≠ .exbaseHiWrite lanes value)
    (noReset : c ≠ .fullReset) (noRelease : c ≠ .resetRelease) : KeepsBase s (exec c s) := by
  have window (offset : BitVec 6) (lanes : BitVec 4) (value : Word) (notLo : offset ≠ 0x00#6)
      (notHi : offset ≠ 0x04#6) : KeepsBase s (.next (s.windowWrite offset lanes value)) :=
    keepsBase_next (windowWrite_base notLo notHi lanes value)
  cases c with
  | fullReset => exact absurd rfl noReset
  | resetRelease => exact absurd rfl noRelease
  | exbaseLoWrite lanes value => exact absurd rfl (noBaseWrite lanes value).1
  | exbaseHiWrite lanes value => exact absurd rfl (noBaseWrite lanes value).2
  | start | stop | sweep | clearFault | undefinedCommand | causeWrite | maskWrite =>
    exact window _ _ _ (by decide) (by decide)
  | otherRegisterWrite offset lanes value =>
    have other : otherOffset offset = true := (Bool.and_eq_true_iff.1 wf).1
    exact window _ _ _ (otherOffset_ne other rfl) (otherOffset_ne other rfl)
  | panelClockAdvance | lateErrorResponse => exact keepsBase_next (sameBase_guard ⟨rfl, rfl, rfl⟩)
  | pairReturnsToRest | pairLeavesRest =>
    exact keepsBase_next <| sameBase_ite (sameBase_of_run rfl) <|
      sameBase_ite (sameBase_of_run rfl) (sameBase_of_run rfl)
  | characterReceived => exact keepsBase_next (sameBase_guard (receive_base _))
  | startBitConfirmed | receiverArmed | holdOffExpiry =>
    exact keepsBase_next (sameBase_guard (sameBase_of_run (by simp)))
  | frameSent => exact execFrameSent_base
  | replyWindowExpiry => exact execReplyWindowExpiry_base
  | interCharacterLimitExpiry => exact keepsBase_next (sameBase_guard (afterEnding_base _ _ rfl))
  | discardPeriodEnd | quietGapExpiry | clearTestExpiry | stopLimitExpiry | stopDrainLimitExpiry =>
    exact keepsBase_next (sameBase_guard (sameBase_halt (by simp)))
  | busyLimitExpiry => exact execBusyLimitExpiry_base
  | cycleTimerExpiry =>
    refine keepsBase_next ?_
    split
    · exact sameBase_guard (sameBase_of_run (by simp))
    · exact sameBase_of_run rfl
    · exact sameBase_of_run rfl
  | timeMarkDue | sweepTimerExpiry =>
    refine keepsBase_next ?_
    split
    · exact sameBase_guard (sameBase_of_run (by simp))
    · exact sameBase_of_run rfl
  | recordTaken | releasedCountReadComplete | livePartReadComplete | statusWriteComplete | recordWriteComplete
  | markWriteComplete =>
    refine keepsBase_next ?_
    split
    · exact sameBase_guard (sameBase_halt (by simp))
    · exact sameBase_of_run rfl
  | imageFetchComplete data => exact execImageFetchComplete_base data
  | startReadComplete data => exact execStartReadComplete_base data
  | busErrorResponse | memoryAccessTimeout => exact keepsBase_next (sameBase_guard (fault_base s _))
  | lateCompletion => exact keepsBase_next (sameBase_of_run rfl)

/-! ### The bits of EXBASE_LO -/

/-- The bits that EXBASE_LO stores: 12 to 31 (R165). -/
theorem getLsbD_storedBits {i : Nat} (hi : i < 32) : (0xFFFFF000#32).getLsbD i = decide (12 ≤ i) := by
  revert i
  decide

/-- A base that is a multiple of 4,096 has its twelve low bits clear (R165). -/
theorem getLsbD_base {x : Word} (h : x &&& 0xFFF#32 = 0#32) {i : Nat} (hi : i < 12) : x.getLsbD i = false := by
  have low : (0xFFF#32).getLsbD i = true := by
    revert i
    decide
  simpa [low] using congrArg (·.getLsbD i) h

/-- A read answers no bit that the register has clear (R163). -/
theorem getLsbD_readWindow (s : State) {offset : BitVec 6} {i : Nat} (h : (s.register offset).getLsbD i = false)
    (lanes : BitVec 4) : (s.readWindow offset lanes).getLsbD i = false := by
  rw [State.readWindow]
  split
  · simp
  · rw [laneValue, BitVec.getLsbD_and, h, Bool.false_and]

end Sys2Proof.Machine

namespace Sys2Proof.Proofs

open Sys2Proof.Machine

/-- Settles O6: the two writes by their record updates in HALTED and `State.refuse` elsewhere; no other command but full
reset changes the base (`exec_base`, and `exec_resetRelease` for the release of the reset line); and the twelve low bits
are clear in a bounded state. -/
theorem exchangeBaseIsWrittenInHaltedAlone : Obligations.ExchangeBaseIsWrittenInHaltedAlone := by
  refine ⟨fun s lanes value released halted => ⟨⟨laneValue lanes value &&& 0xFFFFF000#32, ?lo, ?stored⟩, ?hi⟩,
    fun s lanes value released notHalted => ?refused, fun c s t wf noBaseWrite noReset next => ?others, ?reset, ?read⟩
  case lo => rw [exec_exbaseLoWrite lanes value released, State.writeExbaseLo, if_pos halted]; rfl
  case stored =>
    intro i hi
    rw [BitVec.getLsbD_and, getLsbD_storedBits hi, Bool.and_comm]
  case hi => rw [exec_exbaseHiWrite lanes value released, State.writeExbaseHi, if_pos halted]; rfl
  case refused =>
    simp only [List.forall_mem_cons]
    refine ⟨?_, ?_, List.forall_mem_nil _⟩
    · rw [exec_exbaseLoWrite lanes value released, writeExbaseLo_refused _ notHalted]; rfl
    · rw [exec_exbaseHiWrite lanes value released, writeExbaseHi_refused _ notHalted]; rfl
  case others =>
    by_cases release : c = .resetRelease
    · subst release
      rw [exec_resetRelease] at next
      cases next
      exact ⟨rfl, rfl⟩
    · obtain ⟨t', next', lo, hi, _⟩ := exec_base c s wf noBaseWrite noReset release
      cases next.symm.trans next'
      exact ⟨lo, hi⟩
  case reset =>
    rintro s t ⟨⟩
    exact ⟨rfl, rfl⟩
  case read =>
    intro s lanes bounded i hi
    exact getLsbD_readWindow s (offset := 0x00#6) (getLsbD_base bounded.base hi) lanes

end Sys2Proof.Proofs
end

section
/-! What every command can do, said once: the state it answers, with the conditions under which it acts. -/

namespace Sys2Proof

open Sys2Proof.Machine

/-- The write of the window that a command is: its offset, its byte lanes and the 32 bits (R163, R164). -/
def Instr.windowWrite : Instr → Option (BitVec 6 × BitVec 4 × Word)
  | .start => some (0x08#6, 0b1111#4, 1#32)
  | .stop => some (0x08#6, 0b1111#4, 2#32)
  | .sweep => some (0x08#6, 0b1111#4, 3#32)
  | .clearFault => some (0x08#6, 0b1111#4, 4#32)
  | .undefinedCommand lanes value => some (0x08#6, lanes, value)
  | .exbaseLoWrite lanes value => some (0x00#6, lanes, value)
  | .exbaseHiWrite lanes value => some (0x04#6, lanes, value)
  | .causeWrite lanes value => some (0x10#6, lanes, value)
  | .maskWrite lanes value => some (0x14#6, lanes, value)
  | .otherRegisterWrite offset lanes value => some (offset, lanes, value)
  | _ => none

/-- A command that writes a value at an offset of the window, with the bytes not written taken as 0. -/
def Instr.Puts (c : Instr) (offset : BitVec 6) (value : Word) : Prop :=
  ∃ lanes bus, c.windowWrite = some (offset, lanes, bus) ∧ laneValue lanes bus = value

end Sys2Proof

namespace Sys2Proof.Machine

/-- The state that a command answers: the state it found, or what the command does where its conditions hold. -/
inductive Effect (s : State) : Instr → State → Prop
  | same (c : Instr) : Effect s c s
  | fullReset : Effect s .fullReset s.fullReset
  | resetRelease : Effect s .resetRelease (s.onRun fun c => { c with resetAsserted := false })
  | refused {c : Instr} {offset : BitVec 6} {value : Word} (puts : c.Puts offset value) : Effect s c s.refuse
  | start {c : Instr} (puts : c.Puts 0x08#6 1#32) (halted : s.run.state = .halted) : Effect s c s.acceptStart
  | stopStart {c : Instr} (puts : c.Puts 0x08#6 2#32) (starting : s.run.state = .starting) : Effect s c s.abandonStart
  | stop {c : Instr} (puts : c.Puts 0x08#6 2#32) (running : s.run.state = .running) : Effect s c s.enterStopping
  | sweep {c : Instr} (puts : c.Puts 0x08#6 3#32) (running : s.run.state = .running) : Effect s c s.requestSweep
  | clearFault {c : Instr} (puts : c.Puts 0x08#6 4#32) (faulted : s.run.state = .faulted) :
    Effect s c ((s.runChange .halted .none 0#8).setCause .state)
  | exbaseLo {c : Instr} {value : Word} (puts : c.Puts 0x00#6 value) (halted : s.run.state = .halted) :
    Effect s c (s.onRun fun r => { r with exbaseLo := value &&& 0xFFFFF000#32 })
  | exbaseHi {c : Instr} {value : Word} (puts : c.Puts 0x04#6 value) (halted : s.run.state = .halted) :
    Effect s c (s.onRun fun r => { r with exbaseHi := value })
  | clearCause {c : Instr} {value : Word} (puts : c.Puts 0x10#6 value) : Effect s c (s.onIrq (·.clear value))
  | setMask {c : Instr} {value : Word} (puts : c.Puts 0x14#6 value) : Effect s c (s.onIrq (·.setMask value))
  | clockAdvance (works : s.works = true) :
    Effect s .panelClockAdvance ((s.onRun fun c => { c with clock := c.clock + 1#32 }).onLine Line.passMillisecond)
  | character (data : Byte) (parityBit stopBit : Bool) (works : s.works = true)
      (receiver : s.line.receiver = .inReception) (line : s.line.state ≠ .sending) :
    Effect s (.characterReceived data parityBit stopBit) (s.receive (sampledChar data parityBit stopBit))
  | pairReturns (works : s.works = true) (level : s.line.pairAtRest = false) :
    Effect s .pairReturnsToRest (s.onLine (·.returnToRest s.run.clock))
  | pairLeaves (works : s.works = true) (level : s.line.pairAtRest = true) :
    Effect s .pairLeavesRest (s.onLine Line.leaveRest)
  | pairLevel {c : Instr} (level : Bool) (works : s.works = false) :
    Effect s c (s.onLine fun l => { l with pairAtRest := level })
  | startBit (works : s.works = true) (line : s.line.state ≠ .sending) :
    Effect s .startBitConfirmed (s.onLine Line.sampleStart)
  | arm (works : s.works = true) : Effect s .receiverArmed (s.onLine Line.arm)
  | frameSent (r : SendRequest) (place : s.line.sendPlace = some r) (works : s.works = true)
      (line : s.line.state = .sending) (reply : r.expectsReply = true) :
    Effect s .frameSent (s.onLine (·.frameSent s.run.clock s.cfg.responseWindow r))
  | markSent (r : SendRequest) (place : s.line.sendPlace = some r) (works : s.works = true)
      (line : s.line.state = .sending) (reply : r.expectsReply = false) :
    Effect s .frameSent (s.onLine (·.frameSent s.run.clock s.cfg.responseWindow r)).proceed.haltIfQuiet
  | windowHeld (works : s.works = true) (line : s.line.state = .awaiting) :
    Effect s .replyWindowExpiry (s.onLine fun l => { l with reply := .expiryHeld })
  | windowExpiry (works : s.works = true) (line : s.line.state = .awaiting)
      (receiver : s.line.receiver ≠ .inReception) :
    Effect s .replyWindowExpiry
      ((s.onLine (·.noReply (gapPassedAtWindow s.cfg))).afterEnding s.line.sendPlace (some .noReply))
  | characterLimit (works : s.works = true) (line : s.line.state = .receiving)
      (timer : s.line.interChar.isSome = true) :
    Effect s .interCharacterLimitExpiry ((s.onLine Line.truncated).afterEnding s.line.sendPlace (some .truncated))
  | discardEnd (works : s.works = true) (line : s.line.state = .receiving) (discard : s.line.discard = true)
      (timer : s.line.discardRest.isSome = true) :
    Effect s .discardPeriodEnd (s.onLine (·.endDiscard s.run.clock)).settle.haltIfQuiet
  | gapExpiry (works : s.works = true) (line : s.line.state = .quiet) (timer : s.line.quietGap.isSome = true) :
    Effect s .quietGapExpiry (s.onLine Line.enterIdle).settle.haltIfQuiet
  | busyMark (r : SendRequest) (place : s.line.sendPlace = some r) (works : s.works = true)
      (timer : s.line.busy.isSome = true) (serves : r.serves = none) :
    Effect s .busyLimitExpiry
      ((s.onLine (·.enterDisturbed s.run.clock)).submitDisturbed r.serves).proceed.haltIfQuiet
  | busyTry (r : SendRequest) (place : s.line.sendPlace = some r) (works : s.works = true)
      (timer : s.line.busy.isSome = true) (serves : r.serves.isSome = true) :
    Effect s .busyLimitExpiry
      (((s.onLine (·.enterDisturbed s.run.clock)).deliver .lineDisturbed).submitDisturbed r.serves).proceed.haltIfQuiet
  | clearTest (works : s.works = true) (line : s.line.state = .disturbed) (timer : s.line.clearTest.isSome = true) :
    Effect s .clearTestExpiry
      (({ s.onLine Line.clear with draws := s.draws + 1 } : State).submit
        (s.event none (.lineClear (s.line.disturbedFor (Config.cutShort s.draws))))).settle.haltIfQuiet
  | stopLimit (stopping : s.run.state = .stopping) (timer : s.line.stopLimit.isSome = true)
      (settled : s.line.settled = false) :
    Effect s .stopLimitExpiry
      ((s.onLine (·.enterDisturbed s.run.clock)).submitDisturbed none).settle.haltIfQuiet
  | cycleTimer (t : Timer) (timer : s.sched.cycleTimer = .running t) (works : s.works = true) :
    Effect s .cycleTimerExpiry (s.onSched fun c => { c with cycleTimer := .expired }).schedule
  | markDue (t : Timer) (timer : s.sched.markTimer = some t) (works : s.works = true) :
    Effect s .timeMarkDue
      (s.onSched fun c => { c with markDue := true, markTimer := some (t.next Config.markPeriodMs) }).schedule
  | sweepTimer (t : Timer) (timer : s.exch.sweepTimer = some t) (works : s.works = true) :
    Effect s .sweepTimerExpiry
      (s.onExch fun x => { x with sweepTimer := some (t.next s.cfg.sweepPeriod) }).requestSweep
  | drainLimit (stopping : s.run.state = .stopping) (drain : s.journal.drain = .running)
      (timer : s.journal.drainTimer.isSome = true) : Effect s .stopDrainLimitExpiry s.expireDrain.haltIfQuiet
  | holdOff (works : s.works = true) (timer : s.irq.holdOff.isSome = true) : Effect s .holdOffExpiry s.signalJournal
  | record (next : NextRecord) (left : Journal) (taken : s.journal.takeNext = some (next, left))
      (ready : s.canTakeRecord = true) : Effect s .recordTaken (s.formRecord next left).completeDrain.haltIfQuiet
  | released (data : List Byte) (a : Nat) (flight : s.port.inFlight = some (.read .released a))
      (works : s.works = true) :
    Effect s (.releasedCountReadComplete data) (s.takeReleased (wordAt data 0)).endRead.haltIfQuiet
  | live (e : Entry) (data : List Byte) (a : Nat) (flight : s.port.inFlight = some (.read (.live e) a))
      (works : s.works = true) : Effect s (.livePartReadComplete data) (s.takeLive e data).endRead.haltIfQuiet
  | fetch (e : Entry) (data : List Byte) (a : Nat) (flight : s.port.inFlight = some (.read (.image e) a))
      (works : s.works = true) : Effect s (.imageFetchComplete data) (s.takeFetch e data).endRead.haltIfQuiet
  | startFetch (e : Entry) (data : List Byte) (a : Nat) (flight : s.port.inFlight = some (.read (.image e) a))
      (starting : s.run.state = .starting) (kept : s.run.startAbandoned = false) :
    Effect s (.imageFetchComplete data) (s.takeStartFetch e data)
  | startRead (i : Nat) (data : List Byte) (a : Nat) (flight : s.port.inFlight = some (.read (.start i) a))
      (starting : s.run.state = .starting) (kept : s.run.startAbandoned = false) :
    Effect s (.startReadComplete data) (s.takeStartRead i data)
  | abandonedRead {c : Instr} (r : Read) (a : Nat) (completion : isCompletion c = true)
      (flight : s.port.inFlight = some (.read r a)) (starting : s.run.state = .starting)
      (abandoned : s.run.startAbandoned = true) : Effect s c s.endRead.haltIfQuiet
  | written {c : Instr} (w : WriteEntry) (a : Nat) (bytes : List Byte) (completion : isCompletion c = true)
      (flight : s.port.inFlight = some (.write w a bytes)) (transacts : s.run.state.transacts = true) :
    Effect s c (s.endWrite a bytes).startTransaction.haltIfQuiet
  | markWritten (covered : Word) (urgent : Bool) (a : Nat) (bytes : List Byte)
      (flight : s.port.inFlight = some (.write (.mark covered urgent) a bytes))
      (transacts : s.run.state.transacts = true) :
    Effect s .markWriteComplete ((s.endWrite a bytes).announce covered urgent).startTransaction.haltIfQuiet
  | fault {c : Instr} (late : Bool) (failed : Transaction) (command : c = .busErrorResponse ∨ c = .memoryAccessTimeout)
      (flight : s.port.inFlight = some failed) (transacts : s.run.state.transacts = true) : Effect s c (s.fault late)
  | lateError : Effect s .lateErrorResponse (s.onRun fun c => { c with multiple := true })

variable {s : State}

/-- A command that acts under a condition alone. -/
theorem Effect.guard {c : Instr} {t : State} {p : Prop} [Decidable p] (acts : p → Effect s c t) :
    Effect s c (if p then t else s) := by
  split
  next holds => exact acts holds
  next => exact .same c

theorem fault_of_none (late : Bool) (idle : s.port.inFlight = none) : s.fault late = s := by
  simp [State.fault, idle]

/-- A bus failure with no transaction in flight changes nothing. -/
theorem Effect.busFails {c : Instr} (late : Bool) (command : c = .busErrorResponse ∨ c = .memoryAccessTimeout) :
    Effect s c (if s.run.state.transacts then s.fault late else s) := by
  refine .guard fun transacts => ?_
  cases flight : s.port.inFlight with
  | none => rw [fault_of_none late flight]; exact .same c
  | some failed => exact .fault late failed command flight transacts

theorem commandWrite_effect {c : Instr} {code : Word} (puts : c.Puts 0x08#6 code) :
    Effect s c (s.commandWrite code) := by
  have refused : Effect s c s.refuse := .refused puts
  by_cases start : code = 1#32
  · subst start
    change Effect s c (if s.run.state = .halted then s.acceptStart else s.refuse)
    split
    next halted => exact .start puts halted
    next => exact refused
  by_cases stop : code = 2#32
  · subst stop
    change Effect s c (if s.run.state = .starting then s.abandonStart
      else if s.run.state = .running then s.enterStopping else s.refuse)
    split
    next starting => exact .stopStart puts starting
    next =>
      split
      next running => exact .stop puts running
      next => exact refused
  by_cases sweep : code = 3#32
  · subst sweep
    change Effect s c (if s.run.state = .running then s.requestSweep else s.refuse)
    split
    next running => exact .sweep puts running
    next => exact refused
  by_cases clear : code = 4#32
  · subst clear
    change Effect s c (if s.run.state = .faulted then (s.runChange .halted .none 0#8).setCause .state else s.refuse)
    split
    next faulted => exact .clearFault puts faulted
    next => exact refused
  rw [State.commandWrite, if_neg start, if_neg stop, if_neg sweep, if_neg clear]
  exact refused

theorem writeExbaseLo_effect {c : Instr} {value : Word} (puts : c.Puts 0x00#6 value) :
    Effect s c (s.writeExbaseLo value) := by
  rw [State.writeExbaseLo]
  split
  next halted => exact .exbaseLo puts halted
  next => exact .refused puts

theorem writeExbaseHi_effect {c : Instr} {value : Word} (puts : c.Puts 0x04#6 value) :
    Effect s c (s.writeExbaseHi value) := by
  rw [State.writeExbaseHi]
  split
  next halted => exact .exbaseHi puts halted
  next => exact .refused puts

theorem writeRegister_effect {c : Instr} {offset : BitVec 6} {value : Word} (puts : c.Puts offset value) :
    Effect s c (s.writeRegister offset value) := by
  rw [State.writeRegister]
  split
  next lo => subst lo; exact writeExbaseLo_effect puts
  split
  next hi => subst hi; exact writeExbaseHi_effect puts
  split
  next command => subst command; exact commandWrite_effect puts
  split
  next cause => subst cause; exact .clearCause puts
  split
  next mask => subst mask; exact .setMask puts
  next => exact .same c

/-- A write of the window, ignored while the reset line is held asserted (R163, R174). -/
theorem windowWrite_effect {c : Instr} {offset : BitVec 6} {lanes : BitVec 4} {value : Word}
    (write : c.windowWrite = some (offset, lanes, value)) : Effect s c (s.windowWrite offset lanes value) := by
  rw [State.windowWrite]
  split
  next => exact .same c
  next => exact writeRegister_effect ⟨lanes, value, write, rfl⟩

/-- The command answers a next state, which is one of its effects. -/
def Responds (s : State) (c : Instr) (r : Result) : Prop := ∃ t, r = .next t ∧ Effect s c t

theorem Responds.next {c : Instr} {t : State} (h : Effect s c t) : Responds s c (.next t) := ⟨t, rfl, h⟩

/-- Every command answers a next state, and its effect is one of the table above. -/
theorem exec_responds (c : Instr) (s : State) : Responds s c (exec c s) := by
  cases c with
  | fullReset => exact .next .fullReset
  | resetRelease => exact .next .resetRelease
  | start | stop | sweep | clearFault | undefinedCommand | exbaseLoWrite | exbaseHiWrite | causeWrite | maskWrite
  | otherRegisterWrite => exact .next (windowWrite_effect rfl)
  | panelClockAdvance => exact .next (.guard .clockAdvance)
  | characterReceived data parityBit stopBit =>
    exact .next (.guard fun ⟨works, receiver, line⟩ => .character data parityBit stopBit works receiver line)
  | pairReturnsToRest =>
    refine .next ?_
    split
    next => exact .same _
    next level =>
      split
      next works => exact .pairReturns works (by simpa using level)
      next idle => exact .pairLevel true (by simpa using idle)
  | pairLeavesRest =>
    refine .next ?_
    split
    next => exact .same _
    next level =>
      split
      next works => exact .pairLeaves works (by simpa using level)
      next idle => exact .pairLevel false (by simpa using idle)
  | frameSent =>
    refine .next ?_
    split
    next r place =>
      refine .guard fun ⟨works, line⟩ => ?_
      split
      next reply => exact .frameSent r place works line reply
      next reply => exact .markSent r place works line (by simpa using reply)
    next => exact .same _
  | replyWindowExpiry =>
    refine .next ?_
    split
    next =>
      refine .guard fun ⟨works, line⟩ => ?_
      split
      next => exact .windowHeld works line
      next receiver => exact .windowExpiry works line receiver
    next => exact .same _
    next => exact .same _
  | interCharacterLimitExpiry =>
    exact .next (.guard fun ⟨works, line, timer⟩ => .characterLimit works line timer)
  | discardPeriodEnd =>
    exact .next (.guard fun ⟨works, line, discard, timer⟩ => .discardEnd works line discard timer)
  | quietGapExpiry => exact .next (.guard fun ⟨works, line, timer⟩ => .gapExpiry works line timer)
  | busyLimitExpiry =>
    refine .next ?_
    split
    next r place =>
      refine .guard fun ⟨works, timer⟩ => ?_
      cases serves : r.serves with
      | none => simpa [serves] using Effect.busyMark r place works timer serves
      | some e => simpa [serves] using Effect.busyTry r place works timer (by simp [serves])
    next => exact .same _
  | clearTestExpiry => exact .next (.guard fun ⟨works, line, timer⟩ => .clearTest works line timer)
  | stopLimitExpiry => exact .next (.guard fun ⟨stopping, timer, settled⟩ => .stopLimit stopping timer settled)
  | cycleTimerExpiry =>
    refine .next ?_
    split
    next t timer => exact .guard fun works => .cycleTimer t timer works
    next => exact .same _
    next => exact .same _
  | timeMarkDue =>
    refine .next ?_
    split
    next t timer => exact .guard fun works => .markDue t timer works
    next => exact .same _
  | sweepTimerExpiry =>
    refine .next ?_
    split
    next t timer => exact .guard fun works => .sweepTimer t timer works
    next => exact .same _
  | releasedCountReadComplete data =>
    refine .next ?_
    split
    next a flight => exact .guard fun ⟨works, _⟩ => .released data a flight works
    next => exact .same _
  | livePartReadComplete data =>
    refine .next ?_
    split
    next e a flight => exact .guard fun ⟨works, _⟩ => .live e data a flight works
    next => exact .same _
  | imageFetchComplete data =>
    refine .next ?_
    split
    next e a flight =>
      refine .guard fun _ => ?_
      split
      next works => exact .fetch e data a flight works
      next =>
        refine .guard fun starting => ?_
        split
        next abandoned => exact .abandonedRead _ a rfl flight starting abandoned
        next kept => exact .startFetch e data a flight starting (by simpa using kept)
    next => exact .same _
  | startReadComplete data =>
    refine .next ?_
    split
    next i a flight =>
      refine .guard fun ⟨starting, _⟩ => ?_
      split
      next abandoned => exact .abandonedRead _ a rfl flight starting abandoned
      next kept => exact .startRead i data a flight starting (by simpa using kept)
    next => exact .same _
  | recordTaken =>
    refine .next ?_
    split
    next next left taken => exact .guard fun ready => .record next left taken ready
    next => exact .same _
  | stopDrainLimitExpiry => exact .next (.guard fun ⟨stopping, drain, timer⟩ => .drainLimit stopping drain timer)
  | statusWriteComplete | recordWriteComplete =>
    refine .next ?_
    split
    next a bytes flight => exact .guard fun transacts => .written _ a bytes rfl flight transacts
    next => exact .same _
  | markWriteComplete =>
    refine .next ?_
    split
    next covered urgent a bytes flight =>
      exact .guard fun transacts => .markWritten covered urgent a bytes flight transacts
    next => exact .same _
  | holdOffExpiry => exact .next (.guard fun ⟨works, timer⟩ => .holdOff works timer)
  | busErrorResponse => exact .next (.busFails false (.inl rfl))
  | memoryAccessTimeout => exact .next (.busFails true (.inr rfl))
  | lateErrorResponse => exact .next (.guard fun _ => .lateError)
  | lateCompletion => exact .next (.same _)
  | startBitConfirmed => exact .next (.guard fun ⟨works, line⟩ => .startBit works line)
  | receiverArmed => exact .next (.guard .arm)

/-- What a command answers is one of its effects. -/
theorem exec_effect {c : Instr} {t : State} (next : exec c s = .next t) : Effect s c t := by
  obtain ⟨t', next', effect⟩ := exec_responds c s
  cases next.symm.trans next'
  exact effect

end Sys2Proof.Machine

namespace Sys2Proof.Proofs

open Sys2Proof.Machine

/-- Settles O2: every command answers one of its effects (`exec_responds`), and no effect touches the queue. -/
theorem commandsAnswerNextAndKeepTheQueue : Obligations.CommandsAnswerNextAndKeepTheQueue := by
  intro c s
  obtain ⟨t, next, effect⟩ := exec_responds c s
  refine ⟨t, next, ?_⟩
  cases effect with
  | same | fullReset => rfl
  | _ => simp

end Sys2Proof.Proofs
end

section
/-! Commands that cannot come in a state (95; log entry 1). -/

namespace Sys2Proof.Machine

variable {s : State}

theorem next_congr {t u : State} (h : t = u) : (Host.Outcome.next t : Result) = .next u := congrArg _ h

/-- A command that acts under a condition alone changes nothing where the condition fails. -/
theorem next_of_not {p : Prop} [Decidable p] {t : State} (h : ¬p) :
    (Host.Outcome.next (if p then t else s) : Result) = .next s := next_congr (if_neg h)

/-- The read in flight is not of the kind that a completion answers. -/
theorem answers_of_flight {r : Read} {a : Nat} (flight : s.port.inFlight = some (.read r a)) (fits : Read → Bool)
    (data : List Byte) : s.answers fits data = (fits r && data.length == r.size) := by
  simp [State.answers, flight]

theorem writes_of_flight {w : WriteEntry} {a : Nat} {bytes : List Byte}
    (flight : s.port.inFlight = some (.write w a bytes)) (fits : WriteEntry → Bool) : s.writes fits = fits w := by
  simp [State.writes, flight]

/-- Each command tests its conditions before it acts, and they are those of `State.possible`. -/
theorem exec_of_impossible (c : Instr) (h : s.possible c = false) : exec c s = .next s := by
  cases c with
  | fullReset | resetRelease | start | stop | sweep | clearFault | undefinedCommand | exbaseLoWrite | exbaseHiWrite
  | causeWrite | maskWrite | otherRegisterWrite => exact absurd h Bool.true_eq_false.mp
  | lateCompletion => rfl
  | panelClockAdvance => exact next_of_not (Bool.eq_false_iff.1 h)
  | characterReceived | interCharacterLimitExpiry
  | discardPeriodEnd | quietGapExpiry | clearTestExpiry | stopLimitExpiry | stopDrainLimitExpiry | holdOffExpiry
  | lateErrorResponse => exact next_of_not (by simpa [State.possible] using h)
  | pairReturnsToRest => exact next_congr (if_pos (by simpa [State.possible] using h))
  | pairLeavesRest => exact next_congr (if_pos h)
  | startBitConfirmed =>
    refine next_congr (ite_eq_right_iff.2 fun ⟨works, line⟩ => ?_)
    have noEdge : s.line.receiver ≠ .edgeSeen := by simpa [State.possible, works, line] using h
    rw [State.onLine, Line.sampleStart, if_pos noEdge]
  | receiverArmed =>
    refine next_congr (ite_eq_right_iff.2 fun works => ?_)
    have armed : ¬(s.line.receiver = .disarmed ∧ s.line.pairAtRest = true) := by
      simpa [State.possible, works] using h
    rw [State.onLine, Line.arm, if_neg armed]
  | frameSent =>
    refine next_congr ?_
    split
    next place => exact if_neg (by simpa [State.possible, place] using h)
    next => rfl
  | replyWindowExpiry =>
    refine next_congr ?_
    split
    next window => exact if_neg (by simpa [State.possible, window] using h)
    next => rfl
    next => rfl
  | busyLimitExpiry =>
    refine next_congr ?_
    split
    next place => exact if_neg (by simpa [State.possible, place] using h)
    next => rfl
  | cycleTimerExpiry =>
    refine next_congr ?_
    split
    next timer => exact if_neg (by simpa [State.possible, timer] using h)
    next => rfl
    next => rfl
  | timeMarkDue | sweepTimerExpiry =>
    refine next_congr ?_
    split
    next timer => exact if_neg (by simpa [State.possible, timer] using h)
    next => rfl
  | releasedCountReadComplete | livePartReadComplete =>
    refine next_congr ?_
    split
    next flight => exact if_neg (by simpa [State.possible, answers_of_flight flight, Read.isLive] using h)
    next => rfl
  | imageFetchComplete data =>
    refine next_congr ?_
    split
    next e a flight =>
      simp only [State.possible, answers_of_flight flight, Read.isImage, Bool.true_and] at h
      refine ite_eq_right_iff.2 fun size => ?_
      obtain ⟨idle, notStarting⟩ : s.works = false ∧ s.run.state ≠ .starting := by simpa [size] using h
      simp [idle, notStarting]
    next => rfl
  | startReadComplete =>
    refine next_congr ?_
    split
    next flight => exact if_neg (by simpa [State.possible, answers_of_flight flight, Read.isStart] using h)
    next => rfl
  | recordTaken =>
    refine next_congr ?_
    split
    next taken => exact if_neg (by simpa [State.possible, State.recordReady, taken] using h)
    next => rfl
  | statusWriteComplete | recordWriteComplete | markWriteComplete =>
    refine next_congr ?_
    split
    next flight =>
      have still : s.run.state.transacts = false := by
        simpa [State.possible, writes_of_flight flight, WriteEntry.isStatus, WriteEntry.isRecord, WriteEntry.isMark]
          using h
      exact if_neg (by simp [still])
    next => rfl
  | busErrorResponse | memoryAccessTimeout =>
    refine next_congr (ite_eq_right_iff.2 fun transacts => fault_of_none _ ?_)
    simpa [State.possible, transacts] using h

end Sys2Proof.Machine

namespace Sys2Proof.Proofs

open Sys2Proof.Machine

/-- Settles O3: the conditions that each command tests are those of `State.possible` (`exec_of_impossible`). -/
theorem impossibleCommandsChangeNothing : Obligations.ImpossibleCommandsChangeNothing :=
  fun c _ h => exec_of_impossible c h

end Sys2Proof.Proofs
end

section
/-! Which command a write of the window is, and the causes and the panel clock through every command (07, R123; 10,
R164, R173). -/

namespace Sys2Proof

open Sys2Proof.Machine

/-- A command that writes to COMMAND is the one that its code names, or names none (R164). -/
theorem Instr.Puts.command {c : Instr} {code : Word} (wf : c.wellFormed = true) (puts : c.Puts 0x08#6 code) :
    c = .start ∧ code = 1#32 ∨ c = .stop ∧ code = 2#32 ∨ c = .sweep ∧ code = 3#32 ∨ c = .clearFault ∧ code = 4#32 ∨
      namesCommand code = false := by
  obtain ⟨lanes, bus, write, value⟩ := puts
  have all (x : Word) : laneValue 0b1111#4 x = x := by
    have mask : laneMask 0b1111#4 = BitVec.allOnes 32 := by decide
    rw [laneValue, mask, BitVec.and_allOnes]
  cases c with
  | start => cases write; exact .inl ⟨rfl, by rw [← value, all]⟩
  | stop => cases write; exact .inr (.inl ⟨rfl, by rw [← value, all]⟩)
  | sweep => cases write; exact .inr (.inr (.inl ⟨rfl, by rw [← value, all]⟩))
  | clearFault => cases write; exact .inr (.inr (.inr (.inl ⟨rfl, by rw [← value, all]⟩)))
  | undefinedCommand l v =>
    cases write
    obtain ⟨-, undefined⟩ := Bool.and_eq_true_iff.1 wf
    exact .inr (.inr (.inr (.inr (by simpa [← value, laneValue] using undefined))))
  | otherRegisterWrite o l v =>
    obtain ⟨other, -⟩ : otherOffset o = true ∧ (l != 0#4) = true := Bool.and_eq_true_iff.1 wf
    cases write
    exact absurd rfl (otherOffset_ne other (k := 0x08#6) rfl)
  | _ => cases write

theorem Instr.Puts.eq_start {c : Instr} (puts : c.Puts 0x08#6 1#32) (wf : c.wellFormed = true) : c = .start := by
  simpa [namesCommand] using puts.command wf

theorem Instr.Puts.eq_stop {c : Instr} (puts : c.Puts 0x08#6 2#32) (wf : c.wellFormed = true) : c = .stop := by
  simpa [namesCommand] using puts.command wf

theorem Instr.Puts.eq_clearFault {c : Instr} (puts : c.Puts 0x08#6 4#32) (wf : c.wellFormed = true) :
    c = .clearFault := by
  simpa [namesCommand] using puts.command wf

/-- A command that writes to CAUSE is CAUSE_WRITE (R163). -/
theorem Instr.Puts.eq_causeWrite {c : Instr} {value : Word} (puts : c.Puts 0x10#6 value) (wf : c.wellFormed = true) :
    ∃ lanes bus, c = .causeWrite lanes bus := by
  obtain ⟨lanes, bus, write, -⟩ := puts
  cases c with
  | causeWrite l v => exact ⟨l, v, rfl⟩
  | otherRegisterWrite o l v =>
    obtain ⟨other, -⟩ : otherOffset o = true ∧ (l != 0#4) = true := Bool.and_eq_true_iff.1 wf
    cases write
    exact absurd rfl (otherOffset_ne other (k := 0x10#6) rfl)
  | _ => cases write

end Sys2Proof

namespace Sys2Proof.Machine

/-! ### Causes, once set, stay -/

/-- Every cause set in the one state is set in the other. -/
def State.CausesStay (s t : State) : Prop := CauseKept s.irq.cause t.irq.cause

variable {s t u : State}

theorem State.CausesStay.trans (first : s.CausesStay t) (second : t.CausesStay u) : s.CausesStay u :=
  CauseKept.trans first second

theorem causesStay_of_cause (h : t.irq.cause = s.irq.cause) : s.CausesStay t := by
  rw [State.CausesStay, h]
  exact .refl _

theorem causesStay_of_irq (h : t.irq = s.irq) : s.CausesStay t := causesStay_of_cause (congrArg _ h)

/-- What leaves CAUSE alone may follow. -/
theorem State.CausesStay.then_irq (first : s.CausesStay t) (h : u.irq = t.irq) : s.CausesStay u :=
  first.trans (causesStay_of_irq h)

theorem causesStay_of_or {bits : BitVec 5} (h : t.irq.cause = s.irq.cause ||| bits) : s.CausesStay t := by
  rw [State.CausesStay, h]
  exact .or _ _

theorem causesStay_setCause (c : Cause) : s.CausesStay (s.setCause c) := causesStay_of_or rfl

theorem causesStay_reportHostValue (field : Byte) (e : Option Entry) : s.CausesStay (s.reportHostValue field e) :=
  causesStay_of_or (bits := Cause.hostval.bit) (by simp [State.reportHostValue])

theorem causesStay_judgeReleased (v : Word) : s.CausesStay (s.judgeReleased v) := by
  rw [State.judgeReleased]
  split
  · exact causesStay_of_irq rfl
  split
  · exact causesStay_of_irq rfl
  · exact causesStay_reportHostValue _ _

theorem causesStay_reportSounder (e : Entry) (v : Half) : s.CausesStay (s.reportSounder e v) := by
  rw [State.reportSounder]
  split
  · exact causesStay_of_irq rfl
  · exact causesStay_reportHostValue _ _

theorem causesStay_reportResync (e : Entry) (v : Half) : s.CausesStay (s.reportResync e v) := by
  rw [State.reportResync]
  split
  · exact causesStay_of_irq rfl
  · exact causesStay_reportHostValue _ _

theorem causesStay_handOverSounder (e : Entry) (count : Half) (pattern : Byte) :
    s.CausesStay (s.handOverSounder e count pattern) := by
  simp only [State.handOverSounder]
  split
  · refine .trans ?_ (causesStay_reportHostValue _ _)
    exact causesStay_of_irq (by simp)
  · exact causesStay_of_irq (by simp)
  · exact causesStay_of_irq (by simp)

theorem causesStay_takeSounder (e : Entry) (count : Half) (pattern : Byte) :
    s.CausesStay (s.takeSounder e count pattern) := by
  simp only [State.takeSounder]
  split
  · exact causesStay_of_irq rfl
  · exact causesStay_handOverSounder _ _ _
  · exact causesStay_reportSounder _ _
  · exact causesStay_reportSounder _ _

theorem causesStay_takeResync (e : Entry) (count : Half) : s.CausesStay (s.takeResync e count) := by
  simp only [State.takeResync]
  split
  · exact causesStay_of_irq rfl
  · exact causesStay_of_irq (by simp)
  · exact causesStay_reportResync _ _
  · exact causesStay_reportResync _ _

theorem causesStay_takeLivePart (e : Entry) (live : LivePart) : s.CausesStay (s.takeLivePart e live) :=
  .trans (causesStay_of_irq (by simp)) (.trans (causesStay_takeSounder _ _ _) (causesStay_takeResync _ _))

theorem causesStay_takeLive (e : Entry) (data : List Byte) : s.CausesStay (s.takeLive e data) := by
  rw [State.takeLive]
  split
  · exact (causesStay_takeLivePart e (readLivePart data)).then_irq (by simp)
  split
  · exact causesStay_of_irq rfl
  · exact causesStay_of_irq (by simp)

theorem causesStay_takeReleased (v : Word) : s.CausesStay (s.takeReleased v) := by
  rw [State.takeReleased]
  split
  · exact causesStay_of_irq rfl
  · exact (causesStay_judgeReleased v).then_irq (by simp)

theorem causesStay_signalJournal : s.CausesStay s.signalJournal := causesStay_of_or (bits := Cause.journal.bit) rfl

theorem causesStay_coalesce (before : Half) (urgent : Bool) : s.CausesStay (s.coalesce before urgent) := by
  obtain ⟨-, ⟨-, same⟩ | ⟨-, signalled⟩⟩ := coalesce_parts s before urgent
  · exact causesStay_of_cause same
  · exact causesStay_of_or signalled

theorem causesStay_announce (covered : Word) (urgent : Bool) : s.CausesStay (s.announce covered urgent) := by
  simp only [State.announce]
  split
  · exact causesStay_of_irq rfl
  · refine .trans ?_ (causesStay_coalesce _ _)
    exact causesStay_of_irq rfl

theorem causesStay_haltFromStarting (reason : Reason) (detail : Byte) :
    s.CausesStay (s.haltFromStarting reason detail) := causesStay_of_or (bits := Cause.state.bit) rfl

theorem causesStay_haltFromStopping : s.CausesStay s.haltFromStopping := by
  obtain ⟨-, -, -, cause, -, -⟩ := haltFromStopping_parts s
  rw [BitVec.or_assoc] at cause
  exact causesStay_of_or cause

theorem causesStay_haltIfQuiet : s.CausesStay s.haltIfQuiet := by
  rw [State.haltIfQuiet]
  split
  · exact causesStay_haltFromStopping
  split
  · exact causesStay_haltFromStarting _ _
  · exact causesStay_of_irq rfl

/-- The entry to HALTED may follow. -/
theorem State.CausesStay.halt (first : s.CausesStay t) : s.CausesStay t.haltIfQuiet :=
  first.trans causesStay_haltIfQuiet

theorem causesStay_halt (h : t.irq = s.irq) : s.CausesStay t.haltIfQuiet := (causesStay_of_irq h).halt

theorem causesStay_afterEnding (request : Option SendRequest) (ending : Option Ending) :
    s.CausesStay (s.afterEnding request ending) := by
  cases ending with
  | none => exact causesStay_of_irq rfl
  | some how => exact causesStay_halt (by simp)

@[simp] theorem enterRunning_irq (s : State) : s.enterRunning.irq = s.irq.set .state := by
  simp [State.enterRunning]

theorem causesStay_initialise : s.CausesStay s.initialise :=
  causesStay_of_or (bits := Cause.state.bit) (by simp [State.initialise, State.takeStartValues])

theorem causesStay_checkStart : s.CausesStay s.checkStart := by
  rw [State.checkStart]
  split
  next reason detail _ => exact causesStay_haltFromStarting reason detail
  split
  · exact causesStay_initialise
  · exact causesStay_of_irq (by simp)

theorem causesStay_takeStartRead (i : Nat) (block : List Byte) : s.CausesStay (s.takeStartRead i block) := by
  simp only [State.takeStartRead]
  split
  · refine .trans ?_ causesStay_checkStart
    exact causesStay_of_irq rfl
  · exact causesStay_of_irq (by simp)

theorem causesStay_takeStartFetch (e : Entry) (block : List Byte) : s.CausesStay (s.takeStartFetch e block) := by
  simp only [State.takeStartFetch]
  split
  · refine .trans ?_ causesStay_initialise
    exact causesStay_of_irq rfl
  · exact causesStay_of_irq (by simp)

theorem causesStay_abandonStart : s.CausesStay s.abandonStart := causesStay_halt (by simp)

theorem enterStopping_swept_irq : s.CausesStay s.enterStopping := by
  refine causesStay_halt ?_
  split <;> simp

theorem causesStay_fault (late : Bool) : s.CausesStay (s.fault late) := by
  rw [State.fault]
  split
  · exact causesStay_of_irq rfl
  · refine .trans (causesStay_of_cause ?_) (.trans (causesStay_setCause .fault) (causesStay_setCause .state))
    simp

/-- No effect clears a cause but a full reset and a write to CAUSE. -/
theorem Effect.causesStay {c : Instr} (effect : Effect s c t) (noReset : c ≠ .fullReset)
    (noWrite : ∀ value, ¬c.Puts 0x10#6 value) : s.CausesStay t := by
  cases effect with
  | fullReset => exact absurd rfl noReset
  | clearCause puts => exact absurd puts (noWrite _)
  | refused | clearFault => exact causesStay_of_or rfl
  | stopStart => exact causesStay_abandonStart
  | stop => exact enterStopping_swept_irq
  | character =>
    refine .trans ?_ (causesStay_afterEnding _ _)
    exact causesStay_of_irq (by simp)
  | windowExpiry | characterLimit =>
    refine .trans ?_ (causesStay_afterEnding _ _)
    exact causesStay_of_irq rfl
  | markSent | discardEnd | gapExpiry | busyMark | busyTry | clearTest | stopLimit | drainLimit | record | fetch
  | abandonedRead | written => exact causesStay_halt (by simp)
  | holdOff => exact causesStay_signalJournal
  | released data => exact ((causesStay_takeReleased (wordAt data 0)).then_irq (by simp)).halt
  | live e data => exact ((causesStay_takeLive e data).then_irq (by simp)).halt
  | startFetch => exact causesStay_takeStartFetch _ _
  | startRead => exact causesStay_takeStartRead _ _
  | markWritten covered urgent a bytes =>
    have ended : s.CausesStay (s.endWrite a bytes) := causesStay_of_irq (by simp)
    exact ((ended.trans (causesStay_announce covered urgent)).then_irq (by simp)).halt
  | fault => exact causesStay_fault _
  | setMask => exact causesStay_of_cause rfl
  | _ => exact causesStay_of_irq (by simp)

/-! ### The panel clock -/

/-- In RUNNING and STOPPING no effect but an advance and a full reset changes the panel clock. -/
theorem Effect.clock {c : Instr} (effect : Effect s c t) (works : s.run.state = .running ∨ s.run.state = .stopping)
    (noAdvance : c ≠ .panelClockAdvance) (noReset : c ≠ .fullReset) : t.run.clock = s.run.clock := by
  have notStarting : s.run.state ≠ .starting := by rcases works with h | h <;> simp [h]
  cases effect with
  | fullReset => exact absurd rfl noReset
  | clockAdvance => exact absurd rfl noAdvance
  | stopStart _ starting | startFetch _ _ _ _ starting | startRead _ _ _ _ starting
  | abandonedRead _ _ _ _ starting => exact absurd starting notStarting
  | stop =>
    refine (haltIfQuiet_clock _).trans ?_
    split <;> simp
  | character =>
    simp only [State.receive, State.afterEnding]
    split <;> simp [haltIfQuiet_clock]
  | fault => exact fault_clock _ _
  | _ => simp [haltIfQuiet_clock, State.afterEnding]

end Sys2Proof.Machine

namespace Sys2Proof.Proofs

open Sys2Proof.Machine

/-- Settles O8: a write to CAUSE is its one record update, and through every other effect but full reset the causes
stay (`Effect.causesStay`). -/
theorem causeBitsStayUntilCleared : Obligations.CauseBitsStayUntilCleared := by
  refine ⟨fun s lanes value released => ⟨s.irq.cause &&& ~~~((laneValue lanes value).setWidth 5), ?_, ?_⟩,
    fun c s t wf noReset noWrite next i hi set => ?_⟩
  · exact congrArg Host.Outcome.next (windowWrite_of_released released _ _ _)
  · intro i hi
    simp [hi]
  · have stay : s.CausesStay t := (exec_effect next).causesStay noReset fun value puts => by
      obtain ⟨lanes, bus, rfl⟩ := puts.eq_causeWrite wf
      exact noWrite lanes bus rfl
    rw [State.CausesStay, CauseKept] at stay
    have both := congrArg (·.getLsbD i) stay
    simpa [set] using both

/-- Settles O10: an advance is one record update at work and none elsewhere, and through every other effect but full
reset the clock stands (`Effect.clock`). -/
theorem panelClockCountsWhileRunning : Obligations.PanelClockCountsWhileRunning := by
  refine ⟨fun s works => ?_, fun s notRunning notStopping => ?_, fun c s t works noAdvance noReset next =>
    (exec_effect next).clock works noAdvance noReset⟩
  · have atWork : s.run.state.works = true := by rcases works with h | h <;> simp [h, RunState.works]
    refine next_congr ((if_pos atWork).trans ?_)
    rw [State.onLine, passMillisecond_eq]
    rfl
  · exact next_of_not (by simp [RunState.works, notRunning, notStopping])

end Sys2Proof.Proofs
end

section
/-! The induction of every invariant of the staging queue and the Memory Port, packaged once: what survives the few
operations that change them survives every command. -/

namespace Sys2Proof.Machine

/-- What depends on the Memory Port, the staging queue, the written count and the drain alone, and survives a
submission, a STATUS request and a request for reads. -/
structure Upkeep (P : State → Prop) : Prop where
  same : ∀ {s t : State}, P s → t.port = s.port → t.journal.staging = s.journal.staging →
    t.journal.written = s.journal.written → t.journal.drain = s.journal.drain → P t
  submit : ∀ (s : State) (e : Event), P s → P (s.submit e)
  status : ∀ (s : State) (e : Entry), P s → P (s.requestStatus e)
  reads : ∀ (s : State) (rs : List Read), P s → P (s.requestReads rs)

namespace Upkeep

variable {P : State → Prop} (up : Upkeep P) {s t : State}

include up

theorem units (h : P s) (port : t.port = s.port) (journal : t.journal = s.journal) : P t :=
  up.same h port (by rw [journal]) (by rw [journal]) (by rw [journal])

/-! ### The scheduler -/

theorem submitBodies (e : Entry) (bodies : List EventBody) (h : P s) : P (s.submitBodies e bodies) :=
  submitBodies_preserves s up.submit e bodies h

theorem report (e : Entry) (bodies : List EventBody) (h : P s) : P (s.report e bodies) :=
  report_preserves s (fun _ _ port journal _ h => up.units h port journal) up.submit up.status e bodies h

theorem walkOver (es : List Entry) (h : P s) : P (s.walkOver es) :=
  walkOver_preserves (fun _ _ port journal _ h => up.units h port journal) up.submit up.status es s h

theorem schedule (h : P s) : P s.schedule :=
  schedule_preserves s (fun _ _ port journal _ h => up.units h port journal) up.submit up.status h

theorem deliver (o : TryOutcome) (h : P s) : P (s.deliver o) :=
  deliver_preserves s (fun _ _ port journal _ h => up.units h port journal) up.submit up.status o h

theorem exchangeEnded (request : Option SendRequest) (how : Ending) (h : P s) : P (s.exchangeEnded request how) :=
  exchangeEnded_preserves s (fun _ _ port journal _ h => up.units h port journal) up.submit up.status request how h

theorem enterRunning (h : P s) : P s.enterRunning := by
  have running : P ((s.runChange .running .none 0#8).setCause .state) := up.units h rfl rfl
  exact up.walkOver _ (up.units (up.submit _ _ running) rfl rfl)

theorem submitDisturbed (e : Option Entry) (h : P s) : P (s.submitDisturbed e) := up.submit s _ h

theorem endCycle (h : P s) : P s.endCycleInStopping := by
  rw [State.endCycleInStopping]
  split
  · exact up.units h rfl rfl
  · exact h

/-! ### Sweeps -/

theorem beginSweep (h : P s) : P s.beginSweep := up.reads _ _ (up.units h rfl rfl)

theorem requestSweep (h : P s) : P s.requestSweep := by
  rw [State.requestSweep]
  split
  · exact up.units h rfl rfl
  · exact up.beginSweep h

theorem statusPassOver (es : List Entry) : ∀ {s : State}, P s → P (s.statusPassOver es) := by
  induction es with
  | nil => exact id
  | cons e rest ih =>
    intro s h
    rw [State.statusPassOver]
    refine ih ?_
    split
    · exact up.status s e h
    · exact h

theorem endSweep (h : P s) : P s.endSweep := by
  have passed : P s.statusPass := up.statusPassOver s.takingPart h
  simp only [State.endSweep]
  split
  · exact up.beginSweep (up.units passed rfl rfl)
  · exact up.units passed rfl rfl

theorem endSweepIfDone (h : P s) : P s.endSweepIfDone := by
  rw [State.endSweepIfDone]
  split
  · exact up.endSweep h
  · exact h

/-! ### What the sweeps read -/

theorem reportHostValue (field : Byte) (e : Option Entry) (h : P s) : P (s.reportHostValue field e) :=
  up.units (up.submit s _ h) rfl rfl

theorem judgeReleased (v : Word) (h : P s) : P (s.judgeReleased v) := by
  rw [State.judgeReleased]
  split
  · exact up.same h rfl rfl rfl rfl
  split
  · exact h
  · exact up.units (up.reportHostValue _ _ h) rfl rfl

theorem takeReleased (v : Word) (h : P s) : P (s.takeReleased v) := by
  rw [State.takeReleased]
  split
  · exact h
  · exact up.endSweepIfDone (up.judgeReleased v h)

theorem takeEnable (e : Entry) (enable : Byte) (h : P s) : P (s.takeEnable e enable) := by
  rw [State.takeEnable]
  split
  · split
    · exact h
    · exact up.status _ _ (up.units h rfl rfl)
  split
  · exact up.units h rfl rfl
  split
  · exact up.units h rfl rfl
  · exact up.report e _ (up.units h rfl rfl)

theorem takeRevision (e : Entry) (live : Half) (h : P s) : P (s.takeRevision e live) := by
  rw [State.takeRevision]
  split
  · exact up.reads _ _ (up.units h rfl rfl)
  · exact h

theorem handOverSounder (e : Entry) (count : Half) (pattern : Byte) (h : P s) :
    P (s.handOverSounder e count pattern) := by
  simp only [State.handOverSounder]
  split
  · exact up.reportHostValue _ _ (up.submitBodies e _ (up.status _ e (up.units h rfl rfl)))
  · exact up.submitBodies e _ (up.status _ e (up.units h rfl rfl))
  · exact up.units h rfl rfl

theorem reportSounder (e : Entry) (v : Half) (h : P s) : P (s.reportSounder e v) := by
  rw [State.reportSounder]
  split
  · exact h
  · exact up.units (up.reportHostValue _ _ h) rfl rfl

theorem reportResync (e : Entry) (v : Half) (h : P s) : P (s.reportResync e v) := by
  rw [State.reportResync]
  split
  · exact h
  · exact up.units (up.reportHostValue _ _ h) rfl rfl

theorem takeSounder (e : Entry) (count : Half) (pattern : Byte) (h : P s) : P (s.takeSounder e count pattern) := by
  simp only [State.takeSounder]
  split
  · exact h
  · exact up.handOverSounder e count pattern h
  · exact up.reportSounder e count h
  · exact up.reportSounder e count h

theorem takeResync (e : Entry) (count : Half) (h : P s) : P (s.takeResync e count) := by
  simp only [State.takeResync]
  split
  · exact h
  · exact up.units h rfl rfl
  · exact up.reportResync e count h
  · exact up.reportResync e count h

theorem takeLivePart (e : Entry) (live : LivePart) (h : P s) : P (s.takeLivePart e live) :=
  up.takeResync e _ (up.takeSounder e _ _ (up.takeRevision e _ (up.takeEnable e _ h)))

theorem takeLive (e : Entry) (data : List Byte) (h : P s) : P (s.takeLive e data) := by
  rw [State.takeLive]
  split
  · exact up.endSweepIfDone (up.takeLivePart e _ h)
  split
  · exact h
  · exact up.endSweepIfDone h

theorem takeFetch (e : Entry) (block : List Byte) (h : P s) : P (s.takeFetch e block) :=
  up.units h (by simp) (by simp)

/-! ### Announcements -/

theorem signalJournal (h : P s) : P s.signalJournal := up.same h rfl rfl rfl rfl

theorem announce (covered : Word) (urgent : Bool) (h : P s) : P (s.announce covered urgent) := by
  obtain ⟨-, drain, staging, written⟩ := announce_parts s covered urgent
  exact up.same h (by simp) staging written drain

end Upkeep

theorem startTransaction_of_flight {s : State} {x : Transaction} (flight : s.port.inFlight = some x) :
    s.startTransaction = s := by
  simp [State.startTransaction, flight]

/-- The transaction in flight stays in flight until it ends (R151). -/
theorem flightUpkeep (x : Transaction) : Upkeep fun s => s.port.inFlight = some x where
  same h port _ _ _ := by rw [port]; exact h
  submit s e h := by simpa using h
  status s e h := by
    have kept : ((s.onPort (·.requestStatus e)).onLink e fun l => { l with countersChanged := false }).port.inFlight
        = some x := by
      simp only [onLink_port, onPort_port, Port.requestStatus]
      (repeat' split) <;> exact h
    rw [State.requestStatus, startTransaction_of_flight kept]
    exact kept
  reads s rs h := by
    have kept : (s.onPort (·.requestReads rs)).port.inFlight = some x := h
    rw [State.requestReads, startTransaction_of_flight kept]
    exact kept

/-- What depends on the Memory Port, the written count and the length of the staging queue alone, and survives every
operation that changes them. -/
structure FullUpkeep (P : State → Prop) : Prop extends Upkeep P where
  shorter : ∀ {s t : State}, P s → t.port = s.port → t.journal.staging.length ≤ s.journal.staging.length →
    t.journal.written = s.journal.written → P t
  mark : ∀ (s : State) (urgent : Bool), P s → P (s.requestMark s.journal.written urgent)
  readList : ∀ (s : State) (rs : List Read), P s → P (s.onPort fun p => { p with reads := rs })
  idle : ∀ (s : State) (r : Read) (a : Nat), s.port.inFlight = some (.read r a) → P s →
    P (s.onPort fun p => { p with inFlight := none })
  transaction : ∀ s : State, P s → P s.startTransaction
  writeEnds : ∀ (s : State) (w : WriteEntry) (a : Nat) (bytes : List Byte),
    s.port.inFlight = some (.write w a bytes) → P s → P (s.endWrite a bytes)
  record : ∀ (s : State) (next : NextRecord) (left : Journal), s.journal.takeNext = some (next, left) →
    s.canTakeRecord = true → P s → P (s.formRecord next left)
  emptied : ∀ {s t : State}, P s → t.port.inFlight = none → t.port.writes = [] → t.port.heldMark = none →
    t.port.owed = Vector.replicate 16 false → t.journal.staging.length ≤ s.journal.staging.length → P t

namespace FullUpkeep

variable {P : State → Prop} (up : FullUpkeep P) {s t : State}

include up

theorem endRead {r : Read} {a : Nat} (flight : s.port.inFlight = some (.read r a)) (h : P s) : P s.endRead :=
  up.transaction _ (up.idle s r a flight h)

/-! ### The drain and the run changes -/

theorem discardFetches (rs : List Read) (h : P s) : P (s.discardFetches rs) := up.units h (by simp) (by simp)

theorem endDrain (h : P s) : P s.endDrain := by
  have ended : P (s.onJournal fun j => { j with drain := .ended, drainTimer := none }) :=
    up.shorter h rfl (Nat.le_refl _) rfl
  have marked := up.mark _ false ended
  exact up.readList _ [] (up.discardFetches _ (up.statusPassOver _ (up.units marked rfl rfl)))

theorem expireDrain (h : P s) : P s.expireDrain := up.endDrain (up.shorter h rfl (Nat.zero_le _) rfl)

theorem beginDrain (h : P s) : P s.beginDrain := by
  have begun : P ((s.submit (s.event none (.runStop s.sched.cycleNumber))).onJournal fun j =>
      { j with drain := .running, drainTimer := some (s.timer (.ms s.cfg.stopDrainLimit)) }) :=
    up.shorter (up.submit s _ h) rfl (Nat.le_refl _) rfl
  simp only [State.beginDrain]
  split
  · exact up.expireDrain begun
  · exact begun

theorem settle (h : P s) : P s.settle := by
  rw [State.settle]
  split
  · split
    · exact up.beginDrain (up.units h rfl rfl)
    split
    · exact up.units h rfl rfl
    · exact h
  · exact h

theorem proceed (h : P s) : P s.proceed := up.settle (up.endCycle (up.schedule h))

theorem halt (h : P s) : P s.haltIfQuiet := by
  rw [State.haltIfQuiet]
  split
  · obtain ⟨-, -, -, -, journal, -⟩ := haltFromStopping_parts s
    exact up.shorter h (by simp) (Nat.le_of_eq (by rw [journal])) (by rw [journal])
  split
  · exact up.units h rfl rfl
  · exact h

theorem afterEnding (request : Option SendRequest) (ending : Option Ending) (h : P s) :
    P (s.afterEnding request ending) := by
  cases ending with
  | none => exact h
  | some how => exact up.halt (up.proceed (up.exchangeEnded request how h))

theorem completeDrain (h : P s) : P s.completeDrain := by
  rw [State.completeDrain]
  split
  · exact up.endDrain h
  · exact h

theorem enterStopping (h : P s) : P s.enterStopping := by
  have changed : P (((s.runChange .stopping .none 0#8).onSched fun c => { c with markDue := false }).markFetches) :=
    up.units h rfl rfl
  refine up.halt (up.proceed ?_)
  split
  · exact up.readList _ _ changed
  · exact up.endSweepIfDone (up.readList _ _ changed)

theorem fault (late : Bool) (h : P s) : P (s.fault late) := by
  cases flight : s.port.inFlight with
  | none => rwa [fault_of_none late flight]
  | some failed =>
    have port : (s.fault late).port = s.port.faulted failed late := by simp [State.fault, flight]
    exact up.emptied h (by rw [port]; rfl) (by rw [port]; rfl) (by rw [port]; rfl) (by rw [port]; rfl) (by simp)

/-! ### The start -/

theorem acceptStart (h : P s) : P s.acceptStart :=
  up.reads _ _ (up.emptied h rfl rfl rfl rfl (Nat.le_refl _))

theorem requestStatuses (es : List Entry) : ∀ {s : State}, P s → P (s.requestStatuses es) := by
  induction es with
  | nil => exact id
  | cons e rest ih => exact fun h => ih (up.status _ e h)

theorem initialise (h : P s) : P s.initialise := by
  have values : P s.takeStartValues := up.emptied h rfl rfl rfl rfl (Nat.zero_le _)
  have statuses := up.requestStatuses s.takeStartValues.takingPart values
  refine up.enterRunning ?_
  have written : (s.takeStartValues.requestStatuses s.takeStartValues.takingPart).journal.written = 0#32 := by
    simp [State.takeStartValues, Journal.reset]
  have marked := up.mark _ false statuses
  rwa [written] at marked

theorem checkStart {r : Read} {a : Nat} (flight : s.port.inFlight = some (.read r a)) (h : P s) : P s.checkStart := by
  rw [State.checkStart]
  split
  · exact up.units (up.idle s r a flight h) rfl rfl
  split
  · exact up.initialise h
  · exact up.endRead ((flightUpkeep _).reads s _ flight) (up.reads _ _ h)

theorem takeStartRead {r : Read} {a : Nat} (flight : s.port.inFlight = some (.read r a)) (i : Nat)
    (block : List Byte) (h : P s) : P (s.takeStartRead i block) := by
  simp only [State.takeStartRead]
  split
  · exact up.checkStart flight (up.units h rfl rfl)
  · exact up.endRead flight (up.units h rfl rfl)

theorem takeStartFetch {r : Read} {a : Nat} (flight : s.port.inFlight = some (.read r a)) (e : Entry)
    (block : List Byte) (h : P s) : P (s.takeStartFetch e block) := by
  simp only [State.takeStartFetch]
  split
  · exact up.initialise (up.units h rfl rfl)
  · exact up.endRead flight (up.units h rfl rfl)

/-- What survives those operations survives every command but STOP in STARTING. -/
theorem effect {c : Instr} (h : P s) (effect : Effect s c t) (abandon : s.run.state = .starting → P s.abandonStart)
    (reset : P s.fullReset) : P t := by
  cases effect with
  | same => exact h
  | fullReset => exact reset
  | start => exact up.acceptStart h
  | stopStart _ starting => exact abandon starting
  | stop => exact up.enterStopping h
  | sweep => exact up.requestSweep h
  | character =>
    refine up.afterEnding _ _ (up.units h ?_ ?_)
    all_goals simp
  | markSent => exact up.halt (up.proceed (up.units h rfl rfl))
  | windowExpiry | characterLimit => exact up.afterEnding _ _ (up.units h rfl rfl)
  | discardEnd | gapExpiry => exact up.halt (up.settle (up.units h rfl rfl))
  | busyMark => exact up.halt (up.proceed (up.submitDisturbed _ (up.units h rfl rfl)))
  | busyTry => exact up.halt (up.proceed (up.submitDisturbed _ (up.deliver _ (up.units h rfl rfl))))
  | clearTest => exact up.halt (up.settle (up.submit _ _ (up.units h rfl rfl)))
  | stopLimit => exact up.halt (up.settle (up.submitDisturbed _ (up.units h rfl rfl)))
  | cycleTimer | markDue => exact up.schedule (up.units h rfl rfl)
  | sweepTimer => exact up.requestSweep (up.units h rfl rfl)
  | drainLimit => exact up.halt (up.expireDrain h)
  | holdOff => exact up.signalJournal h
  | record next left taken ready => exact up.halt (up.completeDrain (up.record s next left taken ready h))
  | released data a flight => exact up.halt (up.endRead ((flightUpkeep _).takeReleased _ flight) (up.takeReleased _ h))
  | live e data a flight => exact up.halt (up.endRead ((flightUpkeep _).takeLive e data flight) (up.takeLive _ _ h))
  | fetch e data a flight =>
    exact up.halt (up.endRead ((flightUpkeep _).takeFetch e data flight) (up.takeFetch _ _ h))
  | startFetch e data a flight => exact up.takeStartFetch flight e data h
  | startRead i data a flight => exact up.takeStartRead flight i data h
  | abandonedRead r a _ flight => exact up.halt (up.endRead flight h)
  | written w a bytes _ flight => exact up.halt (up.transaction _ (up.writeEnds s w a bytes flight h))
  | markWritten covered urgent a bytes flight =>
    exact up.halt (up.transaction _ (up.announce _ _ (up.writeEnds s _ a bytes flight h)))
  | fault => exact up.fault _ h
  | refused | clearFault | resetRelease | exbaseLo | exbaseHi | clearCause | setMask | clockAdvance | pairReturns
  | pairLeaves | pairLevel | startBit | arm | frameSent | windowHeld | lateError => exact up.units h rfl rfl

end FullUpkeep

end Sys2Proof.Machine
end

section
/-! What the scheduler and the settling do to the line, packaged once; and the sizes of the queues (01, R4; 06, R104;
09, R153), the base (10, R165) and the canonical form of memory, through every command. -/

namespace Sys2Proof.Machine

/-! ### What survives the requests and the settling holds of the line after a result -/

/-- What is asked of the line alone, and survives a request, the report of settling and the stop limit. -/
structure LineUpkeep (P : Line → Prop) : Prop where
  request : ∀ (l : Line) (now : Word) (r : SendRequest), P l → P (l.takeRequest now r)
  settled : ∀ (l : Line) (settled : Bool) (limit : Option Timer),
    P l → P { l with settled := settled, stopLimit := limit }

namespace LineUpkeep

variable {P : Line → Prop} (up : LineUpkeep P) {s : State}

include up

theorem schedule (h : P s.line) : P s.schedule.line := schedule_line s (fun l now r _ => up.request l now r) h

theorem deliver (o : TryOutcome) (h : P s.line) : P (s.deliver o).line := by
  simp only [State.deliver]
  split
  · exact h
  split
  · simpa using h
  split
  · exact up.request _ _ _ (by simpa using h)
  · simpa using h

theorem exchangeEnded (request : Option SendRequest) (how : Ending) (h : P s.line) :
    P (s.exchangeEnded request how).line := by
  simp only [State.exchangeEnded]
  split
  · exact up.deliver _ h
  · exact h

theorem settle (h : P s.line) : P s.settle.line := by
  rw [State.settle]
  split
  · split
    · simpa using up.settled _ true none h
    split
    · exact up.settled s.line _ _ h
    · exact h
  · exact h

theorem proceed (h : P s.line) : P s.proceed.line := up.settle (by simpa using up.schedule h)

omit up in
/-- The line at HALTED is switched off, or the line that was found. -/
theorem halt (off : ∀ l, P l → P l.switchOff) (h : P s.line) : P s.haltIfQuiet.line := by
  rw [State.haltIfQuiet]
  split
  · obtain ⟨-, -, -, -, -, line⟩ := haltFromStopping_parts s
    rw [line]
    exact off _ h
  split
  · exact h
  · exact h

theorem afterEnding (off : ∀ l, P l → P l.switchOff) (request : Option SendRequest) (ending : Option Ending)
    (h : P s.line) : P (s.afterEnding request ending).line := by
  cases ending with
  | none => exact h
  | some how => exact LineUpkeep.halt off (up.proceed (up.exchangeEnded request how h))

theorem enterRunning (on : ∀ l, P l → P l.switchOn) (h : P s.line) : P s.enterRunning.line :=
  walkOver_line (P := P) (fun l now r _ => up.request l now r) _ _ (by simpa using on _ h)

theorem initialise (started : P s.line.started) (on : ∀ l, P l → P l.switchOn) : P s.initialise.line :=
  up.enterRunning on (by simpa [State.takeStartValues] using started)

theorem checkStart (started : P s.line.started) (on : ∀ l, P l → P l.switchOn) (h : P s.line) :
    P s.checkStart.line := by
  rw [State.checkStart]
  split
  · exact h
  split
  · exact up.initialise started on
  · simpa using h

theorem takeStartRead (started : P s.line.started) (on : ∀ l, P l → P l.switchOn) (i : Nat) (block : List Byte)
    (h : P s.line) : P (s.takeStartRead i block).line := by
  simp only [State.takeStartRead]
  split
  · exact up.checkStart started on h
  · simpa using h

theorem takeStartFetch (started : P s.line.started) (on : ∀ l, P l → P l.switchOn) (e : Entry) (block : List Byte)
    (h : P s.line) : P (s.takeStartFetch e block).line := by
  simp only [State.takeStartFetch]
  split
  · exact up.initialise started on
  · simpa using h

end LineUpkeep

/-- A fault releases the line. -/
theorem fault_line {s : State} (late : Bool) {failed : Transaction} (flight : s.port.inFlight = some failed) :
    (s.fault late).line = s.line.released := by
  simp [State.fault, flight]

/-! ### The receive holding stage -/

/-- The receive holding stage is within its size (R4). -/
def Line.HoldsFew (l : Line) : Prop := l.holding.length ≤ Config.holdingMax

@[simp] theorem examine_holding (l : Line) : l.examine.holding = l.holding := by
  rw [Line.examine]
  split <;> rfl

@[simp] theorem takeRequest_holding (l : Line) (now : Word) (r : SendRequest) :
    (l.takeRequest now r).holding = l.holding := by
  simp only [Line.takeRequest]
  split <;> rfl

@[simp] theorem measureRest_holding (l : Line) (now : Word) : (l.measureRest now).holding = l.holding := by
  rw [Line.measureRest]
  split
  · rfl
  · split <;> rfl
  all_goals rfl

@[simp] theorem enterIdle_holding (l : Line) : l.enterIdle.holding = l.holding := examine_holding _

@[simp] theorem noReply_holding (l : Line) (passed : Bool) : (l.noReply passed).holding = l.holding := by
  rw [Line.noReply]
  split
  · exact enterIdle_holding _
  · rfl

@[simp] theorem sampleStart_holding (l : Line) : l.sampleStart.holding = l.holding := by
  rw [Line.sampleStart]
  split
  · rfl
  split <;> rfl

@[simp] theorem arm_holding (l : Line) : l.arm.holding = l.holding := by
  rw [Line.arm]
  split <;> rfl

@[simp] theorem frameSent_holding (l : Line) (now : Word) (window : Nat) (r : SendRequest) :
    (l.frameSent now window r).holding = l.holding := by
  rw [Line.frameSent]
  split <;> rfl

@[simp] theorem passMillisecond_holding (l : Line) : l.passMillisecond.holding = l.holding := by
  rw [passMillisecond_eq]

/-- A character of the discard period joins a stage that has a free place, and is counted as stray otherwise. -/
theorem hold_holdsFew (l : Line) (now : Word) (c : RxChar) (h : l.HoldsFew) : (l.hold now c).HoldsFew := by
  simp only [Line.hold, Line.HoldsFew, measureRest_holding]
  split
  next free =>
    rw [List.length_append]
    exact free
  next => exact h

theorem takeCharacter_holdsFew (l : Line) (now : Word) (passed : Bool) (c : RxChar) (h : l.HoldsFew) :
    (l.takeCharacter now passed c).1.HoldsFew := by
  have awaited (data : Byte) : (l.awaited now passed data).1.holding = l.holding := by
    rw [Line.awaited]
    split
    · rfl
    split
    · exact noReply_holding _ _
    · rfl
  have assembled (data : Byte) : (l.assemble now data).1.holding = l.holding := by
    simp only [Line.assemble]
    split
    · rfl
    split <;> rfl
  simp only [Line.takeCharacter]
  split
  · exact h
  · exact h
  · exact h
  · simpa [Line.HoldsFew, Line.countStray] using h
  · split
    · exact h
    · rw [Line.HoldsFew, awaited]; exact h
  · split
    · exact hold_holdsFew l now c h
    split
    · exact h
    · rw [Line.HoldsFew, assembled]; exact h

theorem holdsFew_of_holding {l l' : Line} (h : l.HoldsFew) (same : l'.holding = l.holding) : l'.HoldsFew := by
  rw [Line.HoldsFew, same]
  exact h

theorem holdsFew_of_empty {l : Line} (empty : l.holding = []) : l.HoldsFew := by
  simp [Line.HoldsFew, empty]

theorem holdsFewUpkeep : LineUpkeep Line.HoldsFew where
  request _ _ _ h := holdsFew_of_holding h (takeRequest_holding _ _ _)
  settled _ _ _ h := h

/-- Only a character of the discard period joins the holding stage. -/
theorem Effect.holdsFew {s t : State} {c : Instr} (effect : Effect s c t) (h : s.line.HoldsFew) :
    t.line.HoldsFew := by
  have up := holdsFewUpkeep
  have off (l : Line) (_ : l.HoldsFew) : l.switchOff.HoldsFew := holdsFew_of_empty rfl
  have on (l : Line) (few : l.HoldsFew) : l.switchOn.HoldsFew := few
  cases effect with
  | fullReset => exact holdsFew_of_empty rfl
  | stopStart _ starting =>
    obtain ⟨line, -⟩ := abandonStart_parts s starting
    rw [line]
    exact holdsFew_of_empty rfl
  | stop =>
    refine LineUpkeep.halt off (up.proceed ?_)
    split <;> simpa using h
  | character =>
    refine up.afterEnding off _ _ ?_
    simp only [drawGap_keeps, onLine_line]
    exact takeCharacter_holdsFew (s.line.characterEnds _ _) _ _ _ h
  | markSent => exact LineUpkeep.halt off (up.proceed (holdsFew_of_holding h (frameSent_holding _ _ _ _)))
  | windowExpiry => exact up.afterEnding off _ _ (holdsFew_of_holding h (noReply_holding _ _))
  | characterLimit => exact up.afterEnding off _ _ h
  | discardEnd => exact LineUpkeep.halt off (up.settle (holdsFew_of_empty rfl))
  | gapExpiry => exact LineUpkeep.halt off (up.settle (holdsFew_of_holding h (enterIdle_holding _)))
  | busyMark => exact LineUpkeep.halt off (up.proceed (holdsFew_of_empty (by simp [Line.enterDisturbed])))
  | busyTry =>
    refine LineUpkeep.halt off (up.proceed ?_)
    simpa using up.deliver .lineDisturbed (s := s.onLine (·.enterDisturbed s.run.clock)) (holdsFew_of_empty rfl)
  | clearTest =>
    refine LineUpkeep.halt off (up.settle (holdsFew_of_holding h ?_))
    simp [Line.clear]
  | stopLimit => exact LineUpkeep.halt off (up.settle (holdsFew_of_empty (by simp [Line.enterDisturbed])))
  | cycleTimer | markDue => exact up.schedule h
  | drainLimit | record | released | live | fetch | abandonedRead | written | markWritten =>
    exact LineUpkeep.halt off (by simpa using h)
  | startFetch => exact up.takeStartFetch (holdsFew_of_empty rfl) on _ _ h
  | startRead => exact up.takeStartRead (holdsFew_of_empty rfl) on _ _ h
  | fault late failed _ flight =>
    rw [fault_line late flight]
    exact holdsFew_of_empty rfl
  | pairReturns => exact holdsFew_of_holding h (by simp [Line.returnToRest])
  | _ => exact holdsFew_of_holding h (by simp [Line.leaveRest])

/-! ### The staging queue and the write queue -/

/-- The staging queue and the write queue are within their sizes (R104, R153). -/
def State.QueuesFit (s : State) : Prop :=
  s.journal.staging.length ≤ Config.stagingMax ∧ s.port.writes.length ≤ Config.writesMax

/-- What taking a record leaves: no more staged, and the counts and the drain as they stood (R111). -/
theorem takeNext_left {j left : Journal} {next : NextRecord} (taken : j.takeNext = some (next, left)) :
    left.staging.length ≤ j.staging.length ∧ left.written = j.written ∧ left.drain = j.drain := by
  rw [Journal.takeNext] at taken
  split at taken
  next staged =>
    split at taken <;> cases taken <;> simp [staged]
  next =>
    split at taken <;> cases taken
    simp

/-- The record former finds room at the Memory Port for a RECORD and its MARK (R111 condition 3). -/
theorem canTakeRecord_room {s : State} (ready : s.canTakeRecord = true) :
    s.port.writes.length + 2 ≤ Config.writesMax := by
  simp only [State.canTakeRecord, Bool.and_eq_true, decide_eq_true_eq] at ready
  exact ready.1.2

theorem queuesFitUpkeep : FullUpkeep State.QueuesFit where
  same h port staging _ _ := by rwa [State.QueuesFit, staging, port]
  submit s e := fun ⟨staging, writes⟩ => ⟨submit_size s e staging, by simpa using writes⟩
  status s e := fun ⟨staging, writes⟩ =>
    ⟨by simpa using staging, by simpa [State.requestStatus] using requestStatus_size s.port e writes⟩
  reads s rs := fun ⟨staging, writes⟩ => ⟨by simpa using staging,
      by simpa [State.requestReads, Port.requestReads] using writes⟩
  shorter := fun ⟨staging, writes⟩ port shorter _ => ⟨Nat.le_trans shorter staging, by rwa [port]⟩
  mark s urgent := fun ⟨staging, writes⟩ =>
    ⟨by simpa using staging, by simpa [State.requestMark] using requestMark_size s.port _ urgent writes⟩
  readList _ _ h := h
  idle _ _ _ _ h := h
  transaction s := fun ⟨staging, writes⟩ => ⟨by simpa using staging, by simpa using writes⟩
  writeEnds s w a bytes _ := fun ⟨staging, writes⟩ =>
    ⟨by simpa using staging, offerFreed_size s.port writes⟩
  record s next left taken ready := fun ⟨staging, _⟩ => by
    obtain ⟨shorter, -⟩ := takeNext_left taken
    have room := canTakeRecord_room ready
    refine ⟨by simpa [State.formRecord] using Nat.le_trans shorter staging, ?_⟩
    simp only [State.formRecord, State.requestMark, startTransaction_queue, onPort_port, onJournal_port]
    refine requestMark_size _ _ _ ?_
    simpa [State.requestRecord] using requestRecord_size s.port _ _ (by omega)
  emptied := fun ⟨staging, _⟩ _ writes _ _ shorter => ⟨Nat.le_trans shorter staging, by simp [writes]⟩

/-! ### The base and memory -/

theorem Effect.base {s t : State} {c : Instr} (effect : Effect s c t) (h : s.run.exbaseLo &&& 0xFFF#32 = 0#32) :
    t.run.exbaseLo &&& 0xFFF#32 = 0#32 := by
  have kept {u : State} (same : s.run.SameBase u.run) : u.run.exbaseLo &&& 0xFFF#32 = 0#32 := by
    obtain ⟨lo, -⟩ := same
    rwa [lo]
  cases effect with
  | fullReset => exact BitVec.zero_and
  | exbaseLo =>
    have disjoint : 0xFFFFF000#32 &&& 0xFFF#32 = 0#32 := by decide
    simp [BitVec.and_assoc, disjoint]
  | stopStart => exact kept abandonStart_base
  | stop => exact kept enterStopping_base
  | character => exact kept (receive_base _)
  | windowExpiry | characterLimit => exact kept (afterEnding_base _ _ rfl)
  | startFetch => exact kept (takeStartFetch_base _ _ _)
  | startRead => exact kept (takeStartRead_base _ _ _)
  | fault late => exact kept (fault_base s late)
  | markSent | discardEnd | gapExpiry | busyMark | busyTry | clearTest | stopLimit | drainLimit | record | released
  | live | fetch | abandonedRead | written | markWritten => exact kept (sameBase_halt (by simp))
  | _ => simpa using h

/-- Memory changes where a write completes, and where one is cut off. -/
theorem Effect.memoryWf {s t : State} {c : Instr} (effect : Effect s c t) (h : MemoryWf s.memory) :
    MemoryWf t.memory := by
  cases effect with
  | fullReset => exact cutOffWrite_wf s h
  | written w a bytes => simpa using endWrite_wf s a bytes h
  | markWritten covered urgent a bytes => simpa using endWrite_wf s a bytes h
  | fault late failed _ flight =>
    have memory : (s.fault late).memory = s.cutOffWrite.memory := by simp [State.fault, flight]
    rw [memory]
    exact cutOffWrite_wf s h
  | _ => simpa using h

/-- A step is a command's effect on the state with the queue's rest, or the state itself. -/
theorem step_effect {s t : State} (next : step s = .next t) :
    t = s ∨ ∃ c rest, Effect { s with pending := rest } c t := by
  rw [step] at next
  split at next
  next =>
    cases next
    exact .inl rfl
  next c rest _ => exact .inr ⟨c, rest, exec_effect next⟩

end Sys2Proof.Machine

namespace Sys2Proof.Proofs

open Sys2Proof.Machine

/-- Settles O57: each bound survives every effect (`Effect.holdsFew`, `queuesFitUpkeep`, `Effect.base`,
`Effect.memoryWf`). -/
theorem collectionsStayBounded : Obligations.CollectionsStayBounded := by
  intro s t bounded next
  obtain rfl | ⟨c, rest, effect⟩ := step_effect next
  · exact bounded
  obtain ⟨holding, staging, writes, base, memory⟩ := bounded
  have abandon (starting : s.run.state = .starting) : ({ s with pending := rest } : State).abandonStart.QueuesFit := by
    obtain ⟨-, journal, -⟩ := abandonStart_parts { s with pending := rest } starting
    exact ⟨by simp [journal, Journal.abandoned, Journal.reset],
        by simpa [State.abandonStart, Port.withdrawReads] using writes⟩
  obtain ⟨staging', writes'⟩ := queuesFitUpkeep.effect (s := { s with pending := rest })
    ⟨staging, writes⟩ effect abandon ⟨Nat.zero_le _, Nat.zero_le _⟩
  exact ⟨effect.holdsFew holding, staging', writes', effect.base base, effect.memoryWf memory⟩

end Sys2Proof.Proofs
end

section
/-! The order and the covered counts of the write queue through every command (09, R153 to R155), and the run states
that each command can lead to (10, R162). -/

namespace Sys2Proof.Machine

variable {s t : State}

/-! ### The order -/

/-- The order of the write queue is not a matter of the reads, nor of a transaction that is no write. -/
theorem ordered_of_writes {p q : Port} (h : p.Ordered) (writes : q.writes = p.writes) (owed : q.owed = p.owed)
    (held : q.heldMark = p.heldMark)
    (flight : ∀ w a b, q.inFlight = some (.write w a b) → p.inFlight = some (.write w a b)) : q.Ordered where
  head w a b f := by rw [writes]; exact h.head w a b (flight w a b f)
  followed := by rw [writes]; exact h.followed
  owed e := by rw [writes, owed]; exact h.owed e
  held := by rw [writes, held]; exact h.held

theorem ordered_of_empty {p : Port} (flight : p.inFlight = none) (writes : p.writes = []) (held : p.heldMark = none)
    (owed : p.owed = Vector.replicate 16 false) : p.Ordered where
  head w a b f := by simp [flight] at f
  followed := by simp [writes, recordsFollowed]
  owed e := by simp [owed]
  held := by simp [held]

theorem orderedUpkeep : FullUpkeep fun s => s.port.Ordered where
  same h port _ _ _ := by rwa [port]
  submit s e h := by simpa using h
  status s e h := startTransaction_ordered _ (requestStatus_ordered s.port e h)
  reads s rs h := startTransaction_ordered _ (ordered_of_writes h rfl rfl rfl fun _ _ _ => id)
  shorter h port _ _ := by rwa [port]
  mark s urgent h := startTransaction_ordered _ (requestMark_ordered s.port _ urgent h)
  readList s rs h := ordered_of_writes h rfl rfl rfl fun _ _ _ => id
  idle s r a _ h := ordered_of_writes h rfl rfl rfl fun _ _ _ f => by simp at f
  transaction s h := startTransaction_ordered s h
  writeEnds s w a bytes flight h := offerFreed_ordered s.port w a bytes h flight
  record s next left _ ready h := formRecord_ordered s next left h (canTakeRecord_room ready)
  emptied _ flight writes held owed _ := ordered_of_empty flight writes held owed

theorem abandonStart_ordered (h : s.port.Ordered) : s.abandonStart.port.Ordered :=
  orderedUpkeep.halt (s := State.forgetSweeps _) (ordered_of_writes h rfl rfl rfl fun _ _ _ => id)

theorem Effect.ordered {c : Instr} (effect : Effect s c t) (h : s.port.Ordered) : t.port.Ordered :=
  orderedUpkeep.effect h effect (fun _ => abandonStart_ordered h) (ordered_of_empty rfl rfl rfl rfl)

/-! ### The covered counts -/

/-- The order, and the covered counts in step with the written count. -/
def State.InStep (s : State) : Prop := s.port.Ordered ∧ s.port.Covers s.journal.written

theorem covers_of_writes {p q : Port} {n : Word} (h : p.Covers n) (unstarted : q.unstarted = p.unstarted)
    (writes : q.writes = p.writes) (held : q.heldMark = p.heldMark) : q.Covers n where
  chain := by rw [writes]; exact h.chain
  tail m := by rw [tailMark_congr unstarted]; exact h.tail m
  held m := by rw [held]; exact h.held m

theorem covers_of_empty {p : Port} {n : Word} (writes : p.writes = []) (held : p.heldMark = none) : p.Covers n where
  chain := by rw [writes]; rfl
  tail m last := by
    have none := tailMark_of_last (p := p) (by simp [writes])
    simp [none] at last
  held m h := by simp [held] at h

theorem inStepUpkeep : FullUpkeep State.InStep where
  same := fun ⟨ordered, covers⟩ port _ written _ => by rw [State.InStep, port, written]; exact ⟨ordered, covers⟩
  submit s e := fun ⟨ordered, covers⟩ => by
    have written : (s.submit e).journal.written = s.journal.written := by
      simp only [State.submit]
      split
      · simp only [onJournal_journal, Journal.submit, Journal.stage]
        (repeat' split) <;> rfl
      · rfl
    rw [State.InStep, written]
    simpa using ⟨ordered, covers⟩
  status s e := fun ⟨ordered, covers⟩ => by
    refine ⟨orderedUpkeep.status s e ordered, ?_⟩
    simp only [requestStatus_keeps]
    exact startTransaction_covers _ (requestStatus_covers e ordered covers)
  reads s rs := fun ⟨ordered, covers⟩ => by
    refine ⟨orderedUpkeep.reads s rs ordered, ?_⟩
    simp only [requestReads_keeps]
    exact startTransaction_covers _ (covers_of_writes covers rfl rfl rfl)
  shorter := fun ⟨ordered, covers⟩ port _ written => by rw [State.InStep, port, written]; exact ⟨ordered, covers⟩
  mark s urgent := fun ⟨ordered, covers⟩ => by
    refine ⟨orderedUpkeep.mark s urgent ordered, ?_⟩
    simp only [requestMark_keeps]
    exact startTransaction_covers _ (requestMark_covers urgent ordered covers)
  readList s rs := fun ⟨ordered, covers⟩ =>
    ⟨orderedUpkeep.readList s rs ordered, covers_of_writes covers rfl rfl rfl⟩
  idle s r a flight := fun ⟨ordered, covers⟩ => by
    refine ⟨orderedUpkeep.idle s r a flight ordered, covers_of_writes covers ?_ rfl rfl⟩
    simp [Port.unstarted, Port.writeInFlight, flight]
  transaction s := fun ⟨ordered, covers⟩ => by
    refine ⟨orderedUpkeep.transaction s ordered, ?_⟩
    simp only [startTransaction_keeps]
    exact startTransaction_covers s covers
  writeEnds s w a bytes flight := fun ⟨ordered, covers⟩ => by
    refine ⟨orderedUpkeep.writeEnds s w a bytes flight ordered, ?_⟩
    simp only [endWrite_keeps]
    exact offerFreed_covers w a bytes ordered covers flight
  record s next left taken ready := fun ⟨ordered, covers⟩ => by
    refine ⟨orderedUpkeep.record s next left taken ready ordered, ?_⟩
    have written : (s.formRecord next left).journal.written = s.journal.written + 1#32 := by
      simp [State.formRecord]
    rw [written]
    exact formRecord_covers s next left ordered (canTakeRecord_room ready) covers
  emptied _ flight writes held owed _ := ⟨ordered_of_empty flight writes held owed, covers_of_empty writes held⟩

/-! ### The run states -/

/-- What a command can make of the run state, whatever the state it finds (R162). -/
inductive Becomes (s t : State) : Prop
  | stays (run : t.run.state = s.run.state)
  | halts (run : t.run.state = .halted)
  | faults (run : t.run.state = .faulted)
  | starts (halted : s.run.state = .halted) (accepted : t = s.acceptStart)
  | runs (starting : s.run.state = .starting) (run : t.run.state = .running)
  | stops (running : s.run.state = .running) (run : t.run.state = .stopping)

theorem haltIfQuiet_state (t : State) :
    t.haltIfQuiet.run.state = t.run.state ∨ t.haltIfQuiet.run.state = .halted := by
  rcases haltIfQuiet_run t with h | ⟨_, _, _, h⟩ | ⟨_, _, _, h⟩
  · exact .inl (by rw [h])
  · exact .inr (by rw [h])
  · exact .inr (by rw [h])

/-- A halt may follow what leaves the run state alone. -/
theorem becomes_halt (run : t.run.state = s.run.state) : Becomes s t.haltIfQuiet := by
  rcases haltIfQuiet_state t with same | halted
  · exact .stays (same.trans run)
  · exact .halts halted

theorem becomes_afterEnding (request : Option SendRequest) (ending : Option Ending)
    (run : t.run.state = s.run.state) : Becomes s (t.afterEnding request ending) := by
  cases ending with
  | none => exact .stays run
  | some how => exact becomes_halt (by simpa using run)

theorem becomes_checkStart (starting : s.run.state = .starting) (run : t.run.state = s.run.state) :
    Becomes s t.checkStart := by
  rw [State.checkStart]
  split
  · exact .halts (by simp)
  split
  · exact .runs starting (by simp)
  · exact .stays (by simpa using run)

theorem enterStopping_becomes : s.enterStopping.run.state = .stopping ∨ s.enterStopping.run.state = .halted := by
  refine (haltIfQuiet_state _).imp_left fun same => same.trans ?_
  split <;> simp

theorem fault_becomes (late : Bool) {failed : Transaction} (flight : s.port.inFlight = some failed) :
    (s.fault late).run.state = .faulted := by
  simp [State.fault, flight]

theorem Effect.becomes {c : Instr} (effect : Effect s c t) : Becomes s t := by
  cases effect with
  | fullReset => exact .halts rfl
  | start _ halted => exact .starts halted rfl
  | stopStart => exact becomes_halt (by simp)
  | stop _ running =>
    rcases enterStopping_becomes (s := s) with h | h
    · exact .stops running h
    · exact .halts h
  | clearFault => exact .halts rfl
  | character => exact becomes_afterEnding _ _ (by simp)
  | windowExpiry | characterLimit => exact becomes_afterEnding _ _ rfl
  | markSent | discardEnd | gapExpiry | busyMark | busyTry | clearTest | stopLimit | drainLimit | record | released
  | live | fetch | abandonedRead | written | markWritten => exact becomes_halt (by simp)
  | startFetch _ _ _ _ starting =>
    simp only [State.takeStartFetch]
    split
    · exact .runs starting (by simp)
    · exact .stays (by simp)
  | startRead _ _ _ _ starting =>
    simp only [State.takeStartRead]
    split
    · exact becomes_checkStart starting rfl
    · exact .stays (by simp)
  | fault late _ _ flight => exact .faults (fault_becomes late flight)
  | _ => exact .stays (by simp)

/-! ### Which commands act outside a run -/

/-- In STARTING the write queue stays empty (R161, R167). -/
theorem Effect.noWrites {c : Instr} (effect : Effect s c t) (starting : s.run.state = .starting)
    (still : t.run.state = .starting) (ordered : s.port.Ordered)
    (empty : s.port.writes = [] ∧ s.port.heldMark = none) : t.port.writes = [] ∧ t.port.heldMark = none := by
  have idle : ¬s.works = true := by simp [State.works, RunState.works, starting]
  have noWrite (w : WriteEntry) (a : Nat) (bytes : List Byte) : s.port.inFlight ≠ some (.write w a bytes) := by
    intro flight
    have head := ordered.head w a bytes flight
    simp [empty.1] at head
  have kept {u : State} (writes : u.port.writes = s.port.writes) (held : u.port.heldMark = s.port.heldMark) :
      u.port.writes = [] ∧ u.port.heldMark = none := by rwa [writes, held]
  cases effect with
  | fullReset => exact ⟨rfl, rfl⟩
  | start _ halted => simp [starting] at halted
  | stop _ running | sweep _ running => simp [starting] at running
  | stopStart =>
    exact kept (by simp [State.abandonStart, Port.withdrawReads])
      (by simp [State.abandonStart, Port.withdrawReads])
  | stopLimit stopping | drainLimit stopping => simp [starting] at stopping
  | record _ _ _ ready => simp [State.canTakeRecord, starting] at ready
  | startFetch =>
    revert still
    simp only [State.takeStartFetch]
    split
    · simp
    · exact fun _ => kept (by simp [State.endRead]) (by simp [State.endRead])
  | startRead =>
    revert still
    simp only [State.takeStartRead, State.checkStart]
    (repeat' split)
    · simp
    · simp
    · exact fun _ => kept (by simp [State.endRead, State.requestReads, Port.requestReads])
        (by simp [State.endRead, State.requestReads, Port.requestReads])
    · exact fun _ => kept (by simp [State.endRead]) (by simp [State.endRead])
  | abandonedRead => exact kept (by simp [State.endRead]) (by simp [State.endRead])
  | written w a bytes _ flight => exact absurd flight (noWrite w a bytes)
  | markWritten covered urgent a bytes flight => exact absurd flight (noWrite _ a bytes)
  | fault late _ _ flight => simp [fault_becomes late flight] at still
  | same | resetRelease | refused | clearFault | exbaseLo | exbaseHi | clearCause | setMask | pairLevel | lateError =>
    exact kept rfl rfl
  | _ => contradiction

theorem acceptStart_noWrites : s.acceptStart.port.writes = [] ∧ s.acceptStart.port.heldMark = none := by
  simp [State.acceptStart, State.requestReads, Port.requestReads, Port.started, Port.reset]

/-- Where the Memory Port makes no transactions, no command but START and full reset touches it (R151). -/
theorem Effect.portStands {c : Instr} (effect : Effect s c t) (still : s.run.state.transacts = false) :
    t.port = s.port ∨ t.port.writes = [] := by
  obtain ⟨notStarting, notRunning, notStopping⟩ :
      s.run.state ≠ .starting ∧ s.run.state ≠ .running ∧ s.run.state ≠ .stopping := by
    simpa [RunState.transacts, and_assoc] using still
  have idle : ¬s.works = true := by simp [State.works, RunState.works, notRunning, notStopping]
  have active : ¬s.run.state.transacts = true := by simp [still]
  cases effect with
  | fullReset => exact .inr rfl
  | start => exact .inr acceptStart_noWrites.1
  | record _ _ _ ready => simp [State.canTakeRecord, notRunning, notStopping] at ready
  | same | resetRelease | refused | clearFault | exbaseLo | exbaseHi | clearCause | setMask | pairLevel | lateError =>
    exact .inl rfl
  | _ => contradiction

/-- The covered counts through every command: at work and in STARTING by the upkeep of the queue, elsewhere because the
Memory Port stands. -/
theorem Effect.covered {c : Instr} (effect : Effect s c t) (ordered : s.port.Ordered) (covered : s.Covered) :
    t.Covered := by
  by_cases active : s.run.state.transacts = true
  · have inStep : s.InStep := by
      refine ⟨ordered, ?_⟩
      by_cases starting : s.run.state = .starting
      · obtain ⟨writes, held⟩ := covered.start starting
        exact covers_of_empty writes held
      · have works : s.run.state.works = true := by simpa [RunState.works, RunState.transacts, starting] using active
        exact ⟨covered.chain, covered.tail works, covered.held works⟩
    have abandon (starting : s.run.state = .starting) : s.abandonStart.InStep := by
      obtain ⟨writes, held⟩ := covered.start starting
      exact ⟨abandonStart_ordered ordered, covers_of_empty
          (by simpa [State.abandonStart, Port.withdrawReads] using writes)
        (by simpa [State.abandonStart, Port.withdrawReads] using held)⟩
    obtain ⟨-, covers⟩ := inStepUpkeep.effect inStep effect abandon
      ⟨ordered_of_empty rfl rfl rfl rfl, covers_of_empty rfl rfl⟩
    refine ⟨covers.chain, fun _ => covers.tail, fun _ => covers.held, fun starting => ?_⟩
    cases effect.becomes with
    | stays run => exact effect.noWrites (run ▸ starting) starting ordered (covered.start (run ▸ starting))
    | starts halted => simp [halted, RunState.transacts] at active
    | halts run | faults run | runs _ run | stops _ run => simp [run] at starting
  · have still : s.run.state.transacts = false := by simpa using active
    have chain : recordsCovered t.port.writes = true := by
      rcases effect.portStands still with same | empty
      · rw [same]; exact covered.chain
      · rw [empty]; rfl
    cases effect.becomes with
    | stays run =>
      refine ⟨chain, fun works => ?_, fun works => ?_, fun starting => ?_⟩
      all_goals simp_all [RunState.works, RunState.transacts]
    | halts run | faults run =>
      refine ⟨chain, fun works => ?_, fun works => ?_, fun starting => ?_⟩
      all_goals simp [run, RunState.works] at *
    | starts _ accepted =>
      subst accepted
      refine ⟨chain, fun works => ?_, fun works => ?_, fun _ => acceptStart_noWrites⟩
      all_goals simp [RunState.works] at works
    | runs starting => simp [starting, RunState.transacts] at still
    | stops running => simp [running, RunState.transacts] at still

end Sys2Proof.Machine

namespace Sys2Proof.Proofs

open Sys2Proof.Machine

/-- Settles O59: the order survives every operation on the queue (`orderedUpkeep`), and with it the covered counts
(`inStepUpkeep`, `Effect.covered`). -/
theorem recordsStayAheadOfTheirMarks : Obligations.RecordsStayAheadOfTheirMarks := by
  refine ⟨fun s t ordered next => ?_, fun s t ordered covered next => ?_⟩
  all_goals obtain rfl | ⟨c, rest, effect⟩ := step_effect next
  · exact ordered
  · exact effect.ordered ordered
  · exact covered
  · exact effect.covered ordered ⟨covered.chain, covered.tail, covered.held, covered.start⟩

end Sys2Proof.Proofs
end

section
/-! The records of a station through every command (03, R38 to R61; 04, R79; 05, R86). -/

namespace Sys2Proof.Machine

/-! ### Changes that the agreement of the records does not see -/

/-- Two station entries hold the same link state, sync step, outstanding command with its content, and contacts. -/
structure Station.Alike (st st' : Station) : Prop where
  state : st'.link.state = st.link.state
  step : st'.link.step = st.link.step
  outstanding : st'.link.outstanding = st.link.outstanding
  outSet : st'.output.outSet = st.output.outSet
  outSound : st'.output.outSound = st.output.outSound
  contacts : st'.contacts = st.contacts

theorem Station.Alike.refl (st : Station) : st.Alike st := ⟨rfl, rfl, rfl, rfl, rfl, rfl⟩

theorem Station.Alike.trans {a b c : Station} (first : a.Alike b) (second : b.Alike c) : a.Alike c :=
  ⟨second.state.trans first.state, second.step.trans first.step, second.outstanding.trans first.outstanding,
    second.outSet.trans first.outSet, second.outSound.trans first.outSound, second.contacts.trans first.contacts⟩

theorem Station.Alike.coherent {st st' : Station} (alike : st.Alike st') (h : st.Coherent) : st'.Coherent :=
  coherent_of_same st st' alike.state alike.step alike.outstanding alike.outSet alike.outSound alike.contacts h

/-- A station that a visit can be at: polled, and with its RESET-STATION outstanding where it is SEARCHING (R47). -/
structure Station.Visited (st : Station) : Prop where
  polled : st.link.state ≠ .disabled
  reset : st.link.state = .searching → st.link.outstandingKind = some .resetStation

theorem Station.Alike.visited {st st' : Station} (alike : st.Alike st') (h : st.Visited) : st'.Visited where
  polled := by rw [alike.state]; exact h.polled
  reset := by rw [alike.state, Link.outstandingKind, alike.outstanding]; exact h.reset

theorem coherent_iff {s : State} :
    s.Coherent ↔ (∀ e, (s.station e).Coherent) ∧ ∀ v, s.sched.visit = some v → (s.station v.entry).Visited :=
  ⟨fun ⟨station, polled, reset⟩ => ⟨station, fun v h => ⟨polled v h, reset v h⟩⟩,
    fun ⟨station, visited⟩ => ⟨station, fun v h => (visited v h).polled, fun v h => (visited v h).reset⟩⟩

/-- The station entries are alike one by one, and the visit in progress goes on or is over. -/
structure State.Alike (s t : State) : Prop where
  station : ∀ e, (s.station e).Alike (t.station e)
  visit : t.sched.visit = s.sched.visit ∨ t.sched.visit = none

variable {s t u : State}

theorem State.Alike.trans (first : s.Alike t) (second : t.Alike u) : s.Alike u where
  station e := (first.station e).trans (second.station e)
  visit := by
    rcases second.visit with same | ended
    · rw [same]; exact first.visit
    · exact .inr ended

theorem State.Alike.coherent (alike : s.Alike t) (h : s.Coherent) : t.Coherent := by
  obtain ⟨station, visited⟩ := coherent_iff.1 h
  refine coherent_iff.2 ⟨fun e => (alike.station e).coherent (station e), fun v visit => ?_⟩
  rcases alike.visit with same | ended
  · exact (alike.station _).visited (visited v (same ▸ visit))
  · simp [ended] at visit

theorem alike_of_stations (stations : ∀ e, t.station e = s.station e) (visit : t.sched.visit = s.sched.visit) :
    s.Alike t := ⟨fun e => by rw [stations]; exact .refl _, .inl visit⟩

theorem State.Alike.refl (s : State) : s.Alike s := alike_of_stations (fun _ => rfl) rfl

/-- What leaves the stations and the scheduler alone may follow. -/
theorem State.Alike.then_same (first : s.Alike t) (stations : ∀ e, u.station e = t.station e)
    (sched : u.sched = t.sched) : s.Alike u := first.trans (alike_of_stations stations (by rw [sched]))

theorem alike_onStation (e : Entry) (f : Station → Station) (h : (s.station e).Alike (f (s.station e))) :
    s.Alike (s.onStation e f) where
  station e' := by
    rw [onStation_station]
    split
    next here => subst here; exact h
    next => exact .refl _
  visit := .inl (by simp)

/-! ### Requests, reports and sweeps -/

theorem alike_requestStatus (e : Entry) : s.Alike (s.requestStatus e) where
  station e' := by
    rw [requestStatus_station]
    split
    next here => subst here; exact ⟨rfl, rfl, rfl, rfl, rfl, rfl⟩
    next => exact .refl _
  visit := .inl (by simp)

theorem alike_report (e : Entry) (bodies : List EventBody) : s.Alike (s.report e bodies) := by
  have marked : s.Alike (if (s.station e).link.statusChanged then
      (s.requestStatus e).onLink e fun l => { l with statusChanged := false } else s) := by
    split
    · exact (alike_requestStatus e).trans (alike_onStation e _ ⟨rfl, rfl, rfl, rfl, rfl, rfl⟩)
    · exact .refl s
  simp only [State.report]
  exact marked.then_same (by simp) (by simp)

theorem alike_statusPassOver (es : List Entry) : ∀ s : State, s.Alike (s.statusPassOver es) := by
  induction es with
  | nil => exact .refl
  | cons e rest ih =>
    intro s
    rw [State.statusPassOver]
    split
    · exact (alike_requestStatus e).trans (ih _)
    · exact ih s

theorem alike_endSweep : s.Alike s.endSweep := by
  have passed : s.Alike s.statusPass := alike_statusPassOver _ s
  simp only [State.endSweep]
  split
  · exact passed.then_same (by simp) (by simp)
  · exact passed.then_same (fun _ => rfl) rfl

theorem alike_endSweepIfDone : s.Alike s.endSweepIfDone := by
  rw [State.endSweepIfDone]
  split
  · exact alike_endSweep
  · exact .refl s

theorem alike_takeReleased (v : Word) : s.Alike (s.takeReleased v) := by
  rw [State.takeReleased]
  split
  · exact .refl s
  · exact (alike_of_stations (by simp) (by simp)).trans (alike_endSweepIfDone (s := s.judgeReleased v))

theorem alike_takeRevision (e : Entry) (live : Half) : s.Alike (s.takeRevision e live) := by
  rw [State.takeRevision]
  split
  · have requested : s.Alike (s.onOutput e (·.requestFetch live)) := alike_onStation e _ ⟨rfl, rfl, rfl, rfl, rfl, rfl⟩
    exact requested.then_same (by simp) (by simp)
  · exact .refl s

/-- A hand-over leaves the outstanding content alone (R98, R99, R102). -/
theorem handOver_content (o : Output) (count : Half) (pattern : Byte) (link : LinkState) :
    (o.handOver count pattern link).1.outSet = o.outSet ∧ (o.handOver count pattern link).1.outSound = o.outSound := by
  simp only [Output.handOver]
  split <;> exact ⟨rfl, rfl⟩

theorem alike_handOverSounder (e : Entry) (count : Half) (pattern : Byte) :
    s.Alike (s.handOverSounder e count pattern) := by
  obtain ⟨outSet, outSound⟩ := handOver_content (s.station e).output count pattern (s.station e).link.state
  have taken : s.Alike (s.onOutput e fun _ => (s.handed e count pattern).1) :=
    alike_onStation e _ ⟨rfl, rfl, rfl, outSet, outSound, rfl⟩
  simp only [State.handOverSounder]
  split
  · exact (taken.trans (alike_requestStatus e)).then_same (by simp) (by simp)
  · exact (taken.trans (alike_requestStatus e)).then_same (by simp) (by simp)
  · exact taken

theorem alike_reportSounder (e : Entry) (v : Half) : s.Alike (s.reportSounder e v) := by
  rw [State.reportSounder]
  split
  · exact .refl s
  · have reported : s.Alike (s.reportHostValue 27#8 (some e)) := alike_of_stations (by simp) (by simp)
    exact reported.trans (alike_onStation e _ ⟨rfl, rfl, rfl, rfl, rfl, rfl⟩)

theorem alike_reportResync (e : Entry) (v : Half) : s.Alike (s.reportResync e v) := by
  rw [State.reportResync]
  split
  · exact .refl s
  · have reported : s.Alike (s.reportHostValue 29#8 (some e)) := alike_of_stations (by simp) (by simp)
    exact reported.trans (alike_onStation e _ ⟨rfl, rfl, rfl, rfl, rfl, rfl⟩)

theorem alike_takeSounder (e : Entry) (count : Half) (pattern : Byte) : s.Alike (s.takeSounder e count pattern) := by
  simp only [State.takeSounder]
  split
  · exact .refl s
  · exact alike_handOverSounder e count pattern
  · exact alike_reportSounder e count
  · exact alike_reportSounder e count

theorem alike_takeResync (e : Entry) (count : Half) : s.Alike (s.takeResync e count) := by
  simp only [State.takeResync]
  split
  · exact .refl s
  · exact alike_onStation e _ ⟨rfl, rfl, rfl, rfl, rfl, rfl⟩
  · exact alike_reportResync e count
  · exact alike_reportResync e count

/-- A fetch's completion leaves the outstanding content alone (R91 to R93). -/
theorem fetchCompleted_content (block : List Byte) (o : Output) :
    (o.fetchCompleted block).1.outSet = o.outSet ∧ (o.fetchCompleted block).1.outSound = o.outSound := by
  simp only [Output.fetchCompleted]
  split
  · exact ⟨rfl, rfl⟩
  split
  · exact ⟨rfl, rfl⟩
  split <;> exact ⟨rfl, rfl⟩

theorem alike_takeFetch (e : Entry) (block : List Byte) : s.Alike (s.takeFetch e block) := by
  obtain ⟨outSet, outSound⟩ := fetchCompleted_content block (s.station e).output
  have taken : s.Alike (s.onOutput e fun _ => ((s.station e).output.fetchCompleted block).1) :=
    alike_onStation e _ ⟨rfl, rfl, rfl, outSet, outSound, rfl⟩
  simp only [State.takeFetch]
  split
  · refine taken.trans (.trans (alike_onStation e
      (fun st => { st with link := { st.link with countersChanged := true } }) ⟨rfl, rfl, rfl, rfl, rfl, rfl⟩) ?_)
    exact alike_of_stations (fun _ => rfl) rfl
  · exact taken

/-! ### The drain and the run changes -/

theorem alike_discardFetches (rs : List Read) : s.Alike (s.discardFetches rs) where
  station e := by
    rw [discardFetches_station]
    split <;> exact ⟨rfl, rfl, rfl, rfl, rfl, rfl⟩
  visit := .inl (by simp)

theorem alike_endDrain : s.Alike s.endDrain := by
  have swept : s.Alike (((s.onJournal fun j => { j with drain := .ended, drainTimer := none }).requestMark
      s.journal.written false).onExch fun x =>
        { x with sweepTimer := none, sweepAgain := false, sweepInFlight := false }).statusPass :=
    (alike_of_stations (by simp) (by simp)).trans (alike_statusPassOver _ _)
  exact (swept.trans (alike_discardFetches _)).then_same (fun _ => rfl) rfl

theorem alike_expireDrain : s.Alike s.expireDrain := by
  refine .trans ?_ alike_endDrain
  exact alike_of_stations (fun _ => rfl) rfl

theorem alike_beginDrain : s.Alike s.beginDrain := by
  simp only [State.beginDrain]
  split
  · refine .trans ?_ alike_expireDrain
    exact alike_of_stations (by simp) (by simp)
  · exact alike_of_stations (by simp) (by simp)

theorem alike_settle : s.Alike s.settle := by
  rw [State.settle]
  split
  · split
    · refine .trans ?_ alike_beginDrain
      exact alike_of_stations (fun _ => rfl) rfl
    split
    · exact alike_of_stations (fun _ => rfl) rfl
    · exact .refl s
  · exact .refl s

theorem alike_completeDrain : s.Alike s.completeDrain := by
  rw [State.completeDrain]
  split
  · exact alike_endDrain
  · exact .refl s

theorem alike_endCycle : s.Alike s.endCycleInStopping := by
  rw [State.endCycleInStopping]
  split
  · exact alike_of_stations (fun _ => rfl) rfl
  · exact .refl s

theorem alike_halt : s.Alike s.haltIfQuiet := by
  refine ⟨fun e => ?_, ?_⟩
  · simp only [haltIfQuiet_keeps]
    exact .refl _
  · rw [State.haltIfQuiet]
    split
    · obtain ⟨sched, -⟩ := haltFromStopping_parts s
      exact .inr (by rw [sched])
    split <;> exact .inl rfl

/-! ### The scheduler -/

theorem visited_of_synced {st : Station} (polled : st.link.state ≠ .disabled) (found : st.link.state ≠ .searching) :
    st.Visited := ⟨polled, fun searching => absurd searching found⟩

/-- A visit begins at a station of the poll list with the order that its link state calls for (R41, R47). -/
theorem beginVisit_visited {st : Station} (polled : st.link.state ≠ .disabled) (h : st.Coherent) :
    st.beginVisit.Visited := by
  cases outstanding : st.link.outstanding with
  | some o =>
    rw [beginVisit_resend st o outstanding]
    refine ⟨polled, fun searching => ?_⟩
    obtain ⟨noSet, noSound⟩ := h.searching searching
    cases o with
    | mk kind turn => cases kind <;> simp_all [Link.outstandingKind, Link.count]
  | none =>
    rw [beginVisit_new st outstanding]
    by_cases searching : st.link.state = .searching
    · rw [show st.counted.buildOrder = st.counted.newReset from buildOrder_searching st.counted searching]
      exact ⟨polled, fun _ => rfl⟩
    · rcases buildOrder_cases st.counted with same | reset | set | sound | resync
      · rw [same]; exact visited_of_synced polled searching
      · rw [reset]; exact visited_of_synced polled searching
      · rw [set]; exact visited_of_synced polled searching
      · rw [sound]; exact visited_of_synced polled searching
      · rw [resync]; exact visited_of_synced LinkState.noConfusion LinkState.noConfusion

theorem coherent_marks (st : Station) (h : st.Coherent) :
    Station.Coherent { st with link := { st.link with countersChanged := false } } ∧
      Station.Coherent { st with link := { st.link with statusChanged := false } } :=
  ⟨Station.Alike.coherent (st := st) ⟨rfl, rfl, rfl, rfl, rfl, rfl⟩ h,
    Station.Alike.coherent (st := st) ⟨rfl, rfl, rfl, rfl, rfl, rfl⟩ h⟩

/-- The end of a visit leaves coherent records and no visit. -/
theorem coherent_endVisit (e : Entry) (result : VisitResult) (station : ∀ e', (s.station e').Coherent)
    (visited : (s.station e).Visited) : (s.endVisit e result).Coherent := by
  refine coherent_iff.2 ⟨endVisit_stations s (P := fun _ st => st.Coherent) (fun _ => coherent_marks) e result
    (fun h => endVisit_coherent _ _ _ result h visited.polled visited.reset) station, fun v visit => ?_⟩
  simp [State.endVisit] at visit

theorem coherent_beginVisit (e : Entry) (polled : (s.station e).link.state ≠ .disabled) (h : s.Coherent) :
    (s.beginVisit e).Coherent := by
  obtain ⟨station, -⟩ := coherent_iff.1 h
  have begun (e' : Entry) : ((s.onStation e (·.beginVisit)).station e').Coherent := by
    rw [onStation_station]
    split
    next here => subst here; exact beginVisit_coherent _ (station e)
    next => exact station e'
  have visited : ((s.onStation e (·.beginVisit)).station e).Visited := by
    rw [onStation_self]
    exact beginVisit_visited polled (station e)
  simp only [State.beginVisit]
  split
  · exact coherent_endVisit e .line begun visited
  · refine coherent_iff.2 ⟨fun e' => by simpa using begun e', ?_⟩
    rintro v ⟨⟩
    simpa using visited

theorem testHold_state (now : Word) (l : Link) : (l.testHold now).state = l.state := by
  rw [Link.testHold]
  split
  · split <;> rfl
  · rfl

theorem alike_testHold (e : Entry) (now : Word) : s.Alike (s.onLink e (·.testHold now)) := by
  have kept (l : Link) : (l.testHold now).step = l.step ∧ (l.testHold now).outstanding = l.outstanding := by
    rw [Link.testHold]
    split
    · split <;> exact ⟨rfl, rfl⟩
    · exact ⟨rfl, rfl⟩
  obtain ⟨step, outstanding⟩ := kept (s.station e).link
  exact alike_onStation e _ ⟨testHold_state _ _, step, outstanding, rfl, rfl, rfl⟩

theorem coherent_walkOver (es : List Entry) : ∀ s : State, s.Coherent → (s.walkOver es).Coherent := by
  induction es with
  | nil => exact fun s h => State.Alike.coherent (s := s) (alike_of_stations (fun _ => rfl) rfl) h
  | cons e rest ih =>
    intro s h
    simp only [State.walkOver]
    split
    next polled =>
      have tested := (alike_testHold e s.run.clock).coherent h
      split
      · refine ih _ (State.Alike.coherent ?_ tested)
        exact alike_of_stations (fun _ => rfl) rfl
      · have begun : ((s.onLink e (·.testHold s.run.clock)).beginVisit e).Coherent := by
          refine coherent_beginVisit e ?_ tested
          simpa [testHold_state, Station.polled] using polled
        split
        · exact begun
        · exact ih _ begun
    next => exact ih s h

theorem coherent_continueCycle (h : s.Coherent) : s.continueCycle.Coherent := by
  have walked : (if s.sched.cycleInProgress then s.walk else s).Coherent := by
    split
    · exact coherent_walkOver _ s h
    · exact h
  simp only [State.continueCycle]
  generalize (if s.sched.cycleInProgress then s.walk else s) = w at walked ⊢
  split
  · refine coherent_walkOver _ _ (State.Alike.coherent ?_ walked)
    exact alike_of_stations (fun _ => rfl) rfl
  · exact walked

theorem alike_sendDueMark : s.Alike s.sendDueMark := by
  refine alike_of_stations (by simp) ?_
  simp only [State.sendDueMark]
  split
  · split <;> simp
  · rfl

theorem coherent_schedule (h : s.Coherent) : s.schedule.Coherent := by
  have marked := alike_sendDueMark.coherent h
  simp only [State.schedule]
  split
  · split
    · exact marked
    · exact coherent_continueCycle marked
  · exact h

theorem alike_countOutcome (e : Entry) (o : TryOutcome) : s.Alike (s.onLink e (·.countOutcome o)) := by
  refine alike_onStation e _ ?_
  simp only [Link.countOutcome]
  split <;> exact ⟨rfl, rfl, rfl, rfl, rfl, rfl⟩

theorem coherent_deliver (o : TryOutcome) (h : s.Coherent) : (s.deliver o).Coherent := by
  simp only [State.deliver]
  split
  next => exact h
  next v visit =>
    have counted : (s.onLink v.entry (·.countOutcome o)).Coherent := (alike_countOutcome v.entry o).coherent h
    obtain ⟨station, visited⟩ := coherent_iff.1 counted
    have here := visited v (by simpa using visit)
    split
    · exact coherent_endVisit _ _ station here
    split
    · refine coherent_iff.2 ⟨fun e => by simpa using station e, ?_⟩
      rintro w ⟨⟩
      simpa using here
    · exact coherent_endVisit _ _ station here

theorem coherent_exchangeEnded (request : Option SendRequest) (how : Ending) (h : s.Coherent) :
    (s.exchangeEnded request how).Coherent := by
  simp only [State.exchangeEnded]
  split
  · exact coherent_deliver _ h
  · exact h

theorem coherent_settle (h : s.Coherent) : s.settle.Coherent := alike_settle.coherent h

theorem coherent_halt (h : s.Coherent) : s.haltIfQuiet.Coherent := alike_halt.coherent h

theorem coherent_proceed (h : s.Coherent) : s.proceed.Coherent :=
  coherent_settle (alike_endCycle.coherent (coherent_schedule h))

theorem coherent_afterEnding (request : Option SendRequest) (ending : Option Ending) (h : s.Coherent) :
    (s.afterEnding request ending).Coherent := by
  cases ending with
  | none => exact h
  | some how => exact coherent_halt (coherent_proceed (coherent_exchangeEnded request how h))

/-- What leaves the stations and the scheduler alone. -/
theorem coherent_same (h : s.Coherent) (stations : ∀ e, t.station e = s.station e) (sched : t.sched = s.sched) :
    t.Coherent := (alike_of_stations stations (by rw [sched])).coherent h

/-! ### The enable flag -/

/-- A change at one station that keeps its records coherent, and lets a visit there go on. -/
theorem coherent_onStation (e : Entry) (f : Station → Station) (h : s.Coherent)
    (station : (f (s.station e)).Coherent)
    (visited : ∀ v, s.sched.visit = some v → v.entry = e → (f (s.station e)).Visited) :
    (s.onStation e f).Coherent := by
  obtain ⟨others, visits⟩ := coherent_iff.1 h
  refine coherent_iff.2 ⟨fun e' => ?_, fun v visit => ?_⟩
  · rw [onStation_station]
    split
    · exact station
    · exact others e'
  · rw [onStation_station]
    split
    next here => exact visited v visit here.symm
    next => exact visits v visit

/-- A DISABLED station that is enabled goes to SEARCHING with nothing outstanding and no contact known (R40). -/
theorem enabled_coherent {st : Station} (disabled : st.link.state = .disabled) (h : st.Coherent) :
    Station.Coherent { st with link := { st.link with state := .searching, statusChanged := true } } where
  set := h.set
  sound := h.sound
  searching _ := by
    have none : st.link.outstanding = none := h.disabled disabled
    simp [Link.outstandingKind, none]
  disabled := nofun
  step := h.step.trans (by rw [disabled]; rfl)
  away _ := h.away (.inl disabled)

theorem coherent_takeEnable (e : Entry) (enable : Byte) (h : s.Coherent) : (s.takeEnable e enable).Coherent := by
  obtain ⟨station, visits⟩ := coherent_iff.1 h
  have marked (pending : Bool) : s.Alike (s.onLink e fun l => { l with disablePending := pending }) :=
    alike_onStation e _ ⟨rfl, rfl, rfl, rfl, rfl, rfl⟩
  rw [State.takeEnable]
  split
  next disabled =>
    split
    · exact h
    · refine (alike_requestStatus e).coherent (coherent_onStation e _ h (enabled_coherent disabled (station e)) ?_)
      rintro v visit rfl
      exact absurd disabled (visits v visit).polled
  split
  · exact (marked false).coherent h
  split
  · exact (marked true).coherent h
  next noTry =>
    refine (alike_report e _).coherent (coherent_onStation e _ h (disable_coherent _) ?_)
    rintro v visit rfl
    simp [State.tryInProgress, visit] at noTry

theorem coherent_takeLive (e : Entry) (data : List Byte) (h : s.Coherent) : (s.takeLive e data).Coherent := by
  rw [State.takeLive]
  split
  · have enabled := coherent_takeEnable e (readLivePart data).enable h
    exact (((alike_takeRevision e _).trans (alike_takeSounder e _ _)).trans
      ((alike_takeResync e _).trans alike_endSweepIfDone)).coherent enabled
  split
  · exact h
  · exact alike_endSweepIfDone.coherent h

/-! ### Start -/

theorem reset_coherent : Station.reset.Coherent where
  set := rfl
  sound := rfl
  searching := nofun
  disabled _ := rfl
  step := rfl
  away _ := nofun

theorem startOutput_content (i : StartImage) (e : Entry) :
    (i.startOutput e).outSet = none ∧ (i.startOutput e).outSound = none := by
  simp only [StartImage.startOutput]
  split <;> exact ⟨rfl, rfl⟩

/-- At start no command is outstanding, no sync step is held, and every contact is UNKNOWN (R39, R67, R87). -/
theorem startStation_coherent (i : StartImage) (e : Entry) : (i.startStation e).Coherent := by
  obtain ⟨outSet, outSound⟩ := startOutput_content i e
  rw [StartImage.startStation]
  split
  · refine ⟨by simp [outSet, StartImage.startLink, Link.reset, Link.outstandingKind],
      by simp [outSound, StartImage.startLink, Link.reset, Link.outstandingKind], fun _ => ⟨nofun, nofun⟩,
      fun _ => rfl, ?_, fun _ c member => ?_⟩
    · simp only [StartImage.startLink]
      split <;> rfl
    · obtain ⟨i, -, rfl⟩ := List.mem_map.1 member
      rfl
  · exact reset_coherent

theorem coherent_initialise : s.initialise.Coherent := by
  have values : s.takeStartValues.Coherent := by
    refine coherent_iff.2 ⟨fun e => ?_, nofun⟩
    simpa [State.takeStartValues, State.station] using startStation_coherent s.run.startImage e
  have statuses (es : List Entry) : ∀ u : State, u.Coherent → (u.requestStatuses es).Coherent := by
    induction es with
    | nil => exact fun _ => id
    | cons e rest ih => exact fun u hu => ih _ ((alike_requestStatus e).coherent hu)
  have first : s.takeStartValues.firstWrites.Coherent :=
    coherent_same (statuses s.takeStartValues.takingPart _ values) (by simp [State.firstWrites])
        (by simp [State.firstWrites])
  refine coherent_walkOver _ _ (State.Alike.coherent (alike_of_stations ?_ ?_) first)
  · simp
  · simp [State.startCycle]

theorem coherent_checkStart (h : s.Coherent) : s.checkStart.Coherent := by
  rw [State.checkStart]
  split
  · exact coherent_same h (fun _ => rfl) rfl
  split
  · exact coherent_initialise
  · exact coherent_same h (by simp) (by simp)

theorem coherent_takeStartRead (i : Nat) (block : List Byte) (h : s.Coherent) : (s.takeStartRead i block).Coherent := by
  simp only [State.takeStartRead]
  split
  · exact coherent_checkStart (coherent_same h (fun _ => rfl) rfl)
  · exact coherent_same h (by simp) (by simp)

theorem coherent_takeStartFetch (e : Entry) (block : List Byte) (h : s.Coherent) :
    (s.takeStartFetch e block).Coherent := by
  simp only [State.takeStartFetch]
  split
  · exact coherent_initialise
  · exact coherent_same h (by simp) (by simp)

theorem coherent_abandonStart (starting : s.run.state = .starting) (h : s.Coherent) : s.abandonStart.Coherent := by
  obtain ⟨-, -, -, sched, station⟩ := abandonStart_parts s starting
  refine State.Alike.coherent ⟨fun e => ?_, .inl (by rw [sched])⟩ h
  rw [station]
  exact ⟨rfl, rfl, rfl, rfl, rfl, rfl⟩

theorem coherent_enterStopping (h : s.Coherent) : s.enterStopping.Coherent := by
  have marked : s.Alike s.markFetches := by
    refine ⟨fun e => ?_, .inl rfl⟩
    simp only [State.station, State.markFetches, Vector.getElem_map]
    exact ⟨rfl, rfl, rfl, rfl, rfl, rfl⟩
  have withdrawn : (((s.runChange .stopping .none 0#8).onSched fun c => { c with markDue := false }).markFetches.onPort
      Port.withdrawLive).Coherent := by
    refine State.Alike.coherent (s := s.markFetches) ?_ (marked.coherent h)
    exact alike_of_stations (fun _ => rfl) rfl
  refine coherent_halt (coherent_proceed ?_)
  split
  · exact withdrawn
  · exact alike_endSweepIfDone.coherent withdrawn

theorem endWrite_station (s : State) (a : Nat) (bytes : List Byte) (e : Entry) :
    (s.endWrite a bytes).station e = s.station e := rfl

/-- The records of every station agree after every command. -/
theorem Effect.coherent {c : Instr} (effect : Effect s c t) (h : s.Coherent) : t.Coherent := by
  cases effect with
  | fullReset =>
    refine coherent_iff.2 ⟨fun e => ?_, nofun⟩
    rw [fullReset_station]
    exact reset_coherent
  | stopStart _ starting => exact coherent_abandonStart starting h
  | stop => exact coherent_enterStopping h
  | character => exact coherent_afterEnding _ _ (coherent_same h (by simp) (by simp))
  | markSent => exact coherent_halt (coherent_proceed (coherent_same h (fun _ => rfl) rfl))
  | windowExpiry | characterLimit => exact coherent_afterEnding _ _ (coherent_same h (fun _ => rfl) rfl)
  | discardEnd | gapExpiry => exact coherent_halt (coherent_settle (coherent_same h (fun _ => rfl) rfl))
  | busyMark => exact coherent_halt (coherent_proceed (coherent_same h (by simp) (by simp)))
  | busyTry =>
    refine coherent_halt (coherent_proceed (coherent_same (coherent_deliver .lineDisturbed (coherent_same h ?_ ?_))
      (submitDisturbed_keeps _ _).2.2.2.2.2.2.2.2.2.2.2.1 (by simp)))
    · exact fun _ => rfl
    · rfl
  | clearTest =>
    refine coherent_halt (coherent_settle (coherent_same h ?_ ?_))
    · exact fun _ => (submit_keeps _ _).2.2.2.2.2.2.2.2.2.2.2.1 _
    · simp
  | stopLimit => exact coherent_halt (coherent_settle (coherent_same h (by simp) (by simp)))
  | cycleTimer | markDue =>
    refine coherent_schedule (State.Alike.coherent ?_ h)
    exact alike_of_stations (fun _ => rfl) rfl
  | drainLimit => exact coherent_halt (alike_expireDrain.coherent h)
  | record next left =>
    refine coherent_halt (alike_completeDrain.coherent (coherent_same h ?_ ?_))
    all_goals simp
  | released data =>
    refine coherent_halt (coherent_same ((alike_takeReleased (wordAt data 0)).coherent h) ?_ ?_)
    all_goals simp
  | live e data =>
    refine coherent_halt (coherent_same (coherent_takeLive e data h) ?_ ?_)
    all_goals simp
  | fetch e data =>
    refine coherent_halt (coherent_same ((alike_takeFetch e data).coherent h) ?_ ?_)
    all_goals simp
  | startFetch e data => exact coherent_takeStartFetch e data h
  | startRead i data => exact coherent_takeStartRead i data h
  | abandonedRead | written | markWritten =>
    exact coherent_halt (coherent_same h (by simp [endWrite_station]) (by simp))
  | fault late failed _ flight =>
    refine State.Alike.coherent ⟨fun e => ?_, .inr ?_⟩ h
    · simp only [fault_keeps]
      exact .refl _
    · simp [State.fault, flight, Scheduler.halted]
  | _ => exact coherent_same h (by simp) (by simp)

end Sys2Proof.Machine

namespace Sys2Proof.Proofs

open Sys2Proof.Machine

/-- Settles O60: the operations that change link states and outstanding commands keep the records coherent
(`coherent_schedule`, `coherent_deliver`, `coherent_takeEnable`, `coherent_initialise`), and every other leaves them
alike (`State.Alike`). -/
theorem stationRecordsStayCoherent : Obligations.StationRecordsStayCoherent := by
  intro s t coherent next
  obtain rfl | ⟨c, rest, effect⟩ := step_effect next
  · exact coherent
  · exact effect.coherent ⟨coherent.station, coherent.polled, coherent.reset⟩

end Sys2Proof.Proofs
end

section
/-! How SENDING is entered (01, R5). -/

namespace Sys2Proof.Machine

variable {s t : State}

/-! ### With the pair at rest and no character in reception -/

/-- What holds of a line outside SENDING, and of one that begins to send a request with the pair free. -/
structure SendUpkeep (P : Line → Prop) : Prop extends LineUpkeep P where
  quiet : ∀ {l : Line}, l.state ≠ .sending → P l
  begins : ∀ {l : Line}, l.sendPlace.isSome = true → l.pairFree = true → P l.beginSending

@[simp] theorem measureRest_state (l : Line) (now : Word) : (l.measureRest now).state = l.state := by
  rw [Line.measureRest]
  split
  · rfl
  · split <;> rfl
  all_goals rfl

namespace SendUpkeep

variable {P : Line → Prop} (up : SendUpkeep P) {l : Line}

include up

theorem examine (h : l.state ≠ .sending) : P l.examine := by
  rw [Line.examine]
  split
  next free => exact up.begins free.2.1 free.2.2
  next => exact up.quiet h

theorem enterIdle (l : Line) : P l.enterIdle := up.examine LineState.noConfusion

theorem noReply (l : Line) (passed : Bool) : P (l.noReply passed) := by
  rw [Line.noReply]
  split
  · exact up.enterIdle _
  · exact up.quiet LineState.noConfusion

theorem takeCharacter (now : Word) (passed : Bool) (c : RxChar) (h : l.state ≠ .sending) :
    P (l.takeCharacter now passed c).1 := by
  simp only [Line.takeCharacter]
  split
  · exact up.quiet LineState.noConfusion
  · exact up.quiet LineState.noConfusion
  · exact up.quiet h
  · exact up.quiet (by simpa [Line.countStray] using h)
  · split
    · exact up.quiet LineState.noConfusion
    · rw [Line.awaited]
      split
      · exact up.quiet LineState.noConfusion
      split
      · exact up.noReply _ _
      · exact up.quiet h
  · split
    · refine up.quiet ?_
      simp only [Line.hold, measureRest_state]
      split <;> exact h
    split
    · exact up.quiet LineState.noConfusion
    · simp only [Line.assemble]
      split
      · exact up.quiet LineState.noConfusion
      split
      · exact up.quiet LineState.noConfusion
      · exact up.quiet h

end SendUpkeep

/-- A line in SENDING has its pair at rest and no character in reception. -/
def Line.SendsFree (l : Line) : Prop := l.state = .sending → l.pairAtRest = true ∧ l.receiver ≠ .inReception

theorem sendsFree_beginSending {l : Line} (free : l.pairFree = true) : l.beginSending.SendsFree := by
  intro _
  obtain ⟨rest, receiver⟩ : l.pairAtRest = true ∧ l.receiver ≠ .inReception := by simpa [Line.pairFree] using free
  refine ⟨rest, ?_⟩
  simp only [Line.beginSending]
  split
  · exact Receiver.noConfusion
  · exact receiver

theorem sendsFreeUpkeep : SendUpkeep Line.SendsFree where
  request l now r h := by
    simp only [Line.takeRequest]
    split
    next free => exact sendsFree_beginSending (l := { l with sendPlace := some r }) free.2
    next => exact h
  settled _ _ _ h := h
  quiet h := fun sending => absurd sending h
  begins _ free := sendsFree_beginSending free

theorem sendsFree_switchOff (l : Line) (h : l.SendsFree) : l.switchOff.SendsFree := fun sending =>
  ⟨(h sending).1, Receiver.noConfusion⟩

theorem sendsFree_switchOn (l : Line) (h : l.SendsFree) : l.switchOn.SendsFree := fun sending =>
  ⟨(h sending).1, Receiver.noConfusion⟩

/-- SENDING, newly entered, finds the pair free. -/
theorem Effect.sendsFree {c : Instr} (effect : Effect s c t) (h : s.line.state ≠ .sending) : t.line.SendsFree := by
  have up := sendsFreeUpkeep
  have off := sendsFree_switchOff
  have found : s.line.SendsFree := up.quiet h
  have idle {l : Line} (state : l.state ≠ .sending) : l.SendsFree := up.quiet state
  cases effect with
  | fullReset => exact idle LineState.noConfusion
  | stopStart _ starting =>
    obtain ⟨line, -⟩ := abandonStart_parts s starting
    rw [line]
    exact idle LineState.noConfusion
  | stop =>
    refine LineUpkeep.halt off (up.proceed ?_)
    split <;> simpa using found
  | clockAdvance =>
    refine idle ?_
    simpa [passMillisecond_eq] using h
  | character =>
    refine up.afterEnding off _ _ ?_
    simp only [drawGap_keeps, onLine_line]
    exact up.takeCharacter _ _ _ h
  | pairReturns => exact up.examine (by simpa using h)
  | pairLeaves | pairLevel => exact idle h
  | startBit =>
    refine idle ?_
    simp only [onLine_line, Line.sampleStart]
    split
    · exact h
    split <;> exact h
  | arm =>
    refine idle ?_
    simp only [onLine_line, Line.arm]
    split <;> exact h
  | frameSent _ _ _ sending | markSent _ _ _ sending => exact absurd sending h
  | windowHeld => exact idle h
  | windowExpiry => exact up.afterEnding off _ _ (up.noReply _ _)
  | characterLimit => exact up.afterEnding off _ _ (idle LineState.noConfusion)
  | discardEnd => exact LineUpkeep.halt off (up.settle (idle LineState.noConfusion))
  | gapExpiry => exact LineUpkeep.halt off (up.settle (up.enterIdle _))
  | busyMark =>
    refine LineUpkeep.halt off (up.proceed (idle ?_))
    simp [Line.enterDisturbed]
  | busyTry =>
    refine LineUpkeep.halt off (up.proceed ?_)
    simp only [submitDisturbed_keeps]
    exact up.deliver .lineDisturbed (idle LineState.noConfusion)
  | clearTest =>
    refine LineUpkeep.halt off (up.settle ?_)
    simp only [submit_keeps]
    exact up.enterIdle _
  | stopLimit =>
    refine LineUpkeep.halt off (up.settle (idle ?_))
    simp [Line.enterDisturbed]
  | cycleTimer | markDue => exact up.schedule found
  | drainLimit | record | released | live | fetch | abandonedRead | written | markWritten =>
    exact LineUpkeep.halt off (by simpa using found)
  | startFetch => exact up.takeStartFetch (idle LineState.noConfusion) sendsFree_switchOn _ _ found
  | startRead => exact up.takeStartRead (idle LineState.noConfusion) sendsFree_switchOn _ _ found
  | fault late failed _ flight =>
    rw [fault_line late flight]
    exact idle LineState.noConfusion
  | _ => simpa using found

/-! ### In a run never from RECEIVING -/

/-- A line in a state in which a request waits. -/
def Line.MakesWait (l : Line) : Prop := l.state ≠ .idle ∧ l.state ≠ .sending

theorem makesWaitUpkeep : LineUpkeep Line.MakesWait where
  request l now r h := by
    rw [Line.MakesWait, takeRequest_waits l now r h.1]
    exact h
  settled _ _ _ h := h

theorem makesWait_takeCharacter {l : Line} (now : Word) (passed : Bool) (c : RxChar) (h : l.state = .receiving) :
    (l.takeCharacter now passed c).1.MakesWait := by
  have waits {l' : Line} (state : l'.state = .receiving) : l'.MakesWait := by simp [Line.MakesWait, state]
  simp only [Line.takeCharacter, h]
  split
  · refine waits ?_
    simp only [Line.hold, measureRest_state]
    split <;> exact h
  split
  · exact waits rfl
  · simp only [Line.assemble]
    split
    · exact waits rfl
    split
    · exact ⟨LineState.noConfusion, LineState.noConfusion⟩
    · exact waits h

/-- At work no command leads from RECEIVING to SENDING. -/
theorem Effect.notFromReceiving {c : Instr} (effect : Effect s c t) (works : s.works = true)
    (h : s.line.state = .receiving) : t.line.state ≠ .sending := by
  have up := makesWaitUpkeep
  have off (l : Line) (waits : l.MakesWait) : l.switchOff.MakesWait := waits
  have found : s.line.MakesWait := by simp [Line.MakesWait, h]
  have notStarting : s.run.state ≠ .starting := by
    intro starting
    simp [State.works, RunState.works, starting] at works
  cases effect with
  | fullReset => exact LineState.noConfusion
  | stopStart _ starting | startFetch _ _ _ _ starting | startRead _ _ _ _ starting
  | abandonedRead _ _ _ _ starting => exact absurd starting notStarting
  | stop =>
    refine (LineUpkeep.halt off (up.proceed ?_)).2
    split <;> simpa using found
  | clockAdvance => simp [passMillisecond_eq, h]
  | character =>
    refine (up.afterEnding off _ _ ?_).2
    simp only [drawGap_keeps, onLine_line]
    exact makesWait_takeCharacter _ _ _ h
  | pairReturns => simp [Line.returnToRest, Line.examine, h]
  | startBit =>
    simp only [onLine_line, Line.sampleStart]
    split
    · exact found.2
    split <;> exact found.2
  | arm =>
    simp only [onLine_line, Line.arm]
    split <;> exact found.2
  | characterLimit => exact (up.afterEnding off _ _ ⟨LineState.noConfusion, LineState.noConfusion⟩).2
  | discardEnd => exact (LineUpkeep.halt off (up.settle ⟨LineState.noConfusion, LineState.noConfusion⟩)).2
  | busyMark =>
    refine (LineUpkeep.halt off (up.proceed ?_)).2
    simp [Line.enterDisturbed, Line.MakesWait]
  | busyTry =>
    refine (LineUpkeep.halt off (up.proceed ?_)).2
    simp only [submitDisturbed_keeps]
    exact up.deliver .lineDisturbed ⟨LineState.noConfusion, LineState.noConfusion⟩
  | stopLimit =>
    refine (LineUpkeep.halt off (up.settle ?_)).2
    simp [Line.enterDisturbed, Line.MakesWait]
  | cycleTimer | markDue =>
    have kept := fun change => LineUpkeep.schedule up (s := s.onSched change) found
    exact (kept _).2
  | pairLeaves => exact found.2
  | drainLimit | record | released | live | fetch | written | markWritten =>
    exact (LineUpkeep.halt off (by simpa using found)).2
  | fault late failed _ flight =>
    rw [fault_line late flight]
    exact LineState.noConfusion
  | frameSent _ _ _ line | markSent _ _ _ line | windowHeld _ line | windowExpiry _ line | gapExpiry _ line
  | clearTest _ line => simp [h] at line
  | _ => simpa using found.2

end Sys2Proof.Machine

namespace Sys2Proof.Proofs

open Sys2Proof.Machine

/-- Settles O30: SENDING begins by a request, or by a waiting request examined, and both test that the pair is free
(`Effect.sendsFree`); from RECEIVING no command leads there (`Effect.notFromReceiving`). -/
theorem sendingNeedsAFreePair : Obligations.SendingNeedsAFreePair := by
  intro c s t next before sending
  have effect := exec_effect next
  obtain ⟨rest, receiver⟩ := effect.sendsFree before sending
  exact ⟨rest, receiver, fun works receiving => effect.notFromReceiving works receiving sending⟩

end Sys2Proof.Proofs
end

section
/-! Outside a run the line and the Memory Port are at rest, and STOPPING ends at the first quiet moment after its drain
(01, R6, R18; 09, R151, R160; 10, R162, R171). -/

namespace Sys2Proof.Machine

variable {s t : State}

/-! ### The two kinds of quiescence -/

/-- The line holds nothing to send and drives nothing, with its receiver off (R18). -/
def Line.Off (l : Line) : Prop := l.receiver = .off ∧ l.sendPlace = none ∧ l.state ≠ .sending

/-- A frame on the line is in the send place (R7). -/
def Line.SendsHeld (l : Line) : Prop := l.state = .sending → l.sendPlace.isSome = true

/-- A state outside a run, at rest (R6, R18, R64, R151). -/
structure State.Idle (s : State) : Prop where
  idle : s.run.state.works = false
  line : s.line.Off
  visit : s.sched.visit = none
  flight : s.run.state.transacts = false → s.port.inFlight = none

/-- A state of a run: what it sends is in the send place, which is empty once the drain has begun (R7, R17, R171). -/
structure State.AtWork (s : State) : Prop where
  works : s.run.state.works = true
  drain : s.run.state = .running → s.journal.drain = .notBegun
  sends : s.line.SendsHeld
  drained : s.run.state = .stopping → s.journal.drain ≠ .notBegun → s.line.sendPlace = none

/-- A run still waits for the Memory Port, or for the end of its drain (R171 step 4). -/
def State.Unquiet (s : State) : Prop := s.journal.drain = .ended → s.port.quiet = false

theorem sendsHeld_of_ne {l : Line} (h : l.state ≠ .sending) : l.SendsHeld := fun sending => absurd sending h

theorem driver_of_ne {l : Line} (h : l.state ≠ .sending) : l.driverEnabled = false := by
  simpa [Line.driverEnabled] using h

theorem State.Idle.quiescent (h : s.Idle) : s.Quiescent := by
  obtain ⟨idle, ⟨receiver, place, still⟩, visit, flight⟩ := h
  obtain ⟨notRunning, notStopping⟩ : s.run.state ≠ .running ∧ s.run.state ≠ .stopping := by
    simpa [RunState.works] using idle
  exact {
    receiver _ := receiver
    sendPlace _ := place
    driver _ := driver_of_ne still
    visit _ := visit
    port := flight
    drain running := absurd running notRunning
    sending driven := by simp [driver_of_ne still] at driven
    drained stopping := absurd stopping notStopping
    unquiet stopping := absurd stopping notStopping }

theorem State.AtWork.quiescent (h : s.AtWork) (unquiet : s.Unquiet) : s.Quiescent := by
  obtain ⟨works, drain, sends, drained⟩ := h
  have busy (idle : s.run.state.works = false) : False := by simp [works] at idle
  exact {
    receiver idle := (busy idle).elim
    sendPlace idle := (busy idle).elim
    driver idle := (busy idle).elim
    visit idle := (busy idle).elim
    port still := by
      have active : s.run.state.transacts = true := by
        revert works
        cases s.run.state <;> simp [RunState.works, RunState.transacts]
      simp [active] at still
    drain := drain
    sending driven := sends (by simpa [Line.driverEnabled] using driven)
    drained := drained
    unquiet _ := unquiet }

theorem State.Quiescent.idle (h : s.Quiescent) (idle : s.run.state.works = false) : s.Idle :=
  ⟨idle, ⟨h.receiver idle, h.sendPlace idle, by simpa [Line.driverEnabled] using h.driver idle⟩, h.visit idle, h.port⟩

theorem State.Quiescent.atWork (h : s.Quiescent) (works : s.run.state.works = true) : s.AtWork :=
  ⟨works, h.drain, fun sending => h.sending (by simpa [Line.driverEnabled] using sending), h.drained⟩

/-- In a run the drain begins in STOPPING alone (R118). -/
theorem State.AtWork.stopping (h : s.AtWork) (begun : s.journal.drain ≠ .notBegun) : s.run.state = .stopping := by
  have states : s.run.state = .running ∨ s.run.state = .stopping := by simpa [RunState.works] using h.works
  exact states.resolve_left fun running => begun (h.drain running)

theorem State.Quiescent.waits (h : s.Quiescent) (works : s.run.state.works = true) : s.Unquiet := fun ended =>
  h.unquiet ((h.atWork works).stopping (by simp [ended])) ended

/-! ### What keeps a state at work -/

theorem State.AtWork.change (h : s.AtWork) (run : t.run.state = s.run.state) (drain : t.journal.drain = s.journal.drain)
    (sends : t.line.SendsHeld) (place : s.line.sendPlace = none → t.line.sendPlace = none) : t.AtWork :=
  ⟨run ▸ h.works, by rw [run, drain]; exact h.drain, sends, by
    rw [run, drain]
    exact fun stopping begun => place (h.drained stopping begun)⟩

/-- A line with nothing to send and in a state other than SENDING suits every moment of a run. -/
theorem State.AtWork.emptied (h : s.AtWork) (run : t.run.state = s.run.state)
    (drain : t.journal.drain = s.journal.drain) (sends : t.line.SendsHeld) (place : t.line.sendPlace = none) :
    t.AtWork :=
  h.change run drain sends fun _ => place

theorem State.AtWork.same (h : s.AtWork) (run : t.run.state = s.run.state) (drain : t.journal.drain = s.journal.drain)
    (line : t.line = s.line) : t.AtWork :=
  h.change run drain (line ▸ h.sends) (line ▸ id)

theorem sendsHeldUpkeep : SendUpkeep Line.SendsHeld where
  request l now r h := by
    simp only [Line.takeRequest]
    split
    · exact fun _ => rfl
    · exact fun _ => rfl
  settled _ _ _ h := h
  quiet := sendsHeld_of_ne
  begins place _ := fun _ => place

/-- The drain is neither begun nor ended by the scheduler (R118). -/
theorem drainUpkeep (d : Drain) : Upkeep fun s => s.journal.drain = d where
  same h _ _ _ drain := drain.trans h
  submit s e h := by
    simp only [State.submit]
    split
    · simp only [onJournal_journal, Journal.submit, Journal.stage]
      (repeat' split) <;> exact h
    · exact h
  status s e h := by simpa using h
  reads s rs h := by simpa using h

/-- In STOPPING no try is made again, and the line is left alone (R49). -/
theorem deliver_line_of_ne (o : TryOutcome) (h : s.run.state ≠ .running) : (s.deliver o).line = s.line := by
  simp only [State.deliver]
  split
  · rfl
  split
  · simp
  split
  next permitted => simp [State.permitsRetry, h] at permitted
  next => simp

namespace State.AtWork

theorem state_cases (h : s.AtWork) : s.run.state = .running ∨ s.run.state = .stopping := by
  simpa [RunState.works] using h.works

theorem schedule (h : s.AtWork) : s.schedule.AtWork := by
  rcases h.state_cases with running | stopping
  · exact ⟨by simpa using h.works, fun _ => (drainUpkeep _).schedule (h.drain running),
      sendsHeldUpkeep.schedule h.sends, by simp [running]⟩
  · rwa [schedule_stopping s (by simp [stopping])]

theorem deliver (o : TryOutcome) (h : s.AtWork) : (s.deliver o).AtWork := by
  have drain : (s.deliver o).journal.drain = s.journal.drain := (drainUpkeep _).deliver o rfl
  rcases h.state_cases with running | stopping
  · exact ⟨by simpa using h.works, fun _ => drain.trans (h.drain running), sendsHeldUpkeep.deliver o h.sends,
      by simp [running]⟩
  · exact h.same (by simp) drain (deliver_line_of_ne o (by simp [stopping]))

theorem exchangeEnded (request : Option SendRequest) (how : Ending) (h : s.AtWork) :
    (s.exchangeEnded request how).AtWork := by
  simp only [State.exchangeEnded]
  split
  · exact h.deliver _
  · exact h

theorem submit (e : Event) (h : s.AtWork) : (s.submit e).AtWork :=
  h.same (by simp) ((drainUpkeep _).submit s e rfl) (by simp)

theorem endDrain (h : s.AtWork) (stopping : s.run.state = .stopping) (place : s.line.sendPlace = none) :
    s.endDrain.AtWork :=
  ⟨by simpa using h.works, by simp [stopping], by simpa using h.sends, by simp [place]⟩

theorem settle (h : s.AtWork) : s.settle.AtWork := by
  rw [State.settle]
  split
  next waits =>
    obtain ⟨stopping, -⟩ := waits
    split
    next rest =>
      obtain ⟨place, -⟩ : s.line.sendPlace = none ∧ (s.line.state = .idle ∨ s.line.state = .disturbed) := by
        simpa [Line.atRest] using rest
      exact ⟨by simpa using h.works, by simp [stopping], by simpa [Line.SendsHeld] using h.sends,
        by simp [place]⟩
    split
    · exact h.change rfl rfl h.sends id
    · exact h
  next => exact h

theorem endCycle (h : s.AtWork) : s.endCycleInStopping.AtWork := h.same (by simp) (by simp) (by simp)

theorem proceed (h : s.AtWork) : s.proceed.AtWork := h.schedule.endCycle.settle

end State.AtWork

/-! ### The way to HALTED -/

theorem off_switchOff {l : Line} (h : l.state ≠ .sending) : l.switchOff.Off := ⟨rfl, rfl, h⟩

/-- What is left at work by the entry to HALTED still waits for the Memory Port. -/
theorem State.AtWork.halt (h : s.AtWork) : s.haltIfQuiet.Quiescent := by
  have notStarting : s.run.state ≠ .starting := by
    intro starting
    simpa [RunState.works, starting] using h.works
  rw [State.haltIfQuiet]
  split
  next quiet =>
    obtain ⟨stopping, ended, quiet⟩ := quiet
    have place := h.drained stopping (by simp [ended])
    have still : s.line.state ≠ .sending := fun sending => by simpa [place] using h.sends sending
    obtain ⟨sched, -, -, -, -, line⟩ := haltFromStopping_parts s
    refine State.Idle.quiescent ⟨by simp [RunState.works], line ▸ off_switchOff still, by rw [sched], fun _ => ?_⟩
    simp only [Port.quiet, Bool.and_eq_true] at quiet
    simpa using quiet.1.1.1.1
  next waits =>
    rw [if_neg fun ⟨starting, _⟩ => notStarting starting]
    refine h.quiescent fun ended => ?_
    simpa using fun quiet => waits ⟨h.stopping (by simp [ended]), ended, quiet⟩

theorem State.Idle.halt (h : s.Idle) : s.haltIfQuiet.Quiescent := by
  obtain ⟨idle, line, visit, flight⟩ := h
  rw [State.haltIfQuiet, if_neg fun ⟨stopping, _⟩ => by simp [RunState.works, stopping] at idle]
  split
  next ended => exact State.Idle.quiescent ⟨by simp [RunState.works], line, visit, fun _ => by simpa using ended.2.2⟩
  next => exact State.Idle.quiescent ⟨idle, line, visit, flight⟩

/-! ### What the line and the Memory Port keep -/

@[simp] theorem measureRest_sendPlace (l : Line) (now : Word) : (l.measureRest now).sendPlace = l.sendPlace := by
  rw [Line.measureRest]
  split
  · rfl
  · split <;> rfl
  all_goals rfl

theorem takeCharacter_place {l : Line} (now : Word) (passed : Bool) (c : RxChar) (h : l.sendPlace = none) :
    (l.takeCharacter now passed c).1.sendPlace = none := by
  have noReply (l : Line) : (l.noReply passed).sendPlace = none := by
    rw [Line.noReply]
    split
    · simp [Line.enterIdle, Line.examine, Line.emptyPlace]
    · rfl
  simp only [Line.takeCharacter]
  split
  · exact h
  · exact h
  · exact h
  · simpa [Line.countStray] using h
  · split
    · rfl
    · rw [Line.awaited]
      split
      · exact h
      split
      · exact noReply _
      · exact h
  · split
    · simp only [Line.hold, measureRest_sendPlace]
      split <;> exact h
    split
    · rfl
    · simp only [Line.assemble]
      split
      · rfl
      split
      · rfl
      · exact h

theorem examine_place {l : Line} (h : l.sendPlace = none) : l.examine = l := by simp [Line.examine, h]

/-- A transaction that starts leaves the Memory Port as far from quiet as it was (R160). -/
theorem startTransaction_unquiet (h : s.port.quiet = false) : s.startTransaction.port.quiet = false := by
  rcases startTransaction_cases s with same | ⟨-, r, rest, -, started⟩ | ⟨-, w, rest, -, started⟩
  · rwa [same]
  · simp [started, Port.quiet]
  · simp [started, Port.quiet]

theorem requestStatus_unquiet (p : Port) (e : Entry) (h : p.quiet = false) : (p.requestStatus e).quiet = false := by
  simp only [Port.requestStatus]
  split
  · exact h
  split
  · exact h
  split
  · simp [Port.quiet]
  next full =>
    have writes : p.writes ≠ [] := by
      intro empty
      simp [Port.hasFree, empty, Config.writesMax] at full
    simp [Port.quiet, writes]

theorem requestReads_unquiet (p : Port) (rs : List Read) (h : p.quiet = false) : (p.requestReads rs).quiet = false := by
  rw [← Bool.not_eq_true] at h ⊢
  refine mt (fun quiet => ?_) h
  simp_all [Port.quiet, Port.requestReads, Port.noneOwed, Port.firstOwed]

/-- What is asked of the Memory Port leaves it as far from quiet as it was (R160). -/
theorem unquietUpkeep : Upkeep State.Unquiet where
  same h port _ _ drain := by
    rw [State.Unquiet, drain, port]
    exact h
  submit s e h ended := by
    have drain : (s.submit e).journal.drain = s.journal.drain := (drainUpkeep _).submit s e rfl
    simpa using h (drain ▸ ended)
  status s e h ended := startTransaction_unquiet (requestStatus_unquiet s.port e (h (by simpa using ended)))
  reads s rs h ended := startTransaction_unquiet (requestReads_unquiet s.port rs (h (by simpa using ended)))

/-- A run that still waits for something is not ended. -/
theorem halt_eq (works : s.run.state.works = true) (unquiet : s.Unquiet) : s.haltIfQuiet = s := by
  have notStarting : s.run.state ≠ .starting := by
    intro starting
    simp [RunState.works, starting] at works
  rw [State.haltIfQuiet, if_neg, if_neg fun ⟨starting, _⟩ => notStarting starting]
  exact fun ⟨_, ended, quiet⟩ => by simp [unquiet ended] at quiet

theorem State.AtWork.halt_eq (h : s.AtWork) (unquiet : s.Unquiet) : s.haltIfQuiet = s :=
  Machine.halt_eq h.works unquiet

/-- The drain ends with a MARK to be written (R121). -/
theorem endDrain_unquiet (s : State) : s.endDrain.port.quiet = false := by
  obtain ⟨-, -, -, marked, -⟩ := endDrain_does s
  rcases marked with ⟨urgent, waits⟩ | ⟨urgent, held⟩
  · simp [Port.quiet, List.ne_nil_of_mem waits]
  · simp [Port.quiet, held]

theorem settle_unquiet (h : s.Unquiet) : s.settle.Unquiet := by
  rw [State.settle]
  split
  · split
    · simp only [State.beginDrain]
      split
      · exact fun _ => endDrain_unquiet _
      · exact fun ended => by simp at ended
    split
    · exact h
    · exact h
  · exact h

theorem proceed_unquiet (h : s.Unquiet) : s.proceed.Unquiet :=
  settle_unquiet (unquietUpkeep.endCycle (unquietUpkeep.schedule h))

theorem completeDrain_unquiet (h : s.Unquiet) : s.completeDrain.Unquiet := by
  rw [State.completeDrain]
  split
  · exact fun _ => endDrain_unquiet _
  · exact h

theorem quiescent_of_parts (h : s.Quiescent) (run : t.run.state = s.run.state) (line : t.line = s.line)
    (sched : t.sched = s.sched) (drain : t.journal.drain = s.journal.drain) (port : t.port = s.port) :
    t.Quiescent where
  receiver := by rw [run, line]; exact h.receiver
  sendPlace := by rw [run, line]; exact h.sendPlace
  driver := by rw [run, line]; exact h.driver
  visit := by rw [run, sched]; exact h.visit
  port := by rw [run, port]; exact h.port
  drain := by rw [run, drain]; exact h.drain
  sending := by rw [line]; exact h.sending
  drained := by rw [run, drain, line]; exact h.drained
  unquiet := by rw [run, drain, port]; exact h.unquiet

/-- A state of STARTING stays at rest while its reads go on (R167). -/
theorem State.Idle.reading (h : s.Idle) (run : t.run.state = .starting) (line : t.line = s.line)
    (sched : t.sched = s.sched) : t.Idle :=
  ⟨by simp [run, RunState.works], line ▸ h.line, sched ▸ h.visit, by simp [run, RunState.transacts]⟩

theorem initialise_drain (s : State) : s.initialise.journal.drain = .notBegun := by
  rw [State.initialise]
  exact (drainUpkeep .notBegun).enterRunning (by simp [State.takeStartValues, Journal.reset])

theorem initialise_sendsHeld (s : State) : s.initialise.line.SendsHeld :=
  sendsHeldUpkeep.initialise (sendsHeld_of_ne LineState.noConfusion) fun _ held => held

theorem initialise_quiescent (s : State) : s.initialise.Quiescent := by
  refine State.AtWork.quiescent ⟨?_, fun _ => initialise_drain s, initialise_sendsHeld s, ?_⟩ ?_
  · simp [RunState.works]
  · simp
  · simp [State.Unquiet, initialise_drain]

theorem takeStartRead_quiescent (i : Nat) (block : List Byte) (h : s.Idle) (starting : s.run.state = .starting) :
    (s.takeStartRead i block).Quiescent := by
  simp only [State.takeStartRead, State.checkStart]
  split
  · split
    · exact State.Idle.quiescent ⟨by simp [RunState.works], h.line, h.visit, fun _ => by simp⟩
    split
    · exact initialise_quiescent _
    · exact (h.reading (by simpa using starting) (by simp) (by simp)).quiescent
  · exact (h.reading (by simpa using starting) (by simp) (by simp)).quiescent

theorem takeStartFetch_quiescent (e : Entry) (block : List Byte) (h : s.Idle) (starting : s.run.state = .starting) :
    (s.takeStartFetch e block).Quiescent := by
  simp only [State.takeStartFetch]
  split
  · exact initialise_quiescent _
  · exact (h.reading (by simpa using starting) (by simp) (by simp)).quiescent

@[simp] theorem examine_sendPlace (l : Line) : l.examine.sendPlace = l.sendPlace := by
  rw [Line.examine]
  split <;> rfl

theorem sendsHeld_examine {l : Line} (h : l.SendsHeld) : l.examine.SendsHeld := by
  rw [Line.examine]
  split
  next free => exact fun _ => free.2.1
  next => exact h

theorem sendsHeld_of_parts {l l' : Line} (h : l.SendsHeld) (state : l'.state = l.state)
    (place : l'.sendPlace = l.sendPlace) : l'.SendsHeld := by
  rw [Line.SendsHeld, state, place]
  exact h

theorem enterIdle_empty {l : Line} (h : l.sendPlace = none) :
    l.enterIdle.state = .idle ∧ l.enterIdle.sendPlace = none := by
  rw [Line.enterIdle, examine_place (by exact h)]
  exact ⟨rfl, h⟩

theorem noReply_empty (l : Line) (passed : Bool) :
    (l.noReply passed).state ≠ .sending ∧ (l.noReply passed).sendPlace = none := by
  rw [Line.noReply]
  split
  · obtain ⟨state, place⟩ := enterIdle_empty (l := { l with reply := .stopped }.emptyPlace) rfl
    exact ⟨by simp [state], place⟩
  · exact ⟨LineState.noConfusion, rfl⟩

theorem enterDisturbed_empty (l : Line) (now : Word) :
    (l.enterDisturbed now).state ≠ .sending ∧ (l.enterDisturbed now).sendPlace = none :=
  ⟨LineState.noConfusion, rfl⟩

/-- The end of a transaction, with what the run, the line and the drain hold as they stood, and the way to HALTED. -/
theorem halt_quiescent (h : s.Quiescent) (transacts : s.run.state.transacts = true) (run : t.run.state = s.run.state)
    (line : t.line = s.line) (sched : t.sched = s.sched) (drain : t.journal.drain = s.journal.drain) :
    t.haltIfQuiet.Quiescent := by
  cases works : s.run.state.works with
  | true => exact ((h.atWork works).same run drain line).halt
  | false =>
    have found := h.idle works
    refine State.Idle.halt ⟨run ▸ found.idle, line ▸ found.line, sched ▸ found.visit, ?_⟩
    simp [run, transacts]

theorem transacts_of_works (works : s.works = true) : s.run.state.transacts = true := by
  revert works
  simp only [State.works]
  cases s.run.state <;> simp [RunState.works, RunState.transacts]

/-- STOPPING is entered with the line as it stood and the drain not begun, and what follows is the settling and the way
to HALTED (R170, R171). -/
theorem enterStopping_parts (h : s.AtWork) (running : s.run.state = .running) :
    ∃ u : State, s.enterStopping = u.proceed.haltIfQuiet ∧ u.AtWork ∧ u.journal.drain = .notBegun ∧
      u.run = { s.run with state := .stopping, reason := .none, detail := 0#8 } := by
  have stops {u : State} (run : u.run = { s.run with state := .stopping, reason := .none, detail := 0#8 })
      (drain : u.journal.drain = s.journal.drain) (line : u.line = s.line) :
      u.AtWork ∧ u.journal.drain = .notBegun ∧
        u.run = { s.run with state := .stopping, reason := .none, detail := 0#8 } := by
    have notBegun := drain.trans (h.drain running)
    exact ⟨⟨by simp [run, RunState.works], by simp [run], line ▸ h.sends, by simp [notBegun]⟩, notBegun, run⟩
  refine ⟨_, rfl, ?_⟩
  split
  · exact stops (by simp) (by simp) (by simp)
  · exact stops (by simp) ((drainUpkeep _).endSweepIfDone (by simp)) (by simp)

theorem State.AtWork.expireDrain (h : s.AtWork) (stopping : s.run.state = .stopping)
    (begun : s.journal.drain ≠ .notBegun) : s.expireDrain.AtWork := by
  have discards : (s.onJournal Journal.discardLeft).AtWork := h.same rfl rfl rfl
  exact discards.endDrain stopping (h.drained stopping begun)

theorem State.AtWork.completeDrain (h : s.AtWork) : s.completeDrain.AtWork := by
  rw [State.completeDrain]
  split
  next drains =>
    rcases h.state_cases with running | stopping
    · simp [h.drain running] at drains
    · exact h.endDrain stopping (h.drained stopping (by simp [drains.1]))
  next => exact h

theorem formRecord_drain {next : NextRecord} {left : Journal} (taken : s.journal.takeNext = some (next, left)) :
    (s.formRecord next left).journal.drain = s.journal.drain := by
  obtain ⟨-, -, drain⟩ := takeNext_left taken
  simpa [State.formRecord] using drain

theorem canTakeRecord_works (ready : s.canTakeRecord = true) : s.run.state.works = true := by
  simp only [State.canTakeRecord, Bool.and_eq_true, Bool.or_eq_true] at ready
  rcases ready.1.1.1 with running | stopping
  · simp_all [RunState.works]
  · simp_all [RunState.works]

end Sys2Proof.Machine
end

section
/-! The table of run states (10, R162, R166, R167, R169 to R172): which command leads where, with which cause and which
reason; and that a state of a run or at rest stays one. -/

namespace Sys2Proof.Machine

variable {s t u : State}

/-! ### Commands that end no run -/

/-- A run goes on from one state to the other. -/
structure State.Continues (s t : State) : Prop where
  works : t.AtWork
  waits : t.Unquiet
  run : t.run.state = s.run.state

namespace State.Continues

theorem of_works (h : s.Quiescent) (works : s.run.state.works = true) : s.Continues s :=
  ⟨h.atWork works, h.waits works, rfl⟩

theorem units (h : s.Continues t) (run : u.run.state = t.run.state) (line : u.line = t.line)
    (journal : u.journal = t.journal) (port : u.port = t.port) : s.Continues u :=
  ⟨h.works.same run (by rw [journal]) line, unquietUpkeep.units h.waits port journal, run.trans h.run⟩

theorem onLine (h : s.Continues t) (f : Line → Line) (sends : (f t.line).SendsHeld)
    (place : t.line.sendPlace = none → (f t.line).sendPlace = none) : s.Continues (t.onLine f) :=
  ⟨h.works.change rfl rfl sends place, unquietUpkeep.units h.waits rfl rfl, h.run⟩

/-- The line keeps its state and its send place. -/
theorem keepsLine (h : s.Continues t) (f : Line → Line) (state : (f t.line).state = t.line.state)
    (place : (f t.line).sendPlace = t.line.sendPlace) : s.Continues (t.onLine f) :=
  h.onLine f (sendsHeld_of_parts h.works.sends state place) place.trans

/-- The line is left with nothing to send. -/
theorem empties (h : s.Continues t) (f : Line → Line) (state : (f t.line).state ≠ .sending)
    (place : (f t.line).sendPlace = none) : s.Continues (t.onLine f) :=
  h.onLine f (sendsHeld_of_ne state) fun _ => place

theorem submit (h : s.Continues t) (e : Event) : s.Continues (t.submit e) :=
  ⟨h.works.submit e, unquietUpkeep.submit _ e h.waits, by simpa using h.run⟩

theorem schedule (h : s.Continues t) : s.Continues t.schedule :=
  ⟨h.works.schedule, unquietUpkeep.schedule h.waits, by simpa using h.run⟩

theorem deliver (h : s.Continues t) (o : TryOutcome) : s.Continues (t.deliver o) :=
  ⟨h.works.deliver o, unquietUpkeep.deliver o h.waits, by simpa using h.run⟩

theorem exchangeEnded (h : s.Continues t) (request : Option SendRequest) (how : Ending) :
    s.Continues (t.exchangeEnded request how) :=
  ⟨h.works.exchangeEnded request how, unquietUpkeep.exchangeEnded request how h.waits, by simpa using h.run⟩

theorem settle (h : s.Continues t) : s.Continues t.settle :=
  ⟨h.works.settle, settle_unquiet h.waits, by simpa using h.run⟩

theorem proceed (h : s.Continues t) : s.Continues t.proceed :=
  ⟨h.works.proceed, proceed_unquiet h.waits, by simpa using h.run⟩

theorem halt (h : s.Continues t) : s.Continues t.haltIfQuiet := by rwa [h.works.halt_eq h.waits]

theorem afterEnding (h : s.Continues t) (request : Option SendRequest) (ending : Option Ending) :
    s.Continues (t.afterEnding request ending) := by
  cases ending with
  | none => exact h
  | some how => exact (h.exchangeEnded request how).proceed.halt

theorem requestSweep (h : s.Continues t) : s.Continues t.requestSweep :=
  ⟨h.works.same (by simp) (by simp) (by simp), unquietUpkeep.requestSweep h.waits, by simpa using h.run⟩

theorem expireDrain (h : s.Continues t) (stopping : t.run.state = .stopping) (begun : t.journal.drain ≠ .notBegun) :
    s.Continues t.expireDrain :=
  ⟨h.works.expireDrain stopping begun, fun _ => endDrain_unquiet _, by simpa using h.run⟩

theorem completeDrain (h : s.Continues t) : s.Continues t.completeDrain :=
  ⟨h.works.completeDrain, completeDrain_unquiet h.waits, by simpa using h.run⟩

end State.Continues

/-! ### The table -/

/-- A run state entered for no reason that is told (R166). -/
def State.NoReason (s : State) : Prop := s.run.reason = .none ∧ s.run.detail = 0#8

/-- The STATE cause is set (R123). -/
def State.Stated (s : State) : Prop := s.irq.cause.getLsbD 1 = true

/-- The rows of the table of run states: what is left, by which command, and what is entered (R162). -/
inductive Moves (s : State) (c : Instr) (t : State) : Prop
  | stays (run : t.run.state = s.run.state)
  | resets (command : c = .fullReset) (entered : t.run.state = .halted) (reason : t.NoReason)
  | starts (left : s.run.state = .halted) (command : c = .start) (entered : t.run.state = .starting)
    (reason : t.NoReason)
  | runs (left : s.run.state = .starting) (command : ∃ data, c = .startReadComplete data ∨ c = .imageFetchComplete data)
    (entered : t.run.state = .running) (stated : t.Stated) (reason : t.NoReason)
  | abandons (left : s.run.state = .starting) (command : c = .stop ∨ isCompletion c = true)
    (entered : t.run.state = .halted) (stated : t.Stated) (reason : t.NoReason)
  | failsChecks (left : s.run.state = .starting) (kept : s.run.startAbandoned = false) (data : List Byte)
    (command : c = .startReadComplete data) (entered : t.run.state = .halted) (stated : t.Stated)
  | stops (left : s.run.state = .running) (command : c = .stop) (entered : t.run.state = .stopping)
    (reason : t.NoReason)
  | halts (left : s.run.state = .stopping) (command : isCompletion c = true) (entered : t.run.state = .halted)
    (stated : t.Stated) (reason : t.NoReason)
  | faults (left : s.run.state.transacts = true) (command : c = .busErrorResponse ∨ c = .memoryAccessTimeout)
    (entered : t.run.state = .faulted) (stated : t.Stated) (reason : t.NoReason)
  | clears (left : s.run.state = .faulted) (command : c = .clearFault) (entered : t.run.state = .halted)
    (stated : t.Stated) (reason : t.NoReason)

/-- The bit of STATE in CAUSE, once set among others (R123). -/
theorem stated_of_or {before rest : BitVec 5} (h : t.irq.cause = before ||| 0b00010#5 ||| rest) : t.Stated := by
  simp [State.Stated, h]

theorem stated_setCause : (s.setCause .state).Stated :=
  stated_of_or (rest := 0#5) (BitVec.or_zero (x := s.irq.cause ||| 0b00010#5)).symm

theorem stated_of_irq (h : t.irq = s.irq.set .state) : t.Stated := by
  have stated : (s.setCause .state).Stated := stated_setCause
  rwa [State.Stated, h]

/-- The way to HALTED: nothing, or the end of STOPPING, or the end of an abandoned start. -/
theorem halt_cases (s : State) :
    s.haltIfQuiet = s ∨
    (s.run.state = .stopping ∨ s.run.state = .starting) ∧ s.haltIfQuiet.run.state = .halted ∧ s.haltIfQuiet.Stated ∧
      s.haltIfQuiet.NoReason := by
  rw [State.haltIfQuiet]
  split
  next quiet =>
    obtain ⟨-, -, -, cause, -, -⟩ := haltFromStopping_parts s
    exact .inr ⟨.inl quiet.1, by simp, stated_of_or cause, by simp [State.NoReason]⟩
  split
  next ended => exact .inr ⟨.inr ended.1, by simp, stated_setCause, by simp [State.NoReason]⟩
  next => exact .inl rfl

/-- A completion that may be followed by the entry to HALTED. -/
theorem moves_completion {c : Instr} (completion : isCompletion c = true) (run : u.run.state = s.run.state) :
    Moves s c u.haltIfQuiet := by
  rcases halt_cases u with same | ⟨left, entered, stated, reason⟩
  · exact .stays (by rw [same]; exact run)
  · rcases run ▸ left with stopping | starting
    · exact .halts stopping completion entered stated reason
    · exact .abandons starting (.inr completion) entered stated reason

theorem moves_initialise {c : Instr} (left : s.run.state = .starting)
    (command : ∃ data, c = .startReadComplete data ∨ c = .imageFetchComplete data) : Moves s c u.initialise := by
  refine .runs left command (by simp) (stated_of_irq (s := u.takeStartValues.firstWrites) ?_) (by simp [State.NoReason])
  rw [State.initialise, enterRunning_irq]

theorem fault_stated (late : Bool) {failed : Transaction} (flight : s.port.inFlight = some failed) :
    (s.fault late).Stated ∧ (s.fault late).NoReason := by
  simp only [State.fault, flight]
  exact ⟨stated_setCause, by simp [State.NoReason]⟩

/-! ### Every command -/

/-- The state stays one of a run or one at rest, and its run state moves as the table tells. -/
def Sound (s : State) (c : Instr) (t : State) : Prop := t.Quiescent ∧ (c.wellFormed = true → Moves s c t)

theorem State.Continues.sound {c : Instr} (h : s.Continues t) : Sound s c t :=
  ⟨h.works.quiescent h.waits, fun _ => .stays h.run⟩

/-- A record is taken only while the drain has not ended (R111). -/
theorem State.AtWork.draining (h : s.AtWork) (ready : s.canTakeRecord = true) : s.journal.drain ≠ .ended := by
  simp only [State.canTakeRecord, Bool.and_eq_true, Bool.or_eq_true, beq_iff_eq, bne_iff_ne] at ready
  rcases ready.1.1.1 with running | ⟨-, notEnded⟩
  · simp [h.drain running]
  · exact notEnded

theorem enterStopping_run (h : s.AtWork) (running : s.run.state = .running) :
    s.enterStopping.run = { s.run with state := .stopping, reason := .none, detail := 0#8 } := by
  obtain ⟨u, entered, works, notBegun, run⟩ := enterStopping_parts h running
  have unquiet : u.Unquiet := fun ended => by simp [notBegun] at ended
  rw [entered, works.proceed.halt_eq (proceed_unquiet unquiet)]
  simpa using run

theorem sampleStart_parts (l : Line) : l.sampleStart.state = l.state ∧ l.sampleStart.sendPlace = l.sendPlace := by
  rw [Line.sampleStart]
  split
  · exact ⟨rfl, rfl⟩
  split <;> exact ⟨rfl, rfl⟩

theorem arm_parts (l : Line) : l.arm.state = l.state ∧ l.arm.sendPlace = l.sendPlace := by
  rw [Line.arm]
  split <;> exact ⟨rfl, rfl⟩

theorem returnToRest_sends {l : Line} (now : Word) (h : l.SendsHeld) :
    (l.returnToRest now).SendsHeld ∧ (l.returnToRest now).sendPlace = l.sendPlace := by
  refine ⟨sendsHeld_examine (sendsHeld_of_parts h ?_ ?_), ?_⟩
  all_goals simp [Line.returnToRest]

/-- The end of a transaction in STARTING, RUNNING or STOPPING that leaves the line and the scheduler as they stood. -/
theorem sound_completion {c : Instr} (h : s.Quiescent) (completion : isCompletion c = true)
    (transacts : s.run.state.transacts = true) (run : u.run.state = s.run.state) (line : u.line = s.line)
    (sched : u.sched = s.sched) (drain : u.journal.drain = s.journal.drain) : Sound s c u.haltIfQuiet :=
  ⟨halt_quiescent h transacts run line sched drain, fun _ => moves_completion completion run⟩

theorem sound_stopStart {c : Instr} (puts : c.Puts 0x08#6 2#32) (h : s.Idle) (starting : s.run.state = .starting) :
    Sound s c s.abandonStart := by
  refine ⟨State.Idle.halt ⟨?_, ⟨rfl, rfl, LineState.noConfusion⟩, h.visit, ?_⟩, fun wf => ?_⟩
  · simp [RunState.works, starting]
  · simp [RunState.transacts, starting]
  · rcases halt_cases (((((s.onPort Port.withdrawReads).onRun fun c => { c with startAbandoned := true }).onLine
      Line.released).onJournal Journal.abandoned).forgetSweeps) with same | ⟨-, entered, stated, reason⟩
    · exact .stays (by rw [State.abandonStart, same]; rfl)
    · exact .abandons starting (.inl (puts.eq_stop wf)) entered stated reason

theorem sound_takeStartRead (i : Nat) (data : List Byte) (h : s.Idle) (starting : s.run.state = .starting)
    (kept : s.run.startAbandoned = false) : Sound s (.startReadComplete data) (s.takeStartRead i data) := by
  refine ⟨takeStartRead_quiescent i data h starting, fun _ => ?_⟩
  simp only [State.takeStartRead, State.checkStart]
  split
  · split
    next reason detail _ => exact .failsChecks starting kept data rfl (by simp) stated_setCause
    split
    · exact moves_initialise starting ⟨data, .inl rfl⟩
    · exact .stays (by simp)
  · exact .stays (by simp)

theorem sound_takeStartFetch (e : Entry) (data : List Byte) (h : s.Idle) (starting : s.run.state = .starting) :
    Sound s (.imageFetchComplete data) (s.takeStartFetch e data) := by
  refine ⟨takeStartFetch_quiescent e data h starting, fun _ => ?_⟩
  simp only [State.takeStartFetch]
  split
  · exact moves_initialise starting ⟨data, .inr rfl⟩
  · exact .stays (by simp)

theorem sound_fault {c : Instr} (late : Bool) {failed : Transaction}
    (command : c = .busErrorResponse ∨ c = .memoryAccessTimeout) (flight : s.port.inFlight = some failed)
    (transacts : s.run.state.transacts = true) : Sound s c (s.fault late) := by
  obtain ⟨stated, reason⟩ := fault_stated late flight
  refine ⟨State.Idle.quiescent ⟨?_, ?_, ?_, fun _ => ?_⟩, fun _ => ?_⟩
  · simp [RunState.works, fault_becomes late flight]
  · exact fault_line late flight ▸ ⟨rfl, rfl, LineState.noConfusion⟩
  · simp [State.fault, flight, Scheduler.halted]
  · simp [State.fault, flight, Port.faulted]
  · exact .faults transacts command (fault_becomes late flight) stated reason

/-- Every command keeps a run a run and rest rest, and moves the run state as the table tells: a command of a run that
can lead to HALTED is a completion, and the others leave the Memory Port waiting. -/
theorem Effect.sound {c : Instr} (effect : Effect s c t) (h : s.Quiescent) : Sound s c t := by
  have starting (run : s.run.state = .starting) : s.Idle := h.idle (by simp [RunState.works, run])
  have stopping (run : s.run.state = .stopping) : s.Continues s := .of_works h (by simp [RunState.works, run])
  have running (run : s.run.state = .running) : s.Continues s := .of_works h (by simp [RunState.works, run])
  have onWork (works : s.works = true) : s.Continues s := .of_works h works
  have kept {u : State} (run : u.run.state = s.run.state) (line : u.line = s.line) (sched : u.sched = s.sched)
      (drain : u.journal.drain = s.journal.drain) (port : u.port = s.port) : Sound s c u :=
    ⟨quiescent_of_parts h run line sched drain port, fun _ => .stays run⟩
  have scheduled {c : Instr} (works : s.works = true) (f : Scheduler → Scheduler) : Sound s c (s.onSched f).schedule :=
    ((onWork works).units (u := s.onSched f) rfl rfl rfl rfl).schedule.sound
  cases effect with
  | same => exact ⟨h, fun _ => .stays rfl⟩
  | fullReset =>
    refine ⟨State.Idle.quiescent ⟨rfl, ⟨rfl, rfl, LineState.noConfusion⟩, rfl, fun _ => rfl⟩, fun _ => ?_⟩
    exact .resets rfl rfl ⟨rfl, rfl⟩
  | resetRelease | refused | exbaseLo | exbaseHi | clearCause | setMask | holdOff | lateError =>
    exact kept rfl rfl rfl rfl rfl
  | start puts halted =>
    have found := h.idle (by simp [RunState.works, halted])
    refine ⟨(found.reading (by simp) (by simp) (by simp)).quiescent, fun wf => ?_⟩
    exact .starts halted (puts.eq_start wf) (by simp) (by simp [State.NoReason])
  | clearFault puts faulted =>
    have found := h.idle (by simp [RunState.works, faulted])
    have flight := found.flight (by simp [RunState.transacts, faulted])
    refine ⟨State.Idle.quiescent ⟨rfl, found.line, found.visit, fun _ => flight⟩, fun wf => ?_⟩
    exact .clears faulted (puts.eq_clearFault wf) rfl stated_setCause ⟨rfl, rfl⟩
  | stopStart puts run => exact sound_stopStart puts (starting run) run
  | stop puts run =>
    obtain ⟨u, entered, works, notBegun, -⟩ := enterStopping_parts (running run).works run
    have stops := enterStopping_run (running run).works run
    refine ⟨entered ▸ works.proceed.halt, fun wf => ?_⟩
    exact .stops run (puts.eq_stop wf) (by simp [stops]) (by simp [State.NoReason, stops])
  | sweep _ run => exact (running run).requestSweep.sound
  | sweepTimer t timer works =>
    have timed := (onWork works).units (u := s.onExch fun x =>
      { x with sweepTimer := some (t.next s.cfg.sweepPeriod) }) rfl rfl rfl rfl
    exact timed.requestSweep.sound
  | clockAdvance works =>
    have ticked := (onWork works).units (u := s.onRun fun c => { c with clock := c.clock + 1#32 }) rfl rfl rfl rfl
    exact (ticked.keepsLine Line.passMillisecond (by simp [passMillisecond_eq]) (by simp [passMillisecond_eq])).sound
  | character data parityBit stopBit works _ line =>
    let l := s.line.characterEnds s.run.clock (sampledChar data parityBit stopBit)
    have taken := (onWork works).onLine
      (fun _ => (l.takeCharacter s.run.clock s.gapPassed (sampledChar data parityBit stopBit)).1)
      (sendsHeldUpkeep.takeCharacter (l := l) _ _ _ line) (takeCharacter_place (l := l) _ _ _)
    exact ((taken.units (by simp) (by simp [l]) (by simp) (by simp)).afterEnding _ _).sound
  | pairReturns works =>
    obtain ⟨sends, place⟩ := returnToRest_sends s.run.clock (h.atWork works).sends
    exact ((onWork works).onLine _ sends place.trans).sound
  | pairLeaves works => exact ((onWork works).keepsLine _ rfl rfl).sound
  | pairLevel level works =>
    have found := h.idle works
    exact ⟨State.Idle.quiescent ⟨found.idle, found.line, found.visit, found.flight⟩, fun _ => .stays rfl⟩
  | startBit works line =>
    obtain ⟨state, place⟩ := sampleStart_parts s.line
    exact ((onWork works).keepsLine _ state place).sound
  | arm works =>
    obtain ⟨state, place⟩ := arm_parts s.line
    exact ((onWork works).keepsLine _ state place).sound
  | frameSent r place works _ reply =>
    have line : s.line.frameSent s.run.clock s.cfg.responseWindow r =
        { s.line with
          state := .awaiting, sentAt := s.run.clock, reply := .running ⟨s.run.clock, .ms s.cfg.responseWindow⟩ } :=
      if_pos reply
    exact ((onWork works).onLine _ (sendsHeld_of_ne (by simp [line])) (by simp [line])).sound
  | markSent r place works _ reply =>
    have line : (s.line.frameSent s.run.clock s.cfg.responseWindow r).state = .quiet ∧
        (s.line.frameSent s.run.clock s.cfg.responseWindow r).sendPlace = none := by
      rw [Line.frameSent, if_neg (by simp [reply])]
      exact ⟨rfl, rfl⟩
    exact ((onWork works).empties _ (by simp [line.1]) line.2).proceed.halt.sound
  | windowHeld works line => exact ((onWork works).keepsLine _ rfl rfl).sound
  | windowExpiry works =>
    obtain ⟨state, place⟩ := noReply_empty s.line (gapPassedAtWindow s.cfg)
    exact (((onWork works).empties _ state place).afterEnding _ _).sound
  | characterLimit works =>
    exact (((onWork works).empties Line.truncated LineState.noConfusion rfl).afterEnding _ _).sound
  | discardEnd works =>
    have ended := (onWork works).onLine (·.endDiscard s.run.clock) (sendsHeld_of_ne LineState.noConfusion) id
    exact ended.settle.halt.sound
  | gapExpiry works =>
    have entered := (onWork works).onLine Line.enterIdle (sendsHeldUpkeep.enterIdle _) fun place =>
      (enterIdle_empty place).2
    exact entered.settle.halt.sound
  | busyMark r place works =>
    obtain ⟨state, place⟩ := enterDisturbed_empty s.line s.run.clock
    exact (((onWork works).empties _ state place).submit _).proceed.halt.sound
  | busyTry r place works =>
    obtain ⟨state, place⟩ := enterDisturbed_empty s.line s.run.clock
    exact ((((onWork works).empties _ state place).deliver _).submit _).proceed.halt.sound
  | clearTest works =>
    have cleared := (onWork works).onLine Line.clear (sendsHeldUpkeep.enterIdle _) fun place =>
      (enterIdle_empty (l := { s.line with disturbed := false }) place).2
    have drawn := cleared.units (u := { s.onLine Line.clear with draws := s.draws + 1 }) rfl rfl rfl rfl
    exact (drawn.submit _).settle.halt.sound
  | stopLimit run =>
    obtain ⟨state, place⟩ := enterDisturbed_empty s.line s.run.clock
    exact (((stopping run).empties _ state place).submit _).settle.halt.sound
  | cycleTimer t timer works | markDue t timer works => exact scheduled works _
  | drainLimit run drain => exact ((stopping run).expireDrain run (by simp [drain])).halt.sound
  | record next left taken ready =>
    have found := h.atWork (canTakeRecord_works ready)
    have drain := formRecord_drain taken
    have formed : s.Continues (s.formRecord next left) :=
      ⟨found.same (by simp) drain (by simp), fun ended => absurd (drain ▸ ended) (found.draining ready), by simp⟩
    exact formed.completeDrain.halt.sound
  | released data a flight works =>
    have drain : (s.takeReleased (wordAt data 0)).journal.drain = s.journal.drain := (drainUpkeep _).takeReleased _ rfl
    exact sound_completion h rfl (transacts_of_works works) (by simp) (by simp) (by simp) (by simpa using drain)
  | live e data a flight works =>
    have drain : (s.takeLive e data).journal.drain = s.journal.drain := (drainUpkeep _).takeLive _ _ rfl
    exact sound_completion h rfl (transacts_of_works works) (by simp) (by simp) (by simp) (by simpa using drain)
  | fetch e data a flight works =>
    exact sound_completion h rfl (transacts_of_works works) (by simp) (by simp) (by simp) (by simp)
  | startFetch e data a flight run => exact sound_takeStartFetch e data (starting run) run
  | startRead i data a flight run goesOn => exact sound_takeStartRead i data (starting run) run goesOn
  | abandonedRead r a completion flight run =>
    exact sound_completion h completion (by simp [RunState.transacts, run]) (by simp) (by simp) (by simp) (by simp)
  | written w a bytes completion flight transacts =>
    exact sound_completion h completion transacts (by simp) (by simp) (by simp) (by simp)
  | markWritten covered urgent a bytes flight transacts =>
    obtain ⟨-, drain, -⟩ := announce_parts (s.endWrite a bytes) covered urgent
    exact sound_completion h rfl transacts (by simp) (by simp) (by simp) (by simpa using drain)
  | fault late failed command flight transacts => exact sound_fault late command flight transacts

end Sys2Proof.Machine

namespace Sys2Proof.Proofs

open Sys2Proof.Machine

/-- Settles O58: a state of a run or at rest stays one (`Effect.sound`), and the queue has no part in it. -/
theorem quietOutsideARun : Obligations.QuietOutsideARun := by
  intro s t quiescent next
  obtain rfl | ⟨c, rest, effect⟩ := step_effect next
  · exact quiescent
  · exact (effect.sound (quiescent_of_parts quiescent rfl rfl rfl rfl rfl)).1

/-- Settles O11: the row of the table that the command takes (`Effect.sound`), read off. -/
theorem runStateTransitions : Obligations.RunStateTransitions := by
  intro c s t wf quiescent next changed
  cases ((exec_effect next).sound quiescent).2 wf with
  | stays run => exact absurd run changed
  | resets command entered reason =>
    exact ⟨.inl ⟨command, entered⟩, fun noReset => absurd command noReset, .inl reason⟩
  | starts left command entered reason =>
    exact ⟨.inr (.inl ⟨left, command, entered⟩), fun _ states => by simp [entered] at states, .inl reason⟩
  | runs left command entered stated reason =>
    exact ⟨.inr (.inr (.inl ⟨left, .inl ⟨entered, command⟩⟩)), fun _ _ => stated, .inl reason⟩
  | abandons left command entered stated reason =>
    exact ⟨.inr (.inr (.inl ⟨left, .inr (.inl ⟨entered, command⟩)⟩)), fun _ _ => stated, .inl reason⟩
  | failsChecks left kept data command entered stated =>
    have completion : isCompletion c = true := by rw [command]; rfl
    exact ⟨.inr (.inr (.inl ⟨left, .inr (.inl ⟨entered, .inr completion⟩)⟩)), fun _ _ => stated,
      .inr ⟨left, entered, kept, data, command⟩⟩
  | stops left command entered reason =>
    exact ⟨.inr (.inr (.inr (.inl ⟨left, .inl ⟨entered, command⟩⟩))), fun _ states => by simp [entered] at states,
      .inl reason⟩
  | halts left command entered stated reason =>
    exact ⟨.inr (.inr (.inr (.inr (.inl ⟨left, .inl ⟨entered, command⟩⟩)))), fun _ _ => stated, .inl reason⟩
  | faults left command entered stated reason =>
    refine ⟨?_, fun _ _ => stated, .inl reason⟩
    obtain (starting | running) | stopping :
        (s.run.state = .starting ∨ s.run.state = .running) ∨ s.run.state = .stopping := by
      simpa [RunState.transacts] using left
    · exact .inr (.inr (.inl ⟨starting, .inr (.inr ⟨entered, command⟩)⟩))
    · exact .inr (.inr (.inr (.inl ⟨running, .inr ⟨entered, command⟩⟩)))
    · exact .inr (.inr (.inr (.inr (.inl ⟨stopping, .inr ⟨entered, command⟩⟩))))
  | clears left command entered stated reason =>
    exact ⟨.inr (.inr (.inr (.inr (.inr ⟨left, command, entered⟩)))), fun _ _ => stated, .inl reason⟩

end Sys2Proof.Proofs
end

section
/-! The queue's front, and what the window's byte lanes and registers hold bit by bit (10, R163, R166). -/

namespace Sys2Proof.Machine

variable {s : State}

/-! ### The queue -/

theorem step_of_front {c : Instr} {rest : List Instr} (front : s.pending = c :: rest) :
    step s = exec c { s with pending := rest } := by rw [step, front]

theorem step_of_empty (empty : s.pending = []) : step s = .next s := by rw [step, empty]

/-! ### Byte lanes -/

/-- A lane's mask has the eight bits of its byte. -/
theorem getLsbD_laneMask (lanes : BitVec 4) {i : Nat} (hi : i < 32) :
    (laneMask lanes).getLsbD i = lanes.getLsbD (i / 8) := by
  revert lanes i
  decide +kernel

theorem getLsbD_laneValue (lanes : BitVec 4) (value : Word) {i : Nat} (hi : i < 32) :
    (laneValue lanes value).getLsbD i = (lanes.getLsbD (i / 8) && value.getLsbD i) := by
  rw [laneValue, BitVec.getLsbD_and, getLsbD_laneMask lanes hi, Bool.and_comm]

theorem laneValue_all (value : Word) : laneValue 0b1111#4 value = value := by
  have mask : laneMask 0b1111#4 = BitVec.allOnes 32 := by decide
  rw [laneValue, mask, BitVec.and_allOnes]

/-- A narrow write acts as the write of the whole register that has the bytes not written at 0 (R163). -/
theorem windowWrite_laneValue (offset : BitVec 6) (lanes : BitVec 4) (value : Word) :
    s.windowWrite offset lanes value = s.windowWrite offset 0b1111#4 (laneValue lanes value) := by
  rw [State.windowWrite, State.windowWrite, laneValue_all]

theorem getLsbD_readWindow_lanes (released : s.run.resetAsserted = false) (offset : BitVec 6) (lanes : BitVec 4)
    {i : Nat} (hi : i < 32) :
    (s.readWindow offset lanes).getLsbD i = (lanes.getLsbD (i / 8) && (s.register offset).getLsbD i) := by
  rw [State.readWindow, if_neg (by simp [released]), getLsbD_laneValue lanes _ hi]

/-! ### The registers -/

theorem getLsbD_register_cause {i : Nat} (hi : i < 32) :
    (s.register 0x10#6).getLsbD i = (decide (i < 5) && s.irq.cause.getLsbD i) := by
  have register : s.register 0x10#6 = s.irq.cause.setWidth 32 := rfl
  rw [register, BitVec.getLsbD_setWidth]
  by_cases low : i < 5
  · simp [hi, low]
  · simp [low, BitVec.getLsbD_of_ge _ _ (Nat.le_of_not_lt low)]

theorem getLsbD_register_mask {i : Nat} (hi : i < 32) :
    (s.register 0x14#6).getLsbD i = (decide (i < 5) && s.irq.mask.getLsbD i) := by
  rw [register_mask, BitVec.getLsbD_setWidth]
  by_cases low : i < 5
  · simp [hi, low]
  · simp [low, BitVec.getLsbD_of_ge _ _ (Nat.le_of_not_lt low)]

theorem register_faultAddr : s.register 0x1C#6 ++ s.register 0x18#6 = s.port.faultAddr := by
  have halves : s.register 0x1C#6 ++ s.register 0x18#6 =
      s.port.faultAddr.extractLsb' 32 32 ++ s.port.faultAddr.extractLsb' 0 32 := rfl
  rw [halves]
  ext i hi
  rw [BitVec.getElem_append]
  split
  · simp [BitVec.getLsbD_eq_getElem hi]
  next high => simp [Nat.add_sub_cancel' (Nat.le_of_not_lt high), BitVec.getLsbD_eq_getElem hi]

/-! ### The STATE register -/

/-- The run state's code in its three bits. -/
def RunState.field (r : RunState) : BitVec 3 :=
  match r with
  | .halted => 0#3 | .starting => 1#3 | .running => 2#3 | .stopping => 3#3 | .faulted => 4#3

/-- The six fields of a STATE register (R166). -/
structure StateFields (register : Word) (state : BitVec 3) (reason detail : Byte) (multiple : Bool) : Prop where
  state : register.extractLsb' 0 3 = state
  low : register.extractLsb' 3 5 = 0#5
  reason : register.extractLsb' 8 8 = reason
  detail : register.extractLsb' 16 8 = detail
  high : register.extractLsb' 24 7 = 0#7
  multiple : register.getLsbD 31 = multiple

theorem stateFields_code (r : RunState) : StateFields r.code r.field 0#8 0#8 false := by
  cases r <;> exact ⟨by decide, by decide, by decide, by decide, by decide, by decide⟩

theorem stateFields_reason : ∀ reason : Byte,
    StateFields (reason.setWidth 32 <<< 8) 0#3 reason 0#8 false := fun reason =>
  have fields : ∀ x : Byte, let register : Word := x.setWidth 32 <<< 8
      register.extractLsb' 0 3 = 0#3 ∧ register.extractLsb' 3 5 = 0#5 ∧ register.extractLsb' 8 8 = x ∧
      register.extractLsb' 16 8 = 0#8 ∧ register.extractLsb' 24 7 = 0#7 ∧ register.getLsbD 31 = false := by
    decide +kernel
  have ⟨state, low, reason, detail, high, multiple⟩ := fields reason
  ⟨state, low, reason, detail, high, multiple⟩

theorem stateFields_detail : ∀ detail : Byte,
    StateFields (detail.setWidth 32 <<< 16) 0#3 0#8 detail false := fun detail =>
  have fields : ∀ x : Byte, let register : Word := x.setWidth 32 <<< 16
      register.extractLsb' 0 3 = 0#3 ∧ register.extractLsb' 3 5 = 0#5 ∧ register.extractLsb' 8 8 = 0#8 ∧
      register.extractLsb' 16 8 = x ∧ register.extractLsb' 24 7 = 0#7 ∧ register.getLsbD 31 = false := by
    decide +kernel
  have ⟨state, low, reason, detail, high, multiple⟩ := fields detail
  ⟨state, low, reason, detail, high, multiple⟩

theorem stateFields_multiple (multiple : Bool) :
    StateFields (if multiple then 0x80000000#32 else 0#32) 0#3 0#8 0#8 multiple := by
  cases multiple <;> exact ⟨by decide, by decide, by decide, by decide, by decide, by decide⟩

/-- Fields that share no bit are joined field by field. -/
theorem StateFields.or {a b : Word} {state state' : BitVec 3} {reason reason' detail detail' : Byte}
    {multiple multiple' : Bool} (h : StateFields a state reason detail multiple)
    (k : StateFields b state' reason' detail' multiple') :
    StateFields (a ||| b) (state ||| state') (reason ||| reason') (detail ||| detail') (multiple || multiple') where
  state := by rw [BitVec.extractLsb'_or, h.state, k.state]
  low := by rw [BitVec.extractLsb'_or, h.low, k.low]; rfl
  reason := by rw [BitVec.extractLsb'_or, h.reason, k.reason]
  detail := by rw [BitVec.extractLsb'_or, h.detail, k.detail]
  high := by rw [BitVec.extractLsb'_or, h.high, k.high]; rfl
  multiple := by rw [BitVec.getLsbD_or, h.multiple, k.multiple]

theorem stateFields_register (s : State) :
    StateFields (s.register 0x0C#6) s.run.state.field s.run.reason.code s.run.detail s.run.multiple := by
  have joined := (((stateFields_code s.run.state).or (stateFields_reason s.run.reason.code)).or
    (stateFields_detail s.run.detail)).or (stateFields_multiple s.run.multiple)
  have register : s.register 0x0C#6 = s.run.stateRegister := rfl
  simpa [register, RunControl.stateRegister] using joined

end Sys2Proof.Machine

namespace Sys2Proof.Proofs

open Sys2Proof.Machine

/-- Settles O1: the two cases of the queue. -/
theorem stepRunsTheFrontCommand : Obligations.StepRunsTheFrontCommand :=
  ⟨fun _ _ _ front => step_of_front front, fun _ empty => step_of_empty empty⟩

/-- Settles O9: the mask of a lane bit by bit (`getLsbD_laneMask`), and the fields of STATE, which share no bit
(`stateFields_register`). -/
theorem windowWritesAndReads : Obligations.WindowWritesAndReads := by
  refine ⟨fun s lanes value => ⟨fun i hi => getLsbD_laneValue lanes value hi, ?_⟩,
    fun s lanes offset released i hi => getLsbD_readWindow_lanes released offset lanes hi,
    fun r => by cases r <;> rfl, fun s => ?_⟩
  · refine ⟨?_, ?_, ?_, ?_, ?_⟩
    all_goals exact congrArg _ (windowWrite_laneValue _ lanes value)
  · obtain ⟨state, low, reason, detail, high, multiple⟩ := stateFields_register s
    exact ⟨rfl, rfl, rfl, fun i hi => getLsbD_register_cause hi, fun i hi => getLsbD_register_mask hi,
      register_faultAddr, fun offset unused => register_of_le unused, state, low, reason, detail, high, multiple⟩

end Sys2Proof.Proofs
end

section
/-! The invariants at full reset (10, R174). -/

namespace Sys2Proof.Machine

theorem reset_bounded : State.reset.Bounded :=
  ⟨Nat.zero_le _, Nat.zero_le _, Nat.zero_le _, BitVec.zero_and, List.Pairwise.nil⟩

theorem reset_quiescent : State.reset.Quiescent :=
  State.Idle.quiescent ⟨rfl, ⟨rfl, rfl, LineState.noConfusion⟩, rfl, fun _ => rfl⟩

theorem reset_covered : State.reset.Covered := ⟨rfl, nofun, nofun, nofun⟩

end Sys2Proof.Machine

namespace Sys2Proof.Proofs

open Sys2Proof.Machine

/-- Settles O56: everything that an invariant speaks of is empty at reset, and a station entry is coherent there
(`reset_coherent`). -/
theorem invariantsHoldAtReset : Obligations.InvariantsHoldAtReset :=
  ⟨reset_bounded, reset_quiescent, ordered_of_empty rfl rfl rfl rfl, reset_covered,
    coherent_iff.2 ⟨fun e => by simpa [State.reset, State.station] using reset_coherent, nofun⟩⟩

end Sys2Proof.Proofs
end

section
/-! What each command of the line, of a timer and of the bus answers in a state in which it can come: `exec` under the
command's conditions, said once (01; 06; 08; 09; 95). -/

namespace Sys2Proof.Machine

variable {s : State}

/-! ### The pair and the receiver -/

theorem exec_pairReturns (works : s.works = true) (level : s.line.pairAtRest = false) :
    exec .pairReturnsToRest s = .next (s.onLine (·.returnToRest s.run.clock)) :=
  next_congr ((if_neg (by simp [level])).trans (if_pos works))

theorem exec_pairLeaves (works : s.works = true) (level : s.line.pairAtRest = true) :
    exec .pairLeavesRest s = .next (s.onLine Line.leaveRest) :=
  next_congr ((if_neg (by simp [level])).trans (if_pos works))

theorem exec_pairReturns_idle (idle : s.works = false) (level : s.line.pairAtRest = false) :
    exec .pairReturnsToRest s = .next (s.onLine fun l => { l with pairAtRest := true }) :=
  next_congr ((if_neg (by simp [level])).trans (if_neg (by simp [idle])))

theorem exec_pairLeaves_idle (idle : s.works = false) (level : s.line.pairAtRest = true) :
    exec .pairLeavesRest s = .next (s.onLine fun l => { l with pairAtRest := false }) :=
  next_congr ((if_neg (by simp [level])).trans (if_neg (by simp [idle])))

theorem exec_startBit (works : s.works = true) (line : s.line.state ≠ .sending) :
    exec .startBitConfirmed s = .next (s.onLine Line.sampleStart) := next_congr (if_pos ⟨works, line⟩)

theorem exec_arm (works : s.works = true) : exec .receiverArmed s = .next (s.onLine Line.arm) :=
  next_congr (if_pos works)

theorem exec_character (data : Byte) (parityBit stopBit : Bool) (works : s.works = true)
    (receiver : s.line.receiver = .inReception) (line : s.line.state ≠ .sending) :
    exec (.characterReceived data parityBit stopBit) s = .next (s.receive (sampledChar data parityBit stopBit)) :=
  next_congr (if_pos ⟨works, receiver, line⟩)

/-! ### Frames and their answers -/

theorem exec_frameSent (works : s.works = true) (line : s.line.state = .sending) {r : SendRequest}
    (place : s.line.sendPlace = some r) :
    exec .frameSent s = .next
      (if r.expectsReply then s.onLine (·.frameSent s.run.clock s.cfg.responseWindow r)
      else (s.onLine (·.frameSent s.run.clock s.cfg.responseWindow r)).proceed.haltIfQuiet) := by
  refine next_congr ?_
  split
  next r' place' =>
    cases place.symm.trans place'
    exact if_pos ⟨works, line⟩
  next empty => simp [place] at empty

theorem exec_replyWindow_held (works : s.works = true) (line : s.line.state = .awaiting) {timer : Timer}
    (reply : s.line.reply = .running timer) (receiver : s.line.receiver = .inReception) :
    exec .replyWindowExpiry s = .next (s.onLine fun l => { l with reply := .expiryHeld }) := by
  refine next_congr ?_
  simp only [reply]
  rw [if_pos ⟨works, line⟩, if_pos receiver]

theorem exec_replyWindow (works : s.works = true) (line : s.line.state = .awaiting) {timer : Timer}
    (reply : s.line.reply = .running timer) (receiver : s.line.receiver ≠ .inReception) :
    exec .replyWindowExpiry s =
      .next ((s.onLine (·.noReply (gapPassedAtWindow s.cfg))).afterEnding s.line.sendPlace (some .noReply)) := by
  refine next_congr ?_
  simp only [reply]
  rw [if_pos ⟨works, line⟩, if_neg receiver]

theorem exec_characterLimit (works : s.works = true) (line : s.line.state = .receiving)
    (timer : s.line.interChar.isSome = true) :
    exec .interCharacterLimitExpiry s =
      .next ((s.onLine Line.truncated).afterEnding s.line.sendPlace (some .truncated)) :=
  next_congr (if_pos ⟨works, line, timer⟩)

/-! ### The timers of the line -/

theorem exec_discardEnd (works : s.works = true) (line : s.line.state = .receiving) (discard : s.line.discard = true)
    (timer : s.line.discardRest.isSome = true) :
    exec .discardPeriodEnd s = .next (s.onLine (·.endDiscard s.run.clock)).settle.haltIfQuiet :=
  next_congr (if_pos ⟨works, line, discard, timer⟩)

theorem exec_gapExpiry (works : s.works = true) (line : s.line.state = .quiet) (timer : s.line.quietGap.isSome = true) :
    exec .quietGapExpiry s = .next (s.onLine Line.enterIdle).settle.haltIfQuiet :=
  next_congr (if_pos ⟨works, line, timer⟩)

theorem exec_busyLimit (works : s.works = true) (timer : s.line.busy.isSome = true) {r : SendRequest}
    (place : s.line.sendPlace = some r) :
    exec .busyLimitExpiry s = .next
      (((if r.serves.isSome then (s.onLine (·.enterDisturbed s.run.clock)).deliver .lineDisturbed
        else s.onLine (·.enterDisturbed s.run.clock)).submitDisturbed r.serves).proceed.haltIfQuiet) := by
  refine next_congr ?_
  split
  next r' place' =>
    cases place.symm.trans place'
    exact if_pos ⟨works, timer⟩
  next empty => simp [place] at empty

theorem exec_clearTest (works : s.works = true) (line : s.line.state = .disturbed)
    (timer : s.line.clearTest.isSome = true) :
    exec .clearTestExpiry s = .next (({ s.onLine Line.clear with draws := s.draws + 1 } : State).submit
      (s.event none (.lineClear (s.line.disturbedFor (Config.cutShort s.draws))))).settle.haltIfQuiet :=
  next_congr (if_pos ⟨works, line, timer⟩)

theorem exec_stopLimit (stopping : s.run.state = .stopping) (timer : s.line.stopLimit.isSome = true)
    (settled : s.line.settled = false) :
    exec .stopLimitExpiry s =
      .next ((s.onLine (·.enterDisturbed s.run.clock)).submitDisturbed none).settle.haltIfQuiet :=
  next_congr (if_pos ⟨stopping, timer, settled⟩)

/-! ### The timers of the other units -/

theorem exec_cycleTimer (works : s.works = true) {timer : Timer} (running : s.sched.cycleTimer = .running timer) :
    exec .cycleTimerExpiry s = .next (s.onSched fun c => { c with cycleTimer := .expired }).schedule := by
  refine next_congr ?_
  simp only [running]
  rw [if_pos works]

theorem exec_markDue (works : s.works = true) {timer : Timer} (running : s.sched.markTimer = some timer) :
    exec .timeMarkDue s = .next (s.onSched fun c =>
      { c with markDue := true, markTimer := some (timer.next Config.markPeriodMs) }).schedule := by
  refine next_congr ?_
  simp only [running]
  rw [if_pos works]

theorem exec_sweepTimer (works : s.works = true) {timer : Timer} (running : s.exch.sweepTimer = some timer) :
    exec .sweepTimerExpiry s =
      .next (s.onExch fun x => { x with sweepTimer := some (timer.next s.cfg.sweepPeriod) }).requestSweep := by
  refine next_congr ?_
  simp only [running]
  rw [if_pos works]

theorem exec_drainLimit (stopping : s.run.state = .stopping) (drain : s.journal.drain = .running)
    (timer : s.journal.drainTimer.isSome = true) : exec .stopDrainLimitExpiry s = .next s.expireDrain.haltIfQuiet :=
  next_congr (if_pos ⟨stopping, drain, timer⟩)

theorem exec_holdOff (works : s.works = true) (timer : s.irq.holdOff.isSome = true) :
    exec .holdOffExpiry s = .next s.signalJournal := next_congr (if_pos ⟨works, timer⟩)

theorem exec_record {next : NextRecord} {left : Journal} (taken : s.journal.takeNext = some (next, left))
    (ready : s.canTakeRecord = true) :
    exec .recordTaken s = .next (s.formRecord next left).completeDrain.haltIfQuiet := by
  refine next_congr ?_
  simp only [taken]
  rw [if_pos ready]

/-! ### The completions -/

theorem exec_released {a : Nat} {data : List Byte} (works : s.works = true)
    (flight : s.port.inFlight = some (.read .released a)) (length : data.length = Read.size .released) :
    exec (.releasedCountReadComplete data) s = .next (s.takeReleased (wordAt data 0)).endRead.haltIfQuiet := by
  refine next_congr ?_
  simp only [flight]
  rw [if_pos ⟨works, length⟩]

theorem exec_live {e : Entry} {a : Nat} {data : List Byte} (works : s.works = true)
    (flight : s.port.inFlight = some (.read (.live e) a)) (length : data.length = Read.size (.live e)) :
    exec (.livePartReadComplete data) s = .next (s.takeLive e data).endRead.haltIfQuiet := by
  refine next_congr ?_
  simp only [flight]
  rw [if_pos ⟨works, length⟩]

theorem exec_fetch {e : Entry} {a : Nat} {data : List Byte} (works : s.works = true)
    (flight : s.port.inFlight = some (.read (.image e) a)) (length : data.length = Read.size (.image e)) :
    exec (.imageFetchComplete data) s = .next (s.takeFetch e data).endRead.haltIfQuiet := by
  refine next_congr ?_
  simp only [flight]
  rw [if_pos length, if_pos works]

theorem works_of_starting (starting : s.run.state = .starting) : s.works = false := by
  simp [State.works, RunState.works, starting]

theorem exec_startFetch {e : Entry} {a : Nat} {data : List Byte} (starting : s.run.state = .starting)
    (flight : s.port.inFlight = some (.read (.image e) a)) (length : data.length = Read.size (.image e)) :
    exec (.imageFetchComplete data) s =
      .next (if s.run.startAbandoned then s.endRead.haltIfQuiet else s.takeStartFetch e data) := by
  refine next_congr ?_
  simp only [flight]
  rw [if_pos length, if_neg (by simp [works_of_starting starting]), if_pos starting]

theorem exec_startRead {i a : Nat} {data : List Byte} (starting : s.run.state = .starting)
    (flight : s.port.inFlight = some (.read (.start i) a)) (length : data.length = Read.size (.start i)) :
    exec (.startReadComplete data) s =
      .next (if s.run.startAbandoned then s.endRead.haltIfQuiet else s.takeStartRead i data) := by
  refine next_congr ?_
  simp only [flight]
  rw [if_pos ⟨starting, length⟩]

theorem exec_statusWritten {e : Entry} {a : Nat} {bytes : List Byte} (transacts : s.run.state.transacts = true)
    (flight : s.port.inFlight = some (.write (.status e) a bytes)) :
    exec .statusWriteComplete s = .next (s.endWrite a bytes).startTransaction.haltIfQuiet := by
  refine next_congr ?_
  simp only [flight]
  rw [if_pos transacts]

theorem exec_recordWritten {slot : Nat} {record : List Byte} {a : Nat} {bytes : List Byte}
    (transacts : s.run.state.transacts = true)
    (flight : s.port.inFlight = some (.write (.record slot record) a bytes)) :
    exec .recordWriteComplete s = .next (s.endWrite a bytes).startTransaction.haltIfQuiet := by
  refine next_congr ?_
  simp only [flight]
  rw [if_pos transacts]

theorem exec_markWritten {covered : Word} {urgent : Bool} {a : Nat} {bytes : List Byte}
    (transacts : s.run.state.transacts = true)
    (flight : s.port.inFlight = some (.write (.mark covered urgent) a bytes)) :
    exec .markWriteComplete s =
      .next ((s.endWrite a bytes).announce covered urgent).startTransaction.haltIfQuiet := by
  refine next_congr ?_
  simp only [flight]
  rw [if_pos transacts]

theorem exec_busFailure (late : Bool) (transacts : s.run.state.transacts = true) :
    exec (if late then .memoryAccessTimeout else .busErrorResponse) s = .next (s.fault late) := by
  cases late with
  | false => exact next_congr (if_pos transacts)
  | true => exact next_congr (if_pos transacts)

theorem exec_lateError (abandoned : s.port.abandoned.isSome = true) :
    exec .lateErrorResponse s = .next (s.onRun fun c => { c with multiple := true }) := next_congr (if_pos abandoned)

end Sys2Proof.Machine
end

section
/-! The pair, the receiver and the characters on the line: the checks of a character, the events of the pair, and what a
character means in each line state (01, R2 to R13). -/

namespace Sys2Proof.Machine

variable {s : State}

/-- A command that changes the line alone. -/
theorem next_onLine {f : Line → Line} {l : Line} (h : f s.line = l) :
    (Host.Outcome.next (s.onLine f) : Result) = .next { s with line := l } := by
  rw [State.onLine, h]

/-! ### The checks of a character -/

theorem onesOf_eq (b : Byte) :
    onesOf b = (if b.getLsbD 0 then 1 else 0) + (if b.getLsbD 1 then 1 else 0) + (if b.getLsbD 2 then 1 else 0) +
      (if b.getLsbD 3 then 1 else 0) + (if b.getLsbD 4 then 1 else 0) + (if b.getLsbD 5 then 1 else 0) +
      (if b.getLsbD 6 then 1 else 0) + (if b.getLsbD 7 then 1 else 0) := by
  have range : List.range 8 = [0, 1, 2, 3, 4, 5, 6, 7] := rfl
  simp only [onesOf, range, List.countP_cons, List.countP_nil]
  omega

theorem sampledChar_parityError (data : Byte) (parityBit stopBit : Bool) :
    (sampledChar data parityBit stopBit).parityError = true ↔
      (onesOf data + if parityBit then 1 else 0) % 2 = 0 := by
  cases parityBit <;> simp [sampledChar]

/-! ### The pair -/

theorem restFrom_eq (l : Line) (now : Word) (chars : Nat) :
    l.restFrom now chars =
      if l.pairAtRest = true ∧ l.receiver ≠ .inReception then some ⟨now, .chars chars⟩ else none := by
  simp [Line.restFrom, Line.pairFree]

theorem examine_of_ne {l : Line} (h : l.state ≠ .idle) : l.examine = l := if_neg fun ⟨idle, _⟩ => h idle

theorem examine_taken {l : Line} (receiver : l.receiver = .inReception) : l.examine = l :=
  if_neg fun ⟨_, _, free⟩ => by simp [Line.pairFree, receiver] at free

theorem examine_begins {l : Line} (idle : l.state = .idle) (place : l.sendPlace.isSome = true)
    (rest : l.pairAtRest = true) (receiver : l.receiver ≠ .inReception) : l.examine = l.beginSending :=
  if_pos ⟨idle, place, by simp [Line.pairFree, rest, receiver]⟩

/-- Where a measure of rest is not running, and no request can begin, the level alone changes. -/
theorem returnToRest_level {l : Line} (now : Word)
    (h : l.state = .quiet ∨ l.state = .awaiting ∨ l.state = .sending ∨ l.state = .receiving ∧ l.discard = false ∨
      l.state = .idle ∧ (l.sendPlace = none ∨ l.receiver = .inReception)) :
    l.returnToRest now = { l with pairAtRest := true } := by
  have unmeasured : { l with pairAtRest := true }.measureRest now = { l with pairAtRest := true } := by
    rw [Line.measureRest]
    split
    next disturbed => simp_all
    next receiving => exact if_neg (by simp_all)
    all_goals rfl
  rw [Line.returnToRest, unmeasured]
  rcases h with quiet | awaiting | sending | ⟨receiving, -⟩ | ⟨-, none | taken⟩
  · exact examine_of_ne (by simp [quiet])
  · exact examine_of_ne (by simp [awaiting])
  · exact examine_of_ne (by simp [sending])
  · exact examine_of_ne (by simp [receiving])
  · exact examine_place none
  · exact examine_taken taken

theorem returnToRest_disturbed {l : Line} (now : Word) (h : l.state = .disturbed) :
    l.returnToRest now = { l with
      pairAtRest := true
      clearTest := if l.receiver ≠ .inReception then some ⟨now, .chars Config.clearTestChars⟩ else none } := by
  have measured : { l with pairAtRest := true }.measureRest now = { l with
      pairAtRest := true
      clearTest := if l.receiver ≠ .inReception then some ⟨now, .chars Config.clearTestChars⟩ else none } := by
    simp [Line.measureRest, h, restFrom_eq]
  rw [Line.returnToRest, measured]
  exact examine_of_ne (by simp [h])

theorem returnToRest_discarding {l : Line} (now : Word) (h : l.state = .receiving) (discard : l.discard = true) :
    l.returnToRest now = { l with
      pairAtRest := true
      discardRest := if l.receiver ≠ .inReception then some ⟨now, .chars Config.interCharacterChars⟩ else none } := by
  have measured : { l with pairAtRest := true }.measureRest now = { l with
      pairAtRest := true
      discardRest := if l.receiver ≠ .inReception then some ⟨now, .chars Config.interCharacterChars⟩ else none } := by
    simp [Line.measureRest, h, discard, restFrom_eq]
  rw [Line.returnToRest, measured]
  exact examine_of_ne (by simp [h])

theorem returnToRest_begins {l : Line} (now : Word) (idle : l.state = .idle) (place : l.sendPlace.isSome = true)
    (receiver : l.receiver ≠ .inReception) : l.returnToRest now = { l with pairAtRest := true }.beginSending := by
  have unmeasured : { l with pairAtRest := true }.measureRest now = { l with pairAtRest := true } := by
    simp only [Line.measureRest, idle]
  rw [Line.returnToRest, unmeasured]
  exact examine_begins idle place rfl receiver

end Sys2Proof.Machine

namespace Sys2Proof.Proofs

open Sys2Proof.Machine

/-- Settles O20: the 1 bits of a byte are counted one by one (`onesOf_eq`). -/
theorem characterCheckResults : Obligations.CharacterCheckResults := by
  intro data parityBit stopBit
  refine ⟨?_, by simp [sampledChar], rfl⟩
  rw [sampledChar_parityError, onesOf_eq]

/-- Settles O19: the line after a return to rest in each line state (`returnToRest_level` and its fellows), and the
sample and the arming by their own tests. -/
theorem pairAndReceiverEvents : Obligations.PairAndReceiverEvents := by
  refine ⟨fun s idle => ⟨exec_pairLeaves_idle idle, exec_pairReturns_idle idle⟩, fun s works => ?_⟩
  have returns (level : s.line.pairAtRest = false) {l : Line} (h : s.line.returnToRest s.run.clock = l) :
      exec .pairReturnsToRest s = .next { s with line := l } :=
    (exec_pairReturns works level).trans (next_onLine h)
  refine ⟨exec_pairLeaves works, fun level disturbed receiver => returns level ?_,
    fun level receiving discard receiver => returns level ?_,
    fun level idle place receiver => ⟨_, exec_pairReturns works level, ?_⟩,
    fun level disturbed taken => returns level ?_, fun level receiving discard taken => returns level ?_,
    fun level elsewhere => returns level (returnToRest_level _ elsewhere), fun line edge rest => ?_,
    fun line edge active => ?_, fun disarmed rest => ?_⟩
  · rw [returnToRest_disturbed _ disturbed, if_pos receiver]
    rfl
  · rw [returnToRest_discarding _ receiving discard, if_pos receiver]
    rfl
  · simp only [onLine_line, returnToRest_begins _ idle place receiver]
    exact ⟨rfl, rfl, rfl, by rw [State.onLine, returnToRest_begins _ idle place receiver]⟩
  · rw [returnToRest_disturbed _ disturbed, if_neg (by simp [taken])]
  · rw [returnToRest_discarding _ receiving discard, if_neg (by simp [taken])]
  · refine (exec_startBit works line).trans (next_onLine ?_)
    rw [Line.sampleStart, if_neg (by simp [edge]), if_pos rest]
  · refine (exec_startBit works line).trans (next_onLine ?_)
    rw [Line.sampleStart, if_neg (by simp [edge]), if_neg (by simp [active])]
  · exact (exec_arm works).trans (next_onLine (if_pos ⟨disarmed, rest⟩))

end Sys2Proof.Proofs
end

section
/-! What a complete character means in each line state, and the tries that a character or a timer ends (01, R4, R8 to
R13; 03, R49). -/

namespace Sys2Proof.Machine

variable {s : State} {l : Line} {now : Word} {passed : Bool} {c : RxChar}

/-! ### A character in each line state -/

theorem takeCharacter_stray (h : l.state = .idle ∨ l.state = .quiet) :
    l.takeCharacter now passed c = ((l.countStray 1).enterQuiet now, none) := by
  rcases h with idle | quiet
  · simp only [Line.takeCharacter, idle]
  · simp only [Line.takeCharacter, quiet]

theorem takeCharacter_disturbed (h : l.state = .disturbed) :
    l.takeCharacter now passed c = ((l.countStray 1).measureRest now, none) := by
  simp only [Line.takeCharacter, h]

theorem takeCharacter_damaged (h : l.state = .awaiting ∨ l.state = .receiving ∧ l.discard = false)
    (damaged : c.damaged = true) : l.takeCharacter now passed c = (l.charError now, some .charError) := by
  rcases h with awaiting | ⟨receiving, discard⟩
  · simp [Line.takeCharacter, awaiting, damaged]
  · simp [Line.takeCharacter, receiving, discard, damaged]

theorem sampledChar_intact {data : Byte} {parityBit : Bool}
    (intact : (sampledChar data parityBit true).parityError = false) :
    (sampledChar data parityBit true).damaged = false := by
  rw [RxChar.damaged, intact]
  rfl

theorem takeCharacter_awaited {data : Byte} {parityBit : Bool} (h : l.state = .awaiting)
    (intact : (sampledChar data parityBit true).parityError = false) :
    l.takeCharacter now passed (sampledChar data parityBit true) = l.awaited now passed data := by
  simp only [Line.takeCharacter, h, sampledChar_intact intact]
  rfl

theorem awaited_lead {data : Byte} (lead : data = 0xC3#8) :
    l.awaited now passed data = ({ l with
      state := .receiving, discard := false, reply := .stopped, assembler := [data]
      interChar := some ⟨now, .chars Config.interCharacterChars⟩ }, none) := if_pos lead

theorem awaited_stray {data : Byte} (other : data ≠ 0xC3#8) (waiting : l.reply ≠ .expiryHeld) :
    l.awaited now passed data = (l.countStray 1, none) := (if_neg other).trans (if_neg waiting)

theorem awaited_held {data : Byte} (other : data ≠ 0xC3#8) (held : l.reply = .expiryHeld) :
    l.awaited now passed data = ((l.countStray 1).noReply passed, some .noReply) := (if_neg other).trans (if_pos held)

theorem takeCharacter_held (h : l.state = .receiving) (discard : l.discard = true) :
    l.takeCharacter now passed c = (l.hold now c, none) := by
  simp [Line.takeCharacter, h, discard]

theorem takeCharacter_assembled {data : Byte} {parityBit : Bool} (h : l.state = .receiving)
    (discard : l.discard = false)
    (intact : (sampledChar data parityBit true).parityError = false) :
    l.takeCharacter now passed (sampledChar data parityBit true) = l.assemble now data := by
  simp only [Line.takeCharacter, h, discard, sampledChar_intact intact]
  rfl

/-! ### Its completion -/

/-- The line once a sampled character is complete, before it is taken. -/
def State.sampled (s : State) (stopBit : Bool) : Line :=
  { s.line with receiver := if stopBit then .armed else .disarmed, lastStopAt := s.run.clock }

theorem characterEnds_sampled (s : State) (data : Byte) (parityBit stopBit : Bool) :
    s.line.characterEnds s.run.clock (sampledChar data parityBit stopBit) = s.sampled stopBit := by
  cases stopBit <;> rfl

theorem sampled_receiver (s : State) (stopBit : Bool) : (s.sampled stopBit).receiver ≠ .inReception := by
  cases stopBit <;> simp [State.sampled]

/-- A character that ends no try changes the line alone. -/
theorem receive_silent {data : Byte} {parityBit stopBit : Bool}
    (h : (s.sampled stopBit).takeCharacter s.run.clock s.gapPassed (sampledChar data parityBit stopBit) = (l, none)) :
    s.receive (sampledChar data parityBit stopBit) = { s with line := l } := by
  simp only [State.receive, characterEnds_sampled, h]
  rfl

/-- A character that ends a try with a result other than NO_REPLY. -/
theorem receive_ends {data : Byte} {parityBit stopBit : Bool} {how : Ending} (other : how ≠ .noReply)
    (h : (s.sampled stopBit).takeCharacter s.run.clock s.gapPassed (sampledChar data parityBit stopBit) =
      (l, some how)) {r : SendRequest} {e : Entry} (place : s.line.sendPlace = some r) (serves : r.serves = some e) :
    s.receive (sampledChar data parityBit stopBit) =
      (({ s with line := l } : State).deliver (how.outcome (s.judgedAgainst e r.expected))).proceed.haltIfQuiet := by
  simp only [State.receive, characterEnds_sampled, h, State.afterEnding, place, exchangeEnded_serves _ r e serves]
  simp only [State.drawGap, Option.some.injEq, other, false_and, if_false]
  rfl

/-- A character that ends a try with NO_REPLY, for which the reply window's expiry has waited (R8). -/
theorem receive_noReply {data : Byte} {parityBit stopBit : Bool}
    (h : (s.sampled stopBit).takeCharacter s.run.clock s.gapPassed (sampledChar data parityBit stopBit) =
      (l, some .noReply)) {r : SendRequest} {e : Entry} (place : s.line.sendPlace = some r)
    (serves : r.serves = some e) :
    s.receive (sampledChar data parityBit stopBit) =
      (({ s with line := l, draws := if gapOpen s.cfg = true then s.draws + 1 else s.draws } : State).deliver
        .noReply).proceed.haltIfQuiet := by
  simp only [State.receive, characterEnds_sampled, h, State.afterEnding, place, exchangeEnded_serves _ r e serves,
    Ending.outcome]
  simp only [State.drawGap, true_and, onLine_cfg]
  split <;> rfl

/-! ### The moves of the line -/

theorem measureRest_disturbed (h : l.state = .disturbed) (receiver : l.receiver ≠ .inReception) :
    l.measureRest now = { l with
      clearTest := if l.pairAtRest then some ⟨now, .chars Config.clearTestChars⟩ else none } := by
  simp [Line.measureRest, h, restFrom_eq, receiver]

theorem measureRest_discarding (h : l.state = .receiving) (discard : l.discard = true)
    (receiver : l.receiver ≠ .inReception) :
    l.measureRest now = { l with
      discardRest := if l.pairAtRest then some ⟨now, .chars Config.interCharacterChars⟩ else none } := by
  simp [Line.measureRest, h, discard, restFrom_eq, receiver]

theorem hold_eq (h : l.state = .receiving) (discard : l.discard = true) (receiver : l.receiver ≠ .inReception) :
    l.hold now c = { l with
      holding := if l.holding.length < Config.holdingMax then l.holding ++ [c] else l.holding
      stray := if l.holding.length < Config.holdingMax then l.stray else satInc l.stray
      discardRest := if l.pairAtRest then some ⟨now, .chars Config.interCharacterChars⟩ else none } := by
  simp only [Line.hold]
  split
  · rw [measureRest_discarding (l := { l with holding := l.holding ++ [c] }) h discard receiver]
  · rw [measureRest_discarding (l := l.countStray 1) h discard receiver, Line.countStray, satAdd_one]

theorem enterIdle_of_empty (h : l.sendPlace = none) :
    l.enterIdle = { l with state := .idle, quietGap := none, clearTest := none } := examine_place h

theorem noReply_eq (l : Line) (passed : Bool) :
    l.noReply passed =
      if passed then
        { l with state := .idle, reply := .stopped, sendPlace := none, quietGap := none, clearTest := none }
      else
        { l with
          state := .quiet, discard := false, assembler := [], reply := .stopped, interChar := none
          discardRest := none, quietGap := some ⟨l.sentAt, .chars Config.quietGapChars⟩, sendPlace := none } := by
  rw [Line.noReply]
  split
  · exact enterIdle_of_empty rfl
  · rfl

theorem charError_eq (h : l.receiver ≠ .inReception) :
    l.charError now = { l with
      state := .receiving, discard := true, assembler := [], reply := .stopped, interChar := none
      discardRest := if l.pairAtRest then some ⟨now, .chars Config.interCharacterChars⟩ else none
      sendPlace := none } := by
  simp [Line.charError, Line.enterDiscard, Line.emptyPlace, restFrom_eq, h]

end Sys2Proof.Machine

namespace Sys2Proof.Proofs

open Sys2Proof.Machine

/-- Settles O21: what a character makes of the line in each of its states (`takeCharacter_stray` and its fellows), and
the free value that decides the gap only where the settings leave it open (`gapOpen_iff`). -/
theorem strayAndHeldCharacters : Obligations.StrayAndHeldCharacters := by
  intro s data parityBit stopBit works receiver
  have takes (line : s.line.state ≠ .sending) {l : Line}
      (h : (s.sampled stopBit).takeCharacter s.run.clock s.gapPassed (sampledChar data parityBit stopBit) =
        (l, none)) : exec (.characterReceived data parityBit stopBit) s = .next { s with line := l } :=
    (exec_character data parityBit stopBit works receiver line).trans (next_congr (receive_silent h))
  refine ⟨fun line => takes ?_ ?_, fun disturbed => takes (by simp [disturbed]) ?_,
    fun awaiting intact stop other waiting => takes (by simp [awaiting]) ?_,
    fun r e awaiting intact stop other held place serves => ?_,
    fun receiving discard => takes (by simp [receiving]) ?_⟩
  · rcases line with idle | quiet
    · simp [idle]
    · simp [quiet]
  · rw [takeCharacter_stray (l := s.sampled stopBit) line, Line.countStray, satAdd_one]
    rfl
  · rw [takeCharacter_disturbed (l := s.sampled stopBit) disturbed,
      measureRest_disturbed (l := (s.sampled stopBit).countStray 1) disturbed (sampled_receiver s stopBit),
      Line.countStray, satAdd_one]
    rfl
  · subst stop
    rw [takeCharacter_awaited (l := s.sampled true) awaiting intact,
      awaited_stray (l := s.sampled true) other waiting, Line.countStray, satAdd_one]
    rfl
  · subst stop
    have ends : (s.sampled true).takeCharacter s.run.clock s.gapPassed (sampledChar data parityBit true) =
        (((s.sampled true).countStray 1).noReply s.gapPassed, some .noReply) :=
      (takeCharacter_awaited (l := s.sampled true) awaiting intact).trans (awaited_held other held)
    refine ⟨s.gapPassed, fun long => ?_, fun short => ?_, ?_⟩
    · simp [State.gapPassed, (gapPassedAtWindow_iff _).2 long]
    · have early : gapPassedAtWindow s.cfg = false := Bool.eq_false_iff.2 fun h => by
        have := (gapPassedAtWindow_iff _).1 h
        omega
      have closed : gapOpen s.cfg = false := Bool.eq_false_iff.2 fun h => by
        have := (gapOpen_iff _).1 h
        omega
      simp [State.gapPassed, early, closed]
    · rw [exec_character data parityBit true works receiver (by simp [awaiting]), receive_noReply ends place serves,
        noReply_eq, Line.countStray, satAdd_one]
      simp only [gapOpen_iff]
      rfl
  · rw [takeCharacter_held (l := s.sampled stopBit) receiving discard,
      hold_eq (l := s.sampled stopBit) receiving discard (sampled_receiver s stopBit)]
    rfl

end Sys2Proof.Proofs
end

section
/-! The settling of the line in STOPPING, the start of the stop drain, and the entry to STOPPING (01, R17; 06, R117 to
R121; 08, R149; 10, R170, R171). -/

namespace Sys2Proof.Machine

variable {s : State}

/-! ### The stop drain -/

theorem works_of_stopping (stopping : s.run.state = .stopping) : s.works = true := by
  simp [State.works, RunState.works, stopping]

theorem works_of_running (running : s.run.state = .running) : s.works = true := by
  simp [State.works, RunState.works, running]

/-- The journal with RUN_STOP submitted and the stop drain begun (R117, R118). -/
def State.drainBegun (s : State) : Journal :=
  { s.journal.stage ⟨.runStop s.sched.cycleNumber, none, s.run.clock⟩ with
    drain := .running, drainTimer := some ⟨s.run.clock, .ms s.cfg.stopDrainLimit⟩ }

/-- The journal with the stop drain begun and, its limit being 0, ended at once (R120). -/
def State.drainDiscarded (s : State) : Journal := { s.drainBegun.discardLeft with drain := .ended, drainTimer := none }

/-- In STOPPING the drain is over: no read waits, no sweep goes on, and the final MARK waits (R121, R149, R160). -/
def State.DrainOver (s : State) (written : Word) : Prop :=
  s.run.state = .stopping ∧ s.port.reads = [] ∧ s.exch.sweepTimer = none ∧ s.exch.sweepInFlight = false ∧
    ((∃ urgent, .mark written urgent ∈ s.port.writes) ∨ ∃ urgent, s.port.heldMark = some ⟨written, urgent⟩)

theorem stage_parts (e : Event) (j : Journal) :
    (j.stage e).written = j.written ∧ (j.stage e).discarded = j.discarded ∧ (j.stage e).drain = j.drain := by
  rw [Journal.stage]
  split <;> exact ⟨rfl, rfl, rfl⟩

theorem drainDiscarded_eq (s : State) :
    s.drainDiscarded =
      let staged := s.journal.stage ⟨.runStop s.sched.cycleNumber, none, s.run.clock⟩
      { staged with
        staging := [], openGap := ⟨0#16, 0#16, 0#16, 0#16⟩, drain := .ended, drainTimer := none
        discarded := satAdd s.journal.discarded
          (staged.staging.length + (staged.staging.map fun x => x.gap.total).sum + staged.openGap.total) } := by
  obtain ⟨-, discarded, -⟩ := stage_parts ⟨.runStop s.sched.cycleNumber, none, s.run.clock⟩ s.journal
  simp only [State.drainDiscarded, State.drainBegun, Journal.discardLeft, Journal.leftOver, discarded]
  rfl

theorem beginDrain_timed (works : s.works = true) (notEnded : s.journal.drain ≠ .ended)
    (limit : s.cfg.stopDrainLimit ≠ 0) : s.beginDrain = { s with journal := s.drainBegun } := by
  simp only [State.beginDrain]
  rw [if_neg limit, submit_of_not_ended _ works notEnded]
  rfl

theorem beginDrain_untimed (works : s.works = true) (notEnded : s.journal.drain ≠ .ended)
    (limit : s.cfg.stopDrainLimit = 0) :
    s.beginDrain = State.endDrain { s with journal := s.drainBegun.discardLeft } := by
  simp only [State.beginDrain]
  rw [if_pos limit, submit_of_not_ended _ works notEnded]
  rfl

/-- A drain that ends when it begins (log entry 13). -/
theorem beginDrain_over (stopping : s.run.state = .stopping) (notEnded : s.journal.drain ≠ .ended)
    (limit : s.cfg.stopDrainLimit = 0) :
    s.beginDrain.journal = s.drainDiscarded ∧ s.beginDrain.DrainOver s.journal.written ∧
      s.beginDrain.haltIfQuiet = s.beginDrain := by
  rw [beginDrain_untimed (works_of_stopping stopping) notEnded limit]
  obtain ⟨parts, reads, -, marked, -⟩ := endDrain_does { s with journal := s.drainBegun.discardLeft }
  obtain ⟨written, -, -⟩ := stage_parts ⟨.runStop s.sched.cycleNumber, none, s.run.clock⟩ s.journal
  refine ⟨by rw [parts]; rfl, ⟨by rw [parts]; exact stopping, reads, by rw [parts], by rw [parts], ?_⟩,
    haltIfQuiet_endDrain _ stopping⟩
  have same : s.drainBegun.discardLeft.written = s.journal.written := written
  rwa [same] at marked

/-! ### The settling -/

theorem atRest_iff (l : Line) :
    l.atRest = true ↔ l.sendPlace = none ∧ (l.state = .idle ∨ l.state = .disturbed) := by simp [Line.atRest]

/-- The line once it has been reported settled (R17). -/
def Line.reported (l : Line) : Line := { l with settled := true, stopLimit := none }

theorem settle_atRest (stopping : s.run.state = .stopping) (unsettled : s.line.settled = false)
    (rest : s.line.atRest = true) : s.settle = (s.onLine Line.reported).beginDrain := by
  rw [State.settle, if_pos ⟨stopping, unsettled⟩, if_pos rest]
  rfl

theorem settle_settled (settled : s.line.settled = true) : s.settle = s := by
  rw [State.settle, if_neg fun ⟨_, unsettled⟩ => by simp [settled] at unsettled]

/-- The stop limit starts once the send place is empty, where the line is not at rest (R17). -/
theorem settle_moving (stopping : s.run.state = .stopping) (unsettled : s.line.settled = false)
    (moving : s.line.atRest = false) :
    s.settle = { s with line := { s.line with
      stopLimit := if s.line.sendPlace = none ∧ s.line.stopLimit = none then some ⟨s.run.clock, .ms 20⟩
        else s.line.stopLimit } } := by
  rw [State.settle, if_pos ⟨stopping, unsettled⟩, if_neg (by simp [moving])]
  split <;> rfl

/-- What a timed settling leaves. -/
theorem settles_timed (stopping : s.run.state = .stopping) (unsettled : s.line.settled = false)
    (rest : s.line.atRest = true) (notEnded : s.journal.drain ≠ .ended) (limit : s.cfg.stopDrainLimit ≠ 0) :
    s.settle = { s with line := s.line.reported, journal := s.drainBegun } ∧ s.settle.haltIfQuiet = s.settle := by
  have settles : s.settle = { s with line := s.line.reported, journal := s.drainBegun } := by
    rw [settle_atRest stopping unsettled rest,
      beginDrain_timed (s := s.onLine Line.reported) (works_of_stopping stopping) notEnded limit]
    rfl
  exact ⟨settles, by rw [settles]; exact haltIfQuiet_draining _ stopping Drain.noConfusion⟩

/-- What a settling leaves whose drain ends at once. -/
theorem settles_over (stopping : s.run.state = .stopping) (unsettled : s.line.settled = false)
    (rest : s.line.atRest = true) (notEnded : s.journal.drain ≠ .ended) (limit : s.cfg.stopDrainLimit = 0) :
    s.settle.line = s.line.reported ∧ s.settle.sched = s.sched ∧ s.settle.journal = s.drainDiscarded ∧
      s.settle.DrainOver s.journal.written ∧ s.settle.haltIfQuiet = s.settle := by
  rw [settle_atRest stopping unsettled rest]
  obtain ⟨journal, ended, halt⟩ := beginDrain_over (s := s.onLine Line.reported) stopping notEnded limit
  exact ⟨by simp, by simp, journal, ended, halt⟩

theorem endCycle_eq (stopping : s.run.state = .stopping) (visit : s.sched.visit = none) :
    s.endCycleInStopping = { s with sched := { s.sched with cycleInProgress := false } } :=
  if_pos ⟨stopping, visit⟩

theorem proceed_stopping (stopping : s.run.state = .stopping) : s.proceed = s.endCycleInStopping.settle := by
  rw [State.proceed, schedule_stopping s (by simp [stopping])]

/-- After a result or a "sent" in STOPPING, with the line on its way to rest. -/
theorem proceed_moving (stopping : s.run.state = .stopping) (visit : s.sched.visit = none)
    (unsettled : s.line.settled = false) (moving : s.line.atRest = false) :
    s.proceed = { s with
      sched := { s.sched with cycleInProgress := false }
      line := { s.line with
        stopLimit := if s.line.sendPlace = none ∧ s.line.stopLimit = none then some ⟨s.run.clock, .ms 20⟩
          else s.line.stopLimit } } := by
  rw [proceed_stopping stopping, endCycle_eq stopping visit]
  exact settle_moving (s := { s with sched := { s.sched with cycleInProgress := false } }) stopping unsettled moving

/-! ### The entry to STOPPING -/

/-- What STOP makes of a run before the line's settling is looked at (R149, R170). -/
def State.stopped (s : State) : State :=
  let withdrawn := (((s.runChange .stopping .none 0#8).onSched fun c =>
    { c with markDue := false }).markFetches).onPort Port.withdrawLive
  if withdrawn.port.sweepReadInFlight then withdrawn else withdrawn.endSweepIfDone

theorem enterStopping_eq (s : State) : s.enterStopping = s.stopped.proceed.haltIfQuiet := rfl

theorem exec_stop_running (released : s.run.resetAsserted = false) (running : s.run.state = .running) :
    exec .stop s = .next s.stopped.proceed.haltIfQuiet := by
  rw [exec_stop released, State.commandStop, if_neg (by simp [running]), if_pos running]
  rfl

@[simp] theorem stopped_keeps (s : State) :
    s.stopped.run = { s.run with state := .stopping, reason := .none, detail := 0#8 } ∧ s.stopped.irq = s.irq ∧
    s.stopped.line = s.line ∧ s.stopped.sched = { s.sched with markDue := false } ∧ s.stopped.journal = s.journal ∧
    s.stopped.memory = s.memory ∧ s.stopped.cfg = s.cfg := by
  simp only [State.stopped]
  split <;> simp [State.cfg]

theorem endCycle_cycleNumber (s : State) : s.endCycleInStopping.sched.cycleNumber = s.sched.cycleNumber := by
  rw [State.endCycleInStopping]
  split <;> rfl

theorem drainBegun_congr {t : State} (journal : t.journal = s.journal)
    (number : t.sched.cycleNumber = s.sched.cycleNumber) (clock : t.run.clock = s.run.clock) (cfg : t.cfg = s.cfg) :
    t.drainBegun = s.drainBegun := by
  rw [State.drainBegun, State.drainBegun, journal, number, clock, cfg]

/-- The line at the stop limit, or at the busy limit (R14, R17). -/
theorem enterDisturbed_eq (l : Line) (now : Word) :
    (l.enterDisturbed now).stray = satAdd l.stray l.holding.length ∧
    (l.enterDisturbed now).clearTest =
      if l.pairAtRest = true ∧ l.receiver ≠ .inReception then some ⟨now, .chars 10⟩ else none :=
  ⟨rfl, restFrom_eq l now 10⟩

/-- The state at the stop limit's expiry, before the settling is looked at. -/
theorem disturbed_submitted (works : s.works = true) (notEnded : s.journal.drain ≠ .ended) (e : Option Entry) :
    (s.onLine (·.enterDisturbed s.run.clock)).submitDisturbed e =
      { s with
        line := s.line.enterDisturbed s.run.clock
        journal := s.journal.stage ⟨.lineDisturbed, e, s.run.clock⟩ } :=
  submit_of_not_ended (s := s.onLine (·.enterDisturbed s.run.clock)) _ works notEnded

end Sys2Proof.Machine

namespace Sys2Proof.Proofs

open Sys2Proof.Machine

/-- Settles O18: at each of the four moments the line is at rest and is reported settled, and the drain begins with a
limit (`settles_timed`) or is over at once (`settles_over`). -/
theorem settlingBeginsTheStopDrain : Obligations.SettlingBeginsTheStopDrain := by
  intro s unsettled notBegun place
  have notEnded : s.journal.drain ≠ .ended := by simp [notBegun]
  refine ⟨fun running released atRest => ?stop, fun stopping quiet timer => ?gap, fun stopping timer => ?limit,
    fun stopping visit => ?proceed⟩
  case stop =>
    have stopping : s.stopped.endCycleInStopping.run.state = .stopping := by simp
    have rest : s.stopped.endCycleInStopping.line.atRest = true := by simpa using (atRest_iff _).2 ⟨place, atRest⟩
    have begun : s.stopped.endCycleInStopping.drainBegun = s.drainBegun :=
      drainBegun_congr (by simp) (by simp [endCycle_cycleNumber]) (by simp) (by simp)
    refine ⟨_, exec_stop_running released running, ?_⟩
    rw [proceed_stopping (by simp)]
    by_cases limit : s.cfg.stopDrainLimit = 0
    · obtain ⟨line, -, journal, ended, halt⟩ :=
        settles_over stopping (by simpa using unsettled) rest (by simpa using notEnded) (by simpa using limit)
      rw [halt]
      refine ⟨by simp, line.trans (by simp [Line.reported]), fun timed => absurd limit timed, fun _ => ⟨?_, ?_⟩⟩
      · rw [journal, State.drainDiscarded, begun]
        exact drainDiscarded_eq s
      · have drained : s.stopped.endCycleInStopping.settle.DrainOver s.journal.written := by simpa using ended
        exact drained
    · obtain ⟨settles, halt⟩ :=
        settles_timed stopping (by simpa using unsettled) rest (by simpa using notEnded) (by simpa using limit)
      rw [halt, settles]
      exact ⟨by simp, by simp [Line.reported], fun _ => begun, fun untimed => absurd untimed limit⟩
  case gap =>
    have idle : s.line.enterIdle = { s.line with state := .idle, quietGap := none, clearTest := none } :=
      enterIdle_of_empty place
    have rest : (s.onLine Line.enterIdle).line.atRest = true := by simp [atRest_iff, idle, place]
    have found : (s.onLine Line.enterIdle).line.settled = false := by simpa [idle] using unsettled
    rw [exec_gapExpiry (works_of_stopping stopping) quiet timer]
    refine ⟨fun limit => next_congr ?_, fun limit => ⟨_, rfl, ?_⟩⟩
    · obtain ⟨settles, halt⟩ := settles_timed (s := s.onLine Line.enterIdle) stopping found rest notEnded limit
      rw [halt, settles, onLine_line, idle]
      rfl
    · obtain ⟨line, -, journal, ended, halt⟩ :=
        settles_over (s := s.onLine Line.enterIdle) stopping found rest notEnded limit
      rw [halt]
      exact ⟨by rw [line, onLine_line, idle]; rfl, journal.trans (drainDiscarded_eq s), ended⟩
  case limit =>
    let disturbed : State := { s with
      line := s.line.enterDisturbed s.run.clock
      journal := s.journal.stage ⟨.lineDisturbed, none, s.run.clock⟩ }
    obtain ⟨written, -, drain⟩ := stage_parts ⟨.lineDisturbed, none, s.run.clock⟩ s.journal
    have rest : disturbed.line.atRest = true := (atRest_iff _).2 ⟨rfl, .inr rfl⟩
    have taking : disturbed.journal.drain ≠ .ended := by simpa [disturbed, drain] using notEnded
    obtain ⟨stray, clearTest⟩ := enterDisturbed_eq s.line s.run.clock
    rw [exec_stopLimit stopping timer unsettled, disturbed_submitted (works_of_stopping stopping) notEnded]
    refine ⟨fun limit => ?_, fun limit => ⟨_, rfl, ?_⟩⟩
    · obtain ⟨settles, halt⟩ := settles_timed (s := disturbed) stopping unsettled rest taking limit
      refine ⟨disturbed.line.reported, next_congr ?_, rfl, rfl, rfl, rfl, rfl, rfl, rfl, stray, rfl, rfl, clearTest⟩
      exact halt.trans settles
    · obtain ⟨line, -, journal, ended, halt⟩ := settles_over (s := disturbed) stopping unsettled rest taking limit
      have drained : disturbed.settle.DrainOver s.journal.written := written ▸ ended
      have discarded : (s.journal.stage ⟨.lineDisturbed, none, s.run.clock⟩).discarded = s.journal.discarded :=
        (stage_parts _ _).2.1
      rw [halt, line]
      refine ⟨⟨rfl, rfl, rfl, rfl, rfl, rfl, rfl, stray, rfl, rfl, clearTest⟩, ?_, drained⟩
      rw [journal, drainDiscarded_eq]
  case proceed =>
    have cycled := endCycle_eq stopping visit
    rw [proceed_stopping stopping, cycled]
    refine ⟨fun atRest limit => ?_, fun atRest limit => ?_, fun notIdle notDisturbed => ?_⟩
    · exact (settles_timed (s := { s with sched := { s.sched with cycleInProgress := false } }) stopping unsettled
        ((atRest_iff _).2 ⟨place, atRest⟩) notEnded limit).1
    · obtain ⟨line, sched, journal, ended, -⟩ :=
        settles_over (s := { s with sched := { s.sched with cycleInProgress := false } }) stopping unsettled
          ((atRest_iff _).2 ⟨place, atRest⟩) notEnded limit
      exact ⟨line, sched, journal.trans (drainDiscarded_eq _), ended⟩
    · have moving : s.line.atRest = false := Bool.eq_false_iff.2 fun rest =>
        ((atRest_iff _).1 rest).2.elim notIdle notDisturbed
      rw [settle_moving (s := { s with sched := { s.sched with cycleInProgress := false } }) stopping unsettled moving]
      simp only [place, true_and]

end Sys2Proof.Proofs
end

section
/-! STOP in RUNNING: what becomes of the reads, of the sweep and of the fetches (08, R149; 05, R93; 10, R170). -/

namespace Sys2Proof.Machine

variable {s t : State}

/-! ### The settling and the Memory Port -/

/-- A settling that begins no drain, or one whose drain has a limit, leaves the Memory Port and the stations alone. -/
theorem settle_port (stopping : s.run.state = .stopping) (notEnded : s.journal.drain ≠ .ended)
    (timed : ¬(s.line.sendPlace = none ∧ (s.line.state = .idle ∨ s.line.state = .disturbed)) ∨
      s.cfg.stopDrainLimit ≠ 0) : s.settle.port = s.port ∧ s.settle.exch = s.exch := by
  cases settled : s.line.settled with
  | true => rw [settle_settled settled]; exact ⟨rfl, rfl⟩
  | false =>
    cases rest : s.line.atRest with
    | false => rw [settle_moving stopping settled rest]; exact ⟨rfl, rfl⟩
    | true =>
      have limit := timed.resolve_left (Classical.not_not.2 ((atRest_iff _).1 rest))
      rw [(settles_timed stopping settled rest notEnded limit).1]
      exact ⟨rfl, rfl⟩

/-! ### The reads that are left -/

theorem startTransaction_subset (s : State) : s.startTransaction.port.reads ⊆ s.port.reads := by
  rcases startTransaction_cases s with same | ⟨-, r, rest, reads, started⟩ | ⟨-, w, rest, -, started⟩
  · rw [same]; exact List.Subset.refl _
  · rw [started, reads]; exact List.subset_cons_self _ _
  · rw [started]; exact List.Subset.refl _

theorem requestStatus_subset (s : State) (e : Entry) : (s.requestStatus e).port.reads ⊆ s.port.reads := by
  refine List.Subset.trans (startTransaction_subset _) ?_
  have same : (s.port.requestStatus e).reads = s.port.reads := by
    simp only [Port.requestStatus]
    (repeat' split) <;> rfl
  simp [same]

theorem statusPassOver_subset (es : List Entry) : ∀ s : State, (s.statusPassOver es).port.reads ⊆ s.port.reads := by
  induction es with
  | nil => exact fun s => List.Subset.refl _
  | cons e rest ih =>
    intro s
    rw [State.statusPassOver]
    refine List.Subset.trans (ih _) ?_
    split
    · exact requestStatus_subset s e
    · exact List.Subset.refl _

/-- Outside RUNNING a sweep asks for the released count alone (R143). -/
theorem beginSweep_subset (notRunning : s.run.state ≠ .running) :
    s.beginSweep.port.reads ⊆ s.port.reads ++ [.released] := by
  refine List.Subset.trans (startTransaction_subset _) ?_
  simp [State.sweepReadList, notRunning, Port.requestReads]

theorem endSweepIfDone_subset (notRunning : s.run.state ≠ .running) :
    s.endSweepIfDone.port.reads ⊆ s.port.reads ++ [.released] := by
  have passed : s.statusPass.port.reads ⊆ s.port.reads ++ [.released] :=
    List.Subset.trans (statusPassOver_subset _ s) (List.subset_append_left _ _)
  rw [State.endSweepIfDone]
  split
  · simp only [State.endSweep]
    split
    · refine List.Subset.trans (beginSweep_subset (by simpa using notRunning)) ?_
      exact List.append_subset.2 ⟨passed, List.subset_append_right _ _⟩
    · exact passed
  · exact List.subset_append_left _ _

theorem settle_subset (s : State) : s.settle.port.reads ⊆ s.port.reads := by
  rw [State.settle]
  split
  · split
    · simp only [State.beginDrain]
      split
      · have none : ∀ u : State, u.endDrain.port.reads = [] := fun u => (endDrain_does u).2.1
        rw [State.expireDrain, none]
        exact List.nil_subset _
      · simp
    split <;> exact List.Subset.refl _
  · exact List.Subset.refl _

theorem mem_withdrawLive (p : Port) (r : Read) : r ∈ p.withdrawLive.reads ↔ r ∈ p.reads ∧ r.isLive = false := by
  simp [Port.withdrawLive]

/-- No live-part read waits once STOP has been taken (R149). -/
theorem stopped_noLive (s : State) (e : Entry) : .live e ∉ s.stopped.port.reads := by
  have withdrawn : .live e ∉ s.port.withdrawLive.reads := by simp [mem_withdrawLive, Read.isLive]
  simp only [State.stopped]
  split
  · simpa using withdrawn
  · intro waits
    have found := endSweepIfDone_subset (by simp) waits
    simp [Port.withdrawLive, Read.isLive] at found

/-! ### The sweep at STOP -/

/-- The reads that STOP leaves waiting. -/
def State.readsKept (s : State) : List Read := s.port.reads.filter fun r => decide (∀ e, r ≠ .live e)

theorem withdrawLive_reads (s : State) : s.port.withdrawLive.reads = s.readsKept := by
  refine List.filter_congr fun r _ => ?_
  cases r <;> simp [Read.isLive]

/-- A read of the sweep is still to come or in flight once the live-part reads are withdrawn. -/
theorem sweepReading_iff (s : State) :
    (s.port.withdrawLive.sweepReadInFlight = true ∨ s.port.withdrawLive.sweepReads ≠ []) ↔
      .released ∈ s.port.reads ∨ (∃ a, s.port.inFlight = some (.read .released a)) ∨
        ∃ e a, s.port.inFlight = some (.read (.live e) a) := by
  have flight : s.port.withdrawLive.sweepReadInFlight = true ↔ (∃ a, s.port.inFlight = some (.read .released a)) ∨
      ∃ e a, s.port.inFlight = some (.read (.live e) a) := by
    simp only [Port.sweepReadInFlight, Port.withdrawLive]
    split
    next r a found => cases r <;> simp [Read.ofSweep, found]
    next other =>
      refine ⟨nofun, ?_⟩
      rintro (⟨a, found⟩ | ⟨e, a, found⟩)
      · exact absurd found (other _ _)
      · exact absurd found (other _ _)
  have waits : s.port.withdrawLive.sweepReads ≠ [] ↔ .released ∈ s.port.reads := by
    rw [Port.sweepReads, ne_eq, List.filter_eq_nil_iff]
    constructor
    · intro h
      obtain ⟨r, some⟩ := Classical.not_forall.1 h
      obtain ⟨waits, sweeps⟩ := Classical.not_imp.1 some
      obtain ⟨found, notLive⟩ := (mem_withdrawLive _ _).1 waits
      cases r with
      | released => exact found
      | live e => simp [Read.isLive] at notLive
      | start i | image e => simp [Read.ofSweep] at sweeps
    · exact fun found none => none .released ((mem_withdrawLive _ _).2 ⟨found, rfl⟩) rfl
  rw [flight, waits, or_comm]

/-- A run withdrawn from its live-part reads, before its sweep is looked at (R149). -/
def State.withdrawn (s : State) : State :=
  (((s.runChange .stopping .none 0#8).onSched fun c => { c with markDue := false }).markFetches).onPort
      Port.withdrawLive

theorem stopped_eq (s : State) :
    s.stopped = if s.withdrawn.port.sweepReadInFlight then s.withdrawn else s.withdrawn.endSweepIfDone := rfl

@[simp] theorem withdrawn_port (s : State) : s.withdrawn.port = s.port.withdrawLive := by simp [State.withdrawn]

@[simp] theorem withdrawn_exch (s : State) : s.withdrawn.exch = s.exch := by simp [State.withdrawn]

theorem withdrawn_station (s : State) (e : Entry) :
    s.withdrawn.station e = { s.station e with output := (s.station e).output.markDiscard } := by
  simp [State.withdrawn, State.markFetches, State.station, State.runChange, State.onRun, State.onSched, State.onPort]

/-- A sweep that has a read left goes on (R149). -/
theorem stopped_reading (h : s.exch.sweepInFlight = false ∨ s.port.withdrawLive.sweepReadInFlight = true ∨
    s.port.withdrawLive.sweepReads ≠ []) : s.stopped = s.withdrawn := by
  rw [stopped_eq]
  split
  · rfl
  next notReading =>
    rw [State.endSweepIfDone, if_neg]
    rintro ⟨sweeps, none⟩
    rcases h with still | reading | waits
    · simp [still] at sweeps
    · exact notReading (by simpa using reading)
    · exact waits (by simpa using none)

theorem stopped_swept (h : s.exch.sweepInFlight = true)
    (done : ¬(s.port.withdrawLive.sweepReadInFlight = true ∨ s.port.withdrawLive.sweepReads ≠ [])) :
    s.stopped = s.withdrawn.endSweep := by
  obtain ⟨notReading, none⟩ := not_or.1 done
  rw [stopped_eq, if_neg (by simpa using notReading), State.endSweepIfDone, if_pos]
  exact ⟨by simpa using h, by simpa using none⟩

/-- With a transaction in flight, a request for reads joins them to the list (R152). -/
theorem requestReads_flight (rs : List Read) (flight : s.port.inFlight.isSome = true) :
    (s.requestReads rs).port = { s.port with reads := s.port.reads ++ rs } := by
  obtain ⟨x, found⟩ := Option.isSome_iff_exists.1 flight
  rw [State.requestReads, startTransaction_of_flight (x := x) (by exact found)]
  rfl

/-- What the end of a sweep makes of the Exchange Unit and of the Memory Port, with a transaction in flight (R142, R143,
R148). -/
theorem endSweep_flight (flight : s.port.inFlight.isSome = true) :
    s.endSweep.port.reads = s.port.reads ++ (if s.exch.sweepAgain then s.sweepReadList else []) ∧
    s.endSweep.exch = { s.exch with
      sweepInFlight := s.exch.sweepAgain, sweepAgain := false, sweepCount := s.exch.sweepCount + 1#32 } ∧
    (∀ e, (s.station e).takesPart = true → (s.station e).link.countersChanged = true →
      .status e ∈ s.endSweep.port.writes ∨ s.endSweep.port.owed[e.val] = true) ∧
    ∀ e, s.endSweep.station e = { s.station e with
      link := { (s.station e).link with
        countersChanged := (s.station e).link.countersChanged && !(s.station e).takesPart } } := by
  obtain ⟨x, found⟩ := Option.isSome_iff_exists.1 flight
  obtain ⟨-, reads, status, station⟩ := statusPassOver_does s.takingPart s
  obtain ⟨kept, -⟩ := reads (.inl flight)
  have still : (s.statusPassOver s.takingPart).port.inFlight = some x :=
    (flightUpkeep x).statusPassOver _ found
  have asked (e : Entry) (takes : (s.station e).takesPart = true)
      (changed : (s.station e).link.countersChanged = true) :
      .status e ∈ s.statusPass.port.writes ∨ s.statusPass.port.owed[e.val] = true :=
    status e (by simp [State.takingPart, allEntries, takes]) changed
  have marks (e : Entry) : s.statusPass.station e = { s.station e with
      link := { (s.station e).link with
        countersChanged := (s.station e).link.countersChanged && !(s.station e).takesPart } } :=
    (station e).trans (by simp [State.takingPart, allEntries])
  let passed : State := s.statusPass.onExch fun x =>
    { x with sweepInFlight := false, sweepAgain := false, sweepCount := x.sweepCount + 1#32 }
  by_cases again : s.exch.sweepAgain = true
  · have ends : s.endSweep = passed.beginSweep := if_pos again
    have list : passed.sweepReadList = s.sweepReadList := by
      simp [passed, State.sweepReadList, State.takingPart, marks]
    have placed : passed.beginSweep.port =
        { s.statusPass.port with reads := s.statusPass.port.reads ++ s.sweepReadList } := by
      rw [State.beginSweep, requestReads_flight _ (by simp [passed, State.statusPass, still]), list]
      rfl
    rw [ends, placed]
    refine ⟨by simpa [State.statusPass, again] using kept, ?_, asked, fun e => ?_⟩
    · simp [passed, State.beginSweep, State.requestReads, again]
    · simpa [State.beginSweep, State.requestReads, passed] using marks e
  · have ends : s.endSweep = passed := if_neg again
    rw [ends]
    exact ⟨by simpa [passed, State.statusPass, again] using kept, by simp [passed, again], asked, marks⟩

/-! ### The fetches in flight -/

/-- Every fetch in flight is to be thrown away (R93). -/
def State.FetchesMarked (s : State) : Prop :=
  ∀ e, (s.station e).output.fetchInFlight.isSome = true → (s.station e).output.fetchDiscard = true

theorem fetchesMarked_of_outputs (h : s.FetchesMarked) (same : ∀ e, (t.station e).output = (s.station e).output) :
    t.FetchesMarked := fun e => by
  rw [same]
  exact h e

theorem fetchesMarked_statusPass (es : List Entry) (h : s.FetchesMarked) : (s.statusPassOver es).FetchesMarked := by
  obtain ⟨-, -, -, station⟩ := statusPassOver_does es s
  exact fetchesMarked_of_outputs h fun e => by rw [station]

theorem fetchesMarked_endSweep (h : s.FetchesMarked) : s.endSweep.FetchesMarked := by
  have passed := fetchesMarked_statusPass s.takingPart h
  simp only [State.endSweep]
  split
  · exact fetchesMarked_of_outputs passed fun e => by simp [State.statusPass]
  · exact passed

theorem fetchesMarked_stopped (s : State) : s.stopped.FetchesMarked := by
  have marked : s.withdrawn.FetchesMarked := fun e => by
    rw [withdrawn_station]
    intro flight
    simp only [Output.markDiscard, Bool.or_eq_true] at flight ⊢
    exact .inr flight
  rw [stopped_eq]
  split
  · exact marked
  · rw [State.endSweepIfDone]
    split
    · exact fetchesMarked_endSweep marked
    · exact marked

theorem fetchesMarked_endDrain (h : s.FetchesMarked) : s.endDrain.FetchesMarked := by
  let closed : State := ((s.onJournal fun j => { j with drain := .ended, drainTimer := none }).requestMark
    s.journal.written false).onExch fun x => { x with sweepTimer := none, sweepAgain := false, sweepInFlight := false }
  have swept : closed.statusPass.FetchesMarked :=
    fetchesMarked_statusPass _ (fetchesMarked_of_outputs h fun e => by simp [closed])
  intro e
  rw [State.endDrain, onPort_station, discardFetches_station]
  simp only
  split
  · exact nofun
  · exact swept e

theorem fetchesMarked_settle (h : s.FetchesMarked) : s.settle.FetchesMarked := by
  rw [State.settle]
  split
  · split
    · simp only [State.beginDrain]
      split
      · rw [State.expireDrain]
        exact fetchesMarked_endDrain (fetchesMarked_of_outputs h fun e => by simp)
      · exact fetchesMarked_of_outputs h fun e => by simp
    split
    · exact h
    · exact h
  · exact h

/-! ### What stays -/

theorem alike_stopped (s : State) : s.Alike s.stopped := by
  have withdrawn : s.Alike s.withdrawn :=
    ⟨fun e => by rw [withdrawn_station]; exact ⟨rfl, rfl, rfl, rfl, rfl, rfl⟩, .inl (by simp [State.withdrawn])⟩
  rw [stopped_eq]
  split
  · exact withdrawn
  · exact withdrawn.trans alike_endSweepIfDone

end Sys2Proof.Machine

namespace Sys2Proof.Proofs

open Sys2Proof.Machine

/-- Settles O17: STOP makes of the run `State.stopped`, whose sweep goes on (`stopped_reading`) or ends
(`stopped_swept`, `endSweep_flight`), and the settling that follows leaves the Memory Port alone unless its drain is
over at once (`settle_port`). -/
theorem stopInRunningEntersStopping : Obligations.StopInRunningEntersStopping := by
  intro s released running notBegun
  let u := s.stopped.endCycleInStopping
  have stopping : s.stopped.run.state = .stopping := by simp
  have goesOn : s.stopped.proceed = u.settle := proceed_stopping stopping
  have unquiet : s.stopped.Unquiet := fun ended => by simp [notBegun] at ended
  have exec : exec .stop s = .next u.settle := by
    rw [exec_stop_running released running, goesOn,
      halt_eq (by simp [u, RunState.works]) (goesOn ▸ proceed_unquiet unquiet)]
  have cycle : u.sched = { s.sched with
      markDue := false, cycleInProgress := if s.sched.visit = none then false else s.sched.cycleInProgress } := by
    simp only [u, State.endCycleInStopping]
    split
    next ends => simp_all
    next goes => simp_all
  refine ⟨_, exec, by simp [u], by simp [u], by simp [u], by simp [cycle], by simp [cycle], fun visit => by
    simp [cycle, visit], fun e waits => stopped_noLive s e (by simpa [u] using settle_subset u waits),
    ⟨fun unsettled moving => ?line, fun flight timed => ?port⟩, fun e => ?stations⟩
  case line =>
    have notRest : u.line.atRest = false := Bool.eq_false_iff.2 fun rest =>
      moving ((atRest_iff _).1 (by simpa [u] using rest))
    rw [settle_moving (by simp [u]) (by simpa [u] using unsettled) notRest]
    simp [u]
  case port =>
    obtain ⟨port, exch⟩ := settle_port (s := u) (by simp [u]) (by simp [u, notBegun]) (by simpa [u] using timed)
    have kept : u.settle.port = s.stopped.port ∧ u.settle.exch = s.stopped.exch :=
      ⟨port.trans (by simp [u]), exch.trans (by simp [u])⟩
    rw [kept.1, kept.2]
    refine ⟨fun goes => ?_, fun sweeps done => ?_⟩
    · rw [stopped_reading (goes.imp_right (sweepReading_iff s).2), withdrawn_port, withdrawn_exch]
      exact ⟨withdrawLive_reads s, rfl⟩
    · rw [stopped_swept sweeps (mt (sweepReading_iff s).1 done)]
      obtain ⟨reads, exch, status, -⟩ := endSweep_flight (s := s.withdrawn)
        (by simpa [Port.withdrawLive] using flight)
      have list : s.withdrawn.sweepReadList = [.released] := by simp [State.sweepReadList, State.withdrawn]
      refine ⟨?_, by simpa using exch, fun e takes changed => ?_⟩
      · rw [reads, list, withdrawn_port, withdrawn_exch, withdrawLive_reads]
        rfl
      · exact status e (by simpa [withdrawn_station] using takes) (by simpa [withdrawn_station] using changed)
  case stations =>
    have alike : s.Alike u.settle := ((alike_stopped s).trans alike_endCycle).trans alike_settle
    have marked : u.FetchesMarked := fetchesMarked_of_outputs (fetchesMarked_stopped s) fun e => by simp [u]
    exact ⟨(alike.station e).state, (alike.station e).outstanding, (alike.station e).contacts,
      fetchesMarked_settle marked e⟩

end Sys2Proof.Proofs
end

section
/-! The tries that a character or a timer ends, and how the scheduler goes on after them in RUNNING and in STOPPING (01,
R7 to R14; 03, R49, R54). -/

namespace Sys2Proof.Machine

variable {s t : State} {l : Line} {now : Word}

/-! ### A line that is not IDLE -/

/-- A line that is not IDLE keeps all but its request and the report of its settling (R5, R17). -/
def Line.Holds (kept l : Line) : Prop :=
  l = { kept with sendPlace := l.sendPlace, busy := l.busy, settled := l.settled, stopLimit := l.stopLimit }

theorem holdsUpkeep (kept : Line) (h : kept.state ≠ .idle) : LineUpkeep kept.Holds where
  request l now r found := by
    have state : l.state ≠ .idle := by rw [found]; exact h
    rw [takeRequest_waits l now r state, Line.Holds, found]
  settled l settled limit found := by rw [Line.Holds, found]

/-! ### After an ending in RUNNING -/

/-- Another try is permitted in the visit in progress (R49). -/
structure State.Retries (s : State) (v : Visit) : Prop where
  running : s.run.state = .running
  visit : s.sched.visit = some v
  tries : v.tries < 1 + s.cfg.retryLimit
  enabled : (s.station v.entry).link.disablePending = false

/-- The try ends with a failure: its outcome is counted and the same request is made again (R49). -/
theorem State.Retries.deliver (h : s.Retries v) (o : TryOutcome) (failure : o.result = none) :
    (s.deliver o).proceed.haltIfQuiet =
      { s.onLink v.entry (·.countOutcome o) with
        line := s.line.takeRequest s.run.clock v.request
        sched := { s.sched with visit := some { v with tries := v.tries + 1 } } } := by
  rw [deliver_retry s v o h.visit failure h.running h.tries h.enabled]
  rw [proceed_running _ (by simpa using h.running), schedule_visit _ rfl,
      haltIfQuiet_running _ (by simpa using h.running)]

theorem running_goesOn (running : s.run.state = .running) : s.proceed.haltIfQuiet = s.schedule := by
  rw [proceed_running s running, haltIfQuiet_running _ (by simpa using running)]

/-- In STOPPING, with the line on its way to rest and the drain not ended (R17, R44). -/
theorem stopping_goesOn (stopping : s.run.state = .stopping) (notEnded : s.journal.drain ≠ .ended)
    (visit : s.sched.visit = none) (unsettled : s.line.settled = false) (moving : s.line.atRest = false) :
    s.proceed.haltIfQuiet = { s with
      sched := { s.sched with cycleInProgress := false }
      line := { s.line with
        stopLimit := if s.line.sendPlace = none ∧ s.line.stopLimit = none then some ⟨s.run.clock, .ms 20⟩
          else s.line.stopLimit } } := by
  rw [proceed_moving stopping visit unsettled moving]
  exact haltIfQuiet_draining _ stopping notEnded

/-- The ending of the exchange of a station's request reaches the scheduler as an outcome (R16, R37). -/
theorem afterEnding_serves {r : SendRequest} {e : Entry} (serves : r.serves = some e) (how : Ending) :
    s.afterEnding (some r) (some how) =
      (s.deliver (how.outcome (s.judgedAgainst e r.expected))).proceed.haltIfQuiet := by
  rw [← exchangeEnded_serves s r e serves how]
  rfl

theorem State.Retries.onLine {v : Visit} (h : s.Retries v) (l : Line) : ({ s with line := l } : State).Retries v :=
  ⟨h.running, h.visit, h.tries, h.enabled⟩

/-! ### The assembly of a reply -/

theorem assemble_continues {data : Byte} (short : (l.assembler ++ [data]).length = 5 → data.toNat ≤ 24)
    (unfinished : 5 ≤ (l.assembler ++ [data]).length →
      (l.assembler ++ [data]).length ≠ 7 + (byteAt (l.assembler ++ [data]) 4).toNat) :
    l.assemble now data =
      ({ l with assembler := l.assembler ++ [data], interChar := some ⟨now, .chars Config.interCharacterChars⟩ },
        none) := by
  have max : Config.payloadMax = 24 := rfl
  have notLong : ¬((l.assembler ++ [data]).length = 5 ∧ Config.payloadMax < data.toNat) := fun ⟨five, long⟩ => by
    have := short five
    omega
  have unexpected : expectedLength (l.assembler ++ [data]) ≠ some (l.assembler ++ [data]).length := by
    rw [expectedLength]
    split
    · simp
    next full => simpa using fun same => unfinished (Nat.le_of_not_lt full) (by simpa using same.symm)
  simp only [Line.assemble]
  rw [if_neg notLong, if_neg unexpected]

theorem assemble_completes {data : Byte} (short : (l.assembler ++ [data]).length ≠ 5 ∨ data.toNat ≤ 24)
    (full : 5 ≤ (l.assembler ++ [data]).length)
    (length : (l.assembler ++ [data]).length = 7 + (byteAt (l.assembler ++ [data]) 4).toNat) :
    l.assemble now data = ((l.enterQuiet now).emptyPlace, some (.sequence false (l.assembler ++ [data]))) := by
  have max : Config.payloadMax = 24 := rfl
  have notLong : ¬((l.assembler ++ [data]).length = 5 ∧ Config.payloadMax < data.toNat) := fun ⟨five, long⟩ => by
    rcases short with notFive | low
    · exact notFive five
    · omega
  have expected : expectedLength (l.assembler ++ [data]) = some (l.assembler ++ [data]).length := by
    rw [expectedLength, if_neg (by omega), ← length]
  simp only [Line.assemble]
  rw [if_neg notLong, if_pos expected]

theorem assemble_overlong {data : Byte} (five : (l.assembler ++ [data]).length = 5) (long : 24 < data.toNat) :
    l.assemble now data = ((l.enterDiscard now).emptyPlace, some (.sequence true (l.assembler ++ [data]))) := by
  simp only [Line.assemble]
  exact if_pos ⟨five, long⟩

end Sys2Proof.Machine

namespace Sys2Proof.Proofs

open Sys2Proof.Machine

/-- Settles O26: the answer's two courses (`exec_frameSent`), and in STOPPING the settling of a line in QUIET
(`proceed_moving`). -/
theorem frameSentTurnsThePairRound : Obligations.FrameSentTurnsThePairRound := by
  intro s r works line place
  let quiet : Line := { s.line with
    state := .quiet, sentAt := s.run.clock, quietGap := some ⟨s.run.clock, .chars 4⟩, sendPlace := none }
  have sent (mark : r.expectsReply = false) : s.line.frameSent s.run.clock s.cfg.responseWindow r = quiet :=
    if_neg (by simp [mark])
  refine ⟨fun reply => ?_, fun mark running => ?_, fun mark stopping notEnded visit unsettled => ?_⟩
  · rw [exec_frameSent works line place, if_pos reply]
    exact next_onLine (if_pos reply)
  · refine ⟨({ s with line := quiet } : State).schedule, ?_, rfl, ?_⟩
    · rw [exec_frameSent works line place, if_neg (by simp [mark]), State.onLine, sent mark]
      exact next_congr (running_goesOn (s := { s with line := quiet }) running)
    · have kept := (holdsUpkeep quiet LineState.noConfusion).schedule (s := { s with line := quiet }) rfl
      exact ⟨by rw [kept], by rw [kept]; rfl, by rw [kept]⟩
  · rw [exec_frameSent works line place, if_neg (by simp [mark]), State.onLine, sent mark,
      stopping_goesOn (s := { s with line := quiet }) stopping notEnded visit unsettled rfl]
    simp [quiet]

/-- Settles O22: the lead character (`awaited_lead`) and a character that neither completes the frame nor is too long a
length (`assemble_continues`). -/
theorem replyIsAssembled : Obligations.ReplyIsAssembled := by
  intro s data parityBit works receiver intact
  have takes (line : s.line.state ≠ .sending) {l : Line}
      (h : (s.sampled true).takeCharacter s.run.clock s.gapPassed (sampledChar data parityBit true) = (l, none)) :
      exec (.characterReceived data parityBit true) s = .next { s with line := l } :=
    (exec_character data parityBit true works receiver line).trans (next_congr (receive_silent h))
  refine ⟨fun awaiting lead => takes (by simp [awaiting]) ?_,
    fun receiving discard short unfinished => takes (by simp [receiving]) ?_⟩
  · exact (takeCharacter_awaited (l := s.sampled true) awaiting intact).trans (awaited_lead lead)
  · exact (takeCharacter_assembled (l := s.sampled true) receiving discard intact).trans
      (assemble_continues (l := s.sampled true) short unfinished)

/-- Settles O23: CHAR_ERROR begins the discard period (`charError_eq`), and the same request waits in RECEIVING
(`State.Retries.deliver`). -/
theorem damagedCharacterEndsTheTry : Obligations.DamagedCharacterEndsTheTry := by
  intro s v data parityBit stopBit running receiver line damaged visit place serves tries enabled
  have retries : s.Retries v := ⟨running, visit, tries, enabled⟩
  have notSending : s.line.state ≠ .sending := by
    rcases line with awaiting | ⟨receiving, -⟩
    · simp [awaiting]
    · simp [receiving]
  have ends := takeCharacter_damaged (l := s.sampled stopBit) (now := s.run.clock) (passed := s.gapPassed) line damaged
  rw [exec_character data parityBit stopBit (works_of_running running) receiver notSending,
    receive_ends (by simp) ends place serves, (retries.onLine _).deliver _ rfl,
    takeRequest_waits _ _ _ (by simp [charError_eq (sampled_receiver s stopBit)]),
    charError_eq (sampled_receiver s stopBit), ← place]
  rfl

/-- Settles O27: the expiry is held (`exec_replyWindow_held`) or ends the try, and the request is made again on the line
that NO_REPLY or TRUNCATED leaves (`noReply_eq`). -/
theorem replyTimersEndTheTry : Obligations.ReplyTimersEndTheTry := by
  intro s v running visit place serves tries enabled
  have retries : s.Retries v := ⟨running, visit, tries, enabled⟩
  have works := works_of_running running
  let counted (o : TryOutcome) (line : Line) : State :=
    { s.onLink v.entry (·.countOutcome o) with
      line := line.takeRequest s.run.clock v.request
      sched := { s.sched with visit := some { v with tries := v.tries + 1 } } }
  have retried (o : TryOutcome) (failure : o.result = none) (line : Line) :
      (({ s with line := line } : State).deliver o).proceed.haltIfQuiet = counted o line :=
    (retries.onLine line).deliver o failure
  refine ⟨fun timer awaiting reply receiver => exec_replyWindow_held works awaiting reply receiver,
    fun timer awaiting reply receiver => ⟨counted .noReply (s.line.noReply (gapPassedAtWindow s.cfg)), ?_, rfl,
      fun short => ?_, fun long => ?_⟩, fun receiving timer => ?_⟩
  · rw [exec_replyWindow works awaiting reply receiver, place, afterEnding_serves serves]
    exact next_congr (retried .noReply rfl _)
  · have early : gapPassedAtWindow s.cfg = false := Bool.eq_false_iff.2 fun h => by
      have := (gapPassedAtWindow_iff _).1 h
      omega
    simp only [counted, early, noReply_eq]
    rw [takeRequest_waits _ _ _ (by simp), ← place]
    rfl
  · have passed : gapPassedAtWindow s.cfg = true := (gapPassedAtWindow_iff _).2 long
    simp only [counted, passed, noReply_eq, if_true, Line.takeRequest, Line.pairFree]
    cases rest : s.line.pairAtRest with
    | false => simp [Config.busyLimitMs]
    | true => simp [receiver, Line.beginSending]
  · rw [exec_characterLimit works receiving timer, place, afterEnding_serves serves]
    refine next_congr ((retried .truncated rfl _).trans ?_)
    simp only [counted]
    rw [takeRequest_waits _ _ _ LineState.noConfusion, ← place]
    rfl

end Sys2Proof.Proofs
end

section
/-! The timers of the line: the discard period, the quiet gap, the clear test and the busy limit (01, R5, R11 to R15;
03, R54). -/

namespace Sys2Proof.Machine

variable {s t : State} {l : Line}

/-! ### Where a line timer neither settles the line nor ends the run -/

theorem settle_still (h : s.run.state = .running ∨ s.line.settled = true ∨
    s.line.atRest = false ∧ (s.line.sendPlace.isSome = true ∨ s.line.stopLimit.isSome = true)) : s.settle = s := by
  rcases h with running | settled | ⟨moving, waits⟩
  · exact settle_running s running
  · exact settle_settled settled
  · rw [State.settle]
    split
    · rw [if_neg (by simp [moving]), if_neg]
      rintro ⟨place, limit⟩
      simp [place, limit] at waits
    · rfl

/-- A run that goes on: RUNNING, or STOPPING with something left to wait for. -/
def State.GoesOn (s : State) : Prop :=
  s.run.state = .running ∨ s.run.state = .stopping ∧ (s.journal.drain ≠ .ended ∨ s.port.quiet = false)

theorem State.GoesOn.works (h : s.GoesOn) : s.works = true := by
  rcases h with running | ⟨stopping, -⟩
  · exact works_of_running running
  · exact works_of_stopping stopping

theorem State.GoesOn.halt (h : s.GoesOn) : s.haltIfQuiet = s := by
  rcases h with running | ⟨stopping, waits⟩
  · exact haltIfQuiet_running s running
  · refine halt_eq (works_of_stopping stopping) fun ended => ?_
    exact waits.resolve_left (Classical.not_not.2 ended)

/-! ### The quiet gap and the clear test -/

theorem enterIdle_waits (h : l.sendPlace = none ∨ l.pairAtRest = false ∨ l.receiver = .inReception) :
    l.enterIdle = { l with state := .idle, quietGap := none, clearTest := none } := by
  rcases h with none | active | taken
  · exact enterIdle_of_empty none
  · exact if_neg fun ⟨_, _, free⟩ => by simp [Line.pairFree, active] at free
  · exact examine_taken taken

theorem enterIdle_begins (place : l.sendPlace.isSome = true) (rest : l.pairAtRest = true)
    (receiver : l.receiver ≠ .inReception) :
    l.enterIdle = { l with state := .idle, quietGap := none, clearTest := none }.beginSending :=
  examine_begins rfl place rest receiver

@[simp] theorem examine_settled (l : Line) : l.examine.settled = l.settled := by
  rw [Line.examine]
  split <;> rfl

theorem submit_drain (j : Journal) (e : Event) : (j.submit e).drain = j.drain := by
  rw [Journal.submit]
  split
  · rfl
  · exact (stage_parts e j).2.2

theorem submit_works (e : Event) (works : s.works = true) : s.submit e = { s with journal := s.journal.submit e } :=
  if_pos works

end Sys2Proof.Machine

namespace Sys2Proof.Proofs

open Sys2Proof.Machine

/-- Settles O28: each timer's move of the line, with no settling (`settle_still`) and no end of the run
(`State.GoesOn.halt`). -/
theorem lineTimersInRunning : Obligations.LineTimersInRunning := by
  intro s run
  have goesOn : s.GoesOn := run.imp_right fun ⟨stopping, waits, _⟩ => ⟨stopping, waits⟩
  have limited : s.run.state = .running ∨ s.line.settled = true ∨ s.line.stopLimit.isSome = true :=
    run.imp_right fun ⟨_, _, limited⟩ => limited
  have works := goesOn.works
  refine ⟨fun receiving discard timer => ?discard, fun quiet timer free => ?gap,
      fun disturbed timer place free => ?clear⟩
  case discard =>
    have still : (s.onLine (·.endDiscard s.run.clock)).settle = s.onLine (·.endDiscard s.run.clock) :=
      settle_still (limited.imp_right (Or.imp_right fun limit =>
          ⟨by simp [Line.atRest, Line.endDiscard, Line.enterQuiet], .inr limit⟩))
    rw [exec_discardEnd works receiving discard timer, still]
    exact next_congr (State.GoesOn.halt goesOn)
  case gap =>
    have still : (s.onLine Line.enterIdle).settle = s.onLine Line.enterIdle := by
      refine settle_still ?_
      rcases free with running | settled | place
      · exact .inl running
      · exact .inr (.inl (by simpa [Line.enterIdle] using settled))
      · refine .inr (.inr ⟨?_, .inl ?_⟩)
        · simp [Line.atRest, Line.enterIdle, Option.isSome_iff_ne_none.1 place]
        · simpa [Line.enterIdle] using place
    rw [exec_gapExpiry works quiet timer, still]
    refine ⟨s.onLine Line.enterIdle, next_congr (State.GoesOn.halt goesOn), rfl, enterIdle_waits,
      fun place rest receiver => ?_⟩
    rw [onLine_line, enterIdle_begins place rest receiver]
    exact ⟨rfl, rfl, rfl⟩
  case clear =>
    obtain ⟨ms, near, shown⟩ := disturbedFor_cases (Config.cutShort s.draws) s.line
    have cleared : s.line.clear =
        { s.line with state := .idle, quietGap := none, clearTest := none, disturbed := false } :=
      enterIdle_of_empty (l := { s.line with disturbed := false }) place
    refine ⟨ms, near, ?_⟩
    let now : State := { s with
      line := { s.line with state := .idle, quietGap := none, clearTest := none, disturbed := false }
      draws := s.draws + 1
      journal := s.journal.submit ⟨.lineClear (BitVec.ofNat 16 (min 65535 ms)), none, s.run.clock⟩ }
    have still : now.settle = now := settle_still (free.imp_right Or.inl)
    have goes : now.GoesOn := goesOn.imp_right fun ⟨stopping, waits⟩ =>
      ⟨stopping, waits.imp_left fun going ended => going ((submit_drain _ _).symm.trans ended)⟩
    rw [exec_clearTest works disturbed timer, State.onLine, cleared, shown,
      submit_works (s := { s with line := _, draws := s.draws + 1 }) _ works]
    exact next_congr ((congrArg State.haltIfQuiet still).trans goes.halt)

end Sys2Proof.Proofs
end

section
/-! The busy limit: the line becomes DISTURBED, a station's request ends as LINE_DISTURBED, and the scheduler goes on
with every request refused (01, R5, R14; 03, R44 to R47, R54). -/

namespace Sys2Proof.Machine

variable {s t u : State}

/-! ### A station under refused visits -/

/-- A station with no disable pending keeps its misses, its WAITs and its contacts. -/
def Station.Unharmed (kept st : Station) : Prop :=
  kept.link.disablePending = false → st.link.disablePending = false ∧ st.link.misses = kept.link.misses ∧
    st.link.waits = kept.link.waits ∧ st.contacts = kept.contacts

/-- A station with no disable pending keeps its link state and its outstanding command. -/
def Station.SameOrder (kept st : Station) : Prop :=
  kept.link.disablePending = false → st.link.disablePending = false ∧ st.link.state = kept.link.state ∧
    st.link.outstanding = kept.link.outstanding

theorem endVisit_free {st : Station} (settings : Settings) (now : Word) (free : st.link.disablePending = false) :
    st.endVisit settings now .line = (st, []) := by
  simp [Station.endVisit, Station.takeResult, free]

theorem testHold_eq (now : Word) (l : Link) : l.testHold now = { l with holdUntil := (l.testHold now).holdUntil } := by
  rw [Link.testHold]
  split
  · split <;> rfl
  · rfl

theorem schedule_unharmed (s : State) (e : Entry) : (s.station e).Unharmed (s.schedule.station e) := by
  refine schedule_stations s (P := fun e st => (s.station e).Unharmed st) (fun _ _ h => ⟨h, h⟩) ?_ ?_ ?_
    (fun _ free => ⟨free, rfl, rfl, rfl⟩) e
  · intro e st now h
    rw [testHold_eq]
    exact h
  · intro e st h free
    obtain ⟨pending, misses, waits, contacts⟩ := h free
    obtain ⟨-, -, contacts', misses', waits', -, -, pending', -⟩ := beginVisit_keeps_station st
    exact ⟨pending'.trans pending, misses'.trans misses, waits'.trans waits, contacts'.trans contacts⟩
  · intro e st settings now h free
    rw [endVisit_free settings now (h free).1]
    exact h free

/-- A station with a command outstanding keeps it while its visits are refused (R47, R54). -/
theorem schedule_sameOrder (s : State) (e : Entry) (order : (s.station e).link.outstanding.isSome = true) :
    (s.station e).SameOrder (s.schedule.station e) := by
  refine schedule_stations s
    (P := fun e st => (s.station e).link.outstanding.isSome = true → (s.station e).SameOrder st)
    (fun _ _ h => ⟨h, h⟩) ?_ ?_ ?_ (fun _ _ free => ⟨free, rfl, rfl⟩) e order
  · intro e st now h
    rw [testHold_eq]
    exact h
  · intro e st h order free
    obtain ⟨pending, state, outstanding⟩ := h order free
    obtain ⟨o, some⟩ := Option.isSome_iff_exists.1 (outstanding ▸ order)
    rw [beginVisit_resend st o some]
    exact ⟨pending, state, outstanding⟩
  · intro e st settings now h order free
    rw [endVisit_free settings now (h order free).1]
    exact h order free

/-! ### The scheduler on a DISTURBED line -/

theorem sendDueMark_disturbed (line : s.line.state = .disturbed) :
    s.sendDueMark = { s with sched := { s.sched with markDue := false } } := by
  rw [State.sendDueMark]
  split
  · exact if_pos (by simp [State.refuses, line])
  next none => rw [← Bool.eq_false_iff.2 none]

theorem walk_refused (s : State) (line : s.line.state = .disturbed) (works : s.works = true)
    (visit : s.sched.visit = none) :
    s.Refused (allEntries.filter fun e => decide (s.sched.nextIndex ≤ e.val)) s.walk :=
  walkOver_refused _ s line works visit ((notPassed_sorted _).imp Fin.ne_of_lt)

theorem schedule_free (running : s.run.state = .running) (line : s.line.state = .disturbed)
    (visit : s.sched.visit = none) (place : s.line.sendPlace = none) :
    s.schedule = ({ s with sched := { s.sched with markDue := false } } : State).continueCycle := by
  rw [State.schedule, if_pos ⟨running, visit, place⟩, sendDueMark_disturbed line]
  exact if_neg (by simp [place])

theorem continueCycle_visit (line : s.line.state = .disturbed) (works : s.works = true) (visit : s.sched.visit = none) :
    s.continueCycle.sched.visit = none := by
  let walked := if s.sched.cycleInProgress then s.walk else s
  have kept : walked.line.state = .disturbed ∧ walked.works = true ∧ walked.sched.visit = none := by
    simp only [walked]
    split
    · have refused := walk_refused s line works visit
      rw [refused.parts]
      exact ⟨line, works, by rw [refused.sched]; exact visit⟩
    · exact ⟨line, works, visit⟩
  obtain ⟨line', works', visit'⟩ := kept
  change (if walked.sched.cycleInProgress = false ∧ walked.sched.cycleTimer = .expired then
    (walked.startCycle (walked.sched.cycleNumber + 1#32)).walk else walked).sched.visit = none
  split
  · rw [(walk_refused (walked.startCycle _) line' works' visit').sched]
    exact visit'
  · exact visit'

theorem schedule_visit_none (running : s.run.state = .running) (line : s.line.state = .disturbed)
    (place : s.line.sendPlace = none) (visit : s.sched.visit = none) : s.schedule.sched.visit = none := by
  rw [schedule_free running line visit place]
  exact continueCycle_visit line (works_of_running running) visit

/-- While the cycle timer runs, the stations passed are passed for good (R44, R45). -/
theorem continueCycle_passed (line : s.line.state = .disturbed) (works : s.works = true) (visit : s.sched.visit = none)
    (timer : s.sched.cycleTimer ≠ .expired) (e : Entry) (passed : e.val < s.sched.nextIndex) :
    s.continueCycle.station e = s.station e := by
  have refused := walk_refused s line works visit
  rw [State.continueCycle]
  split
  · rw [if_neg fun ⟨_, expired⟩ => timer (by rw [refused.sched] at expired; exact expired), refused.stations,
      if_neg fun member => Nat.not_le_of_lt passed ((mem_notPassed _ _).1 member)]
  · rw [if_neg fun ⟨_, expired⟩ => timer expired]

/-! ### The staging queue -/

/-- The staging queue begins with what it held. -/
theorem stagingUpkeep (held : List Staged) : Upkeep fun s => held <+: s.journal.staging where
  same h _ staging _ _ := staging ▸ h
  submit s e h := by
    rw [State.submit]
    split
    · rw [onJournal_journal, Journal.submit]
      split
      · exact h
      · rw [Journal.stage]
        split
        · exact h.trans (List.prefix_append _ _)
        · exact h
    · exact h
  status s e h := by simpa using h
  reads s rs h := by simpa using h

/-! ### What the busy limit leaves for the scheduler -/

/-- The state at the busy limit, before the scheduler goes on. -/
def State.busyOver (r : SendRequest) (s : State) : State :=
  (if r.serves.isSome then (s.onLine (·.enterDisturbed s.run.clock)).deliver .lineDisturbed
    else s.onLine (·.enterDisturbed s.run.clock)).submitDisturbed r.serves

theorem deliver_refused (s : State) (v : Visit) (visit : s.sched.visit = some v) :
    s.deliver .lineDisturbed = s.endVisit v.entry .line := by
  rw [deliver_result s v .lineDisturbed .line visit rfl]
  have same : s.onLink v.entry (·.countOutcome .lineDisturbed) = s :=
    congrArg (fun stations => ({ s with stations := stations } : State)) (Vector.set_getElem_self v.entry.isLt)
  rw [same]

theorem endVisit_sched (s : State) (e : Entry) (result : VisitResult) :
    (s.endVisit e result).sched = { s.sched with visit := none, nextIndex := e.val + 1 } := by
  simp [State.endVisit]

theorem report_nothing (s : State) (e : Entry) : (s.report e []).journal = s.journal := by
  change (State.submitAll [] _).journal = _
  simp only [State.submitAll, List.foldl_nil]
  split <;> simp

theorem refused_journal (s : State) (e : Entry) (free : (s.station e).link.disablePending = false) :
    (s.endVisit e .line).journal = s.journal := by
  rw [State.endVisit, endVisit_free _ _ free, report_nothing]
  rfl

theorem refused_unharmed (s : State) (e e' : Entry) : (s.station e').Unharmed ((s.endVisit e .line).station e') :=
  endVisit_stations s (P := fun e st => (s.station e).Unharmed st) (fun _ _ h => ⟨h, h⟩) e .line
    (fun _ free => by rw [endVisit_free _ _ free]; exact ⟨free, rfl, rfl, rfl⟩) (fun _ free => ⟨free, rfl, rfl, rfl⟩) e'

theorem refused_sameOrder (s : State) (e e' : Entry) : (s.station e').SameOrder ((s.endVisit e .line).station e') :=
  endVisit_stations s (P := fun e st => (s.station e).SameOrder st) (fun _ _ h => ⟨h, h⟩) e .line
    (fun _ free => by rw [endVisit_free _ _ free]; exact ⟨free, rfl, rfl⟩) (fun _ free => ⟨free, rfl, rfl⟩) e'

/-- What the busy limit leaves for the scheduler. -/
structure State.BusyOver (s : State) (r : SendRequest) (u : State) : Prop where
  run : u.run = s.run
  irq : u.irq = s.irq
  memory : u.memory = s.memory
  line : u.line = s.line.enterDisturbed s.run.clock
  drain : u.journal.drain = s.journal.drain
  timer : u.sched.cycleTimer = s.sched.cycleTimer
  visit : r.serves.isSome = true ∨ s.sched.visit = none → u.sched.visit = none
  unharmed : ∀ e, (s.station e).Unharmed (u.station e)
  passed : ∀ v, s.sched.visit = some v → r.serves.isSome = true → u.sched.nextIndex = v.entry.val + 1
  sameOrder : ∀ e, (s.station e).SameOrder (u.station e)
  staging : s.journal.staging.length < 32 →
    (∀ v, s.sched.visit = some v → (s.station v.entry).link.disablePending = false) →
    u.journal.staging = s.journal.staging ++ [⟨⟨.lineDisturbed, r.serves, s.run.clock⟩, s.journal.openGap⟩]

/-- The LINE_DISTURBED event changes the journal alone. -/
theorem submitDisturbed_journal (works : s.works = true) (going : s.journal.drain ≠ .ended) (e : Option Entry) :
    (s.submitDisturbed e).journal = s.journal.stage ⟨.lineDisturbed, e, s.run.clock⟩ :=
  congrArg State.journal (submit_of_not_ended _ works going)

theorem busyOver_does (s : State) (r : SendRequest) (works : s.works = true) (going : s.journal.drain ≠ .ended) :
    s.BusyOver r (s.busyOver r) := by
  let disturbed := s.onLine (·.enterDisturbed s.run.clock)
  -- The visit, where the request is a station's, ends as a Visit LINE; what is left is the event.
  have staged (handed : State) (same : handed.run = s.run)
      (kept : handed.journal.drain = s.journal.drain) (settled : (∀ v, s.sched.visit = some v →
        (s.station v.entry).link.disablePending = false) → handed.journal = s.journal) :
      (handed.submitDisturbed r.serves).journal.drain = s.journal.drain ∧ (s.journal.staging.length < 32 →
        (∀ v, s.sched.visit = some v → (s.station v.entry).link.disablePending = false) →
        (handed.submitDisturbed r.serves).journal.staging =
          s.journal.staging ++ [⟨⟨.lineDisturbed, r.serves, s.run.clock⟩, s.journal.openGap⟩]) := by
    have works' : handed.works = true := by rw [State.works, same]; exact works
    rw [submitDisturbed_journal works' (kept ▸ going)]
    refine ⟨(stage_parts _ _).2.2.trans kept, fun room free => ?_⟩
    rw [settled free, same, Journal.stage_of_lt _ room]
  by_cases handsOver : r.serves.isSome = true ∧ s.sched.visit.isSome = true
  · obtain ⟨serves, some⟩ := handsOver
    obtain ⟨v, visit⟩ := Option.isSome_iff_exists.1 some
    have ends : s.busyOver r = (disturbed.endVisit v.entry .line).submitDisturbed r.serves := by
      rw [State.busyOver, if_pos serves, deliver_refused (s.onLine _) v visit]
    have kept : (disturbed.endVisit v.entry .line).journal.drain = s.journal.drain := by
      rw [← deliver_refused disturbed v visit]
      exact (drainUpkeep _).deliver .lineDisturbed rfl
    have unharmed : ∀ e, (s.station e).Unharmed ((disturbed.endVisit v.entry .line).station e) :=
      refused_unharmed disturbed v.entry
    have sameOrder : ∀ e, (s.station e).SameOrder ((disturbed.endVisit v.entry .line).station e) :=
      refused_sameOrder disturbed v.entry
    obtain ⟨drain, staging⟩ := staged (disturbed.endVisit v.entry .line) (by simp [disturbed]) kept
        (fun free => refused_journal disturbed v.entry (free v visit))
    rw [ends]
    exact {
      run := by simp [disturbed]
      irq := by simp [disturbed]
      memory := by simp [disturbed]
      line := by simp [disturbed]
      drain := drain
      timer := by simp [endVisit_sched, disturbed]
      visit := fun _ => by simp [endVisit_sched]
      unharmed := fun e => by simpa using unharmed e
      passed := fun v' visit' _ => by
        cases visit.symm.trans visit'
        simp [endVisit_sched]
      sameOrder := fun e => by simpa using sameOrder e
      staging := staging }
  · have ends : s.busyOver r = disturbed.submitDisturbed r.serves := by
      rw [State.busyOver]
      split
      next serves =>
        have none : s.sched.visit = none := by simpa [serves] using handsOver
        rw [State.deliver]
        split
        · rfl
        next v visit => exact absurd (none.symm.trans visit) (by simp)
      · rfl
    obtain ⟨drain, staging⟩ := staged disturbed rfl rfl fun _ => rfl
    rw [ends]
    exact {
      run := by simp [disturbed]
      irq := by simp [disturbed]
      memory := by simp [disturbed]
      line := by simp [disturbed]
      drain := drain
      timer := by simp [disturbed]
      visit := fun none => by
        have : s.sched.visit = .none := none.elim (fun serves => by simpa [serves] using handsOver) id
        simpa [disturbed] using this
      unharmed := fun e free => by simpa [disturbed] using free
      passed := fun v visit serves => absurd ⟨serves, by simp [visit]⟩ handsOver
      sameOrder := fun e free => by simpa [disturbed] using free
      staging := staging }

/-- What the scheduler makes of a DISTURBED line with an empty send place, in RUNNING and in STOPPING. -/
structure State.WentOn (u t : State) : Prop where
  line : t.line = u.line ∨ t.line = u.line.reported
  run : t.run = u.run
  irq : t.irq = u.irq
  memory : t.memory = u.memory
  visit : u.sched.visit = none → t.sched.visit = none
  unharmed : ∀ e, (u.station e).Unharmed (t.station e)
  sameOrder : ∀ e, u.sched.visit = none → e.val < u.sched.nextIndex →
    (u.station e).link.outstanding.isSome = true ∨ u.sched.cycleTimer ≠ .expired ∨ u.run.state = .stopping →
    (u.station e).SameOrder (t.station e)
  staging : u.journal.staging <+: t.journal.staging

theorem disturbed_running (running : u.run.state = .running) (line : u.line.state = .disturbed)
    (place : u.line.sendPlace = none) : u.WentOn u.schedule where
  line := .inl (schedule_disturbed u line)
  run := by simp
  irq := by simp
  memory := by simp
  visit := schedule_visit_none running line place
  unharmed := schedule_unharmed u
  sameOrder e visit passed waits := by
    rcases waits with order | timer | stopping
    · exact schedule_sameOrder u e order
    · rw [schedule_free running line visit place,
        continueCycle_passed (s := { u with sched := { u.sched with markDue := false } }) line
          (works_of_running running) visit timer e passed]
      exact fun free => ⟨free, rfl, rfl⟩
    · simp [running] at stopping
  staging := (stagingUpkeep u.journal.staging).schedule (List.prefix_refl _)

theorem disturbed_stopping (stopping : u.run.state = .stopping) (line : u.line.state = .disturbed)
    (place : u.line.sendPlace = none) (going : u.journal.drain ≠ .ended) (limit : u.cfg.stopDrainLimit ≠ 0) :
    u.WentOn u.proceed.haltIfQuiet := by
  let ended := u.endCycleInStopping
  have parts : ended = { u with sched := ended.sched } ∧ ended.sched.visit = u.sched.visit := by
    simp only [ended, State.endCycleInStopping]
    split <;> exact ⟨rfl, rfl⟩
  obtain ⟨same, visit⟩ := parts
  have stopping' : ended.run.state = .stopping := by rw [same]; exact stopping
  have going' : ended.journal.drain ≠ .ended := by rw [same]; exact going
  -- What is left is the report that the line has settled, and with it the drain's begin.
  suffices shown : ∃ line journal, (line = u.line ∨ line = u.line.reported) ∧ u.journal.staging <+: journal.staging ∧
      u.proceed.haltIfQuiet = { u with line := line, sched := ended.sched, journal := journal } by
    obtain ⟨line, journal, lines, staging, all⟩ := shown
    rw [all]
    exact ⟨lines, rfl, rfl, rfl, fun none => visit.trans none, fun e free => ⟨free, rfl, rfl, rfl⟩,
      fun e _ _ _ free => ⟨free, rfl, rfl⟩, staging⟩
  rw [proceed_stopping stopping]
  change ∃ line journal, _ ∧ _ ∧ ended.settle.haltIfQuiet = _
  cases settled : u.line.settled with
  | true =>
    refine ⟨u.line, u.journal, .inl rfl, List.prefix_refl _, ?_⟩
    rw [settle_settled (by rw [same]; exact settled), haltIfQuiet_draining _ stopping' going', same]
  | false =>
    have unsettled : ended.line.settled = false := by rw [same]; exact settled
    have rest : ended.line.atRest = true := by rw [same]; exact (atRest_iff _).2 ⟨place, .inr line⟩
    obtain ⟨settles, halt⟩ := settles_timed stopping' unsettled rest going' (by rw [same]; exact limit)
    have begun : u.journal.staging <+: ended.drainBegun.staging := by
      have kept : u.journal.staging = ended.journal.staging := by rw [same]
      have held : u.journal.staging <+: ended.journal.staging := kept ▸ List.prefix_refl _
      have prefixed := (stagingUpkeep u.journal.staging).submit ended
        ⟨.runStop ended.sched.cycleNumber, none, ended.run.clock⟩ held
      rw [submit_of_not_ended _ (works_of_stopping stopping') going'] at prefixed
      exact prefixed
    exact ⟨u.line.reported, ended.drainBegun, .inr rfl, begun, halt.trans (settles.trans (by rw [same]))⟩

end Sys2Proof.Machine

namespace Sys2Proof.Proofs

open Sys2Proof.Machine

/-- Settles O29: the request's end at the busy limit (`busyOver_does`), and the scheduler on the DISTURBED line it
leaves (`disturbed_running`, `disturbed_stopping`). -/
theorem busyLimitDisturbsTheLine : Obligations.BusyLimitDisturbsTheLine := by
  intro s r works place timer notBegun limit
  have going : s.journal.drain ≠ .ended := by simp [notBegun]
  have handed := busyOver_does s r works going
  have line : (s.busyOver r).line.state = .disturbed := by rw [handed.line]; rfl
  have empty : (s.busyOver r).line.sendPlace = none := by rw [handed.line]; rfl
  have went : (s.busyOver r).WentOn (s.busyOver r).proceed.haltIfQuiet := by
    have cases : s.run.state = .running ∨ s.run.state = .stopping := by
      simpa [State.works, RunState.works] using works
    rcases cases with running | stopping
    · have running' : (s.busyOver r).run.state = .running := by rw [handed.run]; exact running
      rw [running_goesOn running']
      exact disturbed_running running' line empty
    · exact disturbed_stopping (by rw [handed.run]; exact stopping) line empty (handed.drain ▸ going)
        (by rw [State.cfg, handed.run]; exact limit)
  have lines : (s.busyOver r).proceed.haltIfQuiet.line = s.line.enterDisturbed s.run.clock ∨
      (s.busyOver r).proceed.haltIfQuiet.line = (s.line.enterDisturbed s.run.clock).reported := by
    rw [← handed.line]
    exact went.line
  obtain ⟨stray, clearTest⟩ := enterDisturbed_eq s.line s.run.clock
  have exec : exec .busyLimitExpiry s = .next (s.busyOver r).proceed.haltIfQuiet := exec_busyLimit works timer place
  generalize (s.busyOver r).proceed.haltIfQuiet = t at exec went lines
  generalize s.busyOver r = u at handed went
  have kept : ∀ e, (s.station e).link.disablePending = false →
      (t.station e).link.misses = (s.station e).link.misses ∧ (t.station e).link.waits = (s.station e).link.waits ∧
      (t.station e).contacts = (s.station e).contacts := fun e free => by
    obtain ⟨pending, misses, waits, contacts⟩ := handed.unharmed e free
    obtain ⟨-, misses', waits', contacts'⟩ := went.unharmed e pending
    exact ⟨misses'.trans misses, waits'.trans waits, contacts'.trans contacts⟩
  have line : t.line = { s.line.enterDisturbed s.run.clock with settled := t.line.settled } := by
    rcases lines with same | reported
    · rw [same]
    · rw [reported]; rfl
  refine ⟨t, exec, ?_⟩
  rw [line]
  refine ⟨rfl, rfl, rfl, rfl, rfl, rfl, stray, rfl, clearTest, went.run.trans handed.run, went.irq.trans handed.irq,
    went.memory.trans handed.memory, fun ends => went.visit (handed.visit ends), fun v visit serves free waits => ?_,
    fun room free => ?_, kept⟩
  · have visitor : r.serves.isSome = true := by simp [serves]
    obtain ⟨pending, state, outstanding⟩ := handed.sameOrder v.entry free
    have passed : v.entry.val < u.sched.nextIndex := by rw [handed.passed v visit visitor]; omega
    obtain ⟨-, state', outstanding'⟩ := went.sameOrder v.entry (handed.visit (.inl visitor)) passed
      (by rwa [outstanding, handed.timer, handed.run]) pending
    exact ⟨state'.trans state, outstanding'.trans outstanding⟩
  · obtain ⟨more, staging⟩ := went.staging
    exact ⟨more, by rw [← staging, handed.staging room free]; simp⟩

end Sys2Proof.Proofs
end

section
/-! How a try ends at the Line Engine, the outcome that reaches the scheduler, and how the scheduler goes on (01, R8 to
R12, R16; 03, R49). -/

namespace Sys2Proof.Machine

variable {s : State} {v : Visit}

/-! ### After an outcome -/

/-- In STOPPING no further try is made, so an outcome ends the visit (R49). -/
theorem deliver_visit_stopping (stopping : s.run.state = .stopping) (visit : s.sched.visit = some v) (o : TryOutcome) :
    (s.deliver o).sched.visit = none := by
  cases result : o.result with
  | some result' => rw [deliver_result s v o result' visit result, endVisit_sched]
  | none => rw [deliver_miss s v o visit result (.inr (.inl (by simp [stopping]))), endVisit_sched]

/-- How the run goes on after an outcome, on a line that is neither IDLE nor DISTURBED. -/
structure State.GoesOnAfter (s u t : State) : Prop where
  running : s.run.state = .running → t = u.schedule
  stopping : s.run.state = .stopping → t = u.proceed ∧ t.sched.visit = none ∧ t.sched.cycleInProgress = false ∧
    (s.line.settled = false → s.line.stopLimit = none → t.line.stopLimit = some ⟨s.run.clock, .ms 20⟩)
  line : s.line.Holds t.line

theorem deliver_goesOn (run : s.run.state = .running ∨ s.run.state = .stopping ∧ s.journal.drain ≠ .ended)
    (visit : s.sched.visit = some v) (notIdle : s.line.state ≠ .idle) (notDisturbed : s.line.state ≠ .disturbed)
    (place : s.line.sendPlace = none) (o : TryOutcome) :
    s.GoesOnAfter (s.deliver o) (s.deliver o).proceed.haltIfQuiet := by
  have kept : s.line.Holds (s.deliver o).line := (holdsUpkeep s.line notIdle).deliver o rfl
  have proceeds : s.line.Holds (s.deliver o).proceed.line := (holdsUpkeep s.line notIdle).proceed kept
  rcases run with running | ⟨stopping, going⟩
  · have goes := running_goesOn (s := s.deliver o) (by simpa using running)
    refine ⟨fun _ => goes, fun stopping => by simp [running] at stopping, ?_⟩
    rw [goes]
    exact (holdsUpkeep s.line notIdle).schedule kept
  · have stopping' : (s.deliver o).run.state = .stopping := by simpa using stopping
    have none := deliver_visit_stopping stopping visit o
    have line : (s.deliver o).line = s.line := deliver_line_of_ne o (by simp [stopping])
    have drain : (s.deliver o).journal.drain = s.journal.drain := (drainUpkeep _).deliver o rfl
    have moving : s.line.atRest = false := Bool.eq_false_iff.2 fun rest =>
      ((atRest_iff _).1 rest).2.elim notIdle notDisturbed
    have settles : (s.deliver o).proceed.haltIfQuiet = (s.deliver o).proceed ∧
        (s.deliver o).proceed.sched = { (s.deliver o).sched with cycleInProgress := false } ∧
        (s.line.settled = false → s.line.stopLimit = .none →
          (s.deliver o).proceed.line.stopLimit = some ⟨s.run.clock, .ms 20⟩) := by
      cases settled : s.line.settled with
      | true =>
        have proceed : (s.deliver o).proceed =
            { s.deliver o with sched := { (s.deliver o).sched with cycleInProgress := false } } := by
          rw [proceed_stopping stopping', endCycle_eq stopping' none]
          exact settle_settled (s := { s.deliver o with sched := _ }) (by rw [line]; exact settled)
        rw [proceed]
        exact ⟨haltIfQuiet_draining _ stopping' (drain ▸ going), rfl, fun unsettled => by simp at unsettled⟩
      | false =>
        have proceed := proceed_moving stopping' none (line ▸ settled) (line ▸ moving)
        rw [proceed]
        refine ⟨haltIfQuiet_draining _ stopping' (drain ▸ going), rfl, fun _ unlimited => ?_⟩
        simp [line, place, unlimited]
    obtain ⟨halt, sched, limit⟩ := settles
    rw [halt]
    exact ⟨fun running => by simp [running] at stopping,
        fun _ => ⟨rfl, by rw [sched]; exact none, by rw [sched], limit⟩,
      proceeds⟩

end Sys2Proof.Machine

namespace Sys2Proof.Proofs

open Sys2Proof.Machine

/-- Settles O24: the complete sequence and the one whose length is too long (`assemble_completes`, `assemble_overlong`)
reach the scheduler (`deliver_goesOn`), the other endings leave their lines (`noReply_eq`, `charError_eq`), and each
outcome is counted once (`deliver_result`, `deliver_miss`, `deliver_retry`). -/
theorem completeSequenceIsJudged : Obligations.CompleteSequenceIsJudged := by
  refine ⟨?sequences, ?endings, ?outcomes⟩
  case sequences =>
    intro s v data parityBit run receiver line discard intact visit place serves chars against taken goesOn
    have works : s.works = true := run.elim works_of_running fun ⟨stopping, _⟩ => works_of_stopping stopping
    -- The sampled character ends the try with a sequence, and its line goes on from `l`.
    have ends {l : Line} {outOfRange : Bool} {sequence : List Byte}
        (assembled : (s.sampled true).assemble s.run.clock data = (l, some (.sequence outOfRange sequence)))
        (notIdle : l.state ≠ .idle) (notDisturbed : l.state ≠ .disturbed) (empty : l.sendPlace = none)
        (settled : l.settled = s.line.settled) (limit : l.stopLimit = s.line.stopLimit) :
        ∃ t, exec (.characterReceived data parityBit true) s = .next t ∧
          goesOn (({ s with line := l } : State).deliver (judge against outOfRange sequence)) t ∧ l.Holds t.line := by
      have on := deliver_goesOn (s := { s with line := l }) run visit notIdle notDisturbed empty
        (judge against outOfRange sequence)
      refine ⟨_, ?_, ⟨on.running, fun stopping => ?_⟩, on.line⟩
      · rw [exec_character data parityBit true works receiver (by simp [line])]
        have taken := (takeCharacter_assembled (l := s.sampled true) (now := s.run.clock) (passed := s.gapPassed)
          line discard intact).trans assembled
        exact next_congr (receive_ends (by simp) taken place serves)
      · obtain ⟨proceeds, none, cycle, stops⟩ := on.stopping stopping
        exact ⟨proceeds, none, cycle, fun unsettled unlimited => stops (settled.trans unsettled)
            (limit.trans unlimited)⟩
    refine ⟨fun short full length => ?_, fun five long => ?_⟩
    · obtain ⟨t, runs, on, held⟩ := ends (assemble_completes (l := s.sampled true) short full length)
        LineState.noConfusion LineState.noConfusion rfl rfl rfl
      exact ⟨t, runs, on, by rw [held]; rfl, by rw [held]; rfl, by rw [held]; rfl⟩
    · have rest : (s.sampled true).restFrom s.run.clock Config.interCharacterChars =
          if s.line.pairAtRest then some ⟨s.run.clock, .chars 2⟩ else none :=
        (restFrom_eq (s.sampled true) s.run.clock 2).trans (by simp [State.sampled])
      obtain ⟨t, runs, on, held⟩ := ends (assemble_overlong (l := s.sampled true) five long)
        LineState.noConfusion LineState.noConfusion rfl rfl rfl
      refine ⟨t, runs, ?_, by rw [held]; rfl, by rw [held]; rfl, by rw [held]; rfl⟩
      have same : (((s.sampled true).enterDiscard s.run.clock).emptyPlace : Line) = { taken with
          state := .receiving, discard := true
          discardRest := if s.line.pairAtRest then some ⟨s.run.clock, .chars 2⟩ else none } := by
        rw [← rest]
        rfl
      rw [← same]
      exact on
  case endings =>
    intro s r e works place serves ended quiet
    refine ⟨fun receiving timer => ?_, fun timer awaiting reply receiver => ⟨fun short => ?_, fun long => ?_⟩,
      fun data parityBit stopBit receiver line damaged => ?_⟩
    · rw [exec_characterLimit works receiving timer, place, afterEnding_serves serves]
      rfl
    · have early : gapPassedAtWindow s.cfg = false := Bool.eq_false_iff.2 fun h => by
        have := (gapPassedAtWindow_iff _).1 h
        omega
      rw [exec_replyWindow works awaiting reply receiver, place, afterEnding_serves serves, State.onLine, noReply_eq,
          early]
      rfl
    · have passed : gapPassedAtWindow s.cfg = true := (gapPassedAtWindow_iff _).2 long
      rw [exec_replyWindow works awaiting reply receiver, place, afterEnding_serves serves, State.onLine, noReply_eq,
        passed]
      rfl
    · have notSending : s.line.state ≠ .sending := by
        rcases line with awaiting | ⟨receiving, -⟩
        · simp [awaiting]
        · simp [receiving]
      have ends := takeCharacter_damaged (l := s.sampled stopBit) (now := s.run.clock)
          (passed := s.gapPassed) line damaged
      rw [exec_character data parityBit stopBit works receiver notSending, receive_ends (by simp) ends place serves,
        charError_eq (sampled_receiver s stopBit)]
      rfl
  case outcomes =>
    intro s v visit counted again last fails
    have fails' {o : TryOutcome} (failure : o.result = none) (other : o ≠ .lineDisturbed) :
        fails o (Counters.countOutcome o) := by
      have count : s.onLink v.entry (·.countOutcome o) = counted (Counters.countOutcome o) := by
        simp only [Link.countOutcome, if_neg other]
        rfl
      refine ⟨fun ends => (deliver_miss s v o visit failure ends).trans (by rw [count]), fun goesOn => ?_⟩
      simp only [last, not_or, Nat.not_le, ne_eq, Classical.not_not, Bool.not_eq_true] at goesOn
      obtain ⟨tries, running, free⟩ := goesOn
      exact (deliver_retry s v o visit failure running tries free).trans (by rw [count])
    exact ⟨fun snapshot => deliver_result s v (.ok snapshot) _ visit rfl,
      fun hold => deliver_result s v (.wait hold) _ visit rfl,
      deliver_result s v .turnMismatch _ visit rfl, deliver_refused s v visit, fails' rfl (by simp),
      fails' rfl (by simp), fails' rfl (by simp), fails' rfl (by simp), fails' rfl (by simp), fails' rfl (by simp)⟩

end Sys2Proof.Proofs
end

section
/-! The two ends of a start that the commands make: START, which places the start reads, and STOP in STARTING, which
abandons the start once its read in flight has ended (07, R159, R169). -/

namespace Sys2Proof.Machine

variable {s : State}

theorem haltIfQuiet_busy (starting : s.run.state = .starting) (busy : s.port.inFlight.isSome = true) :
    s.haltIfQuiet = s := by
  rw [State.haltIfQuiet, if_neg (by simp [starting]), if_neg]
  rintro ⟨-, -, idle⟩
  simp [idle] at busy

/-- A read that ends an abandoned start, with nothing waiting behind it, returns the run to HALTED (R169). -/
theorem endRead_abandoned (starting : s.run.state = .starting) (abandoned : s.run.startAbandoned = true)
    (reads : s.port.reads = []) (writes : s.port.writes = []) :
    s.endRead.haltIfQuiet = { s with
      run := { s.run with
        state := .halted, reason := .none, detail := 0#8, startImage := ⟨[], []⟩, startAbandoned := false }
      irq := { s.irq with cause := s.irq.cause ||| 0b00010#5 }
      port := { s.port with inFlight := none } } := by
  have ended : s.endRead = s.onPort fun p => { p with inFlight := none } := by
    simp [State.endRead, State.startTransaction, State.chooseTransaction, reads, writes]
  rw [ended, State.haltIfQuiet, if_neg (by simp [starting]), if_pos ⟨starting, abandoned, rfl⟩]
  rfl

end Sys2Proof.Machine

namespace Sys2Proof.Proofs

open Sys2Proof.Machine

/-- Settles O12: the eighteen start reads are placed in an empty Memory Port, and the first of them starts. -/
theorem startPlacesTheStartReads : Obligations.StartPlacesTheStartReads := by
  intro s released halted
  rw [exec_start released, State.commandStart, if_pos halted]
  rfl

/-- Settles O16: STOP withdraws the reads not started, and the completion of the one in flight ends the start
(`endRead_abandoned`). -/
theorem stopInStartingAbandonsTheStart : Obligations.StopInStartingAbandonsTheStart := by
  intro s r a data released starting flight length
  let t : State := ((((s.onPort Port.withdrawReads).onRun fun c => { c with startAbandoned := true }).onLine
    Line.released).onJournal Journal.abandoned).forgetSweeps
  have stops : exec .stop s = .next t := by
    rw [exec_stop released, State.commandStop, if_pos starting]
    refine next_congr (haltIfQuiet_busy (s := t) starting ?_)
    rw [show t.port.inFlight = s.port.inFlight from rfl, flight]
    rfl
  have flight' : t.port.inFlight = some (.read r a) := flight
  refine ⟨t, stops, rfl, fun e => forgetSweeps_station _ e, fun writes c completes => ?_⟩
  have ends := endRead_abandoned (s := t) starting rfl rfl writes
  rcases completes with ⟨kind, rfl⟩ | ⟨kind, rfl⟩
  · obtain ⟨i, rfl⟩ : ∃ i, r = .start i := by
      cases r <;> simp [Read.isStart] at kind ⊢
    rw [exec_startRead (s := t) starting flight' length]
    exact next_congr ends
  · obtain ⟨e, rfl⟩ : ∃ e, r = .image e := by
      cases r <;> simp [Read.isImage] at kind ⊢
    rw [exec_startFetch (s := t) starting flight' length]
    exact next_congr ends

end Sys2Proof.Proofs
end

section
/-! The fault sequence, the late answers and CLEAR_FAULT (07, R158, R172). -/

namespace Sys2Proof.Machine

variable {s : State} {failed : Transaction}

/-- What a fault makes of every unit. -/
theorem fault_does (late : Bool) (flight : s.port.inFlight = some failed) :
    s.fault late = { s.cutOffWrite with
      run := { s.run with
        state := .faulted, reason := .none, detail := 0#8, multiple := false, startAbandoned := false }
      irq := { s.irq with cause := s.irq.cause ||| 0b01010#5, holdOff := none }
      line := s.line.released
      sched := { s.sched with visit := none }
      exch := { s.exch with sweepInFlight := false }
      port := s.port.faulted failed late } := by
  simp only [State.fault, flight]
  refine state_eq (by simp) ?run ?irq (by simp) ?sched (by simp) (by simp) (by simp) (by simp) (by simp) (by simp)
    (by simp)
  case run => simp
  case irq => simp [Interrupt.set, Cause.bit, BitVec.or_assoc]
  case sched => simp [Scheduler.halted]

end Sys2Proof.Machine

namespace Sys2Proof.Proofs

open Sys2Proof.Machine

/-- Settles O55: the fault sequence (`fault_does`) and the write it may cut off (`cutOffWrite_read`), the late answers,
and CLEAR_FAULT in FAULTED. -/
theorem faultsAreCaptured : Obligations.FaultsAreCaptured := by
  refine ⟨fun s failed late transacts flight => ?_, fun s abandoned => exec_lateError abandoned, fun s => rfl,
    fun s released faulted => ?_⟩
  · refine ⟨s.fault late, exec_busFailure late transacts, ?_⟩
    rw [fault_does late flight]
    refine ⟨rfl, rfl, rfl, rfl, rfl, rfl, rfl, rfl, rfl, rfl, rfl, by simp, by simp, by simp, fun x outside => ?_⟩
    exact cutOffWrite_read s x fun w a bytes write => outside w a bytes (Option.some.inj (flight.symm.trans write))
  · rw [exec_clearFault released, State.commandClearFault, if_pos faulted]
    rfl

end Sys2Proof.Proofs
end

section
/-! The completion of the Memory Port's writes: the bytes reach memory, the freed entry is offered, a MARK's records are
announced, and the run in STOPPING may end (06, R111 to R115; 07, R153, R155, R160). -/

namespace Sys2Proof.Machine

variable {s v : State} {p : Port}

/-! ### The entry freed -/

theorem firstOwed_first {e : Entry} (owed : p.owed[e.val] = true) (first : ∀ e' < e, p.owed[e'.val] = false) :
    p.firstOwed = some e := by
  obtain ⟨before, after, split⟩ := List.append_of_mem (List.mem_finRange e)
  have sorted : (before ++ e :: after).Pairwise (· < ·) := split ▸ List.pairwise_lt_finRange 16
  refine List.find?_eq_some_iff_append.2 ⟨owed, before, after, split, fun e' member => ?_⟩
  simpa using first e' ((List.pairwise_append.1 sorted).2.2 e' member e (by simp))

theorem firstOwed_nobody (none : ∀ e : Entry, p.owed[e.val] = false) : p.firstOwed = .none := by
  simp [Port.firstOwed, none]

theorem offerFreed_owed {e : Entry} (owed : p.owed[e.val] = true) (first : ∀ e' < e, p.owed[e'.val] = false) :
    p.offerFreed = { p with writes := p.writes ++ [.status e], owed := p.owed.set e.val false } := by
  simp only [Port.offerFreed, firstOwed_first owed first]

/-- With no status owed the held MARK joins the queue, at its tail MARK where it has one (R155). -/
theorem offerFreed_held (none : ∀ e : Entry, p.owed[e.val] = false) {m : HeldMark} (held : p.heldMark = some m) :
    p.offerFreed = { p.joinMark m.covered m.urgent with heldMark := .none } := by
  simp only [Port.offerFreed, firstOwed_nobody none, held]

theorem offerFreed_nothing (none : ∀ e : Entry, p.owed[e.val] = false) (held : p.heldMark = .none) :
    p.offerFreed = p := by
  simp only [Port.offerFreed, firstOwed_nobody none, held]

theorem joinMark_tail (covered' : Word) (urgent' : Bool) (idle : p.inFlight = none) {covered : Word} {urgent : Bool}
    (last : p.writes.getLast? = some (.mark covered urgent)) :
    p.joinMark covered' urgent' = { p with writes := p.writes.dropLast ++ [.mark covered' (urgent || urgent')] } := by
  simp [Port.joinMark, Port.tailMark, Port.unstarted, Port.writeInFlight, idle, last]

theorem joinMark_new (covered' : Word) (urgent' : Bool)
    (last : ∀ covered urgent, p.writes.getLast? ≠ some (.mark covered urgent)) :
    p.joinMark covered' urgent' = { p with writes := p.writes ++ [.mark covered' urgent'] } := by
  simp only [Port.joinMark, tailMark_of_last last]

/-- What the freed entry makes of the write queue, the owed marks and the held MARK. -/
structure Port.Offered (p q : Port) : Prop where
  owed : ∀ e : Entry, p.owed[e.val] = true → (∀ e' < e, p.owed[e'.val] = false) →
    q.writes = p.writes ++ [.status e] ∧ q.owed = p.owed.set e.val false e.isLt ∧ q.heldMark = p.heldMark
  held : (∀ e : Entry, p.owed[e.val] = false) → q.owed = p.owed ∧ q.heldMark = none ∧
    (p.heldMark = none → q.writes = p.writes) ∧
    ∀ m, p.heldMark = some m →
      (∀ covered urgent, p.writes.getLast? = some (.mark covered urgent) →
        q.writes = p.writes.dropLast ++ [.mark m.covered (urgent || m.urgent)]) ∧
      ((∀ covered urgent, p.writes.getLast? ≠ some (.mark covered urgent)) →
        q.writes = p.writes ++ [.mark m.covered m.urgent])

theorem offerFreed_offered (idle : p.inFlight = none) : p.Offered p.offerFreed where
  owed e owed first := by
    rw [offerFreed_owed owed first]
    exact ⟨rfl, rfl, rfl⟩
  held none := by
    cases held : p.heldMark with
    | none =>
      rw [offerFreed_nothing none held]
      refine ⟨rfl, held, fun _ => rfl, fun m some => by simp at some⟩
    | some m =>
      rw [offerFreed_held none held]
      refine ⟨?_, rfl, fun empty => by simp at empty, fun m' same => ?_⟩
      · rw [Port.joinMark]
        split <;> rfl
      · cases same
        exact ⟨fun covered urgent last => by rw [joinMark_tail _ _ idle last],
          fun last => by rw [joinMark_new _ _ last]⟩

theorem startTransaction_port (s : State) :
    s.startTransaction.port.writes = s.port.writes ∧ s.startTransaction.port.owed = s.port.owed ∧
    s.startTransaction.port.heldMark = s.port.heldMark ∧
    s.startTransaction.port.reads.length ≤ s.port.reads.length := by
  rcases startTransaction_cases s with same | ⟨-, r, rest, reads, same⟩ | ⟨-, w, rest, -, same⟩
  · rw [same]; exact ⟨rfl, rfl, rfl, Nat.le_refl _⟩
  · rw [same, reads]; exact ⟨rfl, rfl, rfl, by simp⟩
  · rw [same]; exact ⟨rfl, rfl, rfl, Nat.le_refl _⟩

theorem startTransaction_changes (s : State) : s.startTransaction = { s with port := s.startTransaction.port } := by
  refine state_eq ?_ ?_ ?_ ?_ ?_ ?_ ?_ ?_ ?_ ?_ ?_ ?_ <;> simp

theorem offerFreed_keeps (p : Port) : p.offerFreed.reads = p.reads ∧ p.offerFreed.inFlight = p.inFlight := by
  simp only [Port.offerFreed]
  split
  · exact ⟨rfl, rfl⟩
  split
  · rw [Port.joinMark]
    split <;> exact ⟨rfl, rfl⟩
  · exact ⟨rfl, rfl⟩

/-! ### Announcements -/

section announce

variable {covered : Word} {urgent : Bool}

theorem announce_same (same : covered = s.journal.announced) :
    s.announce covered urgent = s.onJournal (·.announce covered) := if_pos same

theorem announce_signals (other : covered ≠ s.journal.announced) (signals : s.cfg.holdOff = 0 ∨ urgent = true ∨
      s.cfg.threshold ≤ (satAdd s.journal.unannounced (covered - s.journal.announced).toNat).toNat) :
    s.announce covered urgent = { s with
      irq := { s.irq with cause := s.irq.cause ||| 0b00001#5, holdOff := none }
      journal := { s.journal with announced := covered, unannounced := 0#16 } } := by
  refine (if_neg other).trans ((if_pos signals).trans ?_)
  split <;> rfl

theorem announce_waits (other : covered ≠ s.journal.announced) (waits : ¬(s.cfg.holdOff = 0 ∨ urgent = true ∨
      s.cfg.threshold ≤ (satAdd s.journal.unannounced (covered - s.journal.announced).toNat).toNat)) :
    s.announce covered urgent = { s.onJournal (·.announce covered) with
      irq := { s.irq with
        holdOff := if s.journal.unannounced = 0#16 then some ⟨s.run.clock, .ms s.cfg.holdOff⟩
          else s.irq.holdOff } } := by
  refine (if_neg other).trans ((if_neg waits).trans ?_)
  by_cases first : s.journal.unannounced = 0#16
  · rw [if_pos first]
    exact if_pos ⟨first, fun zero => waits (.inl zero)⟩
  · rw [if_neg first]
    exact if_neg fun ⟨zero, _⟩ => first zero

theorem satAdd_ne_zero (x : Half) {n : Nat} (pos : n ≠ 0) : satAdd x n ≠ 0#16 := by
  rw [satAdd]
  split
  next room =>
    intro zero
    have := congrArg BitVec.toNat zero
    rw [BitVec.toNat_ofNat, Nat.mod_eq_of_lt room, BitVec.toNat_ofNat] at this
    omega
  next => decide

/-- An announcement signals the records it counts, or leaves them counted. -/
theorem announce_told (s : State) (covered : Word) (urgent : Bool) :
    ((s.announce covered urgent).journal.unannounced =
        satAdd s.journal.unannounced (covered - s.journal.announced).toNat ∧
      (s.announce covered urgent).irq.cause = s.irq.cause) ∨
    (satAdd s.journal.unannounced (covered - s.journal.announced).toNat ≠ 0#16 ∧
      (s.announce covered urgent).journal.unannounced = 0#16 ∧
      (s.announce covered urgent).irq.cause = s.irq.cause ||| 0b00001#5) := by
  by_cases same : covered = s.journal.announced
  · rw [announce_same same]
    exact .inl ⟨rfl, rfl⟩
  have more : (covered - s.journal.announced).toNat ≠ 0 := fun zero =>
    same (by bv_omega)
  by_cases signals : s.cfg.holdOff = 0 ∨ urgent = true ∨
      s.cfg.threshold ≤ (satAdd s.journal.unannounced (covered - s.journal.announced).toNat).toNat
  · rw [announce_signals same signals]
    exact .inr ⟨satAdd_ne_zero _ more, rfl, rfl⟩
  · rw [announce_waits same signals]
    exact .inl ⟨rfl, rfl⟩

end announce

/-! ### The end of a write -/

/-- The state once a write has completed, before the arbiter chooses again. -/
def State.written (w : WriteEntry) (a : Nat) (bytes : List Byte) (s : State) : State :=
  match w with
  | .mark covered urgent => (s.endWrite a bytes).announce covered urgent
  | .status _ | .record _ _ => s.endWrite a bytes

theorem exec_written {w : WriteEntry} {a : Nat} {bytes : List Byte} (transacts : s.run.state.transacts = true)
    (flight : s.port.inFlight = some (.write w a bytes)) {c : Instr}
    (completes : (w.isStatus = true ∧ c = .statusWriteComplete) ∨ (w.isRecord = true ∧ c = .recordWriteComplete) ∨
      (w.isMark = true ∧ c = .markWriteComplete)) :
    exec c s = .next (s.written w a bytes).startTransaction.haltIfQuiet := by
  rcases completes with ⟨kind, rfl⟩ | ⟨kind, rfl⟩ | ⟨kind, rfl⟩
  · cases w with
    | status e => exact exec_statusWritten transacts flight
    | record slot record => cases kind
    | mark covered urgent => cases kind
  · cases w with
    | status e => cases kind
    | record slot record => exact exec_recordWritten transacts flight
    | mark covered urgent => cases kind
  · cases w with
    | status e => cases kind
    | record slot record => cases kind
    | mark covered urgent => exact exec_markWritten transacts flight

/-- The records not yet signalled once a write has completed. -/
def State.unsignalled (w : WriteEntry) (s : State) : Half :=
  match w with
  | .mark covered _ => satAdd s.journal.unannounced (covered - s.journal.announced).toNat
  | .status _ | .record _ _ => s.journal.unannounced

/-- What the completion of a write makes of the state, before the arbiter chooses again. -/
structure State.Written (s : State) (w : WriteEntry) (a : Nat) (bytes : List Byte) (v : State) : Prop where
  parts : v = { s with
    irq := v.irq, journal := v.journal, port := (s.endWrite a bytes).port, memory := (s.endWrite a bytes).memory }
  mask : v.irq.mask = s.irq.mask
  journal : v.journal.drain = s.journal.drain ∧ v.journal.staging = s.journal.staging ∧
    v.journal.written = s.journal.written
  kept : w.isMark = false → v.irq = s.irq ∧ v.journal = s.journal
  told : (v.journal.unannounced = s.unsignalled w ∧ v.irq.cause = s.irq.cause) ∨
    (s.unsignalled w ≠ 0#16 ∧ v.journal.unannounced = 0#16 ∧ v.irq.cause = s.irq.cause ||| 0b00001#5)

theorem endWrite_written (w : WriteEntry) (plain : w.isMark = false) (a : Nat) (bytes : List Byte) :
    s.Written w a bytes (s.endWrite a bytes) where
  parts := by
    refine state_eq ?_ ?_ ?_ ?_ ?_ ?_ ?_ ?_ ?_ ?_ ?_ ?_ <;> simp
  mask := by simp
  journal := by simp
  kept := by simp
  told := by
    cases w with
    | mark covered urgent => cases plain
    | status e => exact .inl ⟨by simp [State.unsignalled], by simp⟩
    | record slot record => exact .inl ⟨by simp [State.unsignalled], by simp⟩

theorem written_does (s : State) (w : WriteEntry) (a : Nat) (bytes : List Byte) :
    s.Written w a bytes (s.written w a bytes) := by
  cases w with
  | status e => exact endWrite_written _ rfl a bytes
  | record slot record => exact endWrite_written _ rfl a bytes
  | mark covered urgent =>
    obtain ⟨mask, drain, staging, written⟩ := announce_parts (s.endWrite a bytes) covered urgent
    have told := announce_told (s.endWrite a bytes) covered urgent
    refine ⟨?_, mask, ⟨?_, ?_, ?_⟩, fun other => Bool.noConfusion other, ?_⟩
    · refine state_eq ?_ ?_ ?_ ?_ ?_ ?_ ?_ ?_ ?_ ?_ ?_ ?_ <;> simp [State.written]
    · exact drain
    · exact staging
    · exact written
    · exact told

section written

variable {w : WriteEntry} {a : Nat} {bytes : List Byte} (written : s.Written w a bytes v)

include written

theorem State.Written.run : v.run = s.run := by rw [written.parts]

theorem State.Written.changes :
    v = { s with irq := v.irq, journal := v.journal, port := v.port, memory := v.memory } := by
  have port : v.port = (s.endWrite a bytes).port := by rw [written.parts]
  have memory : v.memory = (s.endWrite a bytes).memory := by rw [written.parts]
  rw [port, memory]
  conv => lhs; rw [written.parts]

/-- The completion after which the run goes on (R160). -/
theorem State.Written.goesOn (goesOn : s.run.state = .running ∨ s.run.state = .stopping ∧
      (s.journal.drain ≠ .ended ∨ s.port.moreWaits = true)) : v.startTransaction.haltIfQuiet = v.startTransaction := by
  rcases goesOn with running | ⟨stopping, waits⟩
  · exact haltIfQuiet_running _ (by simpa [written.run] using running)
  · refine halt_eq (by simp [written.run, stopping, RunState.works]) fun ended => ?_
    have more : s.port.moreWaits = true :=
      waits.resolve_left (Classical.not_not.2 (by simpa [written.journal] using ended))
    refine Bool.eq_false_iff.2 fun quiet => ?_
    have idle : v.port.inFlight = none := by rw [written.parts]; exact (offerFreed_keeps _).2
    have empty := (startTransaction_quiet v (by simp [written.run, stopping, RunState.transacts]) idle).1 quiet
    rw [written.parts] at empty
    have := (endWrite_empty s a bytes).1 empty
    simp [more] at this

/-- The completion that ends the run: HALTED is entered, and the records not yet signalled are (R160). -/
theorem State.Written.ends (stopping : s.run.state = .stopping) (ended : s.journal.drain = .ended)
    (nothing : s.port.moreWaits = false) :
    v.startTransaction.haltIfQuiet = v.startTransaction.haltFromStopping ∧ v.startTransaction.port.quiet = true := by
  have idle : v.port.inFlight = none := by rw [written.parts]; exact (offerFreed_keeps _).2
  have quiet : v.startTransaction.port.quiet = true := by
    refine (startTransaction_quiet v (by simp [written.run, stopping, RunState.transacts]) idle).2 ?_
    rw [written.parts]
    exact (endWrite_empty s a bytes).2 nothing
  exact ⟨if_pos ⟨by simp [written.run, stopping], by simp [written.journal, ended], quiet⟩, quiet⟩

/-- The cause of the completion that ends the run, and of the one before it. -/
theorem State.Written.halted_cause :
    v.irq.cause ||| 0b00010#5 ||| (if v.journal.unannounced = 0#16 then 0#5 else 0b00001#5) =
      s.irq.cause ||| 0b00010#5 ||| (if s.unsignalled w = 0#16 then 0#5 else 0b00001#5) := by
  rcases written.told with ⟨counted, cause⟩ | ⟨some, told, cause⟩
  · rw [counted, cause]
  · rw [told, cause, if_pos rfl, if_neg some]
    rw [BitVec.or_zero, BitVec.or_assoc, BitVec.or_assoc]
    rfl

end written

end Sys2Proof.Machine

namespace Sys2Proof.Proofs

open Sys2Proof.Machine

/-- Settles O47: the three courses of an announcement (`announce_same`, `announce_signals`, `announce_waits`), on a
completion after which the run goes on, and the hold-off's expiry. -/
theorem announcementsAreCoalesced : Obligations.AnnouncementsAreCoalesced := by
  refine ⟨fun s covered urgent a bytes goesOn flight => ?_, fun s works timer => exec_holdOff works timer⟩
  have transacts : s.run.state.transacts = true := by
    rcases goesOn with running | ⟨stopping, -⟩
    · simp [running, RunState.transacts]
    · simp [stopping, RunState.transacts]
  let v := (s.endWrite a bytes).announce covered urgent
  have written : s.Written (.mark covered urgent) a bytes v := written_does s (.mark covered urgent) a bytes
  have completes : exec .markWriteComplete s = .next v.startTransaction := by
    rw [exec_markWritten transacts flight]
    exact next_congr (written.goesOn goesOn)
  have units : v.startTransaction.irq = v.irq ∧ v.startTransaction.journal = v.journal := by simp
  obtain ⟨irq, journal⟩ := units
  refine ⟨v.startTransaction, completes, ?_, ?_, fun same => ?_, fun other signals => ?_, fun other waits => ?_⟩
  · rw [startTransaction_changes v]
    exact congrArg (fun t : State => ({ t with port := v.startTransaction.port } : State)) written.changes
  · rw [irq, written.mask]
  · rw [irq, journal]
    have none : (covered - s.journal.announced).toNat = 0 := by simp [same]
    simp only [v, announce_same (s := s.endWrite a bytes) same]
    exact ⟨rfl, by rw [← none]; rfl⟩
  · rw [irq, journal]
    simp only [v, announce_signals (s := s.endWrite a bytes) other signals]
    exact ⟨rfl, rfl⟩
  · rw [irq, journal]
    simp only [v, announce_waits (s := s.endWrite a bytes) other waits]
    exact ⟨rfl, rfl⟩

/-- Settles O54: the bytes reach memory (`endWrite_read`), the freed entry is offered (`offerFreed_offered`), and the
run goes on or ends (`State.Written.goesOn`, `State.Written.ends`). -/
theorem completedWritesReachMemory : Obligations.CompletedWritesReachMemory := by
  intro s w a bytes run flight c completes goesOn unsignalled
  have transacts : s.run.state.transacts = true := by
    rcases run with running | stopping
    · simp [running, RunState.transacts]
    · simp [stopping, RunState.transacts]
  let v := s.written w a bytes
  have written : s.Written w a bytes v := written_does s w a bytes
  have memory : v.startTransaction.haltIfQuiet.memory = (s.endWrite a bytes).memory := by
    simp only [haltIfQuiet_keeps, startTransaction_keeps]
    rw [written.parts]
  have port : v.startTransaction.haltIfQuiet.port = v.startTransaction.port := by simp
  obtain ⟨writes, owed, held, reads⟩ := startTransaction_port v
  have taken : v.port = ({ s.port with writes := s.port.writes.drop 1, inFlight := none } : Port).offerFreed := by
    rw [written.parts]
    rfl
  have offered := offerFreed_offered (p := { s.port with writes := s.port.writes.drop 1, inFlight := none }) rfl
  rw [← taken] at offered
  have going (on : goesOn) : v.startTransaction.haltIfQuiet = v.startTransaction := by
    refine written.goesOn (run.elim .inl fun stopping => ?_)
    exact on.elim .inl fun waits => .inr ⟨stopping, waits⟩
  refine ⟨_, exec_written transacts flight completes, fun i h => ?_, fun x outside => ?_, ?_, ?_, fun on plain => ?_,
    fun on => ?_, fun ends => ?_⟩
  · rw [memory, endWrite_read, dif_pos ⟨by omega, by omega⟩]
    simp
  · rw [memory, endWrite_read, dif_neg (by omega)]
  · rw [port]
    rw [taken, (offerFreed_keeps _).1] at reads
    exact reads
  · rw [port, writes, owed, held]
    exact ⟨offered.owed, offered.held⟩
  · obtain ⟨irq, journal⟩ := written.kept plain
    have only := written.changes
    rw [irq, journal] at only
    rw [going on, startTransaction_changes v]
    exact congrArg (fun t : State => ({ t with port := v.startTransaction.port } : State)) only
  · rw [going on]
    simp [written.run]
  · simp only [goesOn, not_or, Classical.not_not, Bool.not_eq_true] at ends
    obtain ⟨notRunning, ended, nothing⟩ := ends
    obtain ⟨halts, quiet⟩ := written.ends (run.resolve_left notRunning) ended nothing
    obtain ⟨sched, mask, hold, cause, journal, line⟩ := haltFromStopping_parts v.startTransaction
    obtain ⟨-, staging, count⟩ := written.journal
    have same : v.sched = s.sched ∧ v.line = s.line ∧ v.stations = s.stations ∧ v.exch = s.exch := by
      rw [written.parts]
      exact ⟨rfl, rfl, rfl, rfl⟩
    obtain ⟨sched', line', stations, exch⟩ := same
    have causes := written.halted_cause
    change v.startTransaction.haltIfQuiet.run = _ ∧ _
    rw [halts, sched, mask, hold, cause, journal, line]
    simp only [startTransaction_keeps, haltFromStopping_keeps, haltFromStopping_run, sched', line', stations, exch,
      staging, count, written.run, written.mask, causes,
      quiet, Line.switchOff, and_true, true_and]
    rfl

end Sys2Proof.Proofs
end

section
/-! The sweeps of the exchange area: their requests, the released count they read, and the end of the drain, which takes
their place (06, R109, R120, R121; 07, R142 to R144, R148). -/

namespace Sys2Proof.Machine

variable {s : State}

/-! ### Requests for a sweep -/

/-- A read that waits alone on an idle Memory Port starts at once (R151, R156). -/
theorem startTransaction_read {r : Read} {rest : List Read} (transacts : s.run.state.transacts = true)
    (idle : s.port.inFlight = none) (reads : s.port.reads = r :: rest) (writes : s.port.writes = []) :
    s.startTransaction = s.startRead r rest := by
  simp [State.startTransaction, transacts, idle, State.chooseTransaction, reads, writes]

theorem requestSweep_again (flying : s.exch.sweepInFlight = true) :
    s.requestSweep = { s with exch := { s.exch with sweepAgain := true } } := if_pos flying

/-- With a transaction in flight, a sweep that begins places its reads behind those waiting (R143). -/
theorem requestSweep_placed (none : s.exch.sweepInFlight = false) (flight : s.port.inFlight.isSome = true) :
    s.requestSweep = { s with
      exch := { s.exch with sweepInFlight := true }
      port := { s.port with reads := s.port.reads ++ s.sweepReadList } } := by
  have begins : s.requestSweep = s.beginSweep := if_neg (by simp [none])
  obtain ⟨x, found⟩ := Option.isSome_iff_exists.1 flight
  rw [begins, State.beginSweep, State.requestReads, startTransaction_of_flight (x := x) (by exact found)]
  rfl

/-- On an idle Memory Port, the released count's read starts at once (R143, R151). -/
theorem requestSweep_started (none : s.exch.sweepInFlight = false) (transacts : s.run.state.transacts = true)
    (idle : s.port.inFlight = .none) (reads : s.port.reads = []) (writes : s.port.writes = []) :
    s.requestSweep = { s with
      exch := { s.exch with sweepInFlight := true }
      port := { s.port with
        reads := s.sweepReadList.tail
        inFlight := some (.read .released (s.run.exchangeBase + 0x078))
        lastServed := .read } } := by
  have begins : s.requestSweep = s.beginSweep := if_neg (by simp [none])
  have placed : s.port.reads ++ s.sweepReadList = .released :: s.sweepReadList.tail := by rw [reads]; rfl
  exact begins.trans (startTransaction_read (s := (s.onExch fun x =>
    { x with sweepInFlight := true }).onPort (·.requestReads s.sweepReadList)) transacts idle placed writes)

/-! ### The released count -/

/-- What the judgement of a released count makes of the journal, the causes and the value remembered (R109, R144). -/
structure State.Judged (s : State) (v : Word) (t : State) : Prop where
  valid : (v - s.journal.view).toNat ≤ (s.journal.announced - s.journal.view).toNat →
    t.journal = { s.journal with view := v } ∧ t.irq = s.irq ∧ t.exch.rememberedReleased = s.exch.rememberedReleased
  repeated : ¬(v - s.journal.view).toNat ≤ (s.journal.announced - s.journal.view).toNat →
    s.exch.rememberedReleased = some v →
    t.journal = s.journal ∧ t.irq = s.irq ∧ t.exch.rememberedReleased = s.exch.rememberedReleased
  reported : ¬(v - s.journal.view).toNat ≤ (s.journal.announced - s.journal.view).toNat →
    s.exch.rememberedReleased ≠ some v →
    t.journal = s.journal.stage ⟨.hostValue 16#8, none, s.run.clock⟩ ∧
    t.irq = { s.irq with cause := s.irq.cause ||| 0b10000#5 } ∧ t.exch.rememberedReleased = some v

theorem State.Judged.congr {v : Word} {t t' : State} (h : s.Judged v t) (journal : t'.journal = t.journal)
    (irq : t'.irq = t.irq) (exch : t'.exch.rememberedReleased = t.exch.rememberedReleased) : s.Judged v t' := by
  refine ⟨?_, ?_, ?_⟩ <;> rw [journal, irq, exch]
  · exact h.valid
  · exact h.repeated
  · exact h.reported

theorem judgeReleased_judged (works : s.works = true) (going : s.journal.drain ≠ .ended) (v : Word) :
    s.Judged v (s.judgeReleased v) where
  valid valid := by
    rw [State.judgeReleased, if_pos (by simpa [Journal.releasedValid] using valid)]
    exact ⟨rfl, rfl, rfl⟩
  repeated invalid known := by
    rw [State.judgeReleased, if_neg (by simpa [Journal.releasedValid] using invalid), if_pos known]
    exact ⟨rfl, rfl, rfl⟩
  reported invalid unknown := by
    rw [State.judgeReleased, if_neg (by simpa [Journal.releasedValid] using invalid), if_neg unknown,
      State.reportHostValue, submit_of_not_ended _ works going]
    exact ⟨rfl, rfl, rfl⟩

/-- The judgement touches nothing of the Exchange Unit but the value remembered. -/
theorem judgeReleased_exch (s : State) (v : Word) :
    (s.judgeReleased v).exch = { s.exch with rememberedReleased := (s.judgeReleased v).exch.rememberedReleased } := by
  rw [State.judgeReleased]
  split
  · rfl
  split
  · rfl
  · simp

theorem judgeReleased_drain (s : State) (v : Word) : (s.judgeReleased v).journal.drain = s.journal.drain := by
  rw [State.judgeReleased]
  split
  · rfl
  split
  · rfl
  · simp only [onExch_journal, State.reportHostValue, setCause_keeps]
    exact (drainUpkeep _).submit s _ rfl

/-- A read that waited still waits, or is in flight, once the arbiter has chosen. -/
theorem startTransaction_waits {r : Read} (waits : r ∈ s.port.reads) :
    r ∈ s.startTransaction.port.reads ∨ ∃ a, s.startTransaction.port.inFlight = some (.read r a) := by
  rcases startTransaction_cases s with same | ⟨-, head, rest, reads, same⟩ | ⟨-, w, rest, -, same⟩
  · rw [same]
    exact .inl waits
  · rw [reads] at waits
    rw [same]
    rcases List.mem_cons.1 waits with rfl | later
    · exact .inr ⟨_, rfl⟩
    · exact .inl later
  · rw [same]
    exact .inl waits

/-- What the end of a sweep leaves once its last read has ended (R142, R143, R148). -/
structure State.SweepOver (s t : State) : Prop where
  exch : t.exch = { s.exch with
    sweepInFlight := s.exch.sweepAgain, sweepAgain := false, sweepCount := s.exch.sweepCount + 1#32 }
  status : ∀ e, (s.station e).takesPart = true → (s.station e).link.countersChanged = true →
    .status e ∈ t.port.writes ∨ t.port.owed[e.val] = true
  stations : ∀ e, t.station e = { s.station e with
    link := { (s.station e).link with
      countersChanged := (s.station e).link.countersChanged && !(s.station e).takesPart } }
  again : s.exch.sweepAgain = true → .released ∈ t.port.reads ∨ ∃ a, t.port.inFlight = some (.read .released a)
  parts : t = { s with stations := t.stations, exch := t.exch, port := t.port }

theorem endSweep_over (flight : s.port.inFlight.isSome = true) : s.SweepOver s.endSweep.endRead := by
  obtain ⟨placed, swept, status, stations⟩ := endSweep_flight flight
  obtain ⟨writes, owed, -, -⟩ := startTransaction_port (s.endSweep.onPort fun p => { p with inFlight := none })
  refine ⟨by simpa using swept, fun e takes changed => ?_, fun e => by simpa using stations e, fun more => ?_, ?_⟩
  · rw [State.endRead, writes, owed]
    exact status e takes changed
  · refine startTransaction_waits ?_
    rw [onPort_port, placed, if_pos more, State.sweepReadList]
    simp
  · refine state_eq ?_ ?_ ?_ ?_ ?_ ?_ ?_ ?_ ?_ ?_ ?_ ?_ <;> simp

/-- The end of a run touches nothing of the journal but the unannounced count. -/
theorem haltIfQuiet_journal (s : State) :
    s.haltIfQuiet.journal = { s.journal with unannounced := s.haltIfQuiet.journal.unannounced } := by
  rw [State.haltIfQuiet]
  split
  · obtain ⟨-, -, -, -, journal, -⟩ := haltFromStopping_parts s
    rw [journal]
  split
  · simp
  · rfl

/-- The Memory Port is quiet at a read's end exactly where nothing waits. -/
theorem endRead_quiet (transacts : s.run.state.transacts = true) :
    s.endRead.port.quiet = true ↔
      s.port.reads = [] ∧ s.port.writes = [] ∧ s.port.noneOwed = true ∧ s.port.heldMark = none :=
  startTransaction_quiet (s.onPort fun p => { p with inFlight := none }) transacts rfl

end Sys2Proof.Machine

namespace Sys2Proof.Proofs

open Sys2Proof.Machine

/-- Settles O48: a request finds a sweep in flight, a transaction in flight, or an idle Memory Port
(`requestSweep_again`, `requestSweep_placed`, `requestSweep_started`). -/
theorem sweepsAreRequested : Obligations.SweepsAreRequested := by
  intro s released reads
  have asks (running : s.run.state = .running) : exec .sweep s = .next s.requestSweep := by
    rw [exec_sweep released, State.commandSweep, if_pos running]
  refine ⟨fun running flying => ?_, fun running none flight => ?_, fun running none idle empty queue => ?_,
    fun timer works period => ?_⟩
  · rw [asks running, requestSweep_again flying]
  · rw [asks running, requestSweep_placed none flight]
    rfl
  · rw [asks running, requestSweep_started none (by simp [running, RunState.transacts]) idle empty queue]
    simp [State.sweepReadList, running]
  · have transacts : s.run.state.transacts = true := transacts_of_works works
    let aged : State := s.onExch fun x => { x with sweepTimer := some (timer.next s.cfg.sweepPeriod) }
    have expires : exec .sweepTimerExpiry s = .next aged.requestSweep := exec_sweepTimer works period
    refine ⟨fun flying => ?_, fun none flight => ?_, fun none idle empty queue => ?_⟩
    · exact expires.trans (next_congr (requestSweep_again (s := aged) flying))
    · exact expires.trans (next_congr (requestSweep_placed (s := aged) none flight))
    · exact expires.trans (next_congr (requestSweep_started (s := aged) none transacts idle empty queue))

/-- Settles O46: the expiry discards what is left and ends the drain (`endDrain_does`), and an event submitted
afterwards is counted alone. -/
theorem drainLimitDiscardsWhatIsLeft : Obligations.DrainLimitDiscardsWhatIsLeft := by
  refine ⟨fun s stopping drain timer => ?_, fun s e works ended => ?_⟩
  · refine ⟨s.expireDrain, (exec_drainLimit stopping drain timer).trans (next_congr ?_), ?_⟩
    · exact haltIfQuiet_endDrain (s.onJournal Journal.discardLeft) stopping
    · obtain ⟨parts, reads, -, marked, stations⟩ := endDrain_does (s.onJournal Journal.discardLeft)
      have same : s.expireDrain = (s.onJournal Journal.discardLeft).endDrain := rfl
      rw [same]
      refine ⟨by rw [parts]; rfl, by simp, by simp, by simp, by simp, by simp, by simp, reads, by rw [parts]; rfl,
        marked, stations⟩
  · rw [submit_works e works, Journal.submit, if_pos ended]

/-- Settles O49: the value is judged (`judgeReleased_judged`), the sweep ends where it was its last read
(`endSweep_flight`), and in STOPPING the run may end with it. -/
theorem releasedCountIsJudged : Obligations.ReleasedCountIsJudged := by
  intro s a data run flight length v valid judged
  have works : s.works = true := run.elim works_of_running works_of_stopping
  have transacts := transacts_of_works works
  have flying : s.port.inFlight.isSome = true := by simp [flight]
  let u := s.judgeReleased v
  have reads : exec (.releasedCountReadComplete data) s = .next (s.takeReleased v).endRead.haltIfQuiet :=
    exec_released works flight length
  have taken (going : s.journal.drain ≠ .ended) : s.takeReleased v = u.endSweepIfDone := if_neg going
  have goes {t : State} (same : t.run = s.run) (drain : t.journal.drain = s.journal.drain)
      (going : s.journal.drain ≠ .ended) : t.haltIfQuiet = t :=
    State.GoesOn.halt (by
      rw [State.GoesOn, same, drain]
      exact run.imp_right fun stopping => ⟨stopping, .inl going⟩)
  have judges (going : s.journal.drain ≠ .ended) : s.Judged v u := judgeReleased_judged works going v
  refine ⟨fun going more => ?_, fun going last sweeps => ?_, fun ended => ?_⟩
  · have still : u.endSweepIfDone = u := if_neg fun ⟨_, empty⟩ => more (by simpa [u] using empty)
    refine ⟨u.endRead, ?_, ?_, ?_, ?_⟩
    · rw [reads, taken going, still]
      exact next_congr (goes (by simp [u]) (by simp [u, judgeReleased_drain]) going)
    · have found := (judges going).congr (t' := u.endRead) (by simp) (by simp) (by simp)
      exact ⟨found.valid, found.repeated, found.reported⟩
    · simpa [u] using judgeReleased_exch s v
    · refine state_eq ?_ ?_ ?_ ?_ ?_ ?_ ?_ ?_ ?_ ?_ ?_ ?_ <;> simp [u]
  · have exch : u.exch = { s.exch with rememberedReleased := u.exch.rememberedReleased } := judgeReleased_exch s v
    have sweeping : u.exch.sweepInFlight = true := by rw [exch]; exact sweeps
    have ends : u.endSweepIfDone = u.endSweep := if_pos ⟨sweeping, by simpa [u] using last⟩
    have swept := endSweep_over (s := u) (by simpa [u] using flying)
    have again : u.exch.sweepAgain = s.exch.sweepAgain := by rw [exch]
    have finished : u.endSweep.endRead.exch = { s.exch with
        sweepInFlight := s.exch.sweepAgain, sweepAgain := false, sweepCount := s.exch.sweepCount + 1#32
        rememberedReleased := u.exch.rememberedReleased } := by
      rw [swept.exch, exch]
    refine ⟨u.endSweep.endRead, ?_, ?_, ?_, fun e takes changed => ?_, fun e => ?_, fun more => ?_, ?_⟩
    · rw [reads, taken going, ends]
      exact next_congr (goes (by simp [u]) (by simp [u, judgeReleased_drain]) going)
    · have found := (judges going).congr (t' := u.endSweep.endRead) (by simp) (by simp) (by rw [finished])
      exact ⟨found.valid, found.repeated, found.reported⟩
    · rw [finished]
    · exact swept.status e (by simpa [u] using takes) (by simpa [u] using changed)
    · simpa [u] using swept.stations e
    · exact swept.again (again.trans more)
    · refine state_eq ?_ ?_ ?_ ?_ ?_ ?_ ?_ ?_ ?_ ?_ ?_ ?_ <;> simp [u]
  · have kept : s.takeReleased v = s := if_pos ended
    refine ⟨s.endRead.haltIfQuiet, by rw [reads, kept], ?_, ?_, by simp, by simp, fun on => ?_,
      fun stopping empty queue held none => ?_⟩
    · rw [haltIfQuiet_journal]
      simp
    · rw [haltIfQuiet_journal]
      simp
    · have halt : s.endRead.haltIfQuiet = s.endRead := by
        rcases on with running | waits
        · exact haltIfQuiet_running _ (by simpa using running)
        · refine halt_eq (by simpa [State.works] using works) fun _ => Bool.eq_false_iff.2 fun quiet => ?_
          obtain ⟨empty, queue, -⟩ := (endRead_quiet transacts).1 quiet
          exact waits.elim (fun some => some empty) (fun some => some queue)
      rw [halt]
      exact startTransaction_changes (s.onPort fun p => { p with inFlight := none })
    · have quiet : s.endRead.port.quiet = true :=
        (endRead_quiet transacts).2 ⟨empty, queue, by simp [Port.noneOwed, firstOwed_nobody none], held⟩
      have halts : s.endRead.haltIfQuiet = s.endRead.haltFromStopping :=
        if_pos ⟨by simpa using stopping, by simpa using ended, quiet⟩
      obtain ⟨-, -, -, cause, -⟩ := haltFromStopping_parts s.endRead
      rw [halts, cause]
      refine ⟨by simp, ?_⟩
      simp

end Sys2Proof.Proofs
end

section
/-! The time marks: a due mark is sent, waits, or is dropped (03, R46). -/

namespace Sys2Proof.Machine

variable {s : State}

/-- A due mark is the scheduler's first move, on a line that takes requests (R46). -/
theorem schedule_mark (running : s.run.state = .running) (due : s.sched.markDue = true) (visit : s.sched.visit = none)
    (place : s.line.sendPlace = none) (takes : s.line.state ≠ .disturbed) :
    s.schedule = { s with
      sched := { s.sched with markDue := false }
      line := s.line.takeRequest s.run.clock ⟨timeMarkFrame s.run.clock, false, none, 0#3⟩ } := by
  have sent : s.sendDueMark = { s with
      sched := { s.sched with markDue := false }
      line := s.line.takeRequest s.run.clock ⟨timeMarkFrame s.run.clock, false, none, 0#3⟩ } := by
    rw [State.sendDueMark, if_pos due]
    exact if_neg (by simp [State.refuses, takes])
  have occupied : ∀ r, (s.line.takeRequest s.run.clock r).sendPlace.isSome = true := fun r => by
    rw [Line.takeRequest]
    split <;> rfl
  rw [State.schedule, if_pos ⟨running, visit, place⟩, sent]
  exact if_pos (occupied _)

theorem takeRequest_sends {l : Line} (now : Word) (r : SendRequest) (idle : l.state = .idle)
    (rest : l.pairAtRest = true) (receiver : l.receiver ≠ .inReception) :
    l.takeRequest now r = ({ l with sendPlace := some r } : Line).beginSending :=
  if_pos ⟨idle, by simp [Line.pairFree, rest, receiver]⟩

theorem takeRequest_queues {l : Line} (now : Word) (r : SendRequest)
    (taken : ¬(l.state = .idle ∧ l.pairAtRest = true ∧ l.receiver ≠ .inReception)) :
    l.takeRequest now r = { l with sendPlace := some r, busy := some ⟨now, .ms Config.busyLimitMs⟩ } :=
  if_neg (by simpa [Line.pairFree] using taken)

theorem continueCycle_done (done : s.sched.cycleInProgress = false) (waits : s.sched.cycleTimer ≠ .expired) :
    s.continueCycle = s := by
  have stays : (if s.sched.cycleInProgress then s.walk else s) = s := if_neg (by simp [done])
  simp only [State.continueCycle, stays]
  exact if_neg fun ⟨_, expired⟩ => waits expired

end Sys2Proof.Machine

namespace Sys2Proof.Proofs

open Sys2Proof.Machine

/-- Settles O34: the mark becomes due, and the scheduler leaves it, sends it (`schedule_mark`) or drops it
(`schedule_free`). -/
theorem timeMarkIsSentOrDropped : Obligations.TimeMarkIsSentOrDropped := by
  intro s timer period next
  let due : State := { s with sched := { next with markDue := true } }
  have falls (works : s.works = true) : exec .timeMarkDue s = .next due.schedule := exec_markDue works period
  refine ⟨fun stopping => ?_, fun running => ?_⟩
  · exact (falls (works_of_stopping stopping)).trans (next_congr (schedule_stopping due (by simp [due, stopping])))
  intro mark free
  refine ⟨fun visit => ?_, fun visit place idle => ?_, fun visit place takes busy => ?_,
    fun visit place disturbed done waits => ?_⟩
  · exact (falls (works_of_running running)).trans
      (next_congr (schedule_visit due (Option.isSome_iff_ne_none.2 visit)))
  · obtain ⟨state, rest, receiver⟩ := idle
    refine ⟨s.line.takeRequest s.run.clock mark, ?_, ?_⟩
    · exact (falls (works_of_running running)).trans
        (next_congr (schedule_mark (s := due) running rfl visit place (by simp [due, state])))
    · rw [takeRequest_sends _ _ state rest receiver]
      exact ⟨rfl, rfl, rfl⟩
  · refine (falls (works_of_running running)).trans
      ((next_congr (schedule_mark (s := due) running rfl visit place takes)).trans ?_)
    rw [takeRequest_queues (l := due.line) _ _ busy]
    rfl
  · refine (falls (works_of_running running)).trans
      ((next_congr (schedule_free (s := due) running disturbed visit place)).trans (next_congr ?_))
    exact continueCycle_done (s := { due with sched := { due.sched with markDue := false } }) done waits

end Sys2Proof.Proofs
end

section
/-! Misses, the loss of a station, and its disable (03, R51, R53, R56, R61). -/

namespace Sys2Proof.Machine

/-! ### What a loss and a disable have in common -/

/-- After the discard no sounder request is pending, and the SOUNDER_DONE counts those that were (R102). -/
theorem discardRequests_does (o : Output) :
    o.discardRequests.1.sounderPending = false ∧ o.discardRequests.1.outSet = o.outSet ∧
    o.discardRequests.1.outSound = o.outSound ∧ o.discardRequests.1.applied = o.applied ∧
    o.discardRequests.1.fetchedRevision = o.fetchedRevision ∧ o.discardRequests.1.fetchInFlight = o.fetchInFlight ∧
    o.discardRequests.2 =
      if o.sounderPending then [.sounderDone .discarded (o.sounderRequest - o.sounderDone)] else [] := by
  refine ⟨?_, rfl, rfl, rfl, rfl, rfl, rfl⟩
  cases pending : o.sounderPending with
  | true =>
    rw [discardRequests_pending o pending]
    exact ahead_self _
  | false =>
    rw [discardRequests_settled o pending]
    exact pending

theorem makeUnknown_lastKnown (t : ContactTable) :
    t.makeUnknown.records.map (·.lastKnown) = t.records.map (·.lastKnown) := by
  simp [ContactTable.makeUnknown]

/-! ### A miss -/

variable {st : Station} {limit : Nat}

theorem countMiss_below (met : st.link.state = .online ∨ st.link.state = .syncing)
    (below : st.link.misses + 1 < limit) :
    st.countMiss limit = ({ st with link := { st.link with misses := st.link.misses + 1 } }, []) := by
  rcases met with state | state <;> simp only [Station.countMiss, state] <;> exact if_neg (Nat.not_le.2 below)

theorem countMiss_lost (met : st.link.state = .online ∨ st.link.state = .syncing)
    (reached : limit ≤ st.link.misses + 1) : st.countMiss limit = st.lose := by
  rcases met with state | state <;> simp [Station.countMiss, state, reached]

theorem countMiss_searching (searching : st.link.state = .searching) :
    st.countMiss limit =
      ({ st with link := { st.link with misses := min limit (st.link.misses + 1) } }, []) := by
  simp [Station.countMiss, searching]

/-- The loss of a station, each of its effects (R56). -/
theorem lose_does (st : Station) :
    st.lose.1.link = { st.link with
      state := .searching, outstanding := none, misses := 0, step := none, origin := none, sampledResync := none
      statusChanged := true, countersChanged := true, counters := st.link.counters.countLost } ∧
    st.lose.1.output = st.output.abandon.discardRequests.1 ∧ st.lose.1.contacts = st.contacts.makeUnknown ∧
    st.lose.2 = .stationDown .lost :: st.output.abandon.discardRequests.2 := ⟨rfl, rfl, rfl, rfl⟩

end Sys2Proof.Machine

namespace Sys2Proof.Proofs

open Sys2Proof.Machine

/-- Settles O35: the three courses of a miss (`countMiss_below`, `countMiss_lost`, `countMiss_searching`), and of a
WAIT. -/
theorem missesLeadToLoss : Obligations.MissesLeadToLoss := by
  intro st limit now hold missed
  let waited : Station := { st with link := { st.link with waits := 0 } }
  refine ⟨fun met => ⟨fun below => ?_, fun reached => ?_⟩, fun searching => ?_, fun few => ?_, fun sixteen => ?_⟩
  · exact countMiss_below (st := waited) met below
  · have lost : missed = waited.lose := countMiss_lost (st := waited) met reached
    obtain ⟨link, output, contacts, events⟩ := lose_does waited
    obtain ⟨pending, set, sound, applied, -, -, reports⟩ := discardRequests_does st.output.abandon
    rw [lost, link, output, contacts, events]
    exact ⟨rfl, rfl, rfl, rfl, rfl, rfl, rfl, rfl, rfl, rfl, rfl, rfl, rfl, set, sound, pending, applied,
      makeUnknown_unknown _, makeUnknown_lastKnown _, congrArg _ reports⟩
  · have counted : missed = _ := countMiss_searching (st := waited) searching
    rw [counted]
    exact ⟨searching, rfl, rfl⟩
  · exact if_neg (Nat.not_le.2 few)
  · exact if_pos sixteen

/-- Settles O37: what a disable shares with a loss (`discardRequests_does`), and the link it leaves. -/
theorem disableEffects : Obligations.DisableEffects := by
  intro st d
  obtain ⟨pending, set, sound, applied, fetched, fetch, reports⟩ := discardRequests_does st.output.abandon
  refine ⟨rfl, makeUnknown_unknown _, makeUnknown_lastKnown _, set, sound, pending, applied, fetched, fun flying => ?_,
    congrArg _ reports⟩
  have marked : d.1.output.fetchDiscard = (_ || st.output.fetchInFlight.isSome) := rfl
  rw [marked, flying, Bool.or_true]

end Sys2Proof.Proofs
end

section
/-! The Contact Table: transitions, seeding, ambiguity, the snapshot as one whole, and the bitmap (04, R68 to R81). -/

namespace Sys2Proof.Machine

variable {t : ContactTable} {now : Word} {c : Contact}

/-! ### Changes of one contact -/

theorem beginChange_settles (closed recovered : Bool) (none : t.debounce closed = 0) :
    c.beginChange t now closed recovered = ⟨c.settle closed, [changeEvent closed c.index recovered false], false⟩ :=
  if_pos none

theorem beginChange_debounces (closed recovered : Bool) (some : t.debounce closed ≠ 0) :
    c.beginChange t now closed recovered =
      ⟨{ c with
        state := if closed then .closing else .opening
        changeStart := now, recovery := recovered, extended := false }, [], false⟩ := if_neg some

theorem completeChange_settles {closed : Bool} (done : t.debounce closed ≤ (now - c.changeStart).toNat) :
    c.completeChange t now closed = ⟨c.settle closed, [changeEvent closed c.index c.recovery c.extended], false⟩ :=
  if_pos done

theorem completeChange_waits {closed : Bool} (early : (now - c.changeStart).toNat < t.debounce closed) :
    c.completeChange t now closed = ⟨c, [], false⟩ := if_neg (Nat.not_le.2 early)

theorem transition_opened (opened : c.state = .opened) (raw : Bool) :
    c.transition t now raw = if raw then c.beginChange t now true false else ⟨c, [], false⟩ := by
  simp [Contact.transition, opened]

theorem transition_closing (closing : c.state = .closing) (raw : Bool) :
    c.transition t now raw = if raw then c.completeChange t now true else c.bounce true := by
  simp [Contact.transition, closing]

theorem transition_closed (closed : c.state = .closed) (raw : Bool) :
    c.transition t now raw = if raw then ⟨c, [], false⟩ else c.beginChange t now false false := by
  simp [Contact.transition, closed]

theorem transition_opening (opening : c.state = .opening) (raw : Bool) :
    c.transition t now raw = if raw then c.bounce false else c.completeChange t now false := by
  simp [Contact.transition, opening]

theorem transition_unknown (unknown : c.state = .unknown) (raw : Bool) : c.transition t now raw = c.seed t now raw := by
  simp [Contact.transition, unknown]

theorem seed_settles {raw : Bool} (agrees : c.lastKnown = none ∨ c.lastKnown = some raw) :
    c.seed t now raw = ⟨c.settle raw, [], false⟩ := by
  rcases agrees with known | known <;> simp [Contact.seed, known]

theorem seed_changes {raw : Bool} (differs : c.lastKnown = some !raw) :
    c.seed t now raw = c.beginChange t now raw true := by
  simp [Contact.seed, differs]

/-! ### The bitmap -/

theorem position_iff (c : Contact) :
    c.position = true ↔ c.state = .closed ∨ c.state = .opening ∨ c.state = .unknown ∧ c.lastKnown = some true := by
  cases state : c.state with
  | unknown => cases known : c.lastKnown <;> simp [Contact.position, state, known]
  | opened => simp [Contact.position, state]
  | closing => simp [Contact.position, state]
  | closed => simp [Contact.position, state]
  | opening => simp [Contact.position, state]

/-- A bit of the fold that builds the bitmap: it was set before, or a closed contact of the list sets it. -/
theorem bitmap_fold (i : Nat) (cs : List Contact) : ∀ before : BitVec 64, i < 64 →
    ((cs.foldl (fun acc c => if c.position then acc ||| (1#64 <<< c.index.val) else acc) before).getLsbD i = true ↔
      before.getLsbD i = true ∨ ∃ c ∈ cs, c.index.val = i ∧ c.position = true) := by
  induction cs with
  | nil => intro before _; simp
  | cons c rest ih =>
    intro before small
    rw [List.foldl_cons, ih _ small]
    cases position : c.position with
    | false => simp [position]
    | true =>
      have bit : (before ||| (1#64 <<< c.index.val)).getLsbD i = true ↔ before.getLsbD i = true ∨ c.index.val = i := by
        have one : (1#64 <<< c.index.val).getLsbD i = true ↔ c.index.val = i := by
          simp [small]
          omega
        rw [BitVec.getLsbD_or, Bool.or_eq_true, one]
      simp only [if_true, bit, List.mem_cons, exists_eq_or_imp, position, and_true, or_assoc]

end Sys2Proof.Machine

namespace Sys2Proof.Proofs

open Sys2Proof.Machine

/-- Settles O40: the bitmap collects the contacts in a closed position (`bitmap_fold`). -/
theorem bitmapAndKnownFlag : Obligations.BitmapAndKnownFlag := by
  intro t
  refine ⟨fun i small => ?_, by simp [ContactTable.known]⟩
  rw [ContactTable.bitmap, bitmap_fold i t.records _ small]
  simp [position_iff]

/-- Settles O38: the transition of each state (`transition_opened` and its fellows), the seeding (`seed_settles`,
`seed_changes`), the ambiguity of one contact, and the snapshot as one whole. -/
theorem debounceTransitions : Obligations.DebounceTransitions := by
  refine ⟨?transitions, ?seeding, ?ambiguous, ?clear, ?snapshot⟩
  case transitions =>
    intro t now c closing elapsed
    refine ⟨fun opened => ?_, fun opened none => ?_, fun opened some => ?_, fun moving done => ?_,
      fun moving early => ?_, fun moving => ?_, fun closed => ?_, fun closed none => ?_, fun closed some => ?_,
      fun moving done => ?_, fun moving early => ?_, fun moving => ?_⟩
    · exact transition_opened opened false
    · exact (transition_opened opened true).trans (beginChange_settles true false none)
    · exact (transition_opened opened true).trans (beginChange_debounces true false some)
    · exact (transition_closing moving true).trans (completeChange_settles done)
    · exact (transition_closing moving true).trans (completeChange_waits early)
    · exact transition_closing moving false
    · exact transition_closed closed true
    · exact (transition_closed closed false).trans (beginChange_settles false false none)
    · exact (transition_closed closed false).trans (beginChange_debounces false false some)
    · exact (transition_opening moving false).trans (completeChange_settles done)
    · exact (transition_opening moving false).trans (completeChange_waits early)
    · exact transition_opening moving true
  case seeding =>
    intro t now raw c unknown seeded debounce settled
    have begins : seeded = c.seed t now raw := transition_unknown unknown raw
    refine ⟨fun agrees => begins.trans (seed_settles agrees), fun differs none => ?_, fun differs some => ?_⟩
    · rw [begins, seed_changes differs, beginChange_settles raw true none]
      rfl
    · rw [begins, seed_changes differs, beginChange_debounces raw true some]
  case ambiguous =>
    intro report now c found start due
    refine ⟨rfl, rfl, ?_, ?_, fun fresh => ?_, fun silent => ?_⟩
    · simp only [found, Contact.foundAmbiguous, due, start, Bool.or_eq_true, Bool.and_eq_true, decide_eq_true_eq,
        Bool.not_eq_true']
      cases c.reported <;> simp
    · simp [found, Contact.foundAmbiguous, or_assoc]
    · obtain ⟨unreported, late⟩ := fresh
      exact if_pos (by rw [unreported]; exact decide_eq_true late)
    · refine if_neg ?_
      rcases silent with reported | early
      · simp [reported]
      · exact fun reports => early (of_decide_eq_true (Bool.and_eq_true_iff.1 reports).2)
  case clear =>
    intro t now raw c released
    refine ⟨fun clear => ?_, fun ambiguous reported => ?_, fun ambiguous silent => ?_⟩
    · have same : ({ c with ambiguous := false, reported := c.reported && !c.ambiguous } : Contact) = c := by
        cases c
        simp_all
      rw [Contact.foundClear, same, clear]
      rfl
    · simp [Contact.foundClear, ambiguous, reported, released]
    · simp [Contact.foundClear, ambiguous, silent, released]
  case snapshot =>
    intro t report now rows results seen
    refine ⟨rfl, ?_, ?_, ?_⟩
    · exact List.flatMap_def
    · exact List.any_eq_true
    · simp [seen, ContactTable.process]

end Sys2Proof.Proofs
end

section
/-! The choice of frame and the turns: what a visit's beginning builds, and the frame it plans (03, R22, R41, R47, R48;
05, R88, R94, R98, R100). -/

namespace Sys2Proof.Machine

variable {st : Station}

/-! ### What is pending -/

/-- A count is ahead by 1 to 32,767 (R59, R98). -/
theorem ahead_iff (request done : Half) :
    ahead request done = true ↔ ∃ n, 1 ≤ n ∧ n ≤ 32767 ∧ request.toNat = (done.toNat + n) % 65536 := by
  have distance : forward request done = (request.toNat + (65536 - done.toNat)) % 65536 := by
    simp [forward, BitVec.toNat_sub, Nat.add_comm]
  have small := request.isLt
  have small' := done.isLt
  simp only [ahead, Bool.and_eq_true, decide_eq_true_eq, distance, Config.forwardMax]
  constructor
  · exact fun ⟨least, most⟩ => ⟨_, least, most, by omega⟩
  · rintro ⟨n, least, most, same⟩
    omega

theorem outputPending_iff (o : Output) :
    o.outputPending = true ↔ ∃ revision, o.fetchedRevision = some revision ∧ revision ≠ o.applied := by
  cases fetched : o.fetchedRevision <;> simp [Output.outputPending, fetched]

/-! ### The frame planned -/

theorem framePlan_order {o : Outstanding} (order : st.link.outstanding = some o) :
    st.framePlan = ⟨o.kind.code, o.turn, st.orderPayload o.kind⟩ ∧ st.expectedTurn = o.turn := by
  simp [Station.framePlan, Station.expectedTurn, order]

theorem framePlan_poll (none : st.link.outstanding = none) :
    st.framePlan = ⟨0x11#8, st.link.lastAcked, []⟩ ∧ st.expectedTurn = st.link.lastAcked := by
  simp [Station.framePlan, Station.expectedTurn, none, Config.kindPoll]

/-- The five things a visit's beginning can do to a station with no command outstanding (R47). -/
theorem beginVisit_cases (none : st.link.outstanding = none) :
    st.beginVisit = st.counted ∨ st.beginVisit = st.counted.newReset ∨ st.beginVisit = st.counted.newSet ∨
      st.beginVisit = st.counted.newSound ∨ st.beginVisit = st.counted.enterResync.newReset := by
  rw [beginVisit_new st none]
  exact buildOrder_cases st.counted

/-- A visit's beginning is the station counted, or an order built on it that takes the next turn (R47, R48). -/
theorem beginVisit_turns (none : st.link.outstanding = none) :
    st.beginVisit = st.counted ∨ ∃ kind, st.beginVisit.link.outstanding = some ⟨kind, st.link.nextTurn⟩ ∧
      st.beginVisit.link.nextTurn = st.link.nextTurn + 1#3 ∧
      st.beginVisit.link.counters = st.counted.link.counters := by
  rcases beginVisit_cases none with same | built | built | built | built
  · exact .inl same
  · rw [built]; exact .inr ⟨.resetStation, rfl, rfl, rfl⟩
  · rw [built]; exact .inr ⟨.set, rfl, rfl, rfl⟩
  · rw [built]; exact .inr ⟨.sound, rfl, rfl, rfl⟩
  · rw [built]; exact .inr ⟨.resetStation, rfl, rfl, rfl⟩

theorem beginVisit_online (online : st.link.state = .online) (settled : st.link.resyncPending = false)
    (none : st.link.outstanding = none) : st.beginVisit.link.state = .online := by
  rw [beginVisit_new st none]
  cases output : st.output.outputPending with
  | true => rw [buildOrder_output st.counted online settled output]; exact online
  | false =>
    cases sounder : st.output.sounderPending with
    | true => rw [buildOrder_sounder st.counted online settled output sounder]; exact online
    | false => rw [buildOrder_poll st.counted online settled output sounder]; exact online

theorem beginVisit_counters (st : Station) : st.beginVisit.link.counters = st.link.counters.countVisit := by
  cases order : st.link.outstanding with
  | some o => rw [beginVisit_resend st o order]; rfl
  | none =>
    rcases beginVisit_turns order with same | ⟨kind, -, -, counters⟩
    · rw [same]; rfl
    · rw [counters]; rfl

end Sys2Proof.Machine

namespace Sys2Proof.Proofs

open Sys2Proof.Machine

/-- Settles O31: a visit's beginning resends the command outstanding (`beginVisit_resend`), or builds one that takes the
next turn (`beginVisit_turns`). -/
theorem newOrdersTakeTheNextTurn : Obligations.NewOrdersTakeTheNextTurn := by
  intro st
  refine ⟨by rw [beginVisit_counters]; rfl, fun o order => ?_, fun o order => ?_, fun o none order => ?_,
    fun none poll => ?_⟩
  · rw [beginVisit_resend st o order]
    exact ⟨order, rfl, rfl, (framePlan_order (st := st.counted) order).2, rfl⟩
  · obtain ⟨plan, turn⟩ := framePlan_order order
    obtain ⟨-, -, contacts, -⟩ := beginVisit_keeps_station st
    intro plan'
    have payload : plan' = ⟨o.kind.code, o.turn, st.beginVisit.orderPayload o.kind⟩ := plan
    rw [payload]
    refine ⟨rfl, turn, fun kind => ⟨by rw [kind]; rfl, fun set content => ?_⟩,
      fun kind => ⟨by rw [kind]; rfl, fun sound content => ?_⟩, fun kind => ⟨by rw [kind]; rfl, ?_⟩⟩
    · simp [kind, Station.orderPayload, content]
    · simp [kind, Station.orderPayload, content]
    · simp [kind, Station.orderPayload, contacts]
  · rcases beginVisit_turns none with same | ⟨kind, built, next, -⟩
    · rw [same] at order
      exact absurd (none.symm.trans order) (by simp)
    · cases built.symm.trans order
      exact ⟨rfl, next⟩
  · rcases beginVisit_turns none with same | ⟨kind, built, -⟩
    · obtain ⟨plan, turn⟩ := framePlan_poll poll
      rw [same] at plan turn ⊢
      exact ⟨rfl, plan, turn⟩
    · exact absurd (poll.symm.trans built) (by simp)

/-- Settles O32: what is pending (`ahead_iff`, `outputPending_iff`), and the order built in each link state. -/
theorem choiceOfFrame : Obligations.ChoiceOfFrame := by
  refine ⟨ahead_iff, fun o => rfl, outputPending_iff, fun st none => ?_⟩
  have built := beginVisit_new st none
  refine ⟨fun online resync => ?_, fun online settled => ?_, fun resets => ?_, fun syncing image => ?_⟩
  · rw [built, buildOrder_resync st.counted online resync]
    exact ⟨rfl, rfl, rfl, rfl, rfl, rfl⟩
  · refine ⟨beginVisit_online online settled none, fun output => ?_, fun output sounder => ?_,
      fun output sounder => ?_⟩
    · rw [built, buildOrder_output st.counted online settled output]
      exact ⟨rfl, rfl, rfl⟩
    · rw [built, buildOrder_sounder st.counted online settled output sounder]
      exact ⟨rfl, rfl, rfl⟩
    · rw [built, buildOrder_poll st.counted online settled output sounder]
      exact ⟨(framePlan_poll (st := st.counted) none).1, rfl⟩
  · have reset : st.beginVisit = st.counted.newReset := by
      rcases resets with searching | ⟨syncing, step⟩
      · rw [built, buildOrder_searching st.counted searching]
      · rw [built, buildOrder_syncReset st.counted syncing (by simp [Link.count, step])]
    rw [reset]
    exact ⟨rfl, rfl, rfl, rfl⟩
  · rw [built, buildOrder_syncImage st.counted syncing image]
    exact ⟨syncing, rfl, rfl⟩

end Sys2Proof.Proofs
end

section
/-! The lamps of a SET: each below the indicator count as the fetched image has it, every other OFF (05, R88). -/

namespace Sys2Proof.Machine

theorem lampMask_bit (count j i : Nat) (small : i < 8) :
    (lampMask count j).getLsbD i = decide (i < 2 * min 4 (count - 4 * j)) := by
  have power : 4 ^ min 4 (count - 4 * j) = 2 ^ (2 * min 4 (count - 4 * j)) := by rw [Nat.pow_mul]
  rw [lampMask, BitVec.getLsbD_ofNat, power, Nat.testBit_two_pow_sub_one]
  simp [small]

theorem payload_byte (o : Output) (j : Nat) (small : j < 16) :
    byteAt o.payload j = byteAt o.fetchedImage j &&& lampMask o.indicatorCount j := by
  simp [byteAt, Output.payload, small]

end Sys2Proof.Machine

namespace Sys2Proof.Proofs

open Sys2Proof.Machine

/-- Settles O41: the mask keeps a lamp's two bits exactly below the indicator count (`lampMask_bit`). -/
theorem setCarriesTheImage : Obligations.SetCarriesTheImage := by
  intro o
  refine ⟨by simp [Output.payload], fun k small => ?_⟩
  rw [payload_byte o (k / 4) (by omega)]
  apply BitVec.eq_of_getLsbD_eq
  intro i inside
  have bit := lampMask_bit o.indicatorCount (k / 4) (2 * (k % 4) + i) (by omega)
  by_cases lit : k < o.indicatorCount
  · have kept : 2 * (k % 4) + i < 2 * min 4 (o.indicatorCount - 4 * (k / 4)) := by omega
    simp [lit, inside, bit, kept]
  · have cut : ¬2 * (k % 4) + i < 2 * min 4 (o.indicatorCount - 4 * (k / 4)) := by omega
    simp [lit, inside, bit, cut]

end Sys2Proof.Proofs
end

section
/-! Acknowledgements, visit results and their reports (03, R41, R42, R50 to R57, R60, R63). -/

namespace Sys2Proof.Machine

variable {st : Station}

/-! ### The acknowledgement of an order -/

/-- The completion of a sync in one form: the sampled count, where there is one, is the done count (R42). -/
theorem completeSync_does (l : Link) :
    l.completeSync = ({ l with
      state := .online, resyncDone := l.sampledResync.getD l.resyncDone, sampledResync := none, step := none
      origin := none },
      (if l.origin = some .searching then [.stationUp] else []) ++
        (if l.sampledResync.getD l.resyncDone = l.resyncDone then []
          else [.resyncDone (l.sampledResync.getD l.resyncDone)])) := by
  cases sampled : l.sampledResync with
  | none => simp [Link.completeSync, sampled]
  | some count =>
    by_cases same : count = l.resyncDone
    · simp [Link.completeSync, sampled, same]
    · simp [Link.completeSync, sampled, same]

theorem resetAcknowledged_keeps (l : Link) :
    l.resetAcknowledged = { l with
      state := l.resetAcknowledged.state, origin := l.resetAcknowledged.origin, step := l.resetAcknowledged.step } := by
  rw [Link.resetAcknowledged]
  split <;> rfl

theorem acknowledge_reset {o : Outstanding} (kind : o.kind = .resetStation) :
    st.acknowledge o = ({ st with link := (st.link.acknowledged o).resetAcknowledged }, []) := by
  simp only [Station.acknowledge, kind]

theorem acknowledge_set {o : Outstanding} (kind : o.kind = .set) (settled : st.link.state ≠ .syncing) :
    st.acknowledge o =
      ({ st with link := st.link.acknowledged o, output := st.output.setAcknowledged.1 },
        st.output.setAcknowledged.2) := by
  simp only [Station.acknowledge, kind]
  exact if_neg settled

/-- The SET of a sync completes it (R42, R57). -/
theorem acknowledge_image {o : Outstanding} (kind : o.kind = .set) (syncing : st.link.state = .syncing) :
    st.acknowledge o =
      ({ st with link := (st.link.acknowledged o).completeSync.1, output := st.output.setAcknowledged.1 },
        st.output.setAcknowledged.2 ++ (st.link.acknowledged o).completeSync.2) := by
  simp only [Station.acknowledge, kind]
  exact if_pos syncing

theorem acknowledge_sound {o : Outstanding} (kind : o.kind = .sound) :
    st.acknowledge o =
      ({ st with link := st.link.acknowledged o, output := st.output.soundAcknowledged.1 },
        st.output.soundAcknowledged.2) := by
  simp only [Station.acknowledge, kind]

/-- What every acknowledgement does (R50, R57). -/
theorem acknowledge_does (st : Station) (o : Outstanding) :
    (st.acknowledge o).1.link.outstanding = none ∧ (st.acknowledge o).1.link.lastAcked = o.turn ∧
    (st.acknowledge o).1.link.statusChanged = true ∧ (st.acknowledge o).1.link.nextTurn = st.link.nextTurn ∧
    (st.acknowledge o).1.contacts = st.contacts ∧ (st.acknowledge o).1.link.localFault = st.link.localFault ∧
    (st.acknowledge o).1.link.sounderActive = st.link.sounderActive ∧
    (st.acknowledge o).1.link.disablePending = st.link.disablePending ∧
    (st.acknowledge o).1.link.countersChanged = st.link.countersChanged := by
  cases kind : o.kind with
  | resetStation =>
    rw [acknowledge_reset kind, resetAcknowledged_keeps]
    exact ⟨rfl, rfl, rfl, rfl, rfl, rfl, rfl, rfl, rfl⟩
  | set =>
    by_cases syncing : st.link.state = .syncing
    · rw [acknowledge_image kind syncing, completeSync_does]
      exact ⟨rfl, rfl, rfl, rfl, rfl, rfl, rfl, rfl, rfl⟩
    · rw [acknowledge_set kind syncing]
      exact ⟨rfl, rfl, rfl, rfl, rfl, rfl, rfl, rfl, rfl⟩
  | sound =>
    rw [acknowledge_sound kind]
    exact ⟨rfl, rfl, rfl, rfl, rfl, rfl, rfl, rfl, rfl⟩

theorem setAcknowledged_does {output : Output} {set : OutSet} (content : output.outSet = some set) :
    output.setAcknowledged = ({ output with outSet := none, applied := set.revision.getD output.applied },
      (set.revision.map EventBody.outputApplied).toList) := by
  obtain ⟨revision, payload⟩ := set
  cases revision <;> simp [Output.setAcknowledged, content]

theorem soundAcknowledged_does {output : Output} {sound : OutSound} (content : output.outSound = some sound) :
    output.soundAcknowledged = ({ output with
      sounderDone := if ahead sound.satisfied output.sounderDone then sound.satisfied else output.sounderDone
      outSound := none }, [.sounderDone .sent sound.collapsed]) := by
  simp [Output.soundAcknowledged, content]

/-! ### Visit OK -/

/-- The acknowledgement that a Visit OK brings, where a command is outstanding (R50). -/
def Station.acked (st : Station) : Station × List EventBody :=
  match st.link.outstanding with
  | some o => st.acknowledge o
  | none => (st, [])

theorem acked_does (st : Station) :
    st.acked.1.contacts = st.contacts ∧ st.acked.1.link.localFault = st.link.localFault ∧
    st.acked.1.link.sounderActive = st.link.sounderActive ∧
    st.acked.1.link.disablePending = st.link.disablePending ∧
    st.acked.1.link.countersChanged = st.link.countersChanged ∧
    st.acked.1.link.statusChanged = (st.link.statusChanged || st.link.outstanding.isSome) := by
  cases order : st.link.outstanding with
  | none => simp [Station.acked, order]
  | some o =>
    obtain ⟨-, -, status, -, contacts, fault, sounder, pending, counters⟩ := acknowledge_does st o
    have acked : st.acked = st.acknowledge o := by simp [Station.acked, order]
    rw [acked]
    exact ⟨contacts, fault, sounder, pending, counters, by simp [status]⟩

/-- A Visit OK in one form. -/
theorem visitOk_eq (st : Station) (report : Nat) (now : Word) (snapshot : Snapshot) :
    st.visitOk report now snapshot = ({ st.acked.1 with
      link := { st.acked.1.link with
        misses := 0, waits := 0, localFault := snapshot.localFault, sounderActive := snapshot.sounderActive
        statusChanged := st.link.statusChanged || st.link.outstanding.isSome ||
          snapshot.localFault != st.link.localFault || snapshot.sounderActive != st.link.sounderActive ||
          (st.contacts.process report now snapshot.rows).changed
        countersChanged := st.link.countersChanged || (st.contacts.process report now snapshot.rows).bounced }
      contacts := (st.contacts.process report now snapshot.rows).table },
      st.acked.2 ++ (if snapshot.localFault = st.link.localFault then [] else [.stationFault snapshot.localFault]) ++
        (st.contacts.process report now snapshot.rows).events) := by
  obtain ⟨contacts, fault, sounder, -, counters, status⟩ := acked_does st
  rw [← contacts, ← fault, ← sounder, ← counters, ← status]
  rfl

/-! ### Every result -/

theorem countMiss_pending (st : Station) (limit : Nat) :
    (st.countMiss limit).1.link.disablePending = st.link.disablePending := by
  simp only [Station.countMiss]
  split
  · split <;> rfl
  · split <;> rfl
  · rfl
  · rfl

theorem takeResult_pending (st : Station) (settings : Settings) (now : Word) (result : VisitResult) :
    (st.takeResult settings now result).1.link.disablePending = st.link.disablePending := by
  cases result with
  | ok snapshot =>
    rw [Station.takeResult, visitOk_eq]
    exact (acked_does st).2.2.2.1
  | wait hold =>
    simp only [Station.takeResult, Station.visitWait]
    split
    · exact countMiss_pending _ _
    · rfl
  | turn =>
    simp only [Station.takeResult, Station.visitTurn]
    split <;> rfl
  | miss => exact countMiss_pending _ _
  | line => rfl

/-! ### Reports -/

section report

variable {s : State} {e : Entry} {bodies : List EventBody}

/-- The events of a station, as they are produced now. -/
def State.producedBy (s : State) (e : Entry) (bodies : List EventBody) : List Event :=
  bodies.map fun body => ⟨body, some e, s.run.clock⟩

theorem submitBodies_produced (u : State) (clock : u.run.clock = s.run.clock) :
    u.submitBodies e bodies = (s.producedBy e bodies).foldl (fun u v => u.submit v) u := by
  rw [State.producedBy, ← clock]
  rfl

/-- At work, they change the journal alone. -/
theorem submitBodies_journal (u : State) (works : u.works = true) (clock : u.run.clock = s.run.clock) :
    u.submitBodies e bodies =
      { u with journal := (s.producedBy e bodies).foldl (fun j v => j.submit v) u.journal } := by
  rw [submitBodies_works u e bodies works, State.producedBy, ← clock]
  rfl

/-- A report with nothing to tell of the status. -/
theorem report_plain (works : s.works = true) (unchanged : (s.station e).link.statusChanged = false) :
    s.report e bodies = { s with journal := (s.producedBy e bodies).foldl (fun j v => j.submit v) s.journal } :=
  (congrArg (State.submitBodies e bodies) (if_neg (by simp [unchanged]))).trans (submitBodies_journal s works rfl)

/-- A report that makes a STATUS request (R63). -/
def State.asked (e : Entry) (s : State) : State :=
  (s.requestStatus e).onLink e fun l => { l with statusChanged := false }

theorem report_asks (changed : (s.station e).link.statusChanged = true) :
    s.report e bodies = (s.asked e).submitBodies e bodies :=
  congrArg (State.submitBodies e bodies) (if_pos changed)

structure State.Reported (s : State) (e : Entry) (bodies : List EventBody) (t : State) : Prop where
  journal : t.journal = (s.producedBy e bodies).foldl (fun j v => j.submit v) s.journal
  status : .status e ∈ t.port.writes ∨ t.port.owed[e.val] = true
  station : t.station e = { s.station e with
    link := { (s.station e).link with statusChanged := false, countersChanged := false } }
  others : ∀ e' ≠ e, t.station e' = s.station e'
  parts : t = { s with stations := t.stations, journal := t.journal, port := t.port }
  port : t.port = (s.requestStatus e).port

theorem report_reported (works : s.works = true) (changed : (s.station e).link.statusChanged = true) :
    s.Reported e bodies (s.report e bodies) := by
  have journal : (s.asked e).journal = s.journal := by simp [State.asked]
  rw [report_asks changed, submitBodies_journal (s := s) _ (by simpa [State.asked, State.works] using works)
    (by simp [State.asked]), journal]
  refine ⟨rfl, ?_, ?_, fun e' other => ?_, ?_, by simp [State.asked]⟩
  · simpa [State.asked] using requestStatus_waits_state s e
  · change (s.asked e).station e = _
    simp [State.asked, requestStatus_station]
  · change (s.asked e).station e' = _
    simp [State.asked, requestStatus_station, other.symm]
  · refine state_eq ?_ ?_ ?_ ?_ ?_ ?_ ?_ ?_ ?_ ?_ ?_ ?_ <;> simp [State.asked]

end report

end Sys2Proof.Machine

namespace Sys2Proof.Proofs

open Sys2Proof.Machine

/-- Settles O36: the acknowledgement of each order (`acknowledge_reset` and its fellows), a Visit OK in one form
(`visitOk_eq`), a pending disable after any result (`takeResult_pending`), and the report (`report_plain`,
`report_reported`). -/
theorem acknowledgementEffects : Obligations.AcknowledgementEffects := by
  refine ⟨?orders, ?ok, ?turn, ?results, fun s e result => rfl, ?report⟩
  case orders =>
    intro st o a
    obtain ⟨outstanding, acked, status, next, contacts, fault, sounder, -⟩ := acknowledge_does st o
    refine ⟨⟨outstanding, acked, status, next, contacts, fault, sounder⟩, fun kind searching => ?_,
      fun kind syncing => ?_, fun set kind content => ?_, fun sound kind content => ?_⟩
    · have acks : a = _ := acknowledge_reset kind
      rw [acks]
      simp [Link.resetAcknowledged, Link.acknowledged, searching]
    · have acks : a = _ := acknowledge_reset kind
      rw [acks]
      simp [Link.resetAcknowledged, Link.acknowledged, syncing]
    · have applies := setAcknowledged_does content
      have output : a.1.output = st.output.setAcknowledged.1 := by
        by_cases syncing : st.link.state = .syncing
        · exact congrArg (·.1.output) (acknowledge_image kind syncing)
        · exact congrArg (·.1.output) (acknowledge_set kind syncing)
      rw [output, applies]
      refine ⟨rfl, rfl, fun online => ?_, fun syncing => ?_⟩
      · have acks : a = _ := acknowledge_set kind (by simp [online])
        rw [acks, applies]
        exact ⟨online, rfl⟩
      · have acks : a = _ := acknowledge_image kind syncing
        rw [acks, applies, completeSync_does]
        exact ⟨rfl, rfl, rfl, rfl, rfl, (List.append_assoc _ _ _).symm⟩
    · have acks : a = _ := acknowledge_sound kind
      rw [acks, soundAcknowledged_does content]
      exact ⟨rfl, rfl, rfl⟩
  case ok =>
    intro st report now snapshot acked seen v
    have form : v = _ := visitOk_eq st report now snapshot
    rw [form]
    refine ⟨rfl, ?_, ?_, rfl⟩
    · simp [seen, or_assoc]
    · simp [seen]
  case turn =>
    intro st abandoned turned
    have form : st.visitTurn = turned (match st.link.state with
      | .online =>
        { abandoned with state := .syncing, origin := some .online, step := some .reset, statusChanged := true }
      | .syncing => { abandoned with step := some .reset }
      | .searching | .disabled => abandoned) := rfl
    exact ⟨fun online => by rw [form, online], fun syncing => by rw [form, syncing],
      fun searching => by rw [form, searching]⟩
  case results =>
    intro st settings now result applied ended
    have pending : applied.1.link.disablePending = st.link.disablePending := takeResult_pending st settings now result
    refine ⟨fun snapshot ok => by subst ok; rfl, fun hold wait => by subst wait; rfl, fun turn => by subst turn; rfl,
      fun miss => by subst miss; rfl, fun line => by subst line; rfl, fun free => ?_, fun disables => ?_⟩
    · exact if_neg (by rw [pending, free]; simp)
    · have ends : ended = (applied.1.disable.1, applied.2 ++ applied.1.disable.2) := if_pos (pending.trans disables)
      exact ⟨ends, by rw [ends]; rfl⟩
  case report =>
    intro s e bodies works t events
    cases changed : (s.station e).link.statusChanged with
    | false =>
      have plain : t = _ := report_plain works changed
      rw [plain]
      exact ⟨rfl, fun _ => rfl, fun asks => Bool.noConfusion asks⟩
    | true =>
      have told : s.Reported e bodies t := report_reported works changed
      refine ⟨told.journal, fun plain => Bool.noConfusion plain, fun _ =>
        ⟨?_, told.status, told.station, told.others, told.parts⟩⟩
      exact (report_asks changed).trans (submitBodies_produced _ (by simp [State.asked]))

end Sys2Proof.Proofs
end

section
/-! The completion of an image fetch: discarded, accepted or torn (05, R91 to R93), and the end of a read in STOPPING
(07, R160). -/

namespace Sys2Proof.Machine

variable {s : State}

/-! ### The fetch -/

section fetch

variable {o : Output} {v : Half} {data : List Byte}

theorem fetchCompleted_discard (flying : o.fetchDiscard = true) :
    o.fetchCompleted data = ({ o with fetchInFlight := none, fetchDiscard := false }, false) := if_pos flying

theorem fetchCompleted_accepts (kept : o.fetchDiscard = false) (flying : o.fetchInFlight = some v)
    (agrees : halfAt data 0 = v ∧ halfAt data 18 = v) :
    o.fetchCompleted data = ({ o with
      fetchInFlight := none, fetchedRevision := some v, fetchedImage := (data.drop 2).take 16 }, false) := by
  simp [Output.fetchCompleted, kept, flying, bracketAgrees, agrees, imageOf]

theorem fetchCompleted_torn (kept : o.fetchDiscard = false) (flying : o.fetchInFlight = some v)
    (differs : ¬(halfAt data 0 = v ∧ halfAt data 18 = v)) :
    o.fetchCompleted data = ({ o with fetchInFlight := none, tornReads := satInc o.tornReads }, true) := by
  simp [Output.fetchCompleted, kept, flying, bracketAgrees, differs]

/-- A completion clears the fetch in flight and its discard mark, and leaves what the station shows alone. -/
theorem fetchCompleted_does (data : List Byte) (flying : o.fetchInFlight = some v) :
    (o.fetchCompleted data).1.fetchInFlight = none ∧ (o.fetchCompleted data).1.fetchDiscard = false ∧
    (o.fetchCompleted data).1.applied = o.applied := by
  cases discard : o.fetchDiscard with
  | true => rw [fetchCompleted_discard discard]; exact ⟨rfl, rfl, rfl⟩
  | false =>
    by_cases agrees : halfAt data 0 = v ∧ halfAt data 18 = v
    · rw [fetchCompleted_accepts discard flying agrees]; exact ⟨rfl, discard, rfl⟩
    · rw [fetchCompleted_torn discard flying agrees]; exact ⟨rfl, discard, rfl⟩

end fetch

theorem takeFetch_station (s : State) (e e' : Entry) (data : List Byte) :
    (s.takeFetch e data).station e' = if e = e' then { s.station e with
      output := ((s.station e).output.fetchCompleted data).1
      link := { (s.station e).link with
        countersChanged := (s.station e).link.countersChanged || ((s.station e).output.fetchCompleted data).2 } }
    else s.station e' := by
  cases torn : ((s.station e).output.fetchCompleted data).2 with
  | true =>
    have taken : (s.takeFetch e data).station e' = ((s.onOutput e fun _ =>
        ((s.station e).output.fetchCompleted data).1).onLink e
        fun l => { l with countersChanged := true }).station e' := by
      simp only [State.takeFetch, torn, if_true]
      rfl
    rw [taken, onLink_station]
    by_cases same : e = e'
    · subst same; simp
    · simp [same]
  | false =>
    have taken : s.takeFetch e data = s.onOutput e fun _ => ((s.station e).output.fetchCompleted data).1 := by
      simp [State.takeFetch, torn]
    rw [taken, onOutput_station]
    by_cases same : e = e'
    · subst same; simp
    · simp [same]

theorem takeFetch_torn (s : State) (e : Entry) (data : List Byte) :
    (s.takeFetch e data).tornReads =
      if ((s.station e).output.fetchCompleted data).2 then satInc s.tornReads else s.tornReads := by
  simp only [State.takeFetch]
  split <;> rfl

/-! ### The end of a read in STOPPING -/

theorem endRead_port_of_quiet (quiet : ({ s.port with inFlight := none } : Port).quiet = true) :
    s.endRead.port = { s.port with inFlight := none } := by
  have empty : s.port.reads = [] ∧ s.port.writes = [] := by
    simp only [Port.quiet, Bool.and_eq_true, List.isEmpty_iff] at quiet
    exact ⟨quiet.1.1.1.2, quiet.1.1.2⟩
  simp [State.endRead, State.startTransaction, State.chooseTransaction, empty]

theorem endRead_quiet_iff (transacts : s.run.state.transacts = true) :
    s.endRead.port.quiet = true ↔ ({ s.port with inFlight := none } : Port).quiet = true := by
  rw [endRead_quiet transacts]
  simp [Port.quiet, Port.noneOwed, Port.firstOwed, and_assoc]

/-- A read's end after which the run goes on (R160). -/
theorem endRead_goesOn (works : s.works = true) (goesOn : s.run.state = .running ∨ s.journal.drain ≠ .ended ∨
      ({ s.port with inFlight := none } : Port).quiet = false) : s.endRead.haltIfQuiet = s.endRead := by
  rcases goesOn with running | waits
  · exact haltIfQuiet_running _ (by simpa using running)
  · refine halt_eq (by simpa [State.works] using works) fun ended => Bool.eq_false_iff.2 fun quiet => ?_
    have empty := (endRead_quiet_iff (transacts_of_works works)).1 quiet
    have more := waits.resolve_left (Classical.not_not.2 (by simpa using ended))
    rw [empty] at more
    cases more

/-- A read's end that ends the run: HALTED is entered with a quiet Memory Port (R160). -/
theorem endRead_halts (stopping : s.run.state = .stopping) (ended : s.journal.drain = .ended)
    (quiet : ({ s.port with inFlight := none } : Port).quiet = true) :
    s.endRead.haltIfQuiet = s.endRead.haltFromStopping :=
  if_pos ⟨by simpa using stopping, by simpa using ended,
    (endRead_quiet_iff (by simp [stopping, RunState.transacts])).2 quiet⟩

end Sys2Proof.Machine

namespace Sys2Proof.Proofs

open Sys2Proof.Machine

/-- Settles O42: the three completions (`fetchCompleted_discard`, `fetchCompleted_accepts`, `fetchCompleted_torn`),
after which the run goes on or ends (`endRead_goesOn`, `endRead_halts`). -/
theorem fetchIsDiscardedAcceptedOrTorn : Obligations.FetchIsDiscardedAcceptedOrTorn := by
  intro s e a data v works flight length flying o agrees goesOn
  let u := s.takeFetch e data
  have station := takeFetch_station s e
  have torn : u.endRead.haltIfQuiet.tornReads =
      (if (o.fetchCompleted data).2 then satInc s.tornReads else s.tornReads) := by
    simpa [u] using takeFetch_torn s e data
  obtain ⟨none, clear, applied⟩ := fetchCompleted_does (o := o) data flying
  obtain ⟨outSet, -⟩ := fetchCompleted_content data o
  have shown : ∀ e', u.endRead.haltIfQuiet.station e' = u.station e' := fun e' => by simp
  have own := (station e data).trans (if_pos rfl)
  refine ⟨u.endRead.haltIfQuiet, exec_fetch works flight length, fun on => ?_, fun ends => ?_, fun e' other => ?_, ?_⟩
  · have same : u.endRead.haltIfQuiet = u.endRead :=
      endRead_goesOn (by simpa [State.works, u] using works) (by simpa [u] using on)
    rw [same]
    refine state_eq ?_ ?_ ?_ ?_ ?_ ?_ ?_ ?_ ?_ ?_ ?_ ?_ <;> simp [u]
  · simp only [goesOn, not_or, Classical.not_not, Bool.not_eq_false] at ends
    obtain ⟨notRunning, ended, quiet⟩ := ends
    have stopping : s.run.state = .stopping := by
      simpa [State.works, RunState.works, notRunning] using works
    have halts : u.endRead.haltIfQuiet = u.endRead.haltFromStopping :=
      endRead_halts (by simpa [u] using stopping) (by simpa [u] using ended) (by simpa [u] using quiet)
    obtain ⟨-, -, -, cause, -⟩ := haltFromStopping_parts u.endRead
    have port := endRead_port_of_quiet (s := u) (by simpa [u] using quiet)
    rw [halts, cause]
    exact ⟨by simp [u], by simp [u], by simp [u], by simp [u], by simpa [u] using port⟩
  · rw [shown, station e' data, if_neg other.symm]
  · rw [shown, torn, show u.station e = _ from own]
    refine ⟨none, clear, applied, outSet, rfl, fun discard => ?_, fun kept matches' => ?_, fun kept differs => ?_⟩
    · rw [fetchCompleted_discard (o := (s.station e).output) discard]
      exact ⟨rfl, by simp, rfl⟩
    · rw [fetchCompleted_accepts (o := (s.station e).output) kept flying matches']
      exact ⟨rfl, by simp, rfl⟩
    · rw [fetchCompleted_torn (o := (s.station e).output) kept flying differs]
      exact ⟨rfl, by simp, rfl⟩

end Sys2Proof.Proofs
end

section
/-! The counter pairs of the exchange area and the hand-over of sounder requests (05, R98, R99, R102; 07, R145 to
R147). -/

namespace Sys2Proof.Machine

variable {s : State} {e : Entry} {v : Half} {pattern : Byte}

/-! ### The judgement of a pair -/

/-- The findings by distances alone, where the request count leads by at most 32,767 (R146). -/
theorem judgePair_iff {r d : Half} (v : Half) (behind : (r - d).toNat ≤ 32767) :
    (judgePair r d v = .unchanged ↔ v = r) ∧
    (judgePair r d v = .valid ↔ v ≠ r ∧ (r - d).toNat ≤ (v - d).toNat ∧ (v - d).toNat ≤ 32767) ∧
    (judgePair r d v = .backward ↔ (v - d).toNat < (r - d).toNat) ∧
    (judgePair r d v = .tooFar ↔ 32767 < (v - d).toNat) := by
  by_cases same : v = r
  · subst same
    have unchanged : judgePair v d v = .unchanged := if_pos rfl
    simp [-BitVec.toNat_sub, unchanged]
    omega
  by_cases back : (v - d).toNat < (r - d).toNat
  · have backward : judgePair r d v = .backward := (if_neg same).trans (if_pos back)
    simp [-BitVec.toNat_sub, backward, same]
    omega
  by_cases near : (v - d).toNat ≤ 32767
  · have valid : judgePair r d v = .valid := (if_neg same).trans ((if_neg back).trans (if_pos near))
    simp [-BitVec.toNat_sub, valid, same]
    omega
  · have far : judgePair r d v = .tooFar := (if_neg same).trans ((if_neg back).trans (if_neg near))
    simp [-BitVec.toNat_sub, far, same]
    omega

/-- A valid count is ahead of the request count and of the done count. -/
theorem judgePair_ahead {r d v : Half} (other : v ≠ r) (least : (r - d).toNat ≤ (v - d).toNat)
    (most : (v - d).toNat ≤ 32767) : 1 ≤ (v - r).toNat ∧ (v - r).toNat ≤ 32767 ∧ ahead v d = true := by
  have apart : v.toNat ≠ r.toNat := fun same => other (BitVec.eq_of_toNat_eq same)
  have := r.isLt
  have := d.isLt
  have := v.isLt
  have leads : 1 ≤ (v - d).toNat := by
    rw [BitVec.toNat_sub] at least most ⊢
    rw [BitVec.toNat_sub] at least
    omega
  refine ⟨?_, ?_, Bool.and_eq_true_iff.2 ⟨decide_eq_true leads, decide_eq_true most⟩⟩
  all_goals
    rw [BitVec.toNat_sub] at least most ⊢
    rw [BitVec.toNat_sub] at least
    omega

/-! ### What each finding does -/

theorem takeSounder_unchanged
    (finding : judgePair (s.station e).output.sounderRequest (s.station e).output.sounderDone v = .unchanged) :
    s.takeSounder e v pattern = s := by
  simp [State.takeSounder, finding]

theorem takeSounder_valid
    (finding : judgePair (s.station e).output.sounderRequest (s.station e).output.sounderDone v = .valid) :
    s.takeSounder e v pattern = s.handOverSounder e v pattern := by
  simp [State.takeSounder, finding]

theorem takeSounder_invalid
    (finding : judgePair (s.station e).output.sounderRequest (s.station e).output.sounderDone v = .backward ∨
      judgePair (s.station e).output.sounderRequest (s.station e).output.sounderDone v = .tooFar) :
    s.takeSounder e v pattern = s.reportSounder e v := by
  rcases finding with finding | finding <;> simp [State.takeSounder, finding]

theorem takeResync_unchanged
    (finding : judgePair (s.station e).link.resyncRequest (s.station e).link.resyncDone v = .unchanged) :
    s.takeResync e v = s := by
  simp [State.takeResync, finding]

theorem takeResync_valid
    (finding : judgePair (s.station e).link.resyncRequest (s.station e).link.resyncDone v = .valid) :
    s.takeResync e v = s.onLink e fun l => { l with resyncRequest := v } := by
  simp [State.takeResync, finding]

theorem takeResync_invalid
    (finding : judgePair (s.station e).link.resyncRequest (s.station e).link.resyncDone v = .backward ∨
      judgePair (s.station e).link.resyncRequest (s.station e).link.resyncDone v = .tooFar) :
    s.takeResync e v = s.reportResync e v := by
  rcases finding with finding | finding <;> simp [State.takeResync, finding]

/-- A HOST_VALUE report sets the HOSTVAL cause and submits one event (R128). -/
theorem reportHostValue_does (s : State) (field : Byte) (e : Option Entry) :
    (s.reportHostValue field e).irq.cause.getLsbD 4 = true ∧
    (s.reportHostValue field e).journal = (s.submit ⟨.hostValue field, e, s.run.clock⟩).journal := by
  refine ⟨?_, rfl⟩
  simp [State.reportHostValue, State.setCause, Interrupt.set, Cause.bit]

/-! ### The hand-over -/

/-- What every hand-over takes, and what it leaves alone (R98). -/
theorem handOver_takes (o : Output) (count : Half) (pattern : Byte) (link : LinkState) :
    (o.handOver count pattern link).1.sounderRequest = count ∧
    (o.handOver count pattern link).1.sounderPattern = pattern ∧
    (o.handOver count pattern link).1.outSound = o.outSound ∧ (o.handOver count pattern link).1.outSet = o.outSet ∧
    (o.handOver count pattern link).1.applied = o.applied := by
  simp only [Output.handOver]
  split <;> exact ⟨rfl, rfl, rfl, rfl, rfl⟩

theorem handOver_rejected (o : Output) (count : Half) (link : LinkState) (past : 8 ≤ pattern.toNat) :
    o.handOver count pattern link =
      ({ o with sounderRequest := count, sounderPattern := pattern, sounderDone := count },
        [.sounderDone .rejected (count - o.inHand)]) := by
  simp only [Output.handOver, handOverCourse, past, if_true]
  rfl

theorem handOver_discarded (o : Output) {count : Half} {link : LinkState} (known : pattern.toNat < 8)
    (down : link = .disabled ∨ link = .searching) (some : ahead count o.sounderDone = true) :
    o.handOver count pattern link =
      ({ o with sounderRequest := count, sounderPattern := pattern, sounderDone := count },
        [.sounderDone .discarded (count - o.sounderDone)]) := by
  simp only [Output.handOver, handOverCourse, Nat.not_le.2 known, down, if_true, if_false]
  exact discardRequests_pending { o with sounderRequest := count, sounderPattern := pattern } some

theorem handOver_pending (o : Output) {count : Half} {link : LinkState} (known : pattern.toNat < 8)
    (up : link = .syncing ∨ link = .online) :
    o.handOver count pattern link = ({ o with sounderRequest := count, sounderPattern := pattern }, []) := by
  have down : ¬(link = .disabled ∨ link = .searching) := by rcases up with rfl | rfl <;> simp
  simp only [Output.handOver, handOverCourse, Nat.not_le.2 known, down, if_false]

theorem handOverSounder_output (s : State) (e : Entry) (count : Half) (pattern : Byte) :
    ((s.handOverSounder e count pattern).station e).output = (s.handed e count pattern).1 ∧
    ((s.handOverSounder e count pattern).station e).contacts = (s.station e).contacts ∧
    ((s.handOverSounder e count pattern).station e).link = { (s.station e).link with
      countersChanged := ((s.handOverSounder e count pattern).station e).link.countersChanged } ∧
    ∀ e' ≠ e, (s.handOverSounder e count pattern).station e' = s.station e' := by
  have shown (t : State) (stations : ∀ e', t.station e' =
      if e = e' then { s.station e with
        output := (s.handed e count pattern).1
        link := { (s.station e).link with countersChanged := (t.station e).link.countersChanged } }
      else s.station e') :
      (t.station e).output = (s.handed e count pattern).1 ∧ (t.station e).contacts = (s.station e).contacts ∧
        (t.station e).link = { (s.station e).link with countersChanged := (t.station e).link.countersChanged } ∧
        ∀ e' ≠ e, t.station e' = s.station e' := by
    refine ⟨?_, ?_, ?_, fun e' other => by rw [stations, if_neg other.symm]⟩
    · rw [stations, if_pos rfl]
    · rw [stations, if_pos rfl]
    · conv => lhs; rw [stations, if_pos rfl]
  have asked (e' : Entry) : ((s.onOutput e fun _ => (s.handed e count pattern).1).requestStatus e).station e' =
      if e = e' then { s.station e with
        output := (s.handed e count pattern).1, link := { (s.station e).link with countersChanged := false } }
      else s.station e' := by
    rw [requestStatus_station]
    by_cases same : e = e'
    · subst same; simp
    · simp [same]
  by_cases past : 8 ≤ pattern.toNat
  · rw [handOverSounder_rejected s e count pattern past]
    exact shown _ fun e' => by simp [asked]
  · by_cases down : (s.station e).link.state = .disabled ∨ (s.station e).link.state = .searching
    · rw [handOverSounder_discarded s e count pattern (Nat.lt_of_not_le past) down]
      exact shown _ fun e' => by simp [asked]
    · rw [handOverSounder_pending s e count pattern (Nat.lt_of_not_le past) down]
      exact shown _ fun e' => by simp [onOutput_station]

end Sys2Proof.Machine

namespace Sys2Proof.Proofs

open Sys2Proof.Machine

/-- Settles O50: the findings by distances (`judgePair_iff`), and what each of them does to the two pairs. -/
theorem counterPairsAreJudged : Obligations.CounterPairsAreJudged := by
  refine ⟨fun r d v behind => ?_, fun s e v pattern => ?_, fun s e v => ?_⟩
  · obtain ⟨unchanged, valid, backward, far⟩ := judgePair_iff v behind
    refine ⟨unchanged, valid, backward, far, fun found => ?_⟩
    obtain ⟨other, least, most⟩ := valid.1 found
    exact judgePair_ahead other least most
  · intro o t finding
    refine ⟨takeSounder_unchanged, fun found => ?_, fun found => ⟨?_, fun known => ?_, fun fresh => ?_⟩⟩
    · have takes : t = _ := takeSounder_valid found
      rw [takes, (handOverSounder_output s e v pattern).1]
      exact (handOver_takes _ _ _ _).1
    · have takes : t = _ := takeSounder_invalid found
      rw [takes, State.reportSounder]
      split <;> simp [o]
    · exact (takeSounder_invalid found).trans (if_pos known)
    · have takes : t = _ := (takeSounder_invalid found).trans (if_neg fresh)
      obtain ⟨cause, journal⟩ := reportHostValue_does s 27#8 (some e)
      rw [takes]
      exact ⟨by simp, cause, journal⟩
  · intro l t finding
    refine ⟨takeResync_unchanged, fun found => ?_, fun found => ⟨?_, fun known => ?_, fun fresh => ?_⟩⟩
    · have takes : t = _ := takeResync_valid found
      rw [takes]
      simp [l]
    · have takes : t = _ := takeResync_invalid found
      rw [takes, State.reportResync]
      split <;> simp [l]
    · exact (takeResync_invalid found).trans (if_pos known)
    · have takes : t = _ := (takeResync_invalid found).trans (if_neg fresh)
      obtain ⟨cause, journal⟩ := reportHostValue_does s 29#8 (some e)
      rw [takes]
      exact ⟨by simp, cause, journal⟩

end Sys2Proof.Proofs
end

section
/-! A sounder request handed over: rejected, discarded or pending, and what is told of it (05, R98, R99, R102; 07,
R145). -/

namespace Sys2Proof.Machine

variable {s : State} {e : Entry} {count : Half} {pattern : Byte}

/-- The state once a hand-over that settles has been told: a STATUS request, and the events of the station (R102). -/
def State.toldHandOver (e : Entry) (count : Half) (pattern : Byte) (s : State) : State :=
  ((s.handed e count pattern).2.map fun body => ⟨body, some e, s.run.clock⟩).foldl (fun u x => u.submit x)
    ((s.onOutput e fun _ => (s.handed e count pattern).1).requestStatus e)

theorem toldHandOver_eq (e : Entry) (count : Half) (pattern : Byte) (s : State) :
    ((s.onOutput e fun _ => (s.handed e count pattern).1).requestStatus e).submitBodies e
      (s.handed e count pattern).2 = s.toldHandOver e count pattern := by
  have clock : ((s.onOutput e fun _ => (s.handed e count pattern).1).requestStatus e).run.clock = s.run.clock := by simp
  rw [State.toldHandOver, ← clock]
  rfl

/-- What a state in which a hand-over has been told shows of it. -/
structure State.Told (s : State) (e : Entry) (bodies : List EventBody) (t : State) : Prop where
  status : .status e ∈ t.port.writes ∨ t.port.owed[e.val] = true
  journal : t.journal =
    (bodies.map fun body => (⟨body, some e, s.run.clock⟩ : Event)).foldl (fun j x => j.submit x) s.journal
  link : (t.station e).link = { (s.station e).link with countersChanged := false }
  parts : t = { s with stations := t.stations, journal := t.journal, irq := t.irq, port := t.port }

theorem toldHandOver_told (works : s.works = true) :
    s.Told e (s.handed e count pattern).2 (s.toldHandOver e count pattern) := by
  let asked := (s.onOutput e fun _ => (s.handed e count pattern).1).requestStatus e
  have told : s.toldHandOver e count pattern = { asked with
      journal := ((s.handed e count pattern).2.map fun body => (⟨body, some e, s.run.clock⟩ : Event)).foldl
        (fun j x => j.submit x) s.journal } := by
    have journal : asked.journal = s.journal := by simp [asked]
    rw [← journal]
    exact submitAll_works _ asked (by simpa [asked, State.works] using works)
  rw [told]
  refine ⟨requestStatus_waits_state _ e, rfl, ?_, ?_⟩
  · change (asked.station e).link = _
    simp [asked, requestStatus_station]
  · refine state_eq ?_ ?_ ?_ ?_ ?_ ?_ ?_ ?_ ?_ ?_ ?_ ?_ <;> simp [asked]

theorem toldHandOver_keeps (s : State) (e : Entry) (count : Half) (pattern : Byte) :
    (s.toldHandOver e count pattern).irq = s.irq ∧ (s.toldHandOver e count pattern).run = s.run := by
  rw [← toldHandOver_eq]
  simp

/-- One more event, submitted with the HOSTVAL cause, joins what has been told (R128). -/
theorem State.Told.reported {bodies : List EventBody} {t : State} (told : s.Told e bodies t) (works : s.works = true)
    (run : t.run = s.run) (field : Byte) :
    s.Told e (bodies ++ [.hostValue field]) (t.reportHostValue field (some e)) := by
  have works' : t.works = true := by rw [State.works, run]; exact works
  have journal : (t.reportHostValue field (some e)).journal =
      t.journal.submit ⟨.hostValue field, some e, s.run.clock⟩ := by
    rw [State.reportHostValue, submit_works _ works', State.event, run]
    rfl
  refine ⟨by simpa using told.status, ?_, by simpa using told.link, ?_⟩
  · rw [journal, told.journal, List.map_append, List.foldl_append]
    rfl
  · rw [told.parts]
    refine state_eq ?_ ?_ ?_ ?_ ?_ ?_ ?_ ?_ ?_ ?_ ?_ ?_ <;> simp

end Sys2Proof.Machine

namespace Sys2Proof.Proofs

open Sys2Proof.Machine

/-- Settles O43: the three courses of the hand-over (`handOver_rejected`, `handOver_discarded`, `handOver_pending`), and
what is told of the two that settle (`toldHandOver_told`). -/
theorem sounderHandOverSettles : Obligations.SounderHandOverSettles := by
  refine ⟨fun o count pattern link => ?_, fun s e v pattern running => ?_⟩
  · refine ⟨handOver_takes o count pattern link, fun past => ?_, fun known down least most => ?_, fun known up => ?_⟩
    · rw [handOver_rejected o count link past]
      exact ⟨rfl, rfl⟩
    · rw [handOver_discarded o known down (Bool.and_eq_true_iff.2 ⟨decide_eq_true least, decide_eq_true most⟩)]
      exact ⟨rfl, rfl⟩
    · rw [handOver_pending o known up]
      exact ⟨rfl, rfl⟩
  intro st valid h t event told reported
  have takes : t = s.handOverSounder e v pattern := takeSounder_valid valid
  have works := works_of_running running
  obtain ⟨output, contacts, -, others⟩ := handOverSounder_output s e v pattern
  have spoken : s.Told e h.2 told := toldHandOver_told works
  obtain ⟨irq, run⟩ : told.irq = s.irq ∧ told.run = s.run := toldHandOver_keeps s e v pattern
  rw [← takes] at output contacts others
  refine ⟨output, contacts, others, fun past => ?_, fun known down => ?_, fun known up => ?_⟩
  · have rejects : t = told.reportHostValue 28#8 (some e) := by
      rw [takes, handOverSounder_rejected s e v pattern past, toldHandOver_eq]
      rfl
    have more := spoken.reported works run 28#8
    rw [← rejects] at more
    refine ⟨rejects.trans ?_, more.status, more.journal, more.link, more.parts⟩
    rw [State.reportHostValue, State.event, run, ← irq]
    have kept : (told.submit ⟨.hostValue 28#8, some e, s.run.clock⟩).irq = told.irq := by simp
    rw [← kept]
    rfl
  · have discards : t = told := by
      rw [takes, handOverSounder_discarded s e v pattern known down, toldHandOver_eq]
      rfl
    rw [← discards] at spoken irq
    exact ⟨discards, irq, spoken.status, spoken.journal, spoken.link, spoken.parts⟩
  · have down : ¬((s.station e).link.state = .disabled ∨ (s.station e).link.state = .searching) := by
      rcases up with up | up <;> simp [st] at up <;> simp [up]
    exact takes.trans (handOverSounder_pending s e v pattern known down)

end Sys2Proof.Proofs
end

section
/-! The live part of a station's entry: what each of its fields asks for, and the end of the read that brought it (03,
R60, R61; 05, R90; 07, R143 to R147). -/

namespace Sys2Proof.Machine

variable {s : State} {e : Entry}

/-! ### The enable byte -/

theorem takeEnable_off (down : (s.station e).link.state = .disabled) : s.takeEnable e 0#8 = s := by
  simp [State.takeEnable, down]

theorem takeEnable_up {enable : Byte} (down : (s.station e).link.state = .disabled) (on : enable ≠ 0#8) :
    s.takeEnable e enable =
      (s.onLink e fun l => { l with state := .searching, statusChanged := true }).requestStatus e := by
  simp [State.takeEnable, down, on]

theorem takeEnable_stays {enable : Byte} (up : (s.station e).link.state ≠ .disabled) (on : enable ≠ 0#8) :
    s.takeEnable e enable = s.onLink e fun l => { l with disablePending := false } := by
  simp [State.takeEnable, up, on]

theorem takeEnable_pends (up : (s.station e).link.state ≠ .disabled)
    (trying : s.sched.visit.map (·.entry) = some e) :
    s.takeEnable e 0#8 = s.onLink e fun l => { l with disablePending := true } := by
  simp [State.takeEnable, up, State.tryInProgress, trying]

theorem takeEnable_disables (up : (s.station e).link.state ≠ .disabled)
    (idle : s.sched.visit.map (·.entry) ≠ some e) :
    s.takeEnable e 0#8 = (s.onStation e fun _ => (s.station e).disable.1).report e (s.station e).disable.2 := by
  simp [State.takeEnable, up, State.tryInProgress, idle, State.disableNow]

/-! ### The revision -/

theorem takeRevision_fetches {live : Half} (up : (s.station e).link.state ≠ .disabled)
    (other : (s.station e).output.fetchedRevision ≠ some live) (idle : (s.station e).output.fetchInFlight = none) :
    s.takeRevision e live = (s.onOutput e fun o => { o with fetchInFlight := some live }).requestReads [.image e] :=
  if_pos ⟨up, by simp [Output.wantsFetch, other, idle]⟩

theorem takeRevision_kept {live : Half} (kept : ¬((s.station e).link.state ≠ .disabled ∧
      (s.station e).output.fetchedRevision ≠ some live ∧ (s.station e).output.fetchInFlight = none)) :
    s.takeRevision e live = s := by
  refine if_neg fun ⟨up, wants⟩ => kept ⟨up, ?_⟩
  simpa [Output.wantsFetch] using wants

/-! ### The Memory Port, with the read in flight -/

/-- A transaction in flight, and the sweep's reads that wait. -/
def State.Reads (x : Transaction) (sweep : List Read) (s : State) : Prop :=
  s.port.inFlight = some x ∧ s.port.sweepReads = sweep

section reads

variable {x : Transaction} {sweep : List Read} {t : State}

theorem State.Reads.same (h : s.Reads x sweep) (port : t.port = s.port) : t.Reads x sweep := by
  rw [State.Reads, port]
  exact h

theorem State.Reads.status (e : Entry) (h : s.Reads x sweep) : (s.requestStatus e).Reads x sweep := by
  obtain ⟨flight, reads⟩ := h
  refine ⟨(flightUpkeep x).status s e flight, ?_⟩
  rw [Port.sweepReads, (requestStatus_reads s e (.inl (by simp [flight]))).1]
  exact reads

theorem State.Reads.report (e : Entry) (bodies : List EventBody) (h : s.Reads x sweep) :
    (s.report e bodies).Reads x sweep :=
  report_preserves s (fun _ _ port _ _ h => h.same port) (fun _ _ h => h.same (by simp)) (fun _ e h => h.status e) e
    bodies h

theorem State.Reads.image (h : s.Reads x sweep) : (s.requestReads [.image e]).Reads x sweep := by
  obtain ⟨flight, reads⟩ := h
  rw [State.Reads, requestReads_flight _ (by simp [flight])]
  exact ⟨flight, by simpa [Port.sweepReads, Read.ofSweep] using reads⟩

theorem State.Reads.enable (enable : Byte) (h : s.Reads x sweep) : (s.takeEnable e enable).Reads x sweep := by
  rw [State.takeEnable]
  split
  · split
    · exact h
    · exact State.Reads.status e (h.same rfl)
  · split
    · exact h.same rfl
    split
    · exact h.same rfl
    · exact State.Reads.report e _ (h.same rfl)

theorem State.Reads.revision (live : Half) (h : s.Reads x sweep) : (s.takeRevision e live).Reads x sweep := by
  rw [State.takeRevision]
  split
  · exact State.Reads.image (h.same rfl)
  · exact h

theorem State.Reads.sounder (count : Half) (pattern : Byte) (h : s.Reads x sweep) :
    (s.takeSounder e count pattern).Reads x sweep := by
  have asked : ((s.onOutput e fun _ => (s.handed e count pattern).1).requestStatus e).Reads x sweep :=
    State.Reads.status e (h.same rfl)
  simp only [State.takeSounder]
  split
  · exact h
  · simp only [State.handOverSounder]
    split
    · exact asked.same (by simp)
    · exact asked.same (by simp)
    · exact h.same rfl
  · exact h.same (by simp)
  · exact h.same (by simp)

theorem State.Reads.live (live : LivePart) (h : s.Reads x sweep) : (s.takeLivePart e live).Reads x sweep := by
  have fetched : ((s.takeEnable e live.enable).takeRevision e live.revision).Reads x sweep :=
    State.Reads.revision _ (h.enable live.enable)
  exact (fetched.sounder (e := e) live.sounderCount live.pattern).same (by simp [State.takeLivePart])

end reads

/-! ### The end of the read -/

section ends

variable {a : Nat} {data : List Byte}

/-- A live part in RUNNING, with more reads of the sweep to come. -/
theorem exec_live_more (running : s.run.state = .running) (flight : s.port.inFlight = some (.read (.live e) a))
    (length : data.length = 12) (more : s.port.sweepReads ≠ []) :
    exec (.livePartReadComplete data) s = .next (s.takeLivePart e (readLivePart data)).endRead := by
  obtain ⟨-, sweep⟩ := State.Reads.live (e := e) (readLivePart data) (⟨flight, rfl⟩ : s.Reads _ s.port.sweepReads)
  have taken : s.takeLive e data = s.takeLivePart e (readLivePart data) := by
    rw [State.takeLive, if_pos running]
    exact if_neg fun ⟨_, last⟩ => more (sweep.symm.trans last)
  rw [exec_live (works_of_running running) flight length, taken]
  exact next_congr (haltIfQuiet_running _ (by simpa using running))

/-- The sweep's last read, in RUNNING. -/
theorem exec_live_last (running : s.run.state = .running) (flight : s.port.inFlight = some (.read (.live e) a))
    (length : data.length = 12) (last : s.port.sweepReads = []) (sweeps : s.exch.sweepInFlight = true) :
    exec (.livePartReadComplete data) s = .next (s.takeLivePart e (readLivePart data)).endSweep.endRead := by
  obtain ⟨-, sweep⟩ := State.Reads.live (e := e) (readLivePart data) (⟨flight, rfl⟩ : s.Reads _ s.port.sweepReads)
  have taken : s.takeLive e data = (s.takeLivePart e (readLivePart data)).endSweep := by
    rw [State.takeLive, if_pos running]
    exact if_pos ⟨by simpa using sweeps, sweep.trans last⟩
  rw [exec_live (works_of_running running) flight length, taken]
  exact next_congr (haltIfQuiet_running _ (by simpa using running))

/-- In STOPPING a live part is not acted on; what is left of the sweep goes on until the drain has ended. -/
theorem exec_live_stopping (stopping : s.run.state = .stopping) (going : s.journal.drain ≠ .ended)
    (flight : s.port.inFlight = some (.read (.live e) a)) (length : data.length = 12) :
    exec (.livePartReadComplete data) s = .next s.endSweepIfDone.endRead := by
  have taken : s.takeLive e data = s.endSweepIfDone := by
    rw [State.takeLive, if_neg (by simp [stopping]), if_neg going]
  rw [exec_live (works_of_stopping stopping) flight length, taken]
  exact next_congr (haltIfQuiet_draining _ (by simpa using stopping) (by simpa using going))

end ends

/-! ### What a live part comes to -/

theorem takeLivePart_eq (s : State) (e : Entry) (live : LivePart) :
    s.takeLivePart e live = (((s.takeEnable e live.enable).takeRevision e live.revision).takeSounder e
      live.sounderCount live.pattern).takeResync e live.resyncCount := rfl

theorem judgePair_same (r d : Half) : judgePair r d r = .unchanged := if_pos rfl

/-- Counts that stand leave the state as it is. -/
theorem counts_stand {u : State} {count pairCount : Half} {pattern : Byte}
    (sounder : count = (u.station e).output.sounderRequest) (resync : pairCount = (u.station e).link.resyncRequest) :
    (u.takeSounder e count pattern).takeResync e pairCount = u := by
  rw [takeSounder_unchanged (by rw [sounder]; exact judgePair_same _ _),
    takeResync_unchanged (by rw [resync]; exact judgePair_same _ _)]

/-- A live part that asks for nothing but the disable mark. -/
theorem takeLivePart_stays {live : LivePart} (up : (s.station e).link.state ≠ .disabled)
    (enable : live.enable ≠ 0#8 ∨ s.sched.visit.map (·.entry) = some e)
    (kept : ¬((s.station e).output.fetchedRevision ≠ some live.revision ∧ (s.station e).output.fetchInFlight = none))
    (sounder : live.sounderCount = (s.station e).output.sounderRequest)
    (resync : live.resyncCount = (s.station e).link.resyncRequest) :
    s.takeLivePart e live = s.onLink e fun l => { l with disablePending := decide (live.enable = 0#8) } := by
  have enabled : s.takeEnable e live.enable =
      s.onLink e fun l => { l with disablePending := decide (live.enable = 0#8) } := by
    by_cases off : live.enable = 0#8
    · rw [off, takeEnable_pends up (enable.resolve_left (Classical.not_not.2 off))]
      rfl
    · rw [takeEnable_stays up off]
      simp [off]
  rw [takeLivePart_eq, enabled, takeRevision_kept, counts_stand]
  · simpa using sounder
  · simpa using resync
  · simpa using fun _ => not_and.1 kept

/-- The sounder request leaves the resync pair alone. -/
theorem takeSounder_resync (s : State) (e : Entry) (count : Half) (pattern : Byte) :
    ((s.takeSounder e count pattern).station e).link.resyncRequest = (s.station e).link.resyncRequest := by
  simp only [State.takeSounder]
  split
  · rfl
  · obtain ⟨-, -, link, -⟩ := handOverSounder_output s e count pattern
    rw [link]
  · rw [State.reportSounder]
    split <;> simp
  · rw [State.reportSounder]
    split <;> simp

theorem endRead_changes (s : State) : s.endRead = { s with port := s.endRead.port } :=
  startTransaction_changes (s.onPort fun p => { p with inFlight := none })

/-- The read that joined last, behind others, still waits once the arbiter has chosen. -/
theorem endRead_last {old : List Read} {r : Read} (behind : old ≠ []) (reads : s.port.reads = old ++ [r]) :
    r ∈ s.endRead.port.reads := by
  obtain ⟨first, more, rfl⟩ := List.exists_cons_of_ne_nil behind
  rcases startTransaction_cases (s.onPort fun p => { p with inFlight := none }) with
    same | ⟨-, head, rest, found, same⟩ | ⟨-, w, rest, -, same⟩
  · rw [State.endRead, same, onPort_port, reads]
    simp
  · have split : head :: rest = first :: (more ++ [r]) := found.symm.trans reads
    obtain ⟨-, rfl⟩ := List.cons.inj split
    rw [State.endRead, same]
    simp
  · rw [State.endRead, same, onPort_port, reads]
    simp

/-! ### A station enabled -/

/-- The link of a station that has been enabled, its status already asked for (R60, R63). -/
def Link.searching (l : Link) : Link := { l with state := .searching, statusChanged := true, countersChanged := false }

/-- An enable of a DISABLED station. -/
def State.searched (e : Entry) (s : State) : State :=
  (s.onLink e fun l => { l with state := .searching, statusChanged := true }).requestStatus e

/-- A state in which the station searches, with the output record that its revision has left. -/
structure State.SearchBegun (s : State) (e : Entry) (output : Output) (t : State) : Prop where
  stations : ∀ e', t.station e' =
    if e = e' then { s.station e with link := (s.station e).link.searching, output := output } else s.station e'
  status : .status e ∈ t.port.writes ∨ t.port.owed[e.val] = true
  parts : t = { s with stations := t.stations, port := t.port }

theorem searched_does (s : State) (e : Entry) {a : Nat} (flight : s.port.inFlight = some (.read (.live e) a))
    (more : s.port.sweepReads ≠ []) :
    (∀ e', (s.searched e).station e' =
      if e = e' then { s.station e with link := (s.station e).link.searching } else s.station e') ∧
    (.status e ∈ (s.searched e).port.writes ∨ (s.searched e).port.owed[e.val] = true) ∧
    s.searched e = { s with stations := (s.searched e).stations, port := (s.searched e).port } ∧
    (s.searched e).port.reads ≠ [] := by
  refine ⟨fun e' => ?_, requestStatus_waits_state _ e, ?_, fun empty => ?_⟩
  · rw [State.searched, requestStatus_station]
    by_cases same : e = e'
    · subst same; simp [Link.searching]
    · simp [same]
  · refine state_eq ?_ ?_ ?_ ?_ ?_ ?_ ?_ ?_ ?_ ?_ ?_ ?_ <;> simp [State.searched]
  · have before : s.Reads (.read (.live e) a) s.port.sweepReads := ⟨flight, rfl⟩
    obtain ⟨-, sweep⟩ : (s.searched e).Reads (.read (.live e) a) s.port.sweepReads :=
      State.Reads.status e (before.same rfl)
    exact more (sweep.symm.trans (by rw [Port.sweepReads, empty]; rfl))

section searchBegun

variable {t : State} {output : Output} {count pairCount : Half} {pattern : Byte}

theorem State.SearchBegun.stand (h : s.SearchBegun e output t) (sounder : count = output.sounderRequest)
    (resync : pairCount = (s.station e).link.resyncRequest) :
    (t.takeSounder e count pattern).takeResync e pairCount = t := by
  have own := (h.stations e).trans (if_pos rfl)
  exact counts_stand (by rw [own]; exact sounder) (by rw [own]; exact resync)

theorem State.SearchBegun.counted (h : s.SearchBegun e output t) (sounder : count = output.sounderRequest)
    (resync : pairCount = (s.station e).link.resyncRequest) :
    s.SearchBegun e output ((t.takeSounder e count pattern).takeResync e pairCount) := by
  rw [h.stand sounder resync]
  exact h

theorem State.SearchBegun.endRead (h : s.SearchBegun e output t) :
    t.endRead.station e = { s.station e with link := (s.station e).link.searching, output := output } ∧
    (.status e ∈ t.endRead.port.writes ∨ t.endRead.port.owed[e.val] = true) ∧
    (∀ e' ≠ e, t.endRead.station e' = s.station e') ∧
    t.endRead = { s with stations := t.endRead.stations, port := t.endRead.port } := by
  obtain ⟨writes, owed, -, -⟩ := startTransaction_port (t.onPort fun p => { p with inFlight := none })
  refine ⟨by simpa using (h.stations e).trans (if_pos rfl), ?_, fun e' other => ?_, ?_⟩
  · rw [State.endRead, writes, owed]
    exact h.status
  · simpa [other.symm] using h.stations e'
  · rw [endRead_changes]
    exact congrArg (fun u : State => ({ u with port := t.endRead.port } : State)) h.parts

end searchBegun

end Sys2Proof.Machine

namespace Sys2Proof.Proofs

open Sys2Proof.Machine

/-- Settles O51: the enable byte and the revision case by case, the counts that stand (`counts_stand`) or change, and
the end of the read with more of the sweep to come or as its last (`exec_live_more`, `exec_live_last`). -/
theorem livePartIsActedOn : Obligations.LivePartIsActedOn := by
  refine ⟨fun b => rfl, ?fields, ?read, ?more, ?last⟩
  case fields =>
    intro s e enable revision st trying
    refine ⟨fun down off => ?_, takeEnable_up, takeEnable_stays, fun up off yes => ?_, fun up off no => ?_, ?_⟩
    · rw [off]; exact takeEnable_off down
    · rw [off]; exact takeEnable_pends up yes
    · rw [off]; exact takeEnable_disables up no
    · exact ⟨fun ⟨up, other, idle⟩ => takeRevision_fetches up other idle, takeRevision_kept⟩
  case read =>
    intro s e a data flight length running live acted
    exact ⟨exec_live_more running flight length, exec_live_last running flight length⟩
  case more =>
    intro s e a data flight length more live st
    have acts (running : s.run.state = .running) :
        exec (.livePartReadComplete data) s = .next (s.takeLivePart e live).endRead :=
      exec_live_more running flight length more
    refine ⟨fun running up enable stands sounder resync => ?stay, fun running up on stands resync => ?sounds,
      fun running up on other idle sounder valid => ?fetches, fun running down on sounder resync => ?searches,
      fun running up off idle sounder resync => ?disables, fun stopping going => ?stops⟩
    case stay =>
      have kept : ¬(st.output.fetchedRevision ≠ some live.revision ∧ st.output.fetchInFlight = none) := by
        rintro ⟨other, none⟩
        refine stands.elim (fun same => ?_) (fun flying => by simp [none] at flying)
        cases fetched : st.output.fetchedRevision with
        | none => rw [fetched] at same; simp at same
        | some revision => rw [fetched] at same other; exact other (congrArg some same.symm)
      refine ⟨_, acts running, ?_⟩
      rw [takeLivePart_stays up enable kept sounder resync]
      exact endRead_changes _
    case sounds =>
      have kept : ¬(st.output.fetchedRevision ≠ some live.revision ∧ st.output.fetchInFlight = none) :=
        fun ⟨other, idle⟩ => stands.elim other fun flying => by simp [idle] at flying
      intro u
      have fetched : u.takeRevision e live.revision = u := takeRevision_kept
          (by simpa [u] using fun _ => not_and.1 kept)
      have pair : (u.takeSounder e live.sounderCount live.pattern).takeResync e live.resyncCount =
          u.takeSounder e live.sounderCount live.pattern := by
        refine takeResync_unchanged ?_
        have same := takeSounder_resync u e live.sounderCount live.pattern
        rw [same, resync]
        simpa [u] using judgePair_same _ _
      rw [acts running, takeLivePart_eq, takeEnable_stays up on, fetched, pair]
    case fetches =>
      let u := s.onLink e fun l => { l with disablePending := false }
      let asked := u.onOutput e fun o => { o with fetchInFlight := some live.revision }
      let fetching := asked.requestReads [.image e]
      have fetched : u.takeRevision e live.revision = fetching :=
        takeRevision_fetches (by simpa [u] using up) (by simpa [u] using other) (by simpa [u] using idle)
      have port : fetching.port = { s.port with reads := s.port.reads ++ [.image e] } :=
        requestReads_flight (s := asked) _ (by simp [asked, u, flight])
      have counts : (fetching.takeSounder e live.sounderCount live.pattern).takeResync e live.resyncCount =
          fetching.onLink e fun l => { l with resyncRequest := live.resyncCount } := by
        rw [takeSounder_unchanged, takeResync_valid]
        · simpa [fetching, asked, u] using valid
        · rw [sounder]
          simpa [fetching, asked, u] using judgePair_same _ _
      have behind : s.port.reads ≠ [] := fun empty => more (by simp [Port.sweepReads, empty])
      refine ⟨_, acts running, ?_⟩
      rw [takeLivePart_eq, takeEnable_stays up on, fetched, counts]
      refine ⟨?_, ?_, ?_, fun e' elsewhere => ?_, ?_⟩
      · simp [fetching, asked, u, st]
      · simp [fetching, asked, u, st]
      · exact endRead_last behind (by rw [onLink_port, port])
      · simp [fetching, asked, u, elsewhere.symm]
      · refine state_eq ?_ ?_ ?_ ?_ ?_ ?_ ?_ ?_ ?_ ?_ ?_ ?_ <;> simp [fetching, asked, u]
    case searches =>
      obtain ⟨station, status, parts, behind⟩ := searched_does s e flight more
      have own : (s.searched e).station e = { st with link := st.link.searching } := (station e).trans (if_pos rfl)
      have flying : (s.searched e).port.inFlight = some (.read (.live e) a) := (flightUpkeep _).status _ e flight
      have acted (w : State) (fetched : (s.searched e).takeRevision e live.revision = w) :
          exec (.livePartReadComplete data) s =
            .next ((w.takeSounder e live.sounderCount live.pattern).takeResync e live.resyncCount).endRead := by
        rw [acts running, takeLivePart_eq, takeEnable_up down on, ← fetched]
        rfl
      by_cases fetch : st.output.fetchedRevision ≠ some live.revision ∧ st.output.fetchInFlight = none
      · let asked := (s.searched e).onOutput e fun o => { o with fetchInFlight := some live.revision }
        have port : (asked.requestReads [.image e]).port =
            { (s.searched e).port with reads := (s.searched e).port.reads ++ [.image e] } :=
          requestReads_flight (s := asked) _ (Option.isSome_of_eq_some flying)
        have took : s.SearchBegun e { st.output with fetchInFlight := some live.revision }
            (asked.requestReads [.image e]) := by
          refine ⟨fun e' => ?_, by rw [port]; exact status, ?_⟩
          · by_cases same : e = e'
            · subst same; simp [asked, own, st]
            · simp [asked, same, station]
          · have kept : asked.requestReads [.image e] = { s.searched e with
                stations := (asked.requestReads [.image e]).stations
                port := (asked.requestReads [.image e]).port } := by
              refine state_eq ?_ ?_ ?_ ?_ ?_ ?_ ?_ ?_ ?_ ?_ ?_ ?_ <;> simp [asked]
            rw [kept, parts]
        obtain ⟨shown, told, others, whole⟩ := (took.counted sounder resync).endRead
        refine ⟨_, acted _ (takeRevision_fetches (by rw [own]; exact LinkState.noConfusion) (by rw [own]; exact fetch.1)
          (by rw [own]; exact fetch.2)), by rw [shown]; rfl, told, fun stands => ?_, fun _ _ => ⟨by rw [shown], ?_⟩,
          by rw [shown], others, whole⟩
        · exact absurd fetch fun ⟨other, idle⟩ => stands.elim other fun flying => by simp [idle] at flying
        · rw [took.stand sounder resync]
          exact endRead_last behind (by rw [port])
      · have took : s.SearchBegun e st.output (s.searched e) := ⟨station, status, parts⟩
        obtain ⟨shown, told, others, whole⟩ := (took.counted sounder resync).endRead
        exact ⟨_, acted _ (takeRevision_kept (by rw [own]; exact fun wants => fetch wants.2)), by rw [shown]; rfl, told,
          fun _ => by rw [shown], fun other idle => absurd ⟨other, idle⟩ fetch, by rw [shown], others, whole⟩
    case disables =>
      let v := s.onStation e fun _ => st.disable.1
      let u := v.report e st.disable.2
      have told : v.Reported e st.disable.2 u := report_reported (works_of_running running) (by simp [v]; rfl)
      have own : u.station e = { st.disable.1 with
          link := { st.disable.1.link with statusChanged := false, countersChanged := false } } := by
        rw [told.station]
        simp [v]
      have fetched : u.takeRevision e live.revision = u :=
        takeRevision_kept fun ⟨enabled, _⟩ => enabled (by rw [own]; rfl)
      have counts : (u.takeSounder e live.sounderCount live.pattern).takeResync e live.resyncCount = u :=
        counts_stand (by rw [own]; exact sounder) (by rw [own]; exact resync)
      obtain ⟨writes, owed, -, -⟩ := startTransaction_port (u.onPort fun p => { p with inFlight := none })
      refine ⟨_, acts running, ?_⟩
      rw [takeLivePart_eq, off, takeEnable_disables up idle, fetched, counts]
      refine ⟨by simpa using own, ?_, ?_, fun e' other => ?_, ?_⟩
      · rw [State.endRead, writes, owed]
        exact told.status
      · rw [endRead_changes]
        exact told.journal
      · have same := told.others e' other
        simpa [v, onStation_station, other.symm] using same
      · rw [endRead_changes, told.parts]
        rfl
    case stops =>
      have still : s.endSweepIfDone = s := if_neg fun ⟨_, empty⟩ => more empty
      exact ⟨_, (exec_live_stopping stopping going flight length).trans (by rw [still]), endRead_changes s⟩
  case last =>
    intro s e a data flight length last sweeps live st ends
    have flying : s.port.inFlight.isSome = true := by simp [flight]
    refine ⟨fun running up enable stands sounder resync => ?_, fun stopping going => ?_⟩
    · have kept : ¬(st.output.fetchedRevision ≠ some live.revision ∧ st.output.fetchInFlight = none) :=
        fun ⟨other, idle⟩ => stands.elim other fun flying => by simp [idle] at flying
      let u := s.onLink e fun l => { l with disablePending := decide (live.enable = 0#8) }
      have acts : exec (.livePartReadComplete data) s = .next u.endSweep.endRead := by
        rw [exec_live_last running flight length last sweeps, takeLivePart_stays up enable kept sounder resync]
      have swept := endSweep_over (s := u) flying
      refine ⟨_, acts, swept.exch, fun e' takes changed => ?_, fun e' => ?_, swept.again, ?_⟩
      · refine swept.status e' ?_ ?_
        · by_cases same : e = e'
          · subst same; simpa [u] using takes
          · simpa [u, same] using takes
        · by_cases same : e = e'
          · subst same; simpa [u] using changed
          · simpa [u, same] using changed
      · rw [swept.stations]
        by_cases same : e = e'
        · subst same; simp [u]
        · simp [u, same, Ne.symm same]
      · exact swept.parts
    · have sweep : s.endSweepIfDone = s.endSweep := if_pos ⟨sweeps, last⟩
      have swept := endSweep_over flying
      refine ⟨_, (exec_live_stopping stopping going flight length).trans (by rw [sweep]), swept.exch, swept.status,
        fun e' => ?_, swept.again, swept.parts⟩
      rw [swept.stations]
      split
      next same => rw [same]
      next => rfl

end Sys2Proof.Proofs
end

section
/-! The bytes the block writes: the records of the journal, the MARK and the status blocks (11, R136, R178, R179,
section 11.5). -/

namespace Sys2Proof.Machine

/-! ### Fields of a list of bytes -/

/-- The two bytes of a half word are the half word. -/
theorem half_join (x : Half) : x.extractLsb' 8 8 ++ x.extractLsb' 0 8 = x := by
  apply BitVec.eq_of_getLsbD_eq
  intro i inside
  rw [BitVec.getLsbD_append]
  by_cases low : i < 8
  · simp [low]
  · simp [low, show i - 8 < 8 by omega, show 8 + (i - 8) = i by omega]

/-- The four bytes of a word are the word. -/
theorem word_join (x : Word) :
    (x.extractLsb' 24 8 ++ x.extractLsb' 16 8 : Half) ++ (x.extractLsb' 8 8 ++ x.extractLsb' 0 8 : Half) = x := by
  have high : (x.extractLsb' 24 8 ++ x.extractLsb' 16 8 : Half) = x.extractLsb' 16 16 := by
    apply BitVec.eq_of_getLsbD_eq
    intro i inside
    rw [BitVec.getLsbD_append]
    by_cases low : i < 8
    · simp [low, inside]
    · simp [low, inside, show i - 8 < 8 by omega, show 24 + (i - 8) = 16 + i by omega]
  have low : (x.extractLsb' 8 8 ++ x.extractLsb' 0 8 : Half) = x.extractLsb' 0 16 := by
    apply BitVec.eq_of_getLsbD_eq
    intro i inside
    rw [BitVec.getLsbD_append]
    by_cases low : i < 8
    · simp [low, inside]
    · simp [low, inside, show i - 8 < 8 by omega, show 8 + (i - 8) = i by omega]
  rw [high, low]
  apply BitVec.eq_of_getLsbD_eq
  intro i inside
  rw [BitVec.getLsbD_append]
  by_cases small : i < 16
  · simp [small]
  · simp [small, show i - 16 < 16 by omega, show 16 + (i - 16) = i by omega]

theorem byteAt_append (a b : List Byte) (k : Nat) (past : a.length ≤ k) :
    byteAt (a ++ b) k = byteAt b (k - a.length) := by
  rw [byteAt, byteAt, List.getD_eq_getElem?_getD, List.getD_eq_getElem?_getD, List.getElem?_append_right past]

theorem byteAt_zeroBytes (n k : Nat) : byteAt (zeroBytes n) k = 0#8 := by
  simp [byteAt, zeroBytes, List.getD_eq_getElem?_getD, List.getElem?_replicate]
  split <;> rfl

/-- Bytes behind the last field are zero. -/
theorem byteAt_padding (a : List Byte) (n k : Nat) (past : a.length ≤ k) : byteAt (a ++ zeroBytes n) k = 0#8 := by
  rw [byteAt_append a _ k past, byteAt_zeroBytes]

theorem flagByte_eq (set : Bool) : flagByte set = if set then 1#8 else 0#8 := rfl

theorem flags_bit : ∀ first second : Bool, ∀ i < 8, (flagByte first ||| (flagByte second <<< 1)).getLsbD i =
    (i == 0 && first || i == 1 && second) := by decide

theorem flag_bit : ∀ set : Bool, ∀ i < 8, (flagByte set).getLsbD i = (i == 0 && set || i == 1 && false) := by decide

/-! ### A record -/

section record

variable (serial : Half) (code station : Byte) (time : Word) (detail : List Byte)

theorem recordBytes_zero (k : Nat) (past : 8 + detail.length ≤ k) :
    byteAt (recordBytes serial code station time detail) k = 0#8 :=
  byteAt_padding _ _ k (by simp [halfBytes, wordBytes]; omega)

theorem recordBytes_length (short : detail.length ≤ 8) :
    (recordBytes serial code station time detail).length = 16 := by
  simp [recordBytes, halfBytes, wordBytes, zeroBytes]
  omega

theorem recordBytes_head :
    byteAt (recordBytes serial code station time detail) 2 = code ∧
    byteAt (recordBytes serial code station time detail) 3 = station ∧
    wordAt (recordBytes serial code station time detail) 4 = time := ⟨rfl, rfl, word_join time⟩

end record

theorem detail_length (body : EventBody) : body.detail.length ≤ 8 := by
  cases body <;> simp [EventBody.detail, halfBytes, wordBytes]

theorem urgent_iff (body : EventBody) :
    body.urgent = true ↔ body.code ∈ [0x21#8, 0x40#8, 0x7F#8, 0x42#8, 0x02#8] := by
  cases body <;> simp [EventBody.urgent, EventBody.code]

theorem nextRecord_length (next : NextRecord) (serial : Half) (now : Word) : (next.bytes serial now).length = 16 := by
  cases next with
  | loss gap => exact recordBytes_length _ _ _ _ _ (by simp [halfBytes])
  | event e => exact recordBytes_length _ _ _ _ _ (detail_length _)

theorem nextRecord_urgent (next : NextRecord) (serial : Half) (now : Word) :
    next.urgent = true ↔ byteAt (next.bytes serial now) 2 ∈ [0x21#8, 0x40#8, 0x7F#8, 0x42#8, 0x02#8] := by
  cases next with
  | loss gap =>
    have code : byteAt (NextRecord.bytes serial now (.loss gap)) 2 = 0x7F#8 := rfl
    rw [code]
    simp [NextRecord.urgent]
  | event e =>
    have code : byteAt (NextRecord.bytes serial now (.event e)) 2 = e.body.code := rfl
    rw [code]
    exact urgent_iff e.body

end Sys2Proof.Machine
end

section
/-! The forming of a record with its MARK, and the drain that the last one ends (06, R104 to R111, R119 to R121, section
11.5). -/

namespace Sys2Proof.Machine

variable {s : State} {next : NextRecord} {left : Journal}

/-! ### The event taken from staging -/

theorem gap_isZero (g : Gap) : g.isZero = true ↔ g = ⟨0#16, 0#16, 0#16, 0#16⟩ := by
  rw [Gap.isZero, beq_iff_eq]
  rfl

theorem takeNext_loss {j : Journal} {head : Staged} {rest : List Staged} (staged : j.staging = head :: rest)
    (lost : head.gap ≠ ⟨0#16, 0#16, 0#16, 0#16⟩) :
    j.takeNext = some (.loss head.gap,
      { j with staging := { head with gap := ⟨0#16, 0#16, 0#16, 0#16⟩ } :: rest }) := by
  simp only [Journal.takeNext, staged]
  exact if_neg (mt (gap_isZero _).1 lost)

theorem takeNext_event {j : Journal} {head : Staged} {rest : List Staged} (staged : j.staging = head :: rest)
    (none : head.gap = ⟨0#16, 0#16, 0#16, 0#16⟩) :
    j.takeNext = some (.event head.event, { j with staging := rest }) := by
  simp only [Journal.takeNext, staged]
  exact if_pos ((gap_isZero _).2 none)

theorem takeNext_open {j : Journal} (empty : j.staging = []) (lost : j.openGap ≠ ⟨0#16, 0#16, 0#16, 0#16⟩) :
    j.takeNext = some (.loss j.openGap, { j with openGap := ⟨0#16, 0#16, 0#16, 0#16⟩ }) := by
  simp only [Journal.takeNext, empty]
  exact if_neg (mt (gap_isZero _).1 lost)

theorem takeNext_none {j : Journal} (empty : j.staging = []) (none : j.openGap = ⟨0#16, 0#16, 0#16, 0#16⟩) :
    j.takeNext = .none := by
  simp only [Journal.takeNext, empty]
  exact if_pos ((gap_isZero _).2 none)

theorem drained_iff (j : Journal) : j.drained = true ↔ j.staging = [] ∧ j.openGap = ⟨0#16, 0#16, 0#16, 0#16⟩ := by
  rw [Journal.drained, Bool.and_eq_true, List.isEmpty_iff, gap_isZero]

/-! ### The record and its mark in the queue -/

theorem canTakeRecord_of (run : s.run.state = .running ∨ s.run.state = .stopping ∧ s.journal.drain ≠ .ended)
    (room : (s.journal.written - s.journal.view).toNat < s.cfg.journalCapacity) (free : s.port.writes.length ≤ 6)
    (none : ∀ e : Entry, s.port.owed[e.val] = false) : s.canTakeRecord = true := by
  have owed : s.port.noneOwed = true := by simp [Port.noneOwed, firstOwed_nobody none]
  have most : s.port.writes.length + 2 ≤ Config.writesMax := by simp [Config.writesMax]; omega
  have space : 1 ≤ s.journal.room s.cfg.journalCapacity := by
    rw [Journal.room]
    omega
  simp only [State.canTakeRecord, Bool.and_eq_true, Bool.or_eq_true, beq_iff_eq, bne_iff_ne, decide_eq_true_eq]
  exact ⟨⟨⟨run, space⟩, most⟩, owed⟩

theorem formRecord_journal (s : State) (next : NextRecord) (left : Journal) :
    (s.formRecord next left).journal = { left with written := s.journal.written + 1#32 } := by
  simp [State.formRecord]

theorem writeInFlight_iff {p : Port} : p.writeInFlight = true ↔ ∃ w a bytes, p.inFlight = some (.write w a bytes) := by
  rw [Port.writeInFlight]
  cases flight : p.inFlight with
  | none => simp
  | some x => cases x <;> simp

theorem tailMark_eq {p : Port} {front : List WriteEntry} {covered : Word} {urgent : Bool}
    (writes : p.writes = front ++ [.mark covered urgent])
    (waits : front ≠ [] ∨ ∀ w a bytes, p.inFlight ≠ some (.write w a bytes)) :
    p.tailMark = some ⟨covered, urgent⟩ := by
  have last : p.unstarted.getLast? = some (.mark covered urgent) := by
    rw [Port.unstarted, writes]
    split
    next flight =>
      cases front with
      | nil =>
        obtain ⟨w, a, bytes, started⟩ := writeInFlight_iff.1 flight
        exact absurd started ((waits.resolve_left (absurd rfl)) w a bytes)
      | cons first rest => simp
    next => simp
  simp only [Port.tailMark, last]

/-- The record joins the queue in front of the MARK at its tail, which it renews, or with a new MARK behind it (R111,
R155). -/
theorem formRecord_joins (ordered : s.port.Ordered) (free : s.port.writes.length + 2 ≤ Config.writesMax) :
    let record : WriteEntry := .record (s.journal.written.toNat % s.cfg.journalCapacity)
      (next.bytes (s.journal.written.setWidth 16) s.run.clock)
    (∀ front covered urgent, s.port.writes = front ++ [.mark covered urgent] →
      (front ≠ [] ∨ ∀ w a bytes, s.port.inFlight ≠ some (.write w a bytes)) →
      (s.formRecord next left).port.writes =
        front ++ [record, .mark (s.journal.written + 1#32) (urgent || next.urgent)]) ∧
    ((∀ covered urgent, s.port.writes.getLast? ≠ some (.mark covered urgent)) ∨
        s.port.writes.length = 1 ∧ (∃ w a bytes, s.port.inFlight = some (.write w a bytes)) →
      (s.formRecord next left).port.writes =
        s.port.writes ++ [record, .mark (s.journal.written + 1#32) next.urgent]) := by
  intro record
  obtain ⟨front, u, writes, -, tail⟩ := formRecord_writes s next left ordered free
  refine ⟨fun front' covered urgent queue waits => ?_, fun alone => ?_⟩
  · have mark := tailMark_eq queue waits
    rcases tail with ⟨m, found, queue', urgent'⟩ | ⟨none, -⟩
    · cases found.symm.trans mark
      have same : front = front' := List.append_cancel_right (queue'.symm.trans queue)
      rw [writes, same, urgent']
    · exact absurd (none.symm.trans mark) (by simp)
  · rcases tail with ⟨m, found, -⟩ | ⟨-, queue, urgent⟩
    · obtain ⟨first, queue, behind⟩ := tailMark_some s.port found
      rcases alone with other | ⟨one, w, a, bytes, flight⟩
      · exact absurd (by rw [queue]; simp) (other m.covered m.urgent)
      · have nonempty := behind (by simp [Port.writeInFlight, flight])
        rw [queue] at one
        simp at one
        exact absurd one nonempty
    · rw [writes, ← queue, urgent]

/-- Behind the record formed stands a MARK that a further request may renew, and none is held back (R155). -/
theorem formRecord_mark (ordered : s.port.Ordered) (free : s.port.writes.length + 2 ≤ Config.writesMax) :
    (s.formRecord next left).port.heldMark = none ∧ (s.formRecord next left).port.tailMark.isSome = true ∧
    .record (s.journal.written.toNat % s.cfg.journalCapacity)
      (next.bytes (s.journal.written.setWidth 16) s.run.clock) ∈ (s.formRecord next left).port.writes := by
  obtain ⟨front, u, writes, held, -⟩ := formRecord_writes s next left ordered free
  refine ⟨held, ?_, by simp [writes]⟩
  rw [tailMark_eq (writes.trans (List.append_cons front _ _)) (.inl (by simp))]
  rfl

/-! ### The drain that the record may end -/

/-- The final MARK takes the place of the one at the tail (R121, R155). -/
theorem endDrain_mark (held : s.port.heldMark = none) (tail : s.port.tailMark.isSome = true) :
    ∃ urgent, .mark s.journal.written urgent ∈ s.endDrain.port.writes := by
  obtain ⟨-, -, -, marked, -⟩ := endDrain_does s
  refine marked.resolve_right fun ⟨urgent, waits⟩ => ?_
  have requested : (s.port.requestMark s.journal.written false).heldMark = none := by
    simp only [Port.requestMark, held, tail, Bool.true_or, if_true, Port.joinMark]
    split <;> rfl
  have started {u : State} : u.startTransaction.port.heldMark = u.port.heldMark := (startTransaction_port u).2.2.1
  have passed (es : List Entry) (u : State) : (u.statusPassOver es).port.heldMark = u.port.heldMark :=
    (statusPassOver_does es u).1.2.2
  have kept : s.endDrain.port.heldMark = none := by
    simpa [State.endDrain, State.statusPass, State.requestMark, Port.withdrawReads, passed, started] using requested
  exact absurd (kept.symm.trans waits) (by simp)

theorem completeDrain_eq (rest : ¬(s.journal.drain = .running ∧ s.journal.drained = true)) : s.completeDrain = s :=
  if_neg rest

theorem completeDrain_ends (drain : s.journal.drain = .running) (drained : s.journal.drained = true) :
    s.completeDrain = s.endDrain := if_pos ⟨drain, drained⟩

/-- A run at work whose drain has not ended is not over, nor is one whose drain ends now (R171). -/
theorem haltIfQuiet_records (run : s.run.state = .running ∨ s.run.state = .stopping ∧ s.journal.drain ≠ .ended) :
    s.haltIfQuiet = s ∧ s.endDrain.haltIfQuiet = s.endDrain := by
  rcases run with running | ⟨stopping, goes⟩
  · have parts := (endDrain_does s).1
    exact ⟨haltIfQuiet_running s running, haltIfQuiet_running _ (by rw [parts]; exact running)⟩
  · exact ⟨halt_eq (by simp [stopping, RunState.works]) fun ended => absurd ended goes,
      haltIfQuiet_endDrain s stopping⟩

theorem formRecord_parts (s : State) (next : NextRecord) (left : Journal) :
    s.formRecord next left =
      { s with journal := (s.formRecord next left).journal, port := (s.formRecord next left).port } := by
  refine state_eq ?_ ?_ ?_ ?_ ?_ ?_ ?_ ?_ ?_ ?_ ?_ ?_ <;> simp [State.formRecord]

end Sys2Proof.Machine

namespace Sys2Proof.Proofs

open Sys2Proof.Machine

/-- Settles O45: the event taken (`takeNext_event` and its fellows), the bytes of its record (Layouts), and the record
in the queue (`formRecord_joins`), which may end the drain (`endDrain_does`). -/
theorem recordIsFormedWithItsMark : Obligations.RecordIsFormedWithItsMark := by
  refine ⟨fun j => ?_, fun next serial now => ?_, fun s next left run ordered taken room free none => ?_⟩
  · exact ⟨fun head rest => takeNext_loss, fun head rest => takeNext_event, takeNext_open, takeNext_none⟩
  · intro b zeroFrom contact
    refine ⟨nextRecord_length next serial now, record_serial next serial now, nextRecord_urgent next serial now,
      fun gap loss => ?_, fun e event => ?_⟩
    · subst loss
      exact ⟨rfl, rfl, word_join now, half_join _, half_join _, half_join _, half_join _⟩
    · subst event
      have padding (k : Nat) (past : 8 + e.body.detail.length ≤ k) : byteAt b k = 0#8 :=
        recordBytes_zero serial e.body.code (stationByte e.station) e.time e.body.detail k past
      refine ⟨?_, word_join _, ?_⟩
      · cases station : e.station <;> simp [b, NextRecord.bytes, station] <;> rfl
      · obtain ⟨body, station, time⟩ := e
        cases body with
        | runStart capacity stations => exact ⟨rfl, half_join _, rfl, padding⟩
        | runStop cycle => exact ⟨rfl, word_join _, padding⟩
        | contactClosed index recovery extended => exact ⟨rfl, rfl, flags_bit recovery extended, padding⟩
        | contactOpened index recovery extended => exact ⟨rfl, rfl, flags_bit recovery extended, padding⟩
        | contactAmbiguous index set => exact ⟨rfl, rfl, flag_bit set, padding⟩
        | stationUp => exact ⟨rfl, padding⟩
        | stationDown reason => exact ⟨rfl, by cases reason <;> rfl, padding⟩
        | stationFault set => exact ⟨rfl, rfl, padding⟩
        | resyncDone count => exact ⟨rfl, half_join _, padding⟩
        | outputApplied revision => exact ⟨rfl, half_join _, padding⟩
        | sounderDone outcome collapsed => exact ⟨rfl, by cases outcome <;> rfl, rfl, half_join _, padding⟩
        | lineDisturbed => exact ⟨rfl, padding⟩
        | lineClear milliseconds => exact ⟨rfl, half_join _, padding⟩
        | hostValue field => exact ⟨rfl, rfl, padding⟩
  · intro record mark drains
    have ready := canTakeRecord_of run room free none
    have space : s.port.writes.length + 2 ≤ Config.writesMax := by simp [Config.writesMax]; omega
    let u := s.formRecord next left
    have step : exec .recordTaken s = .next u.completeDrain.haltIfQuiet := exec_record taken ready
    have parts : u = { s with journal := u.journal, port := u.port } := formRecord_parts s next left
    have journal : u.journal = { left with written := s.journal.written + 1#32 } := formRecord_journal s next left
    have running : u.run = s.run := by rw [parts]
    have drain : u.journal.drain = s.journal.drain := formRecord_drain taken
    have drained : u.journal.drain = .running ∧ u.journal.drained = true ↔ drains := by
      rw [drain, drained_iff, journal]
    obtain ⟨still, halts⟩ := haltIfQuiet_records (s := u) (by rw [running, drain]; exact run)
    by_cases ends : drains
    · obtain ⟨drainRunning, empty⟩ := drained.2 ends
      refine ⟨u.endDrain, step.trans (by rw [completeDrain_ends drainRunning empty, halts]), absurd ends, fun _ => ?_⟩
      obtain ⟨changes, reads, writes, -, stations⟩ := endDrain_does u
      obtain ⟨held, tail, joined⟩ := formRecord_mark (next := next) (left := left) ordered space
      have station (e : Entry) : u.station e = s.station e := by rw [parts]; rfl
      have exch : u.exch = s.exch := by rw [parts]
      refine ⟨by rw [changes]; exact running, by rw [changes, journal], writes _ joined rfl, ?_, reads,
        by rw [changes, exch], fun flight e => ?_⟩
      · obtain ⟨urgent, waits⟩ := endDrain_mark held tail
        rw [formRecord_journal] at waits
        exact ⟨urgent, waits⟩
      · obtain ⟨same, quiet⟩ := formRecord_reads s next left flight
        have does := stations quiet e
        rw [station] at does
        obtain ⟨status, made⟩ := does
        refine ⟨status, made.trans ?_⟩
        rw [same]
        rfl
    · refine ⟨u, step.trans (by rw [completeDrain_eq (mt drained.1 ends), still]), fun _ => ?_, (absurd · ends)⟩
      obtain ⟨renewed, added⟩ := formRecord_joins (next := next) (left := left) ordered space
      exact ⟨parts, journal, renewed, added, fun flight => (formRecord_reads s next left (.inl flight)).1⟩

end Sys2Proof.Proofs
end

section
/-! The arbiter of the Memory Port, and the addresses and bytes of its transactions (08, R151 to R156; 11, R176, R178,
R179). -/

namespace Sys2Proof.Machine

variable {s : State}

/-! ### What the arbiter starts -/

theorem startTransaction_chooses (transacts : s.run.state.transacts = true) (idle : s.port.inFlight = none) :
    s.startTransaction = s.chooseTransaction := if_pos (by simp [transacts, idle])

theorem chooseTransaction_nothing (reads : s.port.reads = []) (writes : s.port.writes = []) :
    s.chooseTransaction = s := by
  simp only [State.chooseTransaction, reads, writes]

theorem chooseTransaction_write {w : WriteEntry} {rest : List WriteEntry} (reads : s.port.reads = [])
    (writes : s.port.writes = w :: rest) : s.chooseTransaction = s.startWrite w := by
  simp only [State.chooseTransaction, reads, writes]

theorem chooseTransaction_both {r : Read} {rest : List Read} {w : WriteEntry} {rest' : List WriteEntry}
    (reads : s.port.reads = r :: rest) (writes : s.port.writes = w :: rest') :
    s.chooseTransaction = if s.port.lastServed = .read then s.startWrite w else s.startRead r rest := by
  simp only [State.chooseTransaction, reads, writes]

/-! ### A request that finds the port empty -/

section empty

variable (transacts : s.run.state.transacts = true) (idle : s.port.inFlight = none) (reads : s.port.reads = [])
include transacts idle reads

/-- A write that waits alone starts at once (R156). -/
theorem startTransaction_alone {w : WriteEntry} (writes : s.port.writes = [w]) :
    s.startTransaction.port.inFlight = some (.write w (s.writeAddress w) (s.writeBytes w)) := by
  rw [startTransaction_chooses transacts idle, chooseTransaction_write reads writes]
  simp [State.startWrite]

variable (writes : s.port.writes = [])
include writes

theorem requestReads_starts (r : Read) (rest : List Read) : s.requestReads (r :: rest) = s.startRead r rest := by
  have placed : (s.port.requestReads (r :: rest)).reads = r :: rest := by rw [Port.requestReads, reads]; rfl
  exact startTransaction_read (s := s.onPort (·.requestReads (r :: rest))) transacts idle placed writes

theorem requestStatus_starts (e : Entry) (none : s.port.owed[e.val] = false) :
    ∃ a b, (s.requestStatus e).port.inFlight = some (.write (.status e) a b) := by
  have joins : s.port.requestStatus e = { s.port with writes := [.status e] } := by
    simp [Port.requestStatus, Port.unstarted, writes, none, Port.hasFree, Config.writesMax]
  exact ⟨_, _, startTransaction_alone
    (s := (s.onPort (·.requestStatus e)).onLink e fun l => { l with countersChanged := false })
    (by simpa using transacts) (by simp [joins, idle]) (by simp [joins, reads]) (by simp [joins])⟩

theorem requestRecord_starts (slot : Nat) (bytes : List Byte) :
    ∃ a b, (s.requestRecord slot bytes).port.inFlight = some (.write (.record slot bytes) a b) := by
  have joins : s.port.requestRecord slot bytes = { s.port with writes := [.record slot bytes] } := by
    simp [Port.requestRecord, Port.tailMark, Port.unstarted, writes]
  exact ⟨_, _, startTransaction_alone (s := s.onPort (·.requestRecord slot bytes))
    (by simpa using transacts) (by simp [joins, idle]) (by simp [joins, reads]) (by simp [joins])⟩

theorem requestMark_starts (covered : Word) (urgent : Bool) (none : s.port.heldMark = none) :
    ∃ a b, (s.requestMark covered urgent).port.inFlight = some (.write (.mark covered urgent) a b) := by
  have joins : s.port.requestMark covered urgent = { s.port with writes := [.mark covered urgent] } := by
    simp [Port.requestMark, Port.joinMark, Port.tailMark, Port.unstarted, writes, none, Port.hasFree,
      Config.writesMax]
  exact ⟨_, _, startTransaction_alone (s := s.onPort (·.requestMark covered urgent))
    (by simpa using transacts) (by simp [joins, idle]) (by simp [joins, reads]) (by simp [joins])⟩

end empty

/-! ### The addresses -/

theorem exchangeBase_eq (r : RunControl) : r.exchangeBase = r.exbaseHi.toNat * 4294967296 + r.exbaseLo.toNat := by
  rw [RunControl.exchangeBase, BitVec.toNat_append, Nat.shiftLeft_eq, ← Nat.shiftLeft_eq,
    Nat.shiftLeft_add_eq_or_of_lt r.exbaseLo.isLt, Nat.shiftLeft_eq]

/-! ### The status block and the MARK -/

/-- Row `r` of the bitmap is byte `0x0C + r` of the status block (R179). -/
theorem statusBytes_row (st : Station) (r : Fin 8) :
    byteAt st.statusBytes (0x0C + r.val) = st.contacts.bitmap.extractLsb' (8 * r.val) 8 := by
  match r with
  | 0 | 1 | 2 | 3 | 4 | 5 | 6 | 7 => rfl

theorem statusBytes_bitmap (st : Station) (i : Nat) (inside : i < 64) :
    (byteAt st.statusBytes (0x0C + i / 8)).getLsbD (i % 8) = st.contacts.bitmap.getLsbD i := by
  rw [statusBytes_row st ⟨i / 8, by omega⟩, BitVec.getLsbD_extractLsb']
  have inRow : i % 8 < 8 := Nat.mod_lt i (by omega)
  simp [inRow, Nat.div_add_mod]

theorem statusBytes_length (st : Station) : st.statusBytes.length = 64 := rfl

theorem statusBytes_unused (st : Station) : halfAt st.statusBytes 0x0A = 0#16 :=
  (by decide : (0#8 ++ 0#8 : Half) = 0#16)

theorem statusBytes_zero (st : Station) (k : Nat) (past : 0x2E ≤ k) : byteAt st.statusBytes k = 0#8 :=
  byteAt_padding _ 18 k past

theorem markBytes_zero (s : State) (covered : Word) (k : Nat) (past : 0x19 ≤ k) :
    byteAt (s.markBytes covered) k = 0#8 := byteAt_padding _ 39 k past

theorem linkState_code (l : LinkState) : l.code =
    (match l with | .disabled => 0#8 | .searching => 1#8 | .syncing => 2#8 | .online => 3#8) := by
  cases l <;> rfl

end Sys2Proof.Machine

namespace Sys2Proof.Proofs

open Sys2Proof.Machine

/-- Settles O53: the arbiter's choice (`chooseTransaction_…`) and a request that it serves at once (`request…_starts`),
then each address and each field of the bytes written. -/
theorem arbiterAlternates : Obligations.ArbiterAlternates := by
  refine ⟨fun s transacts idle => ?_, fun b i => ⟨List.getD_eq_getElem?_getD, rfl, rfl⟩, fun s => ?_⟩
  · intro readStarted writeStarted
    have chooses := startTransaction_chooses transacts idle
    refine ⟨⟨rfl, rfl⟩, fun reads writes => ⟨chooses.trans (chooseTransaction_nothing reads writes),
        requestReads_starts transacts idle reads writes, requestStatus_starts transacts idle reads writes,
        requestRecord_starts transacts idle reads writes, requestMark_starts transacts idle reads writes⟩,
      fun r rest reads writes => startTransaction_read transacts idle reads writes,
      fun w rest reads writes => chooses.trans (chooseTransaction_write reads writes),
      fun r rest w rest' reads writes => ⟨fun last => ?_, fun last => ?_⟩⟩
    · exact chooses.trans ((chooseTransaction_both reads writes).trans (if_neg (by simp [last])))
    · exact chooses.trans ((chooseTransaction_both reads writes).trans (if_pos last))
  · intro base
    have same : s.run.exchangeBase = base := exchangeBase_eq s.run
    refine ⟨by simp [State.readAddress, same, Config.releasedOffset], rfl, fun i low => ?_, fun i low => ?_,
      fun e => ?_, fun slot bytes => ⟨rfl, rfl⟩, fun covered urgent => ?_, fun e => ?_⟩
    · simp [State.readAddress, same, low, Read.size]
    · have later : ¬2 + i < 2 := by omega
      simp only [State.readAddress, same, Read.size, later, if_false, Nat.add_sub_cancel_left, Nat.add_assoc,
        and_self]
    · simp [State.readAddress, same, Read.size, Config.entryOffset, Config.liveOffset, Config.imageOffset,
        Nat.add_assoc]
    · intro b
      exact ⟨by simp [State.writeAddress, same, Config.markOffset], rfl, word_join _, word_join _, word_join _,
        word_join _, word_join _, half_join _, half_join _, rfl, markBytes_zero s covered⟩
    · intro st c b
      exact ⟨by simp [State.writeAddress, same, Config.entryOffset, Config.statusOffset, Nat.add_assoc],
        statusBytes_length st, linkState_code _, rfl, flags_bit _ _, rfl, half_join _, half_join _, half_join _,
        statusBytes_unused st, statusBytes_bitmap st, half_join _, half_join _, half_join _, half_join _, half_join _,
        half_join _,
        half_join _, half_join _, half_join _, half_join _, half_join _, half_join _, half_join _,
        statusBytes_zero st⟩

end Sys2Proof.Proofs
end

section
/-! The start image read by the table of the start checks (07, R107, R135, R137, R167; 11, R178, R179). -/

namespace Sys2Proof.Machine

/-! ### A table of checks -/

/-- A row of the table: whether its condition holds, and the reason and detail where it does not. -/
abbrev CheckRow := Bool × Reason × Byte

/-- The first row whose condition does not hold. -/
theorem findSome_failUnless (rows : List CheckRow) :
    (rows.map fun x => failUnless x.1 x.2.1 x.2.2).findSome? id = (rows.find? fun x => !x.1).map (·.2) := by
  induction rows with
  | nil => rfl
  | cons row rest ih =>
    obtain ⟨holds, reason, detail⟩ := row
    cases holds with
    | false => rfl
    | true => exact ih

theorem within_eq (low high n : Nat) : within low high n = decide (low ≤ n ∧ n ≤ high) := by simp [within]

theorem capacityValid_eq (n : Nat) : capacityValid n = decide (n ∈ [64, 128, 256, 512, 1024, 2048, 4096]) :=
  List.contains_eq_mem n _

theorem ringClear_eq (c : Settings) (base : Nat) : ringClear c base =
    decide (c.journalBase.toNat + 16 * c.journalCapacity ≤ 2 ^ 64 ∧
      (c.journalBase.toNat + 16 * c.journalCapacity ≤ base ∨ base + 0x900 ≤ c.journalBase.toNat)) := by
  rw [Bool.eq_iff_iff]
  simp only [ringClear, Config.exchangeAreaBytes, Bool.and_eq_true, Bool.or_eq_true, decide_eq_true_eq]
  exact and_congr_right' (or_congr_right decide_eq_true_iff)

/-! ### The rows of R167 -/

/-- Checks 1 to 8. -/
def StartImage.controlRows (i : StartImage) (base : Nat) : List CheckRow :=
  let c := i.settings
  let ring := c.journalBase.toNat
  let top := ring + 16 * c.journalCapacity
  [(decide (i.layoutVersion = 1#32), .layoutVersion, 0#8),
   (decide (c.lineRate ≤ 4), .rate, 0#8),
   (decide (1 ≤ c.responseWindow ∧ c.responseWindow ≤ 50), .parameter, 3#8),
   (decide (c.retryLimit ≤ 3), .parameter, 4#8),
   (decide (1 ≤ c.missLimit ∧ c.missLimit ≤ 15), .parameter, 5#8),
   (decide (1 ≤ c.searchDivisor ∧ c.searchDivisor ≤ 16), .parameter, 6#8),
   (decide (c.cycleMinimum ≤ 1000), .parameter, 7#8),
   (decide (1 ≤ c.sweepPeriod ∧ c.sweepPeriod ≤ 255), .parameter, 8#8),
   (decide (1 ≤ c.ambiguityReport ∧ c.ambiguityReport ≤ 255), .parameter, 9#8),
   (decide (1 ≤ c.threshold ∧ c.threshold ≤ 255), .parameter, 12#8),
   (decide (c.holdOff ≤ 1000), .parameter, 13#8),
   (decide (c.stopDrainLimit ≤ 10000), .parameter, 14#8),
   (decide (1 ≤ c.stationCount ∧ c.stationCount ≤ 16), .stationCount, 0#8),
   (decide (c.journalCapacity ∈ [64, 128, 256, 512, 1024, 2048, 4096]), .journalSize, 0#8),
   (decide (ring % 16 = 0), .journalAlign, 0#8),
   (decide (top ≤ 2 ^ 64 ∧ (top ≤ base ∨ base + 0x900 ≤ ring)), .journalOverlap, 0#8),
   (decide (i.released = 0#32), .releaseNotZero, 0#8)]

/-- Check 9 on one entry. -/
def StartImage.entryRows (i : StartImage) (e : Entry) : List CheckRow :=
  let f := i.fields e
  let index := BitVec.ofNat 8 e.val
  [(decide (1 ≤ f.rows ∧ f.rows ≤ 8 ∧ 1 ≤ f.columns ∧ f.columns ≤ 8), .geometry, index),
   (decide (1 ≤ f.address ∧ f.address ≤ 31), .address, index),
   (decide (f.indicatorCount ≤ 64), .indicatorCount, index),
   (decide (∀ e' ∈ i.entries, e' < e → (i.fields e').address ≠ f.address), .duplicateAddress, index)]

variable (i : StartImage) (base : Nat)

theorem controlChecks_rows :
    i.controlChecks base = (i.controlRows base).map fun x => failUnless x.1 x.2.1 x.2.2 := by
  simp only [StartImage.controlChecks, Settings.parameterChecks, StartImage.controlRows, within_eq,
    Nat.zero_le, true_and, capacityValid_eq, ringClear_eq, Bool.beq_eq_decide_eq, List.map_cons, List.map_nil,
    List.cons_append, List.nil_append]

theorem distinct_eq (e : Entry) (address : Nat) :
    (i.entries.all fun e' => decide (e.val ≤ e'.val) || (i.fields e').address != address) =
      decide (∀ e' ∈ i.entries, e' < e → (i.fields e').address ≠ address) := by
  rw [Bool.eq_iff_iff, List.all_eq_true, decide_eq_true_eq]
  refine forall₂_congr fun e' _ => ?_
  rw [Bool.or_eq_true, decide_eq_true_eq, bne_iff_ne, ← Nat.not_lt, ← Decidable.imp_iff_not_or]
  rfl

theorem entryChecks_rows (e : Entry) :
    i.entryChecks e = (i.entryRows e).map fun x => failUnless x.1 x.2.1 x.2.2 := by
  simp only [StartImage.entryChecks, StartImage.entryRows, within_eq, Nat.zero_le, true_and, distinct_eq, List.map_cons,
    List.map_nil, ← Bool.decide_and, and_assoc]

theorem check_rows :
    i.check base = ((i.controlRows base ++ i.entries.flatMap i.entryRows).find? fun x => !x.1).map (·.2) := by
  rw [← findSome_failUnless, List.map_append, List.map_flatMap, ← controlChecks_rows, StartImage.check,
    funext (entryChecks_rows i)]

/-! ### What passes -/

theorem check_none : i.check base = none ↔
    (∀ x ∈ i.controlRows base, x.1 = true) ∧ ∀ e ∈ i.entries, ∀ x ∈ i.entryRows e, x.1 = true := by
  rw [check_rows, Option.map_eq_none_iff, List.find?_eq_none, List.forall_mem_append, List.forall_mem_flatMap]
  simp only [Bool.not_eq_true', Bool.not_eq_false]

theorem capacity_iff (n : Nat) :
    n ∈ [64, 128, 256, 512, 1024, 2048, 4096] ↔ ∃ k, 6 ≤ k ∧ k ≤ 12 ∧ n = 2 ^ k := by
  constructor
  · intro found
    simp only [List.mem_cons, List.not_mem_nil, or_false] at found
    rcases found with rfl | rfl | rfl | rfl | rfl | rfl | rfl
    · exact ⟨6, by decide⟩
    · exact ⟨7, by decide⟩
    · exact ⟨8, by decide⟩
    · exact ⟨9, by decide⟩
    · exact ⟨10, by decide⟩
    · exact ⟨11, by decide⟩
    · exact ⟨12, by decide⟩
  · rintro ⟨k, low, high, rfl⟩
    match k with
    | 6 | 7 | 8 | 9 | 10 | 11 | 12 => decide

/-- Two ranges of addresses, the first of them not empty, share none exactly where one ends before the other. -/
theorem ring_apart {ring top : Nat} (nonempty : ring < top) :
    (∀ x, ring ≤ x → x < top → x < base ∨ base + 0x900 ≤ x) ↔ top ≤ base ∨ base + 0x900 ≤ ring := by
  constructor
  · intro apart
    by_cases before : top ≤ base
    · exact .inl before
    · have start := apart (max ring base) (Nat.le_max_left _ _) (by omega)
      omega
  · intro apart x _ _
    omega

theorem controlRows_pass : (∀ x ∈ i.controlRows base, x.1 = true) ↔ i.ControlAcceptable base := by
  simp only [StartImage.controlRows, List.forall_mem_cons, List.not_mem_nil, false_implies, implies_true, and_true,
    decide_eq_true_eq, capacity_iff]
  have nonempty (valid : ∃ k, 6 ≤ k ∧ k ≤ 12 ∧ i.settings.journalCapacity = 2 ^ k) :
      i.settings.journalBase.toNat < i.settings.journalBase.toNat + 16 * i.settings.journalCapacity := by
    obtain ⟨k, -, -, size⟩ := valid
    have := Nat.two_pow_pos k
    omega
  constructor
  · rintro ⟨version, rate, window, retry, miss, divisor, cycle, sweep, ambiguity, threshold, holdOff, drain, stations,
      capacity, align, ⟨top, clear⟩, released⟩
    exact { version, rate, window, retry, miss, divisor, cycle, sweep, ambiguity, threshold, holdOff, drain, stations,
            capacity, align, top, released, overlap := (ring_apart base (nonempty capacity)).2 clear }
  · intro a
    exact ⟨a.version, a.rate, a.window, a.retry, a.miss, a.divisor, a.cycle, a.sweep, a.ambiguity, a.threshold,
      a.holdOff, a.drain, a.stations, a.capacity, a.align,
      ⟨a.top, (ring_apart base (nonempty a.capacity)).1 a.overlap⟩, a.released⟩

theorem entryRows_pass (e : Entry) : (∀ x ∈ i.entryRows e, x.1 = true) ↔
    (1 ≤ (i.fields e).rows ∧ (i.fields e).rows ≤ 8 ∧ 1 ≤ (i.fields e).columns ∧ (i.fields e).columns ≤ 8) ∧
    (1 ≤ (i.fields e).address ∧ (i.fields e).address ≤ 31) ∧ (i.fields e).indicatorCount ≤ 64 ∧
    ∀ e' ∈ i.entries, e' < e → (i.fields e').address ≠ (i.fields e).address := by
  simp only [StartImage.entryRows, List.forall_mem_cons, List.not_mem_nil, false_implies, implies_true, and_true,
    decide_eq_true_eq]

theorem check_acceptable : i.check base = none ↔ i.Acceptable base := by
  rw [check_none, controlRows_pass]
  simp only [entryRows_pass]
  constructor
  · rintro ⟨control, entries⟩
    exact { control with
            geometry := fun e inside => (entries e inside).1
            address := fun e inside => (entries e inside).2.1
            indicators := fun e inside => (entries e inside).2.2.1
            distinct := fun e inside => (entries e inside).2.2.2 }
  · intro a
    exact ⟨a.toControlAcceptable, fun e inside =>
      ⟨a.geometry e inside, a.address e inside, a.indicators e inside, a.distinct e inside⟩⟩

/-! ### What fails -/

/-- A reason that only check 9 gives. -/
def Reason.OfEntry (r : Reason) : Prop :=
  r = .geometry ∨ r = .address ∨ r = .indicatorCount ∨ r = .duplicateAddress

theorem controlRows_reason : ∀ x ∈ i.controlRows base, ¬x.2.1.OfEntry := by
  simp [StartImage.controlRows, Reason.OfEntry]

theorem entryRows_detail (e : Entry) : ∀ x ∈ i.entryRows e, x.2.2 = BitVec.ofNat 8 e.val := by
  simp [StartImage.entryRows]

/-- An entry's own reason tells that checks 1 to 8 passed, and which entry it is. -/
theorem check_entry {reason : Reason} {detail : Byte} (fails : i.check base = some (reason, detail))
    (own : reason.OfEntry) :
    (i.controlChecks base).all (·.isNone) = true ∧ ∃ e ∈ i.entries, detail = BitVec.ofNat 8 e.val := by
  rw [check_rows, List.find?_append, Option.map_eq_some_iff] at fails
  obtain ⟨row, first, same⟩ := fails
  rcases Option.or_eq_some_iff.1 first with control | ⟨passed, entry⟩
  · exact absurd (same ▸ own : row.2.1.OfEntry) (controlRows_reason i base row (List.mem_of_find?_eq_some control))
  · constructor
    · rw [controlChecks_rows, List.all_map, List.all_eq_true]
      intro x inside
      have holds : x.1 = true := by simpa using List.find?_eq_none.1 passed x inside
      simp [failUnless, holds]
    · obtain ⟨e, inRun, inside⟩ := List.mem_flatMap.1 (List.mem_of_find?_eq_some entry)
      exact ⟨e, inRun, by rw [← entryRows_detail i e row inside, same]⟩

/-! ### The fields of the start image -/

theorem byteAt_drop (b : List Byte) (n k : Nat) : byteAt (b.drop n) k = byteAt b (n + k) := by
  simp [byteAt, List.getD_eq_getElem?_getD, List.getElem?_drop]

theorem entries_sorted : i.entries.Pairwise (· < ·) := (List.pairwise_lt_finRange 16).filter _

theorem mem_entries (e : Entry) : e ∈ i.entries ↔ i.takesPart e = true := by
  simp [StartImage.entries, allEntries]

theorem takesPart_iff (e : Entry) :
    i.takesPart e = true ↔ e.val < i.settings.stationCount ∧ byteAt (i.entry e) 0 ≠ 0#8 := by
  simp [StartImage.takesPart, StartImage.fields]

theorem live_eq (e : Entry) : i.live e =
    { enable := byteAt (i.entry e) 0x20
      revision := halfAt (i.entry e) 0x24
      sounderCount := halfAt (i.entry e) 0x26
      resyncCount := halfAt (i.entry e) 0x28
      pattern := byteAt (i.entry e) 0x2A } := by
  simp only [StartImage.live, readLivePart, halfAt, byteAt_drop, Config.liveOffset]

theorem fields_eq (e : Entry) : i.fields e =
    { configured := decide (byteAt (i.entry e) 0x00 ≠ 0#8)
      address := (byteAt (i.entry e) 0x01).toNat
      rows := (byteAt (i.entry e) 0x02).toNat
      columns := (byteAt (i.entry e) 0x03).toNat
      diodeIsolated := decide (byteAt (i.entry e) 0x04 ≠ 0#8)
      indicatorCount := (byteAt (i.entry e) 0x05).toNat
      closeDebounce := (byteAt (i.entry e) 0x06).toNat
      openDebounce := (byteAt (i.entry e) 0x07).toNat } := by
  have flag (b : Byte) : (b != 0#8) = decide (b ≠ 0#8) := by rw [bne, Bool.beq_eq_decide_eq, decide_not]
  simp only [StartImage.fields, flag]

end Sys2Proof.Machine

namespace Sys2Proof.Proofs

open Sys2Proof.Machine

/-- Settles O14: the checks are the rows of the table (`check_rows`), of which the first that fails answers. -/
theorem startChecksFollowTheTable : Obligations.StartChecksFollowTheTable := by
  refine ⟨fun i => ?_, fun i base => ?_⟩
  · intro block c
    exact ⟨fun _ _ => rfl, rfl, rfl, rfl, entries_sorted i, fun e =>
      ⟨(mem_entries i e).trans (takesPart_iff i e), fields_eq i e, live_eq i e⟩⟩
  · intro c ring top control entry
    refine ⟨check_acceptable i base, check_rows i base, fun version => ?_, fun version rate => ?_,
      fun reason detail fails own => check_entry i base fails own⟩
    · simp [check_rows, StartImage.controlRows, version]
    · simp [check_rows, StartImage.controlRows, version, rate]

end Sys2Proof.Proofs
end

section
/-! The characters and frames of the panel line: their bits, the check value, and the judgement of a reply (01, R2; 02,
R19, R20, R27, R28, R31). -/

namespace Sys2Proof.Machine

/-! ### The bits of a character -/

theorem ones_sent (b : Byte) : (((sentBits b).drop 1).take 9).count true = onesOf b + (parityFor b).toNat := by
  have data : ((List.range 8).map b.getLsbD).count true = onesOf b := by
    rw [List.count, List.countP_map, onesOf]
    exact List.countP_congr fun i _ => by simp
  calc (((sentBits b).drop 1).take 9).count true
      = ((List.range 8).map b.getLsbD ++ [parityFor b]).count true := rfl
    _ = onesOf b + (parityFor b).toNat := by
        rw [List.count_append, data]
        cases parityFor b <;> rfl

/-- The parity bit makes the number of ones odd (R2). -/
theorem ones_odd (b : Byte) : (onesOf b + (parityFor b).toNat) % 2 = 1 := by
  rw [parityFor]
  rcases Nat.mod_two_eq_zero_or_one (onesOf b) with even | odd
  · simp [even, Nat.add_mod]
  · simp [odd]

theorem sampledChar_sent (b : Byte) (parityBit stopBit : Bool) (sent : (sentBits b).drop 9 = [parityBit, stopBit]) :
    sampledChar b parityBit stopBit = ⟨b, false, false⟩ := by
  have last : (sentBits b).drop 9 = [parityFor b, true] := rfl
  rw [last] at sent
  injection sent with parity stop
  injection stop with stop
  simp [sampledChar, ← parity, ← stop, ones_odd]

theorem sentBits_data (b : Byte) (i : Nat) (inside : i < 8) : (sentBits b)[i + 1]? = some (b.getLsbD i) := by
  have data : i < ((List.range 8).map b.getLsbD).length := by simpa using inside
  simp only [sentBits, List.cons_append, List.getElem?_cons_succ]
  rw [List.getElem?_append_left data]
  simp [inside]

theorem bits_length (r : SendRequest) : r.bits.length = 11 * r.frame.length := by
  have each : (List.length ∘ sentBits) = fun _ => 11 := rfl
  rw [SendRequest.bits, List.length_flatMap, ← Function.comp_def, each, List.map_const',
    List.sum_replicate_nat, Nat.mul_comm]

theorem driven_sending {l : Line} {r : SendRequest} (sending : l.state = .sending) (placed : l.sendPlace = some r) :
    l.driven = r.bits := by
  rw [Line.driven, if_pos sending, placed]
  rfl

/-! ### The shape of a frame -/

/-- A frame with address character `a`, as both directions build it (R19, R20). -/
def framed (a kind turn : Byte) (payload : List Byte) : List Byte :=
  let covered := [a, kind, turn, BitVec.ofNat 8 payload.length] ++ payload
  Config.lead :: covered ++ [(checkValue covered).extractLsb' 8 8, (checkValue covered).extractLsb' 0 8]

theorem buildFrame_framed (address : LineAddress) (plan : FramePlan) :
    buildFrame address plan = framed (address.setWidth 8) plan.kind (plan.turn.setWidth 8) plan.payload := rfl

theorem uplinkFrame_framed (address : LineAddress) (kind turn : Byte) (payload : List Byte) :
    uplinkFrame address kind turn payload = framed (0x80#8 ||| address.setWidth 8) kind turn payload := rfl

section framed

variable (a kind turn : Byte) (payload : List Byte)

theorem framed_length : (framed a kind turn payload).length = 7 + payload.length := by
  simp [framed]
  omega

theorem framed_payload : ((framed a kind turn payload).drop 5).take payload.length = payload :=
  List.take_left' rfl

theorem framed_covered : ((framed a kind turn payload).drop 1).take (4 + payload.length) =
    [a, kind, turn, BitVec.ofNat 8 payload.length] ++ payload := List.take_left' (by simp; omega)

/-- The check value sent is that of the characters covered, high byte first (R20). -/
theorem framed_check :
    byteAt (framed a kind turn payload) (5 + payload.length) ++ byteAt (framed a kind turn payload)
      (6 + payload.length) = checkValue (((framed a kind turn payload).drop 1).take (4 + payload.length)) := by
  rw [framed_covered]
  let covered := [a, kind, turn, BitVec.ofNat 8 payload.length] ++ payload
  let tail := [(checkValue covered).extractLsb' 8 8, (checkValue covered).extractLsb' 0 8]
  have high : byteAt (framed a kind turn payload) (5 + payload.length) = byteAt tail 0 := by
    refine (byteAt_append (Config.lead :: covered) tail _ (by simp [covered]; omega)).trans (congrArg _ ?_)
    simp [covered]
    omega
  have low : byteAt (framed a kind turn payload) (6 + payload.length) = byteAt tail 1 := by
    refine (byteAt_append (Config.lead :: covered) tail _ (by simp [covered]; omega)).trans (congrArg _ ?_)
    simp [covered]
    omega
  rw [high, low]
  exact half_join (checkValue covered)

end framed

/-! ### The check value -/

theorem checkValue_append (covered : List Byte) (b : Byte) :
    checkValue (covered ++ [b]) = checkByte (checkValue covered) b := by
  rw [checkValue, List.foldl_append]
  rfl

theorem cleanRow_bit (columns i : Nat) (row : Byte) (inside : i < 8) :
    (cleanRow columns row).getLsbD i = (decide (i < columns) && row.getLsbD i) := by
  rw [cleanRow, BitVec.getLsbD_and, BitVec.getLsbD_ofNat, Nat.testBit_two_pow_sub_one, Bool.and_comm]
  simp [inside]

/-! ### The judgement of a reply -/

/-- The address character of a reply to the station: the direction mark and its address, whatever bits 5 and 6 hold
(R19, R31 step 3). -/
theorem address_iff (b : Byte) (address : LineAddress) :
    b &&& 0x9F#8 = 0x80#8 ||| address.setWidth 8 ↔ b.getLsbD 7 = true ∧ b.extractLsb' 0 5 = address := by
  have mask (i : Nat) : (0x9F#8).getLsbD i = (decide (i < 5) || decide (i = 7)) := by
    by_cases small : i < 8
    · revert i
      decide
    · rw [BitVec.getLsbD_of_ge _ _ (by omega)]
      simp
      omega
  have direction (i : Nat) : (0x80#8).getLsbD i = decide (i = 7) := by
    by_cases small : i < 8
    · revert i
      decide
    · rw [BitVec.getLsbD_of_ge _ _ (by omega)]
      simp
      omega
  constructor
  · intro same
    have bit (i : Nat) := congrArg (·.getLsbD i) same
    simp only [BitVec.getLsbD_and, BitVec.getLsbD_or, mask, direction, BitVec.getLsbD_setWidth] at bit
    refine ⟨by simpa using bit 7, BitVec.eq_of_getLsbD_eq fun i inside => ?_⟩
    simpa [inside, show i ≠ 7 by omega, show i < 8 by omega] using bit i
  · rintro ⟨mark, rfl⟩
    refine BitVec.eq_of_getLsbD_eq fun i inside => ?_
    simp only [BitVec.getLsbD_and, BitVec.getLsbD_or, mask, direction, BitVec.getLsbD_setWidth,
      BitVec.getLsbD_extractLsb']
    by_cases last : i = 7
    · simp [last, mark]
    · simp [last, inside, Bool.and_comm]

/-- The snapshot's payload is its flags and the rows behind them (R27). -/
theorem readSnapshot_rows (columns rows : Nat) (echo : Turn) (chars : List Byte) :
    readSnapshot columns echo ((chars.drop 5).take (1 + rows)) =
      ⟨echo, (byteAt chars 5).getLsbD 0, (byteAt chars 5).getLsbD 1,
        ((chars.drop 6).take rows).map (cleanRow columns)⟩ := by
  have flags : byteAt ((chars.drop 5).take (1 + rows)) 0 = byteAt chars 5 := by
    simp only [byteAt, List.getD_eq_getElem?_getD]
    rw [List.getElem?_take_of_lt (by omega), List.getElem?_drop]
  have body : ((chars.drop 5).take (1 + rows)).drop 1 = (chars.drop 6).take rows := by
    rw [List.drop_take, List.drop_drop, Nat.add_sub_cancel_left]
  rw [readSnapshot, flags, body]

/-- The check value received is that of the characters covered (R31 step 2). -/
def CheckAgrees (chars : List Byte) : Prop :=
  byteAt chars (5 + (byteAt chars 4).toNat) ++ byteAt chars (6 + (byteAt chars 4).toNat) =
    checkValue ((chars.drop 1).take (4 + (byteAt chars 4).toNat))

/-- The reply names the station asked (R31 step 3). -/
def JudgedAgainst.Names (against : JudgedAgainst) (chars : List Byte) : Prop :=
  (byteAt chars 1).getLsbD 7 = true ∧ (byteAt chars 1).extractLsb' 0 5 = against.address

section judge

variable {against : JudgedAgainst} {chars : List Byte}

theorem judge_outOfRange (against : JudgedAgainst) (chars : List Byte) : judge against true chars = .badFormat := rfl

theorem judge_badCrc (wrong : ¬CheckAgrees chars) : judge against false chars = .badCrc := by
  rw [CheckAgrees, eq_comm] at wrong
  exact if_pos wrong

variable (agrees : CheckAgrees chars)
include agrees

theorem judge_wrongAddress (other : ¬against.Names chars) : judge against false chars = .wrongAddress := by
  rw [JudgedAgainst.Names, ← address_iff] at other
  exact (if_neg (Classical.not_not.2 agrees.symm)).trans (if_pos other)

variable (ours : against.Names chars)
include ours

/-- A reply that the station named sent whole is judged by its kind (R31 steps 4 to 7). -/
theorem judge_kind : judge against false chars =
    if byteAt chars 2 = Config.kindWait then
      if (byteAt chars 4).toNat ≠ 1 then .badFormat
      else .wait (holdTime ((chars.drop 5).take (byteAt chars 4).toNat))
    else if byteAt chars 2 = Config.kindSnap then
      if (byteAt chars 4).toNat ≠ 1 + against.rows then .badFormat
      else if 7 < (byteAt chars 3).toNat then .badFormat
      else if (byteAt chars 3).setWidth 3 = against.expected then
        .ok (readSnapshot against.columns ((byteAt chars 3).setWidth 3) ((chars.drop 5).take (byteAt chars 4).toNat))
      else .turnMismatch
    else .badFormat :=
  (if_neg (Classical.not_not.2 agrees.symm)).trans (if_neg (Classical.not_not.2 ((address_iff _ _).2 ours)))

theorem judge_unknown (snap : byteAt chars 2 ≠ 0x21#8) (wait : byteAt chars 2 ≠ 0x22#8) :
    judge against false chars = .badFormat :=
  (judge_kind agrees ours).trans ((if_neg wait).trans (if_neg snap))

theorem judge_wait (wait : byteAt chars 2 = 0x22#8) :
    ((byteAt chars 4).toNat ≠ 1 → judge against false chars = .badFormat) ∧
    ((byteAt chars 4).toNat = 1 → judge against false chars = .wait (max 1 (byteAt chars 5).toNat)) := by
  have kind := (judge_kind agrees ours).trans (if_pos wait)
  refine ⟨fun long => kind.trans (if_pos long), fun one => kind.trans ((if_neg (Classical.not_not.2 one)).trans ?_)⟩
  have payload : byteAt ((chars.drop 5).take 1) 0 = byteAt chars 5 := by
    simp [byteAt, List.getD_eq_getElem?_getD]
  rw [one, holdTime, payload]

theorem judge_snap (snap : byteAt chars 2 = 0x21#8) :
    ((byteAt chars 4).toNat ≠ 1 + against.rows ∨ 7 < (byteAt chars 3).toNat →
      judge against false chars = .badFormat) ∧
    ((byteAt chars 4).toNat = 1 + against.rows → (byteAt chars 3).toNat ≤ 7 →
      ((byteAt chars 3).toNat ≠ against.expected.toNat → judge against false chars = .turnMismatch) ∧
      ((byteAt chars 3).toNat = against.expected.toNat → judge against false chars =
        .ok ⟨against.expected, (byteAt chars 5).getLsbD 0, (byteAt chars 5).getLsbD 1,
          ((chars.drop 6).take against.rows).map (cleanRow against.columns)⟩)) := by
  have kind := (judge_kind agrees ours).trans ((if_neg (by rw [snap]; decide)).trans (if_pos snap))
  refine ⟨fun wrong => ?_, fun length turn => ?_⟩
  · by_cases length : (byteAt chars 4).toNat = 1 + against.rows
    · have fits := Classical.not_not.2 length
      exact kind.trans ((if_neg fits).trans (if_pos (wrong.resolve_left fits)))
    · exact kind.trans (if_pos length)
  · have body := kind.trans ((if_neg (Classical.not_not.2 length)).trans (if_neg (Nat.not_lt.2 turn)))
    have echo : (byteAt chars 3).setWidth 3 = against.expected ↔
        (byteAt chars 3).toNat = against.expected.toNat := by
      rw [← BitVec.toNat_inj, BitVec.toNat_setWidth, Nat.mod_eq_of_lt (by omega)]
    refine ⟨fun other => body.trans (if_neg (mt echo.1 other)),
        fun same => body.trans ((if_pos (echo.2 same)).trans ?_)⟩
    rw [echo.2 same, length, readSnapshot_rows]

end judge

/-! ### A reply as its station builds it -/

section uplink

variable (against : JudgedAgainst) (kind turn : Byte) (payload : List Byte)

theorem uplinkFrame_length (short : payload.length ≤ 24) :
    (byteAt (uplinkFrame against.address kind turn payload) 4).toNat = payload.length := by
  rw [uplinkFrame_framed]
  exact Nat.mod_eq_of_lt (by omega)

theorem uplinkFrame_agrees (short : payload.length ≤ 24) :
    CheckAgrees (uplinkFrame against.address kind turn payload) := by
  rw [CheckAgrees, uplinkFrame_length against kind turn payload short]
  exact framed_check _ kind turn payload

theorem uplinkFrame_names : against.Names (uplinkFrame against.address kind turn payload) := by
  refine (address_iff _ against.address).1 ?_
  have first : byteAt (uplinkFrame against.address kind turn payload) 1 = 0x80#8 ||| against.address.setWidth 8 := rfl
  rw [first]
  generalize against.address = address
  revert address
  decide

end uplink

/-- A SNAP as the station asked builds it is OK with what it carries (R27, R31). -/
theorem judge_uplink_snap (against : JudgedAgainst) (flags : Byte) (rows : List Byte)
    (many : against.rows = rows.length) (few : rows.length ≤ 8) :
    judge against false (uplinkFrame against.address 0x21#8 (against.expected.setWidth 8) (flags :: rows)) =
      .ok ⟨against.expected, flags.getLsbD 0, flags.getLsbD 1, rows.map (cleanRow against.columns)⟩ := by
  have short : (flags :: rows).length ≤ 24 := by simp; omega
  have length : (flags :: rows).length = 1 + against.rows := by simp [many, Nat.add_comm]
  have inRange := against.expected.isLt
  have echo : (byteAt (uplinkFrame against.address 0x21#8 (against.expected.setWidth 8) (flags :: rows)) 3).toNat =
      against.expected.toNat := by
    exact (BitVec.toNat_setWidth 8 against.expected).trans (Nat.mod_eq_of_lt (by omega))
  obtain ⟨-, fits⟩ := judge_snap (uplinkFrame_agrees against 0x21#8 (against.expected.setWidth 8) _ short)
    (uplinkFrame_names against 0x21#8 (against.expected.setWidth 8) _) rfl
  obtain ⟨-, ok⟩ := fits ((uplinkFrame_length against _ _ _ short).trans length) (by omega)
  have body : ((uplinkFrame against.address 0x21#8 (against.expected.setWidth 8) (flags :: rows)).drop 6).take
      against.rows = rows := List.take_left' many.symm
  rw [ok echo, body]
  rfl

theorem judge_uplink_wait (against : JudgedAgainst) (turn hold : Byte) :
    judge against false (uplinkFrame against.address 0x22#8 turn [hold]) = .wait (max 1 hold.toNat) :=
  (judge_wait (uplinkFrame_agrees against 0x22#8 turn [hold] (by simp)) (uplinkFrame_names against _ _ _) rfl).2
    (uplinkFrame_length against _ _ _ (by simp))

end Sys2Proof.Machine

namespace Sys2Proof.Proofs

open Sys2Proof.Machine

/-- Settles O25: the bits of a character, the frame that both directions build (`framed`), and the judgement of one
(`judge_kind` and its fellows). -/
theorem framesAreBuiltAndReadBack : Obligations.FramesAreBuiltAndReadBack := by
  refine ⟨fun b => ⟨rfl, rfl, sentBits_data b, by rw [ones_sent, ones_odd], rfl, sampledChar_sent b⟩,
    fun l r sending placed => ?_, fun address plan _ => ?_,
    ⟨rfl, by decide, checkValue_append⟩, judge_uplink_snap, judge_uplink_wait, cleanRow_bit, fun against chars => ?_⟩
  · exact ⟨driven_sending sending placed, by rw [driven_sending sending placed, bits_length]⟩
  · rw [buildFrame_framed]
    exact ⟨framed_length _ _ _ _, rfl, rfl, rfl, rfl, rfl, framed_payload _ _ _ _, framed_check _ _ _ _⟩
  · exact ⟨judge_outOfRange against chars, judge_badCrc, judge_wrongAddress, judge_unknown, judge_wait, judge_snap⟩

end Sys2Proof.Proofs
end

section
/-! The poll cycle: the hold test, the walk over the entries not yet passed, and the moves of the scheduler around it
(03, R43 to R47, R54). -/

namespace Sys2Proof.Machine

variable {s u t : State}

/-! ### What the walk asks of a station -/

/-- The station is held back at a panel-clock time (R45). -/
def Link.Held (now : Word) (l : Link) : Prop :=
  ∃ hold, l.holdUntil = some hold ∧ 0 < (hold - now).toNat ∧ (hold - now).toNat < 2147483648

theorem heldBack_iff (hold now : Word) :
    heldBack hold now = true ↔ 0 < (hold - now).toNat ∧ (hold - now).toNat < 2147483648 := by
  simp only [heldBack, Bool.and_eq_true, decide_eq_true_eq, Nat.reducePow]

theorem testHold_held {l : Link} {now : Word} (held : l.Held now) : l.testHold now = l := by
  obtain ⟨hold, until_, later⟩ := held
  simp only [Link.testHold, until_]
  exact if_pos ((heldBack_iff hold now).2 later)

theorem testHold_free {l : Link} {now : Word} (free : ¬l.Held now) : l.testHold now = { l with holdUntil := none } := by
  cases until_ : l.holdUntil with
  | none =>
    simp only [Link.testHold, until_]
    rw [← until_]
  | some hold =>
    simp only [Link.testHold, until_]
    exact if_neg fun later => free ⟨hold, until_, (heldBack_iff hold now).1 later⟩

theorem skipped_iff (now cycle : Word) (divisor : Nat) (l : Link) : l.skipped now cycle divisor = true ↔
    l.Held now ∨ l.state = .searching ∧ cycle.toNat % divisor ≠ 0 := by
  rw [Link.skipped, Bool.or_eq_true, Bool.and_eq_true, beq_iff_eq, bne_iff_ne]
  refine or_congr_left ?_
  cases until_ : l.holdUntil with
  | none => simp [Link.Held, until_]
  | some hold => simp [Link.Held, until_, heldBack_iff]

/-- The walk visits the station (R43, R45). -/
def State.Visits (s : State) (e : Entry) : Prop :=
  (s.station e).link.state ≠ .disabled ∧
  ¬((s.station e).link.Held s.run.clock ∨
    (s.station e).link.state = .searching ∧ s.sched.cycleNumber.toNat % s.cfg.searchDivisor ≠ 0)

theorem polled_iff (st : Station) : st.polled = true ↔ st.link.state ≠ .disabled := bne_iff_ne

theorem visits_iff (e : Entry) : s.visits e = true ↔ s.Visits e := by
  rw [State.visits, Bool.and_eq_true, polled_iff, Bool.not_eq_true', ← Bool.not_eq_true, skipped_iff]
  rfl

theorem visits_false {e : Entry} (not : ¬s.Visits e) : s.visits e = false :=
  Bool.eq_false_iff.2 (mt (visits_iff e).1 not)

/-! ### A request placed -/

/-- What a send request makes of a line that takes it (R5). -/
def Line.Placed (now : Word) (r : SendRequest) (l line : Line) : Prop :=
  (l.state = .idle ∧ l.pairAtRest = true ∧ l.receiver ≠ .inReception →
    line.state = .sending ∧ line.busy = none ∧ line.sendPlace = some r) ∧
  (¬(l.state = .idle ∧ l.pairAtRest = true ∧ l.receiver ≠ .inReception) →
    line = { l with sendPlace := some r, busy := some ⟨now, .ms 20⟩ })

theorem takeRequest_placed (now : Word) (r : SendRequest) (l : Line) : l.Placed now r (l.takeRequest now r) := by
  refine ⟨fun ⟨idle, rest, receiver⟩ => ?_, takeRequest_queues now r⟩
  rw [takeRequest_sends now r idle rest receiver]
  exact ⟨rfl, rfl, rfl⟩

/-! ### The walk -/

/-- The walk is still to pass the entry (R45). -/
abbrev State.Above (s : State) (e : Entry) : Prop := s.sched.nextIndex ≤ e.val

/-- A station once the walk has been over it with no visit (R45). -/
def State.passedOver (s : State) (e : Entry) : Station :=
  if s.sched.nextIndex ≤ e.val ∧ (s.station e).link.state ≠ .disabled then s.tested e else s.station e

/-- What the walk on a line that takes requests makes of a state when it comes to a visit at `e`. -/
def State.VisitBegun (s : State) (e : Entry) (t : State) : Prop :=
  let st := (s.tested e).beginVisit
  ∃ r, r.serves = some e ∧ r.expectsReply = true ∧ r.expected = st.expectedTurn ∧
    r.frame = buildFrame (s.station e).address st.framePlan ∧ s.line.Placed s.run.clock r t.line ∧
    t = { s with
      stations := t.stations, line := t.line
      sched := { s.sched with visit := some ⟨e, r, 1⟩, nextIndex := t.sched.nextIndex } } ∧
    (∀ e' < e, t.station e' = s.passedOver e') ∧ t.station e = st ∧ ∀ e', e < e' → t.station e' = s.station e'

/-- The walk over every entry not yet passed, in each of its ends (R44, R45, R54). -/
structure State.Walked (s t : State) : Prop where
  disabled : (∀ e, s.Above e → (s.station e).link.state = .disabled) →
    t = { s with sched := { s.sched with cycleInProgress := false } }
  passes : (∀ e, s.Above e → ¬s.Visits e) →
    t = { s with
      stations := t.stations
      sched := { s.sched with cycleInProgress := false, nextIndex := t.sched.nextIndex } } ∧
    ∀ e, t.station e = s.passedOver e
  visit : ∀ e, s.line.state ≠ .disturbed → s.Above e → s.Visits e → (∀ e' < e, s.Above e' → ¬s.Visits e') →
    s.VisitBegun e t
  refused : s.line.state = .disturbed →
    t = { s with
      stations := t.stations
      sched := { s.sched with cycleInProgress := false, nextIndex := t.sched.nextIndex }
      journal := t.journal, port := t.port } ∧
    (∀ e, ¬(s.Above e ∧ s.Visits e) → t.station e = s.passedOver e) ∧
    (∀ e, s.Above e → s.Visits e → (s.tested e).refusedVisit.1.link.statusChanged = false →
      t.station e = (s.tested e).refusedVisit.1) ∧
    (∀ e, s.Above e → s.Visits e → (s.tested e).refusedVisit.1.link.statusChanged = true →
      (.status e ∈ t.port.writes ∨ t.port.owed[e.val] = true) ∧
      t.station e = { (s.tested e).refusedVisit.1 with
        link := { (s.tested e).refusedVisit.1.link with statusChanged := false, countersChanged := false } }) ∧
    ∀ es : List Entry, es.Pairwise (· < ·) → (∀ e, e ∈ es ↔ s.Above e ∧ s.Visits e) →
      t.journal = (es.flatMap fun e => s.eventsOf e (s.tested e).refusedVisit.2).foldl
        (fun j x => j.submit x) s.journal

/-- The entries still to be passed. -/
abbrev State.ahead (s : State) : List Entry := allEntries.filter fun e => decide (s.sched.nextIndex ≤ e.val)

theorem ahead_nodup (s : State) : s.ahead.Nodup := (notPassed_sorted _).imp Fin.ne_of_lt

theorem mem_aheadList (e : Entry) : e ∈ s.ahead ↔ s.Above e := mem_notPassed _ e

/-- Two ascending lists of the same entries are one. -/
theorem sorted_ext {es es' : List Entry} (sorted : es.Pairwise (· < ·)) (sorted' : es'.Pairwise (· < ·))
    (same : ∀ e, e ∈ es ↔ e ∈ es') : es = es' :=
  ((List.perm_ext_iff_of_nodup (sorted.imp Fin.ne_of_lt) (sorted'.imp Fin.ne_of_lt)).2 same).eq_of_pairwise
    (fun _ _ _ _ less more => absurd more (Fin.lt_asymm less)) sorted sorted'

/-- Of the entries that something holds of, one is the lowest. -/
theorem least_entry {p : Entry → Prop} (e : Entry) (holds : p e) : ∃ least, p least ∧ ∀ e' < least, ¬p e' := by
  induction value : e.val using Nat.strongRecOn generalizing e with
  | ind n ih =>
    by_cases lower : ∃ e' < e, p e'
    · obtain ⟨e', less, holds'⟩ := lower
      exact ih e'.val (value ▸ less) e' holds' rfl
    · exact ⟨e, holds, fun e' less holds' => lower ⟨e', less, holds'⟩⟩

/-- The entries still to be passed, cut at one of them. -/
theorem ahead_split {e : Entry} (above : s.Above e) : ∃ pre post, s.ahead = pre ++ e :: post ∧
    ∀ e', e' ∈ pre ↔ s.Above e' ∧ e' < e := by
  obtain ⟨pre, post, split⟩ := List.append_of_mem ((mem_aheadList e).2 above)
  have sorted := notPassed_sorted s.sched.nextIndex
  rw [State.ahead] at split
  rw [split, List.pairwise_append, List.pairwise_cons] at sorted
  obtain ⟨-, ⟨behind, -⟩, before⟩ := sorted
  refine ⟨pre, post, split, fun e' => ⟨fun inside => ⟨?_, before e' inside e List.mem_cons_self⟩,
      fun ⟨above', less⟩ => ?_⟩⟩
  · exact (mem_aheadList e').1 (by rw [State.ahead, split]; exact List.mem_append_left _ inside)
  · have inside := (mem_aheadList e').2 above'
    rw [State.ahead, split, List.mem_append, List.mem_cons] at inside
    rcases inside with front | rfl | back
    · exact front
    · exact absurd less (Fin.lt_irrefl _)
    · exact absurd (behind e' back) (Fin.lt_asymm less)

theorem skips_passed {es : List Entry} (skips : s.Skips es u) {e : Entry}
    (same : e ∈ es ↔ s.Above e) : u.station e = s.passedOver e := by
  rw [skips.stations, State.passedOver, State.skippedOver]
  by_cases above : s.Above e
  · simp only [same.2 above, if_true, polled_iff, show s.sched.nextIndex ≤ e.val from above, true_and]
  · rw [if_neg (mt same.1 above), if_neg fun ⟨high, _⟩ => above high]

theorem walk_disabled (none : ∀ e, s.Above e → (s.station e).link.state = .disabled) :
    s.walk = { s with sched := { s.sched with cycleInProgress := false } } :=
  walkOver_none _ s fun e inside =>
    Bool.eq_false_iff.2 (mt (polled_iff _).1 (Classical.not_not.2 (none e ((mem_aheadList e).1 inside))))

theorem walk_over (none : ∀ e, s.Above e → ¬s.Visits e) :
    s.walk = { s with
      stations := s.walk.stations
      sched := { s.sched with cycleInProgress := false, nextIndex := s.walk.sched.nextIndex } } ∧
    ∀ e, s.walk.station e = s.passedOver e := by
  obtain ⟨v, walk, skips⟩ := walkOver_ends s s.ahead (ahead_nodup s)
    fun e inside => visits_false (none e ((mem_aheadList e).1 inside))
  have walk' : s.walk = v.onSched fun c => { c with cycleInProgress := false } := walk
  rw [walk']
  refine ⟨?_, fun e => skips_passed skips (mem_aheadList e)⟩
  have parts := skips.parts
  exact (by rw [← parts] : v.onSched (fun c => { c with cycleInProgress := false }) =
    State.onSched (fun c => { c with cycleInProgress := false }) { s with
      stations := v.stations, sched := { s.sched with nextIndex := v.sched.nextIndex } })

/-- A visit on a line that takes requests begins with its request (R47). -/
theorem beginVisit_taken {e : Entry} (takes : s.line.state ≠ .disturbed) :
    s.beginVisit e =
      ((s.onStation e (·.beginVisit)).makeRequest
        (((s.onStation e (·.beginVisit)).station e).request e)).onSched fun c =>
          { c with visit := some ⟨e, ((s.onStation e (·.beginVisit)).station e).request e, 1⟩ } :=
  if_neg (by simp [State.refuses, takes])

theorem walk_visit {e : Entry} (takes : s.line.state ≠ .disturbed) (above : s.Above e) (visits : s.Visits e)
    (first : ∀ e' < e, s.Above e' → ¬s.Visits e') : s.VisitBegun e s.walk := by
  obtain ⟨pre, post, split, before⟩ := ahead_split above
  obtain ⟨v, walk, skips, station⟩ := walkOver_visits s pre post e (split ▸ ahead_nodup s)
    (fun e' inside => visits_false (first e' ((before e').1 inside).2 ((before e').1 inside).1))
    ((visits_iff e).2 visits) takes
  have parts := skips.parts
  have run : v.run = s.run := by rw [parts]
  have line : v.line = s.line := by rw [parts]
  let tested := v.onLink e (·.testHold v.run.clock)
  have atHold : tested.station e = s.tested e := by
    simp only [tested, onLink_station, if_pos, station, run, State.tested]
  let begun := tested.onStation e (·.beginVisit)
  have atVisit : begun.station e = (s.tested e).beginVisit := by
    simp only [begun, onStation_station, if_pos, atHold]
  let r := ((s.tested e).beginVisit).request e
  have walks : s.walk = (begun.makeRequest r).onSched fun c => { c with visit := some ⟨e, r, 1⟩ } := by
    have whole : s.walk = tested.beginVisit e := (congrArg (State.walkOver · s) split).trans walk
    rw [whole, beginVisit_taken (s := tested) (by simpa [tested, line] using takes), atVisit]
  have others {e' : Entry} (other : e' ≠ e) : s.walk.station e' = v.station e' := by
    rw [walks]
    simp [begun, tested, State.makeRequest, Ne.symm other]
  refine ⟨r, rfl, rfl, rfl, ?_, ?_, ?_, fun e' less => ?_, ?_, fun e' more => ?_⟩
  · exact congrArg (buildFrame · _) (beginVisit_keeps_station (s.tested e)).2.1
  · have taken : s.walk.line = s.line.takeRequest s.run.clock r := by
      rw [walks, ← line, ← run]
      rfl
    rw [taken]
    exact takeRequest_placed _ r s.line
  · have made : s.walk = { v with
        stations := s.walk.stations, line := s.walk.line, sched := { v.sched with visit := some ⟨e, r, 1⟩ } } := by
      rw [walks]
      rfl
    have next : s.walk.sched.nextIndex = v.sched.nextIndex := by rw [made]
    rw [next]
    exact made.trans (by rw [parts])
  · rw [others (Fin.ne_of_lt less), skips.stations, State.passedOver, State.skippedOver]
    by_cases high : s.Above e'
    · simp only [(before e').2 ⟨high, less⟩, if_true, polled_iff, show s.sched.nextIndex ≤ e'.val from high, true_and]
    · rw [if_neg fun inside => high ((before e').1 inside).1, if_neg fun ⟨inside, _⟩ => high inside]
  · rw [walks]
    exact atVisit
  · rw [others (Fin.ne_of_gt more), skips.stations, if_neg fun inside => Fin.lt_asymm more ((before e').1 inside).2]

theorem reported_plain {st : Station} (none : st.link.statusChanged = false) : st.reported = st :=
  if_neg (by simp [none])

theorem reported_status {st : Station} (changed : st.link.statusChanged = true) :
    st.reported = { st with link := { st.link with statusChanged := false, countersChanged := false } } :=
  if_pos changed

/-- The walk, as the requirements tell it. -/
theorem walk_walked (works : s.works = true) (free : s.sched.visit = none) : s.Walked s.walk where
  disabled := walk_disabled
  passes := walk_over
  visit _ := walk_visit
  refused line := by
    have refused := walk_refused s line works free
    have visitor {e : Entry} (above : s.Above e) (visits : s.Visits e) :
        s.walk.station e = (s.tested e).refusedVisit.1.reported := by
      rw [refused.stations, if_pos ((mem_aheadList e).2 above), State.passed, if_pos ((visits_iff e).2 visits)]
    refine ⟨refused.parts.trans (by rw [← refused.sched]), fun e quiet => ?_, fun e above visits plain => ?_,
      fun e above visits changed => ⟨?_, ?_⟩, fun es sorted same => ?_⟩
    · rw [refused.stations, State.passed, State.passedOver]
      by_cases above : s.Above e
      · have skipped := visits_false fun visits => quiet ⟨above, visits⟩
        simp only [(mem_aheadList e).2 above, if_true, skipped, Bool.false_eq_true, if_false, polled_iff,
          show s.sched.nextIndex ≤ e.val from above, true_and]
      · rw [if_neg (mt (mem_aheadList e).1 above), if_neg fun ⟨high, _⟩ => above high]
    · rw [visitor above visits, reported_plain plain]
    · exact refused.status e ((mem_aheadList e).2 above) ((visits_iff e).2 visits) changed
    · rw [visitor above visits, reported_status changed]
    · have order : (s.ahead.filter s.visits).Pairwise (· < ·) := (notPassed_sorted _).filter _
      have list : es = s.ahead.filter s.visits := sorted_ext sorted order fun e => by
        rw [same, List.mem_filter, mem_aheadList, visits_iff]
      rw [list]
      exact refused.journal

/-- The walk either ends the cycle, with the line as it stood, or begins a visit, with the cycle as it stood. -/
theorem walk_ends (works : s.works = true) (free : s.sched.visit = none) :
    (s.walk.line = s.line ∧
      s.walk.sched = { s.sched with cycleInProgress := false, nextIndex := s.walk.sched.nextIndex }) ∨
    ∃ v, s.walk.sched = { s.sched with visit := some v, nextIndex := s.walk.sched.nextIndex } := by
  have walked := walk_walked works free
  by_cases line : s.line.state = .disturbed
  · have parts := (walked.refused line).1
    exact .inl ⟨by rw [parts], by rw [parts]⟩
  by_cases none : ∀ e, s.Above e → ¬s.Visits e
  · have parts := (walked.passes none).1
    exact .inl ⟨by rw [parts], by rw [parts]⟩
  · obtain ⟨e, some⟩ := Classical.not_forall.1 none
    obtain ⟨above, visits⟩ := Classical.not_imp.1 some
    obtain ⟨e, ⟨above, visits⟩, least⟩ :=
      least_entry (p := fun e => s.Above e ∧ s.Visits e) e ⟨above, Classical.not_not.1 visits⟩
    obtain ⟨r, -, -, -, -, -, parts, -⟩ := walked.visit e line above visits
      fun e' less above' visits' => least e' less ⟨above', visits'⟩
    exact .inr ⟨_, by rw [parts]⟩

/-! ### The scheduler around the walk -/

theorem schedule_continues (running : s.run.state = .running) (visit : s.sched.visit = none)
    (place : s.line.sendPlace = none) (due : s.sched.markDue = false) : s.schedule = s.continueCycle := by
  have undue : s.sendDueMark = s := if_neg (by simp [due])
  rw [State.schedule, if_pos ⟨running, visit, place⟩, undue]
  exact if_neg (by simp [place])

theorem schedule_idle (busy : ¬(s.sched.visit = none ∧ s.line.sendPlace = none)) : s.schedule = s :=
  if_neg fun ⟨_, free⟩ => busy free

/-- A mark due on a DISTURBED line is dropped (R46). -/
theorem schedule_dropped (running : s.run.state = .running) (visit : s.sched.visit = none)
    (place : s.line.sendPlace = none) (line : s.line.state = .disturbed) :
    s.schedule = ({ s with sched := { s.sched with markDue := false } } : State).schedule :=
  (schedule_free running line visit place).trans
    (schedule_free (s := { s with sched := { s.sched with markDue := false } }) running line visit place).symm

theorem continueCycle_next (done : s.sched.cycleInProgress = false) (expired : s.sched.cycleTimer = .expired) :
    s.continueCycle = (s.startCycle (s.sched.cycleNumber + 1#32)).walk := by
  have stays : (if s.sched.cycleInProgress then s.walk else s) = s := if_neg (by simp [done])
  simp only [State.continueCycle, stays]
  exact if_pos ⟨done, expired⟩

theorem continueCycle_walks (going : s.sched.cycleInProgress = true) :
    s.continueCycle = if s.walk.sched.cycleInProgress = false ∧ s.walk.sched.cycleTimer = .expired then
      (s.walk.startCycle (s.walk.sched.cycleNumber + 1#32)).walk else s.walk := by
  have walks : (if s.sched.cycleInProgress then s.walk else s) = s.walk := if_pos going
  simp only [State.continueCycle, walks]

/-- The end of the cycle's walk leads to the next cycle once its time has come (R44). -/
theorem schedule_walk (running : s.run.state = .running) (visit : s.sched.visit = none)
    (place : s.line.sendPlace = none) (due : s.sched.markDue = false) (going : s.sched.cycleInProgress = true) :
    (s.walk.sched.cycleInProgress = true ∨ s.sched.cycleTimer ≠ .expired → s.schedule = s.walk) ∧
    (s.walk.sched.cycleInProgress = false → s.sched.cycleTimer = .expired → s.schedule = s.walk.schedule) := by
  have ends := walk_ends (works_of_running running) visit
  have timer : s.walk.sched.cycleTimer = s.sched.cycleTimer := by
    rcases ends with ⟨-, sched⟩ | ⟨v, sched⟩ <;> rw [sched]
  rw [schedule_continues running visit place due, continueCycle_walks going, timer]
  refine ⟨fun stays => if_neg ?_, fun done expired => ?_⟩
  · rintro ⟨done, expired⟩
    rcases stays with on | waits
    · simp [on] at done
    · exact waits expired
  · rcases ends with ⟨line, sched⟩ | ⟨v, sched⟩
    · have running' : s.walk.run.state = .running := by simpa using running
      have rest : s.walk.schedule = s.walk.continueCycle :=
        schedule_continues running' (by rw [sched]; exact visit) (by rw [line]; exact place) (by rw [sched]; exact due)
      rw [if_pos ⟨done, expired⟩, rest, continueCycle_next done (timer.trans expired)]
    · rw [sched] at done
      simp [going] at done

end Sys2Proof.Machine

namespace Sys2Proof.Proofs

open Sys2Proof.Machine

/-- Settles O33: the walk (`walk_walked`), and when the scheduler makes it (`schedule_walk`, `continueCycle_next`). -/
theorem cyclesAreWalkedInOrder : Obligations.CyclesAreWalkedInOrder := by
  refine ⟨fun s e result => endVisit_sched .., fun s stopping => ?_, fun s running => ?_⟩
  · have still (u : State) (state : u.run.state = .stopping) : u.schedule = u := schedule_stopping u (by simp [state])
    refine ⟨still s stopping, fun timer runs => ?_⟩
    exact (exec_cycleTimer (works_of_stopping stopping) runs).trans (next_congr (still _ stopping))
  intro held tested placed walked next idle
  have works := works_of_running running
  -- A walk from the scheduler's items `c`, in the obligation's words.
  have told (c : Scheduler) (t : State) (walk : State.Walked { s with sched := c } t) : walked c t :=
    ⟨walk.disabled, walk.passes, walk.visit, walk.refused⟩
  have expires {timer : Timer} (runs : s.sched.cycleTimer = .running timer) :
      exec .cycleTimerExpiry s =
        .next ({ s with sched := { s.sched with cycleTimer := .expired } } : State).schedule :=
    exec_cycleTimer works runs
  have begins (free : idle) : State.Walked { s with sched := next } ({ s with sched := next } : State).walk :=
    walk_walked (s := { s with sched := next }) works free.1
  refine ⟨fun l => ⟨testHold_held, testHold_free⟩, fun timer runs => ⟨fun busy => ?_, fun free due done => ?_⟩,
    proceed_running s running, schedule_idle, fun free due => ⟨?_, fun takes => ?_⟩, fun free due =>
      ⟨fun going => ?_, fun done => ⟨fun expired => ?_, fun waits => ?_⟩⟩⟩
  · exact (expires runs).trans (next_congr (schedule_idle busy))
  · obtain ⟨visit, place⟩ := free
    let late : State := { s with sched := { s.sched with cycleTimer := .expired } }
    have goes : late.schedule = ({ s with sched := next } : State).walk :=
      (schedule_continues (s := late) running visit place due).trans (continueCycle_next done rfl)
    refine ⟨late.schedule, expires runs, told next _ ?_⟩
    rw [goes]
    exact begins ⟨visit, place⟩
  · exact fun line => schedule_dropped running free.1 free.2 line
  · exact ⟨_, schedule_mark running due free.1 free.2 takes, takeRequest_placed ..⟩
  · exact ⟨s.walk, told s.sched _ (walk_walked works free.1), schedule_walk running free.1 free.2 due going⟩
  · refine told next _ ?_
    rw [schedule_continues running free.1 free.2 due, continueCycle_next done expired]
    exact begins free
  · rw [schedule_continues running free.1 free.2 due, continueCycle_done done waits]

end Sys2Proof.Proofs
end

section
/-! The way from the last start read into RUNNING: the checks, the start fetches, the values that every unit takes, the
first writes and the first cycle's walk (07, R39, R67, R87, R89, R167). -/

namespace Sys2Proof.Machine

variable {s : State}

/-! ### The reads of STARTING -/

/-- A read that ends with another waiting hands over to it (R156). -/
theorem endRead_starts {r : Read} {rest : List Read} (transacts : s.run.state.transacts = true)
    (reads : s.port.reads = r :: rest) (writes : s.port.writes = []) :
    s.endRead = { s with port := { s.port with
      reads := rest, inFlight := some (.read r (s.readAddress r)), lastServed := .read } } :=
  startTransaction_read (s := s.onPort fun p => { p with inFlight := none }) transacts rfl reads writes

theorem transacts_of_starting (starting : s.run.state = .starting) : s.run.state.transacts = true := by
  rw [starting]
  rfl

/-! ### The start fetches -/

section fetches

variable (i : StartImage) (e : Entry) (data : List Byte)

theorem bracketAgrees_iff (revision : Half) (block : List Byte) :
    bracketAgrees revision block = true ↔ halfAt block 0 = revision ∧ halfAt block 18 = revision := by
  rw [bracketAgrees, Bool.and_eq_true, beq_iff_eq, beq_iff_eq]

theorem fetchResult_agrees (agrees : halfAt data 0 = (i.live e).revision ∧ halfAt data 18 = (i.live e).revision) :
    i.fetchResult e data = ⟨e, some ((i.live e).revision, (data.drop 2).take 16)⟩ := by
  rw [StartImage.fetchResult, if_pos ((bracketAgrees_iff _ data).2 agrees)]
  rfl

theorem fetchResult_torn (torn : ¬(halfAt data 0 = (i.live e).revision ∧ halfAt data 18 = (i.live e).revision)) :
    i.fetchResult e data = ⟨e, none⟩ := by
  rw [StartImage.fetchResult, if_neg (mt (bracketAgrees_iff _ data).1 torn)]

theorem fetched_append (f : StartFetch) (e : Entry) :
    ({ i with fetches := i.fetches ++ [f] } : StartImage).fetched e =
      ((i.fetches.find? fun g => g.entry == e).or (if f.entry = e then some f else none)).bind (·.accepted) := by
  rw [StartImage.fetched, List.find?_append]
  congr 2
  by_cases own : f.entry = e <;> simp [own]

theorem fetched_own (first : ∀ f ∈ i.fetches, f.entry ≠ e) (f : StartFetch) (own : f.entry = e) :
    ({ i with fetches := i.fetches ++ [f] } : StartImage).fetched e = f.accepted := by
  have none : (i.fetches.find? fun g => g.entry == e) = .none :=
    List.find?_eq_none.2 fun g inside => by simpa using first g inside
  rw [fetched_append, none, if_pos own]
  rfl

theorem fetched_other (f : StartFetch) {e : Entry} (other : f.entry ≠ e) :
    ({ i with fetches := i.fetches ++ [f] } : StartImage).fetched e = i.fetched e := by
  rw [fetched_append, if_neg other, Option.or_none, StartImage.fetched]

theorem tornFetches_eq : i.tornFetches = (i.entries.filter fun e => decide (i.fetched e = none)).length := by
  rw [StartImage.tornFetches, List.countP_eq_length_filter]
  congr 2
  funext e
  cases i.fetched e <;> rfl

end fetches

/-! ### The state in which the first cycle begins -/

/-- What a run holds when its first cycle begins, but for the writes that step 5 asks for (R167 steps 4 to 6). -/
def State.firstCycle (s : State) : State :=
  let i := s.run.startImage
  { s with
    run := { s.run with
      state := .running, reason := .none, detail := 0#8, clock := 0#32, startImage := ⟨[], []⟩
      settings := some i.settings }
    irq := { s.irq with cause := s.irq.cause ||| 0b00010#5, holdOff := none }
    line := { Line.reset with pairAtRest := s.line.pairAtRest, receiver := .disarmed }
    sched := { Scheduler.reset with
      cycleNumber := 0#32, cycleInProgress := true, nextIndex := 0, visit := none, markDue := false
      cycleTimer := .running ⟨0#32, .ms (max 1 i.settings.cycleMinimum)⟩
      markTimer := some ⟨0#32, .ms 1000⟩ }
    stations := s.takeStartValues.firstWrites.stations
    tornReads := satAdd 0#16 i.tornFetches
    journal := { Journal.reset with
      staging := [⟨⟨.runStart i.settings.journalCapacity i.entries.length, none, 0#32⟩, Gap.zero⟩] }
    exch := { Exchange.reset with sweepTimer := some ⟨0#32, .ms i.settings.sweepPeriod⟩ }
    port := s.takeStartValues.firstWrites.port }

theorem takeStartValues_station (e : Entry) : s.takeStartValues.station e = s.run.startImage.startStation e := by
  simp [State.takeStartValues, State.station]

theorem startStation_takesPart (i : StartImage) (e : Entry) : (i.startStation e).takesPart = i.takesPart e := by
  rw [StartImage.startStation]
  cases takes : i.takesPart e <;> rfl

theorem startStation_countersChanged (i : StartImage) (e : Entry) :
    (i.startStation e).link.countersChanged = false := by
  rw [StartImage.startStation]
  split <;> rfl

theorem firstWrites_station (e : Entry) :
    s.takeStartValues.firstWrites.station e = s.run.startImage.startStation e := by
  obtain ⟨-, -, -, stations⟩ := requestStatuses_does s.takeStartValues.takingPart s.takeStartValues
  have mark : s.takeStartValues.firstWrites.station e =
      (s.takeStartValues.requestStatuses s.takeStartValues.takingPart).station e := by simp [State.firstWrites]
  have unchanged := startStation_countersChanged s.run.startImage e
  rw [mark, stations, takeStartValues_station, unchanged, Bool.false_and, ← unchanged]

theorem firstWrites_takingPart : s.takeStartValues.firstWrites.takingPart = s.run.startImage.entries := by
  rw [State.takingPart, StartImage.entries]
  simp only [firstWrites_station, startStation_takesPart]

theorem takeStartValues_takingPart : s.takeStartValues.takingPart = s.run.startImage.entries := by
  rw [State.takingPart, StartImage.entries]
  simp only [takeStartValues_station, startStation_takesPart]

/-- RUNNING is entered with an empty journal at panel time 0, and the first cycle's walk follows (R167 step 6). -/
theorem enterRunning_walks (w : State) (journal : w.journal = Journal.reset) (clock : w.run.clock = 0#32) :
    w.enterRunning = State.walk { w with
      run := { w.run with state := .running, reason := .none, detail := 0#8 }
      irq := { w.irq with cause := w.irq.cause ||| 0b00010#5 }
      line := { w.line with receiver := .disarmed }
      sched := { w.sched with
        cycleNumber := 0#32, cycleInProgress := true, nextIndex := 0
        cycleTimer := .running ⟨0#32, .ms (max 1 w.cfg.cycleMinimum)⟩
        markTimer := some ⟨0#32, .ms 1000⟩ }
      journal := { Journal.reset with
        staging := [⟨⟨.runStart w.cfg.journalCapacity w.takingPart.length, none, 0#32⟩, Gap.zero⟩] }
      exch := { w.exch with sweepTimer := some ⟨0#32, .ms w.cfg.sweepPeriod⟩ } } := by
  let running := (w.runChange .running .none 0#8).setCause .state
  let event := running.event none (.runStart w.cfg.journalCapacity w.takingPart.length)
  have made : event = ⟨.runStart w.cfg.journalCapacity w.takingPart.length, none, 0#32⟩ :=
    congrArg (Event.mk _ none) clock
  have staged : running.submit event = { running with
      journal := { Journal.reset with
        staging := [⟨⟨.runStart w.cfg.journalCapacity w.takingPart.length, none, 0#32⟩, Gap.zero⟩] } } := by
    have submits : running.submit event = { running with journal := w.journal.submit event } :=
      submit_works (s := running) event rfl
    rw [submits, made, journal]
    rfl
  have timer (span : Span) : w.timer span = ⟨0#32, span⟩ := congrArg (Timer.mk · span) clock
  let timed := (((running.submit event).onLine Line.switchOn).onSched fun c =>
      { c with markTimer := some (w.timer (.ms Config.markPeriodMs)) }).onExch fun x =>
        { x with sweepTimer := some (w.timer (.ms w.cfg.sweepPeriod)) }
  have later : timed.timer (.ms (max 1 timed.cfg.cycleMinimum)) = ⟨0#32, .ms (max 1 w.cfg.cycleMinimum)⟩ := by
    simp only [timed, staged]
    exact timer _
  have whole : w.enterRunning = (timed.startCycle 0#32).walk := rfl
  rw [whole, State.startCycle, later]
  simp only [timed, staged, timer]
  rfl

theorem initialise_walks (s : State) : s.initialise = s.firstCycle.walk := by
  rw [State.initialise, enterRunning_walks _ (by simp [State.takeStartValues]) (by simp), firstWrites_takingPart]
  refine congrArg State.walk (state_eq ?_ ?_ ?_ ?_ ?_ ?_ ?_ ?_ ?_ ?_ ?_ ?_) <;>
    simp [State.firstCycle, State.takeStartValues, State.cfg, Scheduler.reset, Line.started]

theorem firstCycle_station (e : Entry) : s.firstCycle.station e = s.run.startImage.startStation e := by
  rw [← firstWrites_station]
  simp only [State.station, State.firstCycle]

/-! ### The first writes -/

section writes

variable (reads : s.port.reads = []) (writes : s.port.writes = []) (held : s.port.heldMark = none)
include reads writes held

/-- What step 5 makes of an empty Memory Port: every STATUS and the first MARK wait or are in flight (R167). -/
theorem firstWrites_port :
    s.firstWrites.port.reads = [] ∧ s.firstWrites.port.faultAddr = s.port.faultAddr ∧
    (.mark 0#32 false ∈ s.firstWrites.port.writes ∨ s.firstWrites.port.heldMark = some ⟨0#32, false⟩) ∧
    ∀ e ∈ s.takingPart, .status e ∈ s.firstWrites.port.writes ∨ s.firstWrites.port.owed[e.val] = true := by
  obtain ⟨⟨-, -, kept⟩, places, statuses, -⟩ := requestStatuses_does s.takingPart s
  obtain ⟨empty, free⟩ := places (.inr reads)
  refine ⟨(requestMark_reads _ 0#32 false free).1.trans (empty.trans reads), ?_, ?_, fun e inside => ?_⟩
  · exact (requestMark_faultAddr _ 0#32 false).trans (requestStatuses_faultAddr _ s)
  · exact requestMark_first _ 0#32 false (requestStatuses_status _ s fun w waits => by simp [writes] at waits)
      (kept.trans held)
  · exact requestMark_status _ 0#32 false (statuses e inside)

/-- With no entry in the run the first MARK is all that is asked for, and it starts at once (R167 step 5). -/
theorem firstWrites_mark (transacts : s.run.state.transacts = true) (idle : s.port.inFlight = none)
    (empty : s.takingPart = []) :
    s.firstWrites.port.writes = [.mark 0#32 false] ∧
    ∃ a bytes, s.firstWrites.port.inFlight = some (.write (.mark 0#32 false) a bytes) := by
  have only : s.firstWrites = s.requestMark 0#32 false := by
    rw [State.firstWrites, empty]
    rfl
  have joins : (s.port.requestMark 0#32 false).writes = [.mark 0#32 false] := by
    simp [Port.requestMark, Port.joinMark, Port.tailMark, Port.unstarted, writes, held, Port.hasFree, Config.writesMax]
  rw [only]
  exact ⟨(startTransaction_port (s.onPort (·.requestMark 0#32 false))).1.trans joins,
    requestMark_starts transacts idle reads writes 0#32 false held⟩

end writes

/-! ### The first walk -/

/-- The entry is in the run and enabled, so that its station is searched for (R39, R43). -/
def StartImage.Enabled (i : StartImage) (e : Entry) : Prop := i.takesPart e = true ∧ (i.live e).enable ≠ 0#8

section enabled

variable {i : StartImage} {e : Entry}

theorem startStation_out (out : i.takesPart e = false) : i.startStation e = Station.reset :=
  if_neg (by simp [out])

theorem startStation_in (takes : i.takesPart e = true) : i.startStation e = { Station.reset with
    takesPart := true
    address := BitVec.ofNat 5 (i.fields e).address
    link := i.startLink e
    contacts := i.startContacts e
    output := i.startOutput e } := if_pos takes

theorem startStation_disabled (not : ¬i.Enabled e) : (i.startStation e).link.state = .disabled := by
  cases takes : i.takesPart e with
  | false => rw [startStation_out takes]; rfl
  | true =>
    rw [startStation_in takes]
    exact if_pos (Classical.not_not.1 fun enabled => not ⟨takes, enabled⟩)

theorem startLink_enabled (enabled : (i.live e).enable ≠ 0#8) : i.startLink e =
    { Link.reset with
      state := .searching
      resyncRequest := (i.live e).resyncCount
      resyncDone := (i.live e).resyncCount } := by
  rw [StartImage.startLink, if_neg enabled]

theorem startStation_searching (enabled : i.Enabled e) : (i.startStation e).link.state = .searching := by
  rw [startStation_in enabled.1, startLink_enabled enabled.2]

theorem startStation_free (i : StartImage) (e : Entry) : (i.startStation e).link.holdUntil = none := by
  rw [StartImage.startStation]
  split <;> rfl

end enabled

/-- Cycle 0 visits each enabled station, since 0 is a multiple of every search divisor (R45). -/
theorem firstCycle_visits {e : Entry} (enabled : s.run.startImage.Enabled e) : s.firstCycle.visits e = true := by
  have searching := startStation_searching enabled
  have free := startStation_free s.run.startImage e
  rw [visits_iff, State.Visits, firstCycle_station]
  refine ⟨by simp [searching], ?_⟩
  rintro (⟨hold, held, -⟩ | ⟨-, skips⟩)
  · simp [free] at held
  · exact skips (Nat.zero_mod _)

theorem firstCycle_tested (e : Entry) : s.firstCycle.tested e = s.run.startImage.startStation e := by
  have free : ¬(s.run.startImage.startStation e).link.Held s.firstCycle.run.clock := by
    rintro ⟨hold, held, -⟩
    simp [startStation_free] at held
  rw [State.tested, firstCycle_station, testHold_free free, ← startStation_free s.run.startImage e]

/-- The first walk of a run with no station enabled ends its cycle (R44). -/
theorem firstCycle_none (none : ∀ e, ¬s.run.startImage.Enabled e) :
    s.firstCycle.walk = { s.firstCycle with sched := { s.firstCycle.sched with cycleInProgress := false } } :=
  walk_disabled fun e _ => by rw [firstCycle_station]; exact startStation_disabled (none e)

/-- The walk on a line that takes requests, where every station before the one visited is DISABLED. -/
theorem walk_first {e : Entry} (takes : s.line.state ≠ .disturbed) (above : s.Above e) (visits : s.visits e = true)
    (first : ∀ e' < e, s.Above e' → (s.station e').link.state = .disabled) :
    let r := ((s.tested e).beginVisit).request e
    s.walk = { s with
      stations := s.walk.stations
      line := s.line.takeRequest s.run.clock r
      sched := { s.sched with visit := some ⟨e, r, 1⟩ } } ∧
    ∀ e', s.walk.station e' = if e = e' then (s.tested e).beginVisit else s.station e' := by
  intro r
  obtain ⟨pre, post, split, before⟩ := ahead_split above
  rw [State.visits, Bool.and_eq_true, Bool.not_eq_true'] at visits
  have whole : s.walk = (s.onLink e (·.testHold s.run.clock)).beginVisit e :=
    (congrArg (State.walkOver · s) split).trans (walkOver_first s pre post e
      (fun e' inside => Bool.eq_false_iff.2 (mt (polled_iff _).1 (Classical.not_not.2
        (first e' ((before e').1 inside).2 ((before e').1 inside).1)))) visits.1 visits.2
      (by simp [State.refuses, takes]))
  let tested := s.onLink e (·.testHold s.run.clock)
  have atHold : tested.station e = s.tested e := by simp [tested, State.tested]
  let begun := tested.onStation e (·.beginVisit)
  have atVisit : begun.station e = (s.tested e).beginVisit := by simp [begun, atHold]
  have walks : s.walk = (begun.makeRequest r).onSched fun c => { c with visit := some ⟨e, r, 1⟩ } := by
    rw [whole, beginVisit_taken (s := tested) takes, atVisit]
  rw [walks]
  refine ⟨rfl, fun e' => ?_⟩
  by_cases own : e = e'
  · rw [if_pos own, ← own]
    exact atVisit
  · simp [begun, tested, State.makeRequest, own]

theorem firstCycle_above (e : Entry) : s.firstCycle.Above e := Nat.zero_le _

theorem firstCycle_takes : s.firstCycle.line.state ≠ .disturbed := by simp [State.firstCycle, Line.reset]

/-- The first walk comes to the lowest enabled station (R45, R167). -/
theorem initialise_visit {e : Entry} (enabled : s.run.startImage.Enabled e)
    (first : ∀ e' < e, ¬s.run.startImage.Enabled e') :
    let st := (s.run.startImage.startStation e).beginVisit
    s.initialise = { s.firstCycle with
      stations := s.initialise.stations
      line := s.firstCycle.line.takeRequest s.firstCycle.run.clock (st.request e)
      sched := { s.firstCycle.sched with visit := some ⟨e, st.request e, 1⟩ } } ∧
    ∀ e', s.initialise.station e' = if e = e' then st else s.run.startImage.startStation e' := by
  have walk := walk_first firstCycle_takes (firstCycle_above e) (firstCycle_visits enabled) fun e' less _ => by
    rw [firstCycle_station]
    exact startStation_disabled (first e' less)
  rw [firstCycle_tested, ← initialise_walks] at walk
  simpa only [firstCycle_station] using walk

theorem initialise_none (none : ∀ e, ¬s.run.startImage.Enabled e) :
    s.initialise = { s.firstCycle with sched := { s.firstCycle.sched with cycleInProgress := false } } :=
  (initialise_walks s).trans (firstCycle_none none)

theorem first_enabled (i : StartImage) :
    (∀ e, ¬i.Enabled e) ∨ ∃ e, i.Enabled e ∧ ∀ e' < e, ¬i.Enabled e' := by
  by_cases none : ∀ e, ¬i.Enabled e
  · exact .inl none
  · obtain ⟨e, enabled⟩ := Classical.not_forall.1 none
    exact .inr (least_entry e (Classical.not_not.1 enabled))

/-- Beyond the line, the scheduler and the stations, the first walk changes nothing. -/
theorem initialise_units (s : State) : s.initialise = { s.firstCycle with
    stations := s.initialise.stations, line := s.initialise.line, sched := s.initialise.sched } := by
  rcases first_enabled s.run.startImage with none | ⟨e, enabled, first⟩
  · rw [initialise_none none]
  · obtain ⟨visit, -⟩ := initialise_visit enabled first
    have line : s.initialise.line = _ := congrArg State.line visit
    have sched : s.initialise.sched = _ := congrArg State.sched visit
    exact visit.trans (by rw [line, sched])

theorem initialise_irq (s : State) :
    s.initialise.irq = { s.irq with cause := s.irq.cause ||| 0b00010#5, holdOff := none } :=
  congrArg State.irq (initialise_units s)

theorem initialise_tornReads (s : State) : s.initialise.tornReads = satAdd 0#16 s.run.startImage.tornFetches :=
  congrArg State.tornReads (initialise_units s)

theorem initialise_journal (s : State) : s.initialise.journal = { Journal.reset with
    staging := [⟨⟨.runStart s.run.startImage.settings.journalCapacity s.run.startImage.entries.length, none, 0#32⟩,
      Gap.zero⟩] } := congrArg State.journal (initialise_units s)

theorem initialise_exch (s : State) : s.initialise.exch = { Exchange.reset with
    sweepTimer := some ⟨0#32, .ms s.run.startImage.settings.sweepPeriod⟩ } :=
  congrArg State.exch (initialise_units s)

theorem initialise_port (s : State) : s.initialise.port = s.takeStartValues.firstWrites.port := by
  rw [initialise_units]
  simp only [State.firstCycle]

theorem initialise_searchless (none : ∀ e, ¬s.run.startImage.Enabled e) (e : Entry) :
    s.initialise.station e = s.run.startImage.startStation e := by
  rw [initialise_none none, ← firstCycle_station]
  simp only [State.station]

end Sys2Proof.Machine

namespace Sys2Proof.Proofs

open Sys2Proof.Machine

/-- Settles O13: the completions of the start reads, and where the last of them leads. -/
theorem startReadsThenChecks : Obligations.StartReadsThenChecks := by
  intro s i a data starting going flight length writes image
  have transacts := transacts_of_starting starting
  have takes : exec (.startReadComplete data) s = .next (s.takeStartRead i data) :=
    (exec_startRead starting flight length).trans (next_congr (if_neg (by simp [going])))
  let taken : State := { s with run := { s.run with startImage := image } }
  have more (other : i ≠ 17) : s.takeStartRead i data = taken.endRead := if_neg other
  have last (final : i = 17) : s.takeStartRead i data = taken.checkStart := if_pos final
  refine ⟨fun rest before reads => ?_, fun reason detail final fails => ?_, fun e rest final reads passes entries => ?_,
    fun final passes entries => ?_⟩
  · rw [takes, more (by omega)]
    exact next_congr (endRead_starts (s := taken) transacts reads writes)
  · rw [takes, last final]
    refine next_congr ?_
    have failed : taken.run.startImage.check taken.run.exchangeBase = some (reason, detail) := fails
    simp only [State.checkStart, failed]
    rfl
  · rw [takes, last final]
    refine next_congr ?_
    have passed : taken.run.startImage.check taken.run.exchangeBase = none := passes
    have some : taken.run.startImage.entries = e :: rest := entries
    simp only [State.checkStart, passed, some]
    let placed := taken.onPort (·.requestReads ((e :: rest).map .image))
    have waits : taken.requestReads ((e :: rest).map .image) = placed := 
      if_neg (by simp [taken, Port.requestReads, flight])
    have queue : placed.port.reads = .image e :: rest.map .image := by
      simp [placed, taken, Port.requestReads, reads]
    rw [waits]
    exact endRead_starts (s := placed) transacts queue writes
  · have passed : taken.run.startImage.check taken.run.exchangeBase = none := passes
    have empty : taken.run.startImage.entries = [] := entries
    have starts : exec (.startReadComplete data) s = .next taken.initialise := by
      rw [takes, last final]
      refine next_congr ?_
      simp only [State.checkStart, passed, empty]
    have out (e : Entry) : image.takesPart e = false :=
      Bool.eq_false_iff.2 fun inside => by simpa [entries] using (mem_entries image e).2 inside
    have disabled (e : Entry) : ¬taken.run.startImage.Enabled e := fun enabled =>
      absurd ((out e).symm.trans enabled.1) Bool.false_ne_true
    have walks := initialise_none disabled
    obtain ⟨reads, fault, -⟩ := firstWrites_port (s := taken.takeStartValues) rfl rfl rfl
    obtain ⟨queue, started⟩ := firstWrites_mark (s := taken.takeStartValues) rfl rfl rfl transacts rfl
      (takeStartValues_takingPart.trans empty)
    rw [← initialise_port] at reads fault queue started
    have count : image.entries.length = 0 := by rw [entries]; rfl
    have torn : image.tornFetches = 0 := by rw [StartImage.tornFetches, entries]; rfl
    refine ⟨taken.initialise, starts, initialise_run taken, initialise_irq taken, ?_, initialise_exch taken,
      congrArg State.sched walks, congrArg State.line walks, fun e => ?_, ?_, (initialise_keeps taken).2.1, fault,
      reads, queue, started⟩
    · exact (initialise_journal taken).trans (by rw [show taken.run.startImage.entries.length = 0 from count])
    · exact (initialise_searchless disabled e).trans (startStation_out (out e))
    · exact (initialise_tornReads taken).trans (congrArg (satAdd 0#16) torn)

end Sys2Proof.Proofs
end

section
/-! The start fetches lead into RUNNING: the values that each station takes, and the first visit where a station is
enabled (07, R39, R67, R87, R89, R167). -/

namespace Sys2Proof.Machine

variable {s : State}

/-! ### The first visit -/

section visit

variable {i : StartImage} {e : Entry}

/-- The link of the station that the first visit is made at: its RESET-STATION is the outstanding command (R47). -/
def StartImage.visitedLink (i : StartImage) (e : Entry) : Link :=
  { i.startLink e with
    nextTurn := 1#3
    outstanding := some ⟨.resetStation, 0#3⟩
    sampledResync := some (i.live e).resyncCount
    countersChanged := true
    counters := { Counters.reset with visits := 1#16 } }

theorem startStation_visited (enabled : i.Enabled e) :
    (i.startStation e).beginVisit = { i.startStation e with link := i.visitedLink e } := by
  rw [startStation_in enabled.1, StartImage.visitedLink, startLink_enabled enabled.2]
  rfl

/-- The first request is a RESET-STATION of the station's geometry (R23, R47). -/
theorem startStation_request (enabled : i.Enabled e) : (i.startStation e).beginVisit.request e =
    { frame := buildFrame (BitVec.ofNat 5 (i.fields e).address)
        ⟨0x14#8, 0#3, [BitVec.ofNat 8 (i.fields e).rows, BitVec.ofNat 8 (i.fields e).columns]⟩
      expectsReply := true
      serves := some e
      expected := 0#3 } := by
  rw [startStation_visited enabled, startStation_in enabled.1]
  rfl

end visit

theorem startOutput_eq (i : StartImage) (e : Entry) : i.startOutput e =
    { Output.reset with
      indicatorCount := (i.fields e).indicatorCount
      fetchedRevision := (i.fetched e).map (·.1)
      fetchedImage := ((i.fetched e).map (·.2)).getD (List.replicate 16 0#8)
      sounderRequest := (i.live e).sounderCount
      sounderPattern := (i.live e).pattern
      sounderDone := (i.live e).sounderCount
      tornReads := if (i.fetched e).isNone then 1#16 else 0#16 } := by
  rw [StartImage.startOutput]
  cases i.fetched e <;> rfl

/-- A line as it starts takes the first request at once where the pair is at rest (R5). -/
theorem takeRequest_started (rest : Bool) (r : SendRequest) :
    let line : Line := { Line.reset with pairAtRest := rest, receiver := .disarmed }
    line.takeRequest 0#32 r = { line with
      state := if rest then .sending else .idle
      sendPlace := some r
      busy := if rest then none else some ⟨0#32, .ms 20⟩ } := by
  cases rest <;> rfl

end Sys2Proof.Machine

namespace Sys2Proof.Proofs

open Sys2Proof.Machine

/-- Settles O15: the test of a start fetch, and the run that the last one begins (`initialise_units`,
`initialise_visit`). -/
theorem startFetchesEnterRunning : Obligations.StartFetchesEnterRunning := by
  refine ⟨fun i e data => ?_, fun s e a data r rest starting going flight reads writes length => ?_,
    fun s e a data starting going flight reads length => ?_⟩
  · exact ⟨fetchResult_agrees i e data, fetchResult_torn i e data,
      fun first => fetched_own i e first _ rfl, fun e' other => fetched_other i _ (Ne.symm other), tornFetches_eq i⟩
  · rw [exec_startFetch starting flight length, if_neg (by simp [going]), State.takeStartFetch,
      if_neg (by simp [reads])]
    exact next_congr (endRead_starts (transacts_of_starting starting) reads writes)
  intro image enabled address line sched link visited request contacts output
  let taken : State := { s with run := { s.run with startImage := image } }
  have starts : exec (.imageFetchComplete data) s = .next taken.initialise := by
    rw [exec_startFetch starting flight length, if_neg (by simp [going]), State.takeStartFetch, if_pos reads]
    rfl
  obtain ⟨empty, fault, mark, statuses⟩ := firstWrites_port (s := taken.takeStartValues) rfl rfl rfl
  rw [takeStartValues_takingPart] at statuses
  rw [← initialise_port] at empty fault mark statuses
  have entries := mem_entries image
  -- The station that the first visit is made at holds the link of that visit, and every other its start values.
  have first {e : Entry} (on : enabled e) (least : ∀ e' < e, ¬enabled e') :=
    initialise_visit (s := taken) (e := e) on least
  have stations (e : Entry) : taken.initialise.station e = { image.startStation e with
      link := (taken.initialise.station e).link } := by
    rcases first_enabled image with none | ⟨first', on, least⟩
    · rw [initialise_searchless (s := taken) none]
    · rw [(first on least).2 e]
      by_cases own : first' = e
      · rw [if_pos own, ← own]
        have made : (image.startStation first').beginVisit = _ := startStation_visited on
        exact made.trans (by rw [show taken.run.startImage = image from rfl, made])
      · rw [if_neg own]
  have ordinary (e : Entry) (other : ¬enabled e ∨ ∃ e' < e, enabled e') :
      taken.initialise.station e = image.startStation e := by
    rcases first_enabled image with none | ⟨first', on, least⟩
    · exact initialise_searchless (s := taken) none e
    · rw [(first on least).2 e, if_neg]
      rintro rfl
      rcases other with off | ⟨e', less, on'⟩
      · exact off on
      · exact least e' less on'
  refine ⟨taken.initialise, starts, initialise_run taken, initialise_irq taken, initialise_journal taken,
    initialise_exch taken, fun none => ?_, fun e on least => ?_, initialise_tornReads taken,
    (initialise_keeps taken).2.1, fault, empty, mark, fun e out => ?_,
        fun e takes => ⟨?_, ?_, fun ⟨on, least⟩ => ?_, ?_⟩⟩
  · have walks := initialise_none (s := taken) none
    exact ⟨congrArg State.sched walks, congrArg State.line walks⟩
  · obtain ⟨visit, -⟩ := first on least
    rw [startStation_request on] at visit
    exact ⟨congrArg State.sched visit, (congrArg State.line visit).trans (takeRequest_started _ _)⟩
  · have off : ¬enabled e := fun on => Bool.false_ne_true (out.symm.trans on.1)
    exact (ordinary e (.inl off)).trans (startStation_out out)
  · exact statuses e ((entries e).2 takes)
  · refine (stations e).trans ?_
    rw [startStation_in takes, startOutput_eq]
    rfl
  · rw [(first on least).2 e, if_pos rfl]
    exact congrArg Station.link (startStation_visited on)
  · intro other
    rw [ordinary e other, startStation_in takes]
    rfl

end Sys2Proof.Proofs
end
